-- ==== Sys2Proof/Word.lean ====
section
/-!
DEFINITION. The word types of the KM-C64 (spec 00_scope R1, R5, R6): plain bit vectors of one fixed width each.
-/
namespace Sys2Proof

/-- A byte (R5). -/
abbrev Byte := BitVec 8
/-- A 32-bit word: bundle words, literals, f32 encodings (R5, R16). -/
abbrev W32 := BitVec 32
/-- A scalar register, an address, a record word (R6, R163). -/
abbrev W64 := BitVec 64
/-- A mask register (R6). -/
abbrev W128 := BitVec 128
/-- A vector register or one row of a tile register (R1, R6). -/
abbrev W256 := BitVec 256
/-- The 128 columns of one accumulator row, column j at bits 32j+31..32j (R136). -/
abbrev RowBits := BitVec 4096
/-- A logical time (R229). -/
abbrev Time := BitVec 48

/-- Sparse data by key: strictly rising keys, no entry equal to the default of its table. -/
abbrev Sp (α : Type) := List (Nat × α)

/-- An exact value or special (R59): (-1)^neg * m * 2^e, where m = 0 is a signed zero. -/
inductive Val where
  | nan (neg : Bool)
  | inf (neg : Bool)
  | fin (neg : Bool) (m : Nat) (e : Int)
  deriving DecidableEq, Repr

end Sys2Proof
end

