-- ==== Sys2Proof/Machine/Bits.lean ====
section
/-!
DEFINITION. Bit fields, byte order (spec 00 R5) and the sparse tables in which State holds registers and memory.
-/
namespace Sys2Proof

/-! ## Fields -/

/-- Fields of given widths joined into one number, the first field lowest. -/
def pack : List (Nat × Nat) → Nat
  | [] => 0
  | (w, v) :: fs => v % 2 ^ w + 2 ^ w * pack fs

/-- A number cut into fields of given widths, the first field lowest. -/
def unpack : List Nat → Nat → List Nat
  | [], _ => []
  | w :: ws, n => n % 2 ^ w :: unpack ws (n / 2 ^ w)

/-- Cutting what was packed gives the fields back. -/
theorem unpack_pack (fs : List (Nat × Nat)) :
    unpack (fs.map Prod.fst) (pack fs) = fs.map fun f => f.2 % 2 ^ f.1 := by
  induction fs with
  | nil => rfl
  | cons f fs ih =>
    obtain ⟨w, v⟩ := f
    have hp : 0 < 2 ^ w := Nat.two_pow_pos w
    simp only [List.map_cons, unpack, pack]
    rw [Nat.add_mul_mod_self_left, Nat.mod_mod, Nat.add_mul_div_left _ _ hp,
      Nat.div_eq_of_lt (Nat.mod_lt _ hp), Nat.zero_add, ih]

/-- A packed number has as many bits as its fields together. -/
theorem pack_lt (fs : List (Nat × Nat)) : pack fs < 2 ^ (fs.map Prod.fst).sum := by
  induction fs with
  | nil => simp [pack]
  | cons f fs ih =>
    obtain ⟨w, v⟩ := f
    have hm : v % 2 ^ w < 2 ^ w := Nat.mod_lt _ (Nat.two_pow_pos w)
    simp only [List.map_cons, List.sum_cons, pack, Nat.pow_add]
    calc v % 2 ^ w + 2 ^ w * pack fs < 2 ^ w + 2 ^ w * pack fs := by omega
      _ = 2 ^ w * (pack fs + 1) := by rw [Nat.mul_add, Nat.mul_one, Nat.add_comm]
      _ ≤ 2 ^ w * 2 ^ (fs.map Prod.fst).sum := Nat.mul_le_mul_left _ ih

/-- Bits `lo + len - 1 … lo` of a number. -/
def field (n lo len : Nat) : Nat := n / 2 ^ lo % 2 ^ len

/-- A number with bits `lo + len - 1 … lo` replaced. -/
def setField (n lo len v : Nat) : Nat :=
  n % 2 ^ lo + 2 ^ lo * (v % 2 ^ len + 2 ^ len * (n / 2 ^ (lo + len)))

/-- The signed value of the low `len` bits. -/
def signed (len n : Nat) : Int :=
  let m := n % 2 ^ len
  if 2 * m < 2 ^ len then (m : Int) else (m : Int) - 2 ^ len

/-- The encoding of an integer modulo `2 ^ len`. -/
def wrapN (len : Nat) (x : Int) : Nat := (x % (2 ^ len : Int)).toNat

/-- One bits among the low `len` bits. -/
def popcount : Nat → Nat → Nat
  | 0, _ => 0
  | len + 1, n => n % 2 + popcount len (n / 2)

/-! ## Bytes, little-endian (R5) -/

/-- The low `k` bytes of a number, lowest first. -/
def leBytes : Nat → Nat → List Byte
  | 0, _ => []
  | k + 1, n => BitVec.ofNat 8 n :: leBytes k (n / 256)

/-- The number that bytes hold, lowest first. -/
def ofLe : List Byte → Nat
  | [] => 0
  | b :: bs => b.toNat + 256 * ofLe bs

@[simp] theorem leBytes_length (k n : Nat) : (leBytes k n).length = k := by
  induction k generalizing n with
  | zero => rfl
  | succ k ih => simp [leBytes, ih]

theorem ofLe_leBytes (k n : Nat) : ofLe (leBytes k n) = n % 256 ^ k := by
  induction k generalizing n with
  | zero => simp [leBytes, ofLe, Nat.mod_one]
  | succ k ih =>
    simp only [leBytes, ofLe, ih, BitVec.toNat_ofNat]
    rw [show 256 ^ (k + 1) = 256 * 256 ^ k by rw [Nat.pow_succ, Nat.mul_comm], Nat.mod_mul]

/-- The elements of width `w` of a number of `n` elements, lowest first (R99). -/
def elems (w : Nat) : Nat → Nat → List Nat
  | 0, _ => []
  | n + 1, x => x % 2 ^ w :: elems w n (x / 2 ^ w)

/-- Elements of width `w` joined, the first lowest (R99). -/
def joinE (w : Nat) : List Nat → Nat
  | [] => 0
  | x :: xs => x % 2 ^ w + 2 ^ w * joinE w xs

@[simp] theorem elems_length (w n x : Nat) : (elems w n x).length = n := by
  induction n generalizing x with
  | zero => rfl
  | succ n ih => simp [elems, ih]

theorem elems_joinE (w : Nat) (xs : List Nat) : elems w xs.length (joinE w xs) = xs.map (· % 2 ^ w) := by
  induction xs with
  | nil => rfl
  | cons x xs ih =>
    have hp : 0 < 2 ^ w := Nat.two_pow_pos w
    simp only [List.length_cons, elems, joinE, List.map_cons]
    rw [Nat.add_mul_mod_self_left, Nat.mod_mod, Nat.add_mul_div_left _ _ hp,
      Nat.div_eq_of_lt (Nat.mod_lt _ hp), Nat.zero_add, ih]

/-! ## Sparse tables: keys strictly rising -/

/-- The entry of a key. -/
def spFind {α : Type} : Sp α → Nat → Option α
  | [], _ => none
  | (k, v) :: t, i => if i = k then some v else spFind t i

/-- The value of a key in a table whose unlisted keys hold `d`. -/
def spGet {α : Type} (d : α) (t : Sp α) (i : Nat) : α := (spFind t i).getD d

/-- The table without a key. -/
def spErase {α : Type} : Sp α → Nat → Sp α
  | [], _ => []
  | (k, v) :: t, i => if i = k then spErase t i else (k, v) :: spErase t i

/-- The table with a key's entry set. -/
def spPut {α : Type} : Sp α → Nat → α → Sp α
  | [], i, x => [(i, x)]
  | (k, v) :: t, i, x =>
    if i = k then (k, x) :: t else if i < k then (i, x) :: (k, v) :: t else (k, v) :: spPut t i x

/-- The table with a key's value set; a key that holds the default is not listed. -/
def spSet {α : Type} [DecidableEq α] (d : α) (t : Sp α) (i : Nat) (x : α) : Sp α :=
  if x = d then spErase t i else spPut t i x

/-- Keys strictly rising, none below `lo`. -/
def spSorted {α : Type} : Nat → Sp α → Bool
  | _, [] => true
  | lo, (k, _) :: t => decide (lo ≤ k) && spSorted (k + 1) t

/-- A list without the entries equal to one value, used for sets of addresses. -/
def setAdd (l : List Nat) (n : Nat) : List Nat :=
  match l with
  | [] => [n]
  | k :: t => if n = k then k :: t else if n < k then n :: k :: t else k :: setAdd t n

/-- The elements of a list at which a test holds, with their positions. -/
def findFirst? {α : Type} (p : α → Bool) : List α → Option α
  | [] => none
  | x :: xs => if p x then some x else findFirst? p xs

/-- An option's value satisfies a test. -/
def optAll {α : Type} (o : Option α) (p : α → Bool) : Bool :=
  match o with
  | none => true
  | some x => p x

end Sys2Proof
end

