-- ==== Sys2Proof/Syntax.lean ====
section
/-!
DEFINITION. The instructions and steps of the KM-C64: one constructor of Instr for every row of spec/opcode_table.json
(the C, M and W slot encodings of spec 02, 08, 09 and 10, the control-word operations of spec 04 to 07, and the steps
of the pipelines, engines, scheduler, host, fabric and management of spec 95).
-/
namespace Sys2Proof

/-- The seven slots of a bundle, in the order of R10, and the bundle as a whole (R337). -/
inductive Slot where
  | c | s | v0 | v1 | v2 | m | w | whole
  deriving DecidableEq, Repr

/-- The SLOT code of `sys.cause` (R336). -/
def Slot.code : Slot → Nat
  | .c => 0 | .s => 1 | .v0 => 2 | .v1 => 3 | .v2 => 4 | .m => 5 | .w => 6 | .whole => 7

/-- The immediate of format CI (R32): L and imm13, which names a literal word when L = 1. -/
structure CImm where
  l : BitVec 1
  imm : BitVec 13
  deriving DecidableEq, Repr

/-- A source field of a control word (R62, R65): kind, number, empty policy, modifiers. -/
structure Src where
  kind : BitVec 2
  num : BitVec 6
  pol : BitVec 1
  neg : BitVec 1
  abs : BitVec 1
  deriving DecidableEq, Repr

/-- A control word without its opcode, which the constructor of Instr stands for (R62). -/
structure Hcw where
  ty : BitVec 5
  width : BitVec 2
  base : BitVec 2
  rm : BitVec 3
  sat : BitVec 1
  mask : BitVec 3
  z : BitVec 1
  dk : BitVec 2
  dn : BitVec 6
  a : Src
  b : Src
  c : Src
  ty2 : BitVec 5
  rep : BitVec 8
  stride : BitVec 4
  aux : BitVec 16
  deriving DecidableEq, Repr

/-- An S or V slot (R60) with the control word its index names. -/
structure SlotOp where
  slot : Slot
  idx : BitVec 9
  bank : BitVec 4
  ovr : BitVec 3
  h : Hcw
  deriving DecidableEq, Repr

/-- What a PCIe or CXL peer answers to a device-initiated write of a copy (R375, R380). -/
inductive PeerReply where
  | done
  | refused
  deriving DecidableEq, Repr

/-- A routine as its canonical image gives it (R315): the first 32 bytes of its descriptor, its listing with renumbered indices, and
the control words in that order. -/
structure Routine where
  head : List W32
  words : List W32
  hcws : List W256
  deriving DecidableEq, Repr

/-- A substitution-table entry (R319): V, DIGEST, GRADE and PROG, with the routine that its native stands for and whether, as the image's
maker states, the routine's footprint is a function of the registers at entry (R326). -/
structure SubstEntry where
  valid : Bool
  digest : BitVec 128
  grade : BitVec 2
  prog : BitVec 32
  routine : Routine
  fixed : Bool
  deriving DecidableEq, Repr

/-- One copy of the configuration record in package flash (R388): whether it verifies, and what it names. -/
structure ConfigCopy where
  verifies : Bool
  version : BitVec 32
  modNo : BitVec 8
  dies : BitVec 64
  hbm : BitVec 32
  clocks : List (BitVec 16)
  /-- for each other module, the links that reach it -/
  links : List (BitVec 8 × BitVec 48)
  deriving DecidableEq, Repr

/-- An MCTP message to the Mantle (R387). -/
inductive MantleMsg where
  | readReg (off : BitVec 32)
  | writeReg (off : BitVec 32) (v : BitVec 64)
  | readMem (pa : BitVec 57) (len : BitVec 13)
  | writeMem (pa : BitVec 57) (bytes : List Byte)
  /-- eight bytes of a die's substitution table, or behind its 8 KiB of its counters (R319; log 41) -/
  | readTable (die : BitVec 6) (off : BitVec 14)
  deriving DecidableEq, Repr

/-- Where an error is found in stored state (R368, R369). -/
inductive EccPlace where
  | sReg (n : BitVec 6)
  | vReg (n : BitVec 6)
  | kReg (n : BitVec 3)
  | tile (n : BitVec 3)
  | accRow (n : BitVec 8)
  | activeRow (n : BitVec 7)
  | shadowRow (n : BitVec 7)
  | hcwEntry (n : BitVec 9)
  | scratchUnit (n : BitVec 18)
  | l1Sector (pa : BitVec 57)
  | memSector (pa : BitVec 57)
  deriving DecidableEq, Repr

/-- What a host access names: BAR0 or BAR2 of the port's function, memory over CXL.mem (R377, R378), or the read-back of the substitution
tables and their counters, die n from offset 65536 n on (R319; DESIGN CHOICE, log 100: the spec says no place where the host finds them). -/
inductive HostSpace where
  | bar0 | bar2 | cxl | table
  deriving DecidableEq, Repr

/-- An address of a host access. -/
structure HostAddr where
  space : HostSpace
  pa : BitVec 48
  deriving DecidableEq, Repr

/-- A register offset in BAR0, behind the port through which it is named (R378). -/
structure RegAddr where
  port : BitVec 1
  off : W32
  deriving DecidableEq, Repr

/-- A substitution table as it is loaded: its entries from slot 0 on, those behind them zero, and the bytes of the program store that
comes with it (R319). -/
structure TableImage where
  entries : List SubstEntry
  store : BitVec 32
  deriving DecidableEq, Repr

/-- A write that arrives from another module: its bytes, the writer's time, whether its page is memory-side, and the Fertite format of
its window (R228, R235). -/
structure SeamWrite where
  bytes : List Byte
  t : Time
  ms : Bool
  ft : Option (BitVec 5)
  deriving DecidableEq, Repr

/-- A lane of a Seam link: of the transmit direction, or of the receive direction (R384). -/
structure SeamLane where
  lane : BitVec 5
  tx : Bool
  deriving DecidableEq, Repr

/-- What a level change finds: the next level's conditions are met (R389), and another module of the Seam domain is already in service
(R231). -/
structure LevelNews where
  ok : Bool
  domain : Bool
  deriving DecidableEq, Repr

/-- The module at a link's other end, whether it has booted since it was last reached (R386, R395), and whether it was in service before
this module reached S1 (R231). -/
structure SeamPeer where
  m : BitVec 8
  booted : Bool
  serving : Bool
  deriving DecidableEq, Repr

/-- What a Seam flit brings from another module, besides the writes that have rows of their own: nothing for a home here, an
acknowledgement of flits sent (R383), a read of up to a sector of this module's memory with the reader's lt, whether
the page is memory-side and its window's Fertite format, or an atomic operation (R233, R235). -/
inductive SeamMsg where
  | none
  | ack (num : BitVec 12)
  | read (pa : BitVec 57) (len : BitVec 9) (t : Time) (ms : Bool) (ft : Option (BitVec 5))
  | atomic (op : BitVec 4) (sz : BitVec 1) (pa : BitVec 57) (v v2 : W64) (t : Time) (ms : Bool)
  deriving DecidableEq, Repr

/-- A flit as a link receives it: the lane on which a failing check shows an error, and what it brings (R383, R384). -/
structure SeamFlit where
  lane : BitVec 5
  msg : SeamMsg
  deriving DecidableEq, Repr

/-- The instructions and steps of the part, one for every row of the operations table. -/
inductive Instr where
  /-- NOP (R10). A one-word bundle with no slots issues and takes one cycle. -/
  | nop
  /-- BR (R168). Delayed branch, taken when its condition on s_a holds, to the header address plus 4*off16. -/
  | br (cond : BitVec 4) (a : BitVec 6) (off : BitVec 16)
  /-- JMP (R169). Delayed unconditional jump within the 256 KiB-aligned region of the jmp. -/
  | jmp (off : BitVec 16)
  /-- JMPR (R169). Delayed jump to s_b plus imm, trapping with 0x06 on a misaligned target. -/
  | jmpr (b : BitVec 6) (imm : CImm)
  /-- CALL (R170). Delayed call that writes the link to s63 with latency 1. -/
  | call (off : BitVec 16)
  /-- CALLR (R316). Delayed routine call (or callr.free via the free entry) that checks the descriptor, writes the link and marks result registers empty. -/
  | callr (off : BitVec 16)
  /-- RET (R169). Delayed jump to s_b, s63 by default. -/
  | ret (b : BitVec 6)
  /-- LOOP (R171). Decrements s_a with latency 1 and branches while the new value is not zero. -/
  | loop (a : BitVec 6) (off : BitVec 16)
  /-- LD (R175). Checked 8-byte load from s_b plus imm, a long-latency producer. -/
  | ld (a b : BitVec 6) (imm : CImm)
  /-- LDX (R174). Checked indexed load of 1, 2, 4 or 8 bytes with sign or zero extension. -/
  | ldx (a b c : BitVec 6) (sz : BitVec 3) (sh : BitVec 2)
  /-- LDS (R181). Speculative load that writes a tagged zero in place of any trap. -/
  | lds (a b : BitVec 6) (imm : CImm)
  /-- CHKP (R182). Writes the poison tag of s_b to s_a. -/
  | chkp (a b : BitVec 6)
  /-- ST (R177). Posted 8-byte store of s_a to s_b plus imm. -/
  | st (a b : BitVec 6) (imm : CImm)
  /-- STX (R174). Posted indexed store of 1, 2, 4 or 8 bytes. -/
  | stx (a b c : BitVec 6) (sz : BitVec 3) (sh : BitVec 2)
  /-- PREF (R179). Hint to bring a sector into L1 or the home cache; never faults. -/
  | pref (lvl : BitVec 2) (b : BitVec 6) (imm : CImm)
  /-- IPREF (R173). Hint to fetch an instruction-cache line; never faults. -/
  | ipref (off : BitVec 16)
  /-- VLD (R183). Checked vector load of W/8 bytes from an address or a FULL buffer. -/
  | vld (a b : BitVec 6) (w : BitVec 2) (buf : BitVec 1) (off : BitVec 10)
  /-- VST (R183). Posted vector store of W/8 bytes to an address or a buffer. -/
  | vst (a b : BitVec 6) (w : BitVec 2) (buf : BitVec 1) (off : BitVec 10)
  /-- VLDH (R185). Checked load of a run of tensor elements through a handle with layout redirection. -/
  | vldh (a b c : BitVec 6) (w : BitVec 2)
  /-- VSTH (R185). Posted store of a run of tensor elements through a handle. -/
  | vsth (a b c : BitVec 6) (w : BitVec 2)
  /-- VGATH (R184). Checked gather of one element per active lane from s_b plus scaled indices. -/
  | vgath (a b c : BitVec 6) (k : BitVec 3) (w : BitVec 2) (sc : BitVec 1) (e : BitVec 2)
  /-- VSCAT (R184). Posted scatter of one element per active lane, in ascending order. -/
  | vscat (a b c : BitVec 6) (k : BitVec 3) (w : BitVec 2) (sc : BitVec 1) (e : BitVec 2)
  /-- VLDS (R181). Speculative vector load that writes tagged zeros in place of any trap. -/
  | vlds (a b : BitVec 6) (w : BitVec 2) (buf : BitVec 1) (off : BitVec 10)
  /-- VCHKP (R182). Writes the tag of the lowest tagged register of a vector group. -/
  | vchkp (a b : BitVec 6) (w : BitVec 2)
  /-- AMO_ADD (R188). Atomic wrapping add returning the old word. -/
  | amoAdd (a b c : BitVec 6) (sz : BitVec 1)
  /-- AMO_AND (R188). Atomic bitwise and returning the old word. -/
  | amoAnd (a b c : BitVec 6) (sz : BitVec 1)
  /-- AMO_OR (R188). Atomic bitwise or returning the old word. -/
  | amoOr (a b c : BitVec 6) (sz : BitVec 1)
  /-- AMO_XOR (R188). Atomic bitwise xor returning the old word. -/
  | amoXor (a b c : BitVec 6) (sz : BitVec 1)
  /-- AMO_MIN (R188). Atomic signed minimum returning the old word. -/
  | amoMin (a b c : BitVec 6) (sz : BitVec 1)
  /-- AMO_MAX (R188). Atomic signed maximum returning the old word. -/
  | amoMax (a b c : BitVec 6) (sz : BitVec 1)
  /-- AMO_MINN (R188). Atomic unsigned minimum returning the old word. -/
  | amoMinn (a b c : BitVec 6) (sz : BitVec 1)
  /-- AMO_MAXN (R188). Atomic unsigned maximum returning the old word. -/
  | amoMaxn (a b c : BitVec 6) (sz : BitVec 1)
  /-- AMO_SWAP (R188). Atomic swap returning the old word. -/
  | amoSwap (a b c : BitVec 6) (sz : BitVec 1)
  /-- AMO_CAS (R188). Atomic compare-and-swap against the even pair, returning the old word. -/
  | amoCas (a b c : BitVec 6) (sz : BitVec 1)
  /-- AMO_INCW (R188). Atomic bounded increment that wraps to zero at the bound. -/
  | amoIncw (a b c : BitVec 6) (sz : BitVec 1)
  /-- AMO_FADDB (R188). Atomic bounded add, returning the old word with bit 63 set when the bound was hit. -/
  | amoFaddb (a b c : BitVec 6) (sz : BitVec 1)
  /-- AMO_FADD (R188). Atomic f32 add rounded by RNE, returning the old word. -/
  | amoFadd (a b c : BitVec 6) (sz : BitVec 1)
  /-- RED_ADD (R188). Posted atomic wrapping add. -/
  | redAdd (b c : BitVec 6) (sz : BitVec 1)
  /-- RED_AND (R188). Posted atomic bitwise and. -/
  | redAnd (b c : BitVec 6) (sz : BitVec 1)
  /-- RED_OR (R188). Posted atomic bitwise or. -/
  | redOr (b c : BitVec 6) (sz : BitVec 1)
  /-- RED_XOR (R188). Posted atomic bitwise xor. -/
  | redXor (b c : BitVec 6) (sz : BitVec 1)
  /-- RED_MIN (R188). Posted atomic signed minimum. -/
  | redMin (b c : BitVec 6) (sz : BitVec 1)
  /-- RED_MAX (R188). Posted atomic signed maximum. -/
  | redMax (b c : BitVec 6) (sz : BitVec 1)
  /-- RED_MINN (R188). Posted atomic unsigned minimum. -/
  | redMinn (b c : BitVec 6) (sz : BitVec 1)
  /-- RED_MAXN (R188). Posted atomic unsigned maximum. -/
  | redMaxn (b c : BitVec 6) (sz : BitVec 1)
  /-- RED_INCW (R188). Posted atomic bounded increment. -/
  | redIncw (b c : BitVec 6) (sz : BitVec 1)
  /-- RED_FADDB (R188). Posted atomic bounded add. -/
  | redFaddb (b c : BitVec 6) (sz : BitVec 1)
  /-- RED_FADD (R188). Posted atomic f32 add. -/
  | redFadd (b c : BitVec 6) (sz : BitVec 1)
  /-- AMOV (R190). Posted single-copy-atomic aligned write executed where atomics are. -/
  | amov (b c : BitVec 6) (sz : BitVec 1)
  /-- DEPDEC (R191). Posted decrement of a dependency or plain counter at its memory-side atomic unit. -/
  | depdec (b : BitVec 6) (imm : CImm)
  /-- COPY (R197). Fetches a region of a handle into a plain buffer or the tail slot of a linked ring and returns a promise. -/
  | copy (a b c : BitVec 6) (h : BitVec 8)
  /-- COPYX (R199). Copies LEN bytes between addresses with element conversion and an optional completion record. -/
  | copyx (a b c : BitVec 6)
  /-- COPYO (R198). Writes a FULL plain buffer back into a handle, the buffer draining until every write is performed. -/
  | copyo (a b c : BitVec 6) (h : BitVec 8)
  /-- BREL (R202). Sets a FULL plain buffer to FREE. -/
  | brel (a : BitVec 6)
  /-- BSET (R196). Writes a FREE buffer-table entry from two registers after checking its fields. -/
  | bset (a b c : BitVec 6)
  /-- STAGE (R203). Adds to sys.stage, releasing copy-schedule entries whose stage is reached. -/
  | stage (b : BitVec 6) (imm : CImm)
  /-- EXPECT (R205). Adds a byte count to a barrier's PEND once the barrier's core accepts it. -/
  | expect (a b m : BitVec 6) (g : BitVec 1)
  /-- ARRIVE (R205). Releases earlier accesses and increments a barrier's ARR. -/
  | arrive (a m : BitVec 6) (g : BitVec 1)
  /-- ARRIVE_INIT (R205). Sets a barrier's EXP and clears ARR. -/
  | arriveInit (a b m : BitVec 6) (g : BitVec 1)
  /-- JOIN (R311). Adds the task to a group, counted from the next generation or at once in an empty group. -/
  | join (a : BitVec 6)
  /-- LEAVE (R311). Removes the task from a group, possibly completing a generation. -/
  | leave (a : BitVec 6)
  /-- GBAR (R311). Releases earlier accesses and arrives at the group's barrier generation. -/
  | gbar (a : BitVec 6)
  /-- YSEND (R207). Drives a 1024-bit quad onto the die's Yoke in its slot cycle. -/
  | ysend (a : BitVec 6) (slot : BitVec 4)
  /-- YRECV (R208). Latches the Yoke beat driven in its issue cycle for a scratchpad write two cycles later. -/
  | yrecv (b : BitVec 6) (slot : BitVec 4)
  /-- YOKE_LATCH_WRITE (R261). A latched Yoke beat is written to the receiver's scratchpad on path B two cycles after the latch. -/
  | yokeLatchWrite
  /-- FENCE (R209). Waits until earlier posted core-path operations are performed at the scope, optionally delivering a deferred fault. -/
  | fence (scope : BitVec 3) (t : BitVec 1)
  /-- FENCEP (R272). Waits until operations on paths P are performed at the scope, raises lt, and orders later operations on paths Q. -/
  | fencep (scope : BitVec 3) (p q : BitVec 7)
  /-- PRMX (R201). Extends the promise of an outstanding copy and returns the new promise. -/
  | prmx (a b : BitVec 6) (imm : CImm)
  /-- SPAWN (R192). Posts the submission of a task record. -/
  | spawn (b : BitVec 6)
  /-- END (R13). Ends the task's bundle stream, retiring it once slot effects and posted translations complete. -/
  | endTask
  /-- PHASE (R195). Writes the task's phase number. -/
  | phase (a : BitVec 6)
  /-- CTOPEN (R210). Opens a containment region recording a handler, 16 registers and ring pointers. -/
  | ctopen (a : BitVec 6) (off : BitVec 16)
  /-- CTCLOSE (R210). Pops the innermost containment region. -/
  | ctclose
  /-- TRAP (R212). Raises cause 0x16 at its own bundle with value s_b plus imm. -/
  | trap (b : BitVec 6) (imm : CImm)
  /-- ERET (R339). Returns from a handler to sys.epc, applying any latched pending transfer. -/
  | eret
  /-- HSET (R213). Writes a handle from a checked 64-byte descriptor. -/
  | hset (b c : BitVec 6)
  /-- RLAY (R242). Starts or resumes a Topiary conversion of a handle to a new tag and base. -/
  | rlay (b c : BitVec 6) (tag : BitVec 3)
  /-- TENC (R283). Queues a trellis encode of one Fertite block from 256 f32 targets. -/
  | tenc (a b c : BitVec 6) (fmt : BitVec 3) (v16l auto : BitVec 1)
  /-- RSET (R216). Writes a ring register after checking its combination and fields. -/
  | rset (g : BitVec 3) (b : BitVec 6)
  /-- MFS (R217). Reads a system register into s_a. -/
  | mfs (a : BitVec 6) (n : BitVec 13)
  /-- MTS (R217). Writes a system register with effect in the next cycle. -/
  | mts (a : BitVec 6) (n : BitVec 13)
  /-- HSNAP (R218). Ends a hash interval and returns the snapshot's sequence number. -/
  | hsnap (a : BitVec 6)
  /-- MZERO (R151). Initialises accumulator row SA for a cell op and tag, landing 12 cycles later. -/
  | mzero (op : BitVec 2) (hold i32 : BitVec 1)
  /-- MPUSH (R152). Decodes one weight-ring row into shadow-plane row RP. -/
  | mpush (g : BitVec 3)
  /-- MFLIP (R153). Resets RP and swaps the shadow and active planes two cycles later. -/
  | mflip
  /-- MSTRM (R154). Streams one operand row through the active plane into accumulator row SA. -/
  | mstrm (g : BitVec 3) (op : BitVec 2) (hold : BitVec 1)
  /-- MDRAIN (R156). Converts part of accumulator row DA into a vector quad four cycles later. -/
  | mdrain (adv scl : BitVec 1) (fmt : BitVec 2) (clr : BitVec 1) (quad : BitVec 4) (part : BitVec 2)
  /-- MRET (R157). Pops the head tile of a ring. -/
  | mret (g : BitVec 3)
  /-- MSKIP (R157). Advances a ring's RPOS by n rows without reading. -/
  | mskip (g : BitVec 3) (n : BitVec 7)
  /-- MPAD (R158). Sets the K limit KV. -/
  | mpad (kv : BitVec 7)
  /-- MSCL (R159). Loads the column scale register CS from an f32 stream-ring row. -/
  | mscl (g : BitVec 3)
  /-- WAIT_FULL (R35). Holds the bundle until the buffer is FULL. -/
  | waitFull (b : BitVec 6)
  /-- WAIT_FREE (R35). Holds the bundle until the buffer is FREE. -/
  | waitFree (b : BitVec 6)
  /-- WAIT_CYC (R35). Holds the bundle until cyc reaches the value in a scalar register. -/
  | waitCyc (a : BitVec 6)
  /-- WAIT_CYC_LITERAL (R35). Holds the bundle until the low half of cyc reaches a literal target. -/
  | waitCycLiteral (l : BitVec 2)
  /-- WAIT_REG (R35). Holds the bundle until a register is full. -/
  | waitReg (k : BitVec 2) (n : BitVec 6)
  /-- WAIT_BAR (R35). Holds the bundle until a phase of the own barrier completes. -/
  | waitBar (p : BitVec 1) (b : BitVec 6)
  /-- WAIT_BAR_GANG (R35). Holds the bundle until a phase of a gang member's barrier completes. -/
  | waitBarGang (p : BitVec 1) (l : BitVec 2)
  /-- WAIT_RING (R35). Holds the bundle until a ring holds at least n tiles. -/
  | waitRing (g : BitVec 3) (n : BitVec 9)
  /-- WAIT_SPACE (R35). Holds the bundle until a ring has space for one tile. -/
  | waitSpace (g : BitVec 3)
  /-- WAIT_GROUP (R35). Holds the bundle until the group barrier generation is complete. -/
  | waitGroup (g : BitVec 6)
  /-- WAIT_TRELLIS (R35). Holds the bundle until the trellis engine is idle. -/
  | waitTrellis
  /-- WAIT_YSLOT (R35). Holds the bundle until cyc mod 16 equals a Yoke slot. -/
  | waitYslot (slot : BitVec 4)
  /-- MOV (R84). Copies an operand into a scalar register by type. -/
  | mov (q : SlotOp)
  /-- MOVL (R85). Builds a 64-bit constant from one or two pool words. -/
  | movl (q : SlotOp)
  /-- ADD (R86). Scalar integer add with wrap or saturation. -/
  | add (q : SlotOp)
  /-- SUB (R86). Scalar integer subtract. -/
  | sub (q : SlotOp)
  /-- MUL (R86). Scalar integer multiply. -/
  | mul (q : SlotOp)
  /-- MULH (R87). High half of the signed product. -/
  | mulh (q : SlotOp)
  /-- MULHN (R87). High half of the unsigned product. -/
  | mulhn (q : SlotOp)
  /-- DIV (R88). Signed divide, a long-latency producer that never traps. -/
  | div (q : SlotOp)
  /-- DIVN (R88). Unsigned divide. -/
  | divn (q : SlotOp)
  /-- REM (R88). Signed remainder. -/
  | rem (q : SlotOp)
  /-- REMN (R88). Unsigned remainder. -/
  | remn (q : SlotOp)
  /-- AND (R90). Scalar bitwise and. -/
  | and (q : SlotOp)
  /-- OR (R90). Scalar bitwise or. -/
  | or (q : SlotOp)
  /-- XOR (R90). Scalar bitwise xor. -/
  | xor (q : SlotOp)
  /-- ANDN (R90). Scalar and with complement. -/
  | andn (q : SlotOp)
  /-- SHL (R90). Scalar left shift, optionally saturating. -/
  | shl (q : SlotOp)
  /-- SHR (R90). Scalar logical right shift. -/
  | shr (q : SlotOp)
  /-- SAR (R90). Scalar arithmetic right shift. -/
  | sar (q : SlotOp)
  /-- ROL (R90). Scalar rotate left. -/
  | rol (q : SlotOp)
  /-- MIN (R92). Scalar signed minimum. -/
  | min (q : SlotOp)
  /-- MAX (R92). Scalar signed maximum. -/
  | max (q : SlotOp)
  /-- MINN (R92). Scalar unsigned minimum. -/
  | minn (q : SlotOp)
  /-- MAXN (R92). Scalar unsigned maximum. -/
  | maxn (q : SlotOp)
  /-- ABS (R86). Scalar absolute value. -/
  | abs (q : SlotOp)
  /-- NEG (R86). Scalar negation. -/
  | neg (q : SlotOp)
  /-- CMPEQ (R92). Writes 1 when operands are equal. -/
  | cmpeq (q : SlotOp)
  /-- CMPNE (R92). Writes 1 when operands differ. -/
  | cmpne (q : SlotOp)
  /-- CMPLT (R92). Signed less-than comparison. -/
  | cmplt (q : SlotOp)
  /-- CMPLE (R92). Signed less-or-equal comparison. -/
  | cmple (q : SlotOp)
  /-- CMPLTN (R92). Unsigned less-than comparison. -/
  | cmpltn (q : SlotOp)
  /-- CMPLEN (R92). Unsigned less-or-equal comparison. -/
  | cmplen (q : SlotOp)
  /-- SEL (R92). Selects A or B by a control operand. -/
  | sel (q : SlotOp)
  /-- CLZ (R91). Counts leading zero bits. -/
  | clz (q : SlotOp)
  /-- CTZ (R91). Counts trailing zero bits. -/
  | ctz (q : SlotOp)
  /-- POPC (R91). Counts one bits. -/
  | popc (q : SlotOp)
  /-- BEXT (R91). Extracts a bit field. -/
  | bext (q : SlotOp)
  /-- BINS (R91). Inserts a bit field. -/
  | bins (q : SlotOp)
  /-- MADD (R86). Scalar integer multiply-add with one narrowing. -/
  | madd (q : SlotOp)
  /-- FADD (R93). Scalar float add. -/
  | fadd (q : SlotOp)
  /-- FSUB (R93). Scalar float subtract. -/
  | fsub (q : SlotOp)
  /-- FMUL (R93). Scalar float multiply. -/
  | fmul (q : SlotOp)
  /-- FMA (R93). Scalar fused multiply-add. -/
  | fma (q : SlotOp)
  /-- FMIN (R93). Scalar float minimum. -/
  | fmin (q : SlotOp)
  /-- FMAX (R93). Scalar float maximum. -/
  | fmax (q : SlotOp)
  /-- FCMP (R94). Scalar float comparison by predicate. -/
  | fcmp (q : SlotOp)
  /-- FCVT (R95). Scalar conversion with substitutes and flags into sys.cvs. -/
  | fcvt (q : SlotOp)
  /-- RDCYC (R96). Reads the cycle counter. -/
  | rdcyc (q : SlotOp)
  /-- RDTC (R96). Reads a task coordinate or the global core id. -/
  | rdtc (q : SlotOp)
  /-- RQPOP (R96). Pops 64 bits of the random queue. -/
  | rqpop (q : SlotOp)
  /-- VGET (R97). Reads one element of a vector register into a scalar. -/
  | vget (q : SlotOp)
  /-- VADD (R103). Element-wise add. -/
  | vadd (q : SlotOp)
  /-- VSUB (R103). Element-wise subtract. -/
  | vsub (q : SlotOp)
  /-- VMUL (R103). Element-wise multiply. -/
  | vmul (q : SlotOp)
  /-- VMULH (R103). Element-wise high half of the product. -/
  | vmulh (q : SlotOp)
  /-- VFMA (R103). Element-wise fused multiply-add. -/
  | vfma (q : SlotOp)
  /-- VFMS (R103). Element-wise fused multiply-subtract. -/
  | vfms (q : SlotOp)
  /-- VFNMA (R103). Element-wise negated fused multiply-add. -/
  | vfnma (q : SlotOp)
  /-- VMIN (R103). Element-wise minimum. -/
  | vmin (q : SlotOp)
  /-- VMAX (R103). Element-wise maximum. -/
  | vmax (q : SlotOp)
  /-- VABS (R103). Element-wise absolute value. -/
  | vabs (q : SlotOp)
  /-- VNEG (R103). Element-wise negation. -/
  | vneg (q : SlotOp)
  /-- VABD (R103). Element-wise absolute difference. -/
  | vabd (q : SlotOp)
  /-- VCLAMP (R103). Element-wise clamp between B and C. -/
  | vclamp (q : SlotOp)
  /-- VAND (R104). Element-wise bitwise and. -/
  | vand (q : SlotOp)
  /-- VOR (R104). Element-wise bitwise or. -/
  | vor (q : SlotOp)
  /-- VXOR (R104). Element-wise bitwise xor. -/
  | vxor (q : SlotOp)
  /-- VNOT (R104). Element-wise complement. -/
  | vnot (q : SlotOp)
  /-- VSHL (R104). Element-wise left shift. -/
  | vshl (q : SlotOp)
  /-- VSHR (R104). Element-wise logical right shift. -/
  | vshr (q : SlotOp)
  /-- VSAR (R104). Element-wise arithmetic right shift. -/
  | vsar (q : SlotOp)
  /-- VCMP (R105). Element-wise comparison into a vector or mask. -/
  | vcmp (q : SlotOp)
  /-- VSEL (R106). Element-wise selection by C. -/
  | vsel (q : SlotOp)
  /-- VCVT (R107). Element-wise conversion with substitutes and flags. -/
  | vcvt (q : SlotOp)
  /-- VRCP (R108). Correctly rounded reciprocal. -/
  | vrcp (q : SlotOp)
  /-- VRSQ (R108). Correctly rounded reciprocal square root. -/
  | vrsq (q : SlotOp)
  /-- VSQRT (R108). Correctly rounded square root. -/
  | vsqrt (q : SlotOp)
  /-- VEXP2 (R108). Correctly rounded base-2 exponential. -/
  | vexp2 (q : SlotOp)
  /-- VLOG2 (R108). Correctly rounded base-2 logarithm. -/
  | vlog2 (q : SlotOp)
  /-- VTANH (R108). Correctly rounded hyperbolic tangent. -/
  | vtanh (q : SlotOp)
  /-- VDP4 (R109). Four-element 8-bit dot product into i32 lanes. -/
  | vdp4 (q : SlotOp)
  /-- VDP2 (R110). Two-element bf16 dot product into f32 with one rounding. -/
  | vdp2 (q : SlotOp)
  /-- VQNT (R112). Block quantisation of float elements into codes and scale bytes. -/
  | vqnt (q : SlotOp)
  /-- VDQNT (R114). Dequantisation of codes and scale bytes into floats. -/
  | vdqnt (q : SlotOp)
  /-- VSMTH (R115). Computes per-element smoothing factors. -/
  | vsmth (q : SlotOp)
  /-- VIMAD (R103). Element-wise integer multiply-add. -/
  | vimad (q : SlotOp)
  /-- VSAD (R109). Four-element sum of absolute differences into i32 lanes. -/
  | vsad (q : SlotOp)
  /-- VMOV (R120). Copies element encodings. -/
  | vmov (q : SlotOp)
  /-- VBCAST (R121). Broadcasts one element or a scalar to all lanes. -/
  | vbcast (q : SlotOp)
  /-- VIOTA (R120). Writes A plus e times B in each element. -/
  | viota (q : SlotOp)
  /-- VPERM (R121). Permutes elements by an index vector. -/
  | vperm (q : SlotOp)
  /-- VROTL (R121). Rotates elements left. -/
  | vrotl (q : SlotOp)
  /-- VSLIDE (R121). Slides elements up or down. -/
  | vslide (q : SlotOp)
  /-- VXLANE (R121). Exchanges elements by xor of the index. -/
  | vxlane (q : SlotOp)
  /-- VZIP (R122). Interleaves two sources. -/
  | vzip (q : SlotOp)
  /-- VUNZIP (R122). De-interleaves two sources. -/
  | vunzip (q : SlotOp)
  /-- VRED (R124). Tree reduction of active elements. -/
  | vred (q : SlotOp)
  /-- VSCAN (R125). Prefix combination of active elements. -/
  | vscan (q : SlotOp)
  /-- VSSCAN (R125). Segmented prefix combination. -/
  | vsscan (q : SlotOp)
  /-- VCMPRS (R123). Compresses active elements to the low end. -/
  | vcmprs (q : SlotOp)
  /-- VEXPND (R123). Expands packed elements into active positions. -/
  | vexpnd (q : SlotOp)
  /-- VPOPC (R126). Per-element population count. -/
  | vpopc (q : SlotOp)
  /-- VPFX (R126). Exclusive bitmap offsets from popcounts. -/
  | vpfx (q : SlotOp)
  /-- VINTER (R127). Intersects one bitmap word and writes the ranks into a pair. -/
  | vinter (q : SlotOp)
  /-- VRND (R130). Shapes random bits into uniform values. -/
  | vrnd (q : SlotOp)
  /-- VTROW (R131). Writes a tile-register row with conversion. -/
  | vtrow (q : SlotOp)
  /-- VTCOL (R132). Reads a tile-register column with conversion. -/
  | vtcol (q : SlotOp)
  /-- KAND (R134). Mask and. -/
  | kand (q : SlotOp)
  /-- KOR (R134). Mask or. -/
  | kor (q : SlotOp)
  /-- KXOR (R134). Mask xor. -/
  | kxor (q : SlotOp)
  /-- KNOT (R134). Mask complement. -/
  | knot (q : SlotOp)
  /-- KMOV (R134). Moves a mask from a k, s or v source or half a mask to a scalar. -/
  | kmov (q : SlotOp)
  /-- RESULT_LANDING (R23). A fixed-latency result lands in its register when its latency has run. -/
  | resultLanding
  /-- ACCUMULATOR_ROW_LANDING (R155). A beat's or mzero's result is folded into its accumulator row 12 cycles after issue. -/
  | accumulatorRowLanding
  /-- PLANE_SWAP (R153). The active and shadow planes swap at the start of the second cycle after mflip. -/
  | planeSwap
  /-- LOAD_RETURN (R175). Returned load bytes fill the destination, or mark it poisoned. -/
  | loadReturn
  /-- DIVIDE_COMPLETE (R89). A divide station finishes and fills its destination in issue order. -/
  | divideComplete
  /-- AMO_RETURN (R189). An atomic's old value returns and fills its destination. -/
  | amoReturn (a b c : BitVec 6) (sz : BitVec 1)
  /-- RANDOM_QUEUE_FILL (R129). The generator refills the random queue and pending pops fill their destinations. -/
  | randomQueueFill
  /-- POSTED_OPERATION_PERFORM (R177). A posted operation is translated and checked after issue and performed at its point. -/
  | postedOperationPerform
  /-- PAGE_WALK (R234). A shared walker translates a TLB miss through the page tables. -/
  | pageWalk (va : W64)
  /-- COPY_REQUEST_START (R248). A queued copy request starts once fewer than four are active and all ahead have started. -/
  | copyRequestStart
  /-- COPY_COMPLETION (R248). A copy request completes, updating its buffer, ring count, barrier and record. -/
  | copyCompletion (tag : BitVec 16) (peer : PeerReply)
  /-- PROMISE_MISS (R253). A checked copy not complete at its promise delivers cause 0x0C at the next bundle. -/
  | promiseMiss (tag : BitVec 16)
  /-- SCHEDULE_ENTRY_RELEASE (R256). A copy-schedule entry enters the queue once its stage and buffer state allow. -/
  | scheduleEntryRelease
  /-- V16L_TABLE_LOAD (R146). The weight path loads a Fertite ring's V16L table after rset. -/
  | v16lTableLoad (g : BitVec 3)
  /-- TRELLIS_REQUEST_START (R284). A queued trellis request starts running and reads its V16L table. -/
  | trellisRequestStart
  /-- TRELLIS_COMPLETE (R286). The trellis engine writes the block and scale byte and fills the error register. -/
  | trellisComplete
  /-- TOPIARY_TILE_CONVERT (R244). The Topiary engine locks, copies and commits one conversion tile. -/
  | topiaryTileConvert (die : BitVec 6)
  /-- TOPIARY_DROP (R244). After the last tile the handle takes its new base and tag. -/
  | topiaryDrop (die : BitVec 6)
  /-- SUBSTITUTION_LOOKUP (R318). In the second delay bundle of callr the digest is looked up and a native or the listing chosen. -/
  | substitutionLookup
  /-- NATIVE_RETURN (R320). A native reaches its return point, releases held writes and fills the result registers. -/
  | nativeReturn
  /-- CONTAINMENT_UNWIND (R211). After in-flight long-latency results land, the innermost region is restored and its handler runs. -/
  | containmentUnwind
  /-- TASK_RETIREMENT (R194). The task retires, leaving groups and performing its SUCC decrements after its writes are performed. -/
  | taskRetirement
  /-- TASK_SUBMIT (R302). A record is submitted at its memory-side unit, checked and set WAITING, READY or HELD. -/
  | taskSubmit (rec : W64) (ctx : BitVec 12) (t : Time)
  /-- DEPENDENCY_DECREMENT (R302). A decrement at the memory-side unit counts down WAIT and may enqueue the record. -/
  | dependencyDecrement (pa : W64) (die : BitVec 6) (t : Time)
  /-- LAUNCH_ENTRY_CONSUME (R304). The device takes the next valid launch-queue entry, submits its record and writes status. -/
  | launchEntryConsume (ctx : BitVec 12) (q : BitVec 2)
  /-- READY_AGEING (R306). An entry that waited A cycles moves up one ready-queue level. -/
  | readyAgeing (die : BitVec 6)
  /-- TASK_PLACEMENT (R308). A die places a ready task on a core, loads its state and acquires. -/
  | taskPlacement (die : BitVec 6)
  /-- GANG_RESERVATION (R309). A gang takes the reservation token and reserves cores until all members can be placed. -/
  | gangReservation (die : BitVec 6)
  /-- PHASE_COMMIT (R312). A finished phase commits, ends the hash interval and releases the next phase's tasks. -/
  | phaseCommit (ctx : BitVec 12)
  /-- PRE_EMPT_REQUEST (R329). A PREQ write freezes the task, catches in-flight effects and settles long-latency work. -/
  | preEmptRequest (core : BitVec 10)
  /-- CONTEXT_SAVE (R329). Once settling is done the context image is written and the task becomes PARKED. -/
  | contextSave
  /-- TASK_RESUME (R334). A PARKED task is placed again from its image and its stream resumes. -/
  | taskResume (die : BitVec 6)
  /-- PLACKET_REPLAY (R331). A caught effect lands at its original offset after resume. -/
  | placketReplay
  /-- TLBI_GRANULE (R344). TLBIC GO with scope 00 invalidates entries covering one granule of a context. -/
  | tlbiGranule (ctx : BitVec 12) (gran : BitVec 41)
  /-- TLBI_CONTEXT (R344). TLBIC GO with scope 01 invalidates all entries of a context. -/
  | tlbiContext (ctx : BitVec 12)
  /-- TLBI_ALL (R344). TLBIC GO with scope 10 invalidates entries of all contexts. -/
  | tlbiAll
  /-- TLBI_COMPLETE (R344). An invalidation completes once all TLBs dropped entries and affected accesses are performed; DONE is set. -/
  | tlbiComplete
  /-- CONTEXT_CREATE (R298). CTXCMD create checks a free descriptor, clears its tables and makes it live. -/
  | contextCreate (ctx : BitVec 12)
  /-- CONTEXT_DESTROY (R298). CTXCMD destroy sets the context closing and fails or pre-empts its tasks. -/
  | contextDestroy (ctx : BitVec 12)
  /-- CONTEXT_DESTROY_COMPLETE (R298). Once no live task or conversion remains the context becomes free. -/
  | contextDestroyComplete
  /-- LAUNCH_DOORBELL (R381). A write to LQDB resumes consumption of a launch queue. -/
  | launchDoorbell (ctx : BitVec 12) (v : W64)
  /-- REGISTER_WRITE (R378). A write to a supervisor register without behaviour of its own. -/
  | registerWrite (a : RegAddr) (v : W64)
  /-- HOST_MEMORY_WRITE (R268). A host or CXL.mem write to module memory is performed at the home with its time. -/
  | hostMemoryWrite (port : BitVec 1) (a : HostAddr) (bytes : List Byte) (bad : Bool)
  /-- HOST_MEMORY_READ (R268). A host or CXL.mem read of module memory is performed at the home. -/
  | hostMemoryRead (port : BitVec 1) (a : HostAddr) (len : BitVec 13) (rid : BitVec 16)
  /-- LT_ADVANCE (R229). Each core's logical time rises by 1 every 256 cycles. -/
  | ltAdvance
  /-- DOMAIN_FLOOR_EXCHANGE (R230). Homes exchange the domain floor and raise lagging stamps. -/
  | domainFloorExchange (peers : List Time)
  /-- DOMAIN_FLOOR_JOIN (R231). A joining module sets every lt and MT to the floor received from a peer. -/
  | domainFloorJoin (f : Time)
  /-- POWER_ON (R231). At power-on logical times are zero and the home cache is empty. -/
  | powerOn
  /-- CONFIG_RECORD_LOAD (R388). The Mantle verifies and applies the signed configuration record. -/
  | configRecordLoad (copyA copyB : ConfigCopy)
  /-- SERVICE_LEVEL_CHANGE (R389). The module climbs or drops service levels toward TGT. -/
  | serviceLevelChange (news : LevelNews)
  /-- SUBST_TABLE_LOAD (R319). The Mantle installs a signed substitution table, taking effect when no native runs. -/
  | substTableLoad (die : BitVec 6) (image : TableImage) (signed : Bool)
  /-- MANTLE_MESSAGE (R387). An MCTP message to the Mantle reads or writes supervisor space or memory. -/
  | mantleMessage (m : MantleMsg)
  /-- ATTESTATION_REQUEST (R390). An SPDM request is answered with signed measurements over the nonce. -/
  | attestationRequest (nonce : W256)
  /-- LATE_EDGE_REPLAY (R365). A shadow-latch disagreement replays a cycle at half clock, holding the core two cycles. -/
  | lateEdgeReplay (second : Bool)
  /-- ECC_UNCORRECTABLE (R369). An uncorrectable error in core state marks the group, row or entry poisoned. -/
  | eccUncorrectable (place : EccPlace)
  /-- SCRUB (R368). Home slices scrub every line of memory once every 24 hours. -/
  | scrub (slice : BitVec 5)
  /-- DIE_LOSS (R370). A compute die leaves service and its placed tasks are re-placed or failed. -/
  | dieLoss (die : BitVec 6)
  /-- WRITE_INTENT (R373). A home grants and logs a remote writer's multi-sector write intent. -/
  | writeIntent (m : BitVec 8) (sectors : List W64)
  /-- SECTOR_COMMIT (R373). A remote sector is committed whole once all its bytes arrive intact. -/
  | sectorCommit (m : BitVec 8) (sector : W64) (w : SeamWrite)
  /-- INTENT_SETTLE (R373). 1 ms after a writer module stops, unfinished intent sectors are poisoned. -/
  | intentSettle (m : BitVec 8)
  /-- FLIT_RECEIVE (R383). A Seam flit is checked by CRC, acknowledged or NAKed, and delivered in order. -/
  | flitReceive (link : BitVec 6) (num : BitVec 12) (crcOk : Bool) (flit : SeamFlit)
  /-- FLIT_REPLAY (R383). On a NAK the sender replays from the NAKed flit. -/
  | flitReplay (link : BitVec 6) (num : BitVec 12)
  /-- LINK_RETRAIN (R383). After 16 failed replays the link retrains or goes down. -/
  | linkRetrain (link : BitVec 6) (ok : Bool)
  /-- LANE_SPARE (R384). A failing lane is replaced by the spare, or a second failure retrains at x8. -/
  | laneSpare (link : BitVec 6) (lane : SeamLane)
  /-- MODULE_LOST (R385). A module with no up link for 1 ms is lost to this one. -/
  | moduleLost (m : BitVec 8)
  /-- POWER_CAP_TICK (R393). Every 10 µs the Mantle compares average power with CAP and moves hold steps. -/
  | powerCapTick (avg : BitVec 16) (order : List (BitVec 3)) (calm : Bool)
  /-- THERMAL_THRESHOLD (R393). A die group passing 105 °C is held a step higher; at 115 °C it leaves service. -/
  | thermalThreshold (group : BitVec 3) (deg115 : Bool)
  /-- TRAY_LATCH_OPEN (R395). An opening tray latch with ARM set quiesces new Seam write intents. -/
  | trayLatchOpen
  /-- REPLAY_RELEASE (R355). In replay a logged point performs the waiting operation that matches the entry at HEAD. -/
  | replayRelease (point : BitVec 11)
  /-- HASH_INTERVAL_END (R357). After the ending writes are performed, touched pages are rehashed and a snapshot appended. -/
  | hashIntervalEnd
  /-- POWER_OFF (R3). The module loses power, ending every module-span state, including memory and home-cache contents. -/
  | powerOff
  /-- SURPRISE_DOWN (R377). A host port's link goes down, after which device reads through it return poison and writes through it fail as deferred faults. -/
  | surpriseDown (port : BitVec 1)
  /-- HOST_LINK_TRAINING (R377). A host port trains its link, choosing PCIe or CXL 3.x and a width of x16, x8 or x4. -/
  | hostLinkTraining (port : BitVec 1) (cxl : Bool) (width : BitVec 5)
  /-- SEAM_LINK_UP (R386). A Seam link with a peer that has newly appeared or returned trains and comes up, setting SLSTAT UP and PEER and restoring the link to its set. -/
  | seamLinkUp (link : BitVec 6) (peer : SeamPeer) (plink : BitVec 6)
  /-- MAPPED_POINT (R322). An EXACT native reaches a Y-marked mapped point on its own and performs its held writes in the listing's issue order. -/
  | mappedPoint
  deriving DecidableEq, Repr

end Sys2Proof
end

