-- ==== Sys2Proof/Machine/HcwTable.lean ====
section
/-!
DEFINITION. The field tables of the control-word operations (spec 05 R83, 06 R102, 07 R119) and the checks of R60 to
R76 on a slot and its control word, with which registers each repetition names.
-/
namespace Sys2Proof

/-! ## Element types (R39) -/

/-- Width in bits of a type code; the packed types have no element of their own here but q4, 4 bits (R53). -/
def tyWidth : Nat → Nat
  | 0 => 8 | 1 => 8 | 2 => 16 | 3 => 16 | 4 => 32 | 5 => 32 | 6 => 64 | 7 => 64
  | 8 => 32 | 9 => 16 | 10 => 16 | 11 => 8 | 12 => 8 | 13 => 4
  | _ => 0

/-- iN and nN types are the codes below 8; the signed ones are even. -/
def tyInt (t : Nat) : Bool := decide (t < 8)
def tySigned (t : Nat) : Bool := decide (t < 8 ∧ t % 2 = 0)
def tyUnsigned (t : Nat) : Bool := decide (t < 8 ∧ t % 2 = 1)
def tyFloat (t : Nat) : Bool := decide (8 ≤ t ∧ t ≤ 12)

/-- Sets of type codes as bit masks: I, iN, nN, F of R83 (also H), F of R102, X, 64. -/
def tyI : Nat := 0xFF
def tyiN : Nat := 0x55
def tynN : Nat := 0xAA
def tyH : Nat := 0x700
def tyF : Nat := 0x1F00
def tyX : Nat := 0x1FFF
def ty64 : Nat := 0xC0
def tyN64 : Nat := 0x80
def ty8 : Nat := 0x3
def tyN8 : Nat := 0x2
def tyBf : Nat := 0x200
/-- The codes of `vqnt` and `vdqnt`: i8, e4m3, e5m2, q4. -/
def tyQ : Nat := 0x3801
/-- The types of the mask operations: the field is zero (R134). -/
def tyZero : Nat := 0x1

/-! ## Operand roles (R65, R81, R117) -/

/-- How an operation reads a source field. -/
inductive Role where
  /-- unused: all zero (R65) -/
  | none
  /-- data of the operation's file -/
  | data
  /-- a control operand, read as n64 (R81, R117) -/
  | ctl
  /-- scalar data in a vector operation (R117) -/
  | sdata
  /-- a literal; a literal or unused (R85) -/
  | lit
  | litOpt
  /-- a v register named by a scalar operation (R97) or a pair (R114): kind register only -/
  | vreg
  /-- an s register named by `kmov` (R134): kind register only -/
  | sreg
  /-- a k source (R117) -/
  | kmask
  /-- the identity operand (R117) -/
  | ident
  deriving DecidableEq, Repr

/-- A row of R83, R102 or R119. -/
structure OpSpec where
  tys : Nat
  ty2 : Option Nat
  a : Role
  b : Role
  c : Role
  /-- destination kinds admitted, as a mask of the codes of R64 -/
  dks : Nat
  aux : Nat
  sat : Bool
  rm : Bool
  mods : Bool
  /-- latency of R23 and R78-R80; 0 stands for the vector classes by type -/
  lat : Nat
  deriving DecidableEq, Repr

/-- A scalar row: destination kind s. -/
def scalarRow (tys : Nat) (a b c : Role) (sat mods : Bool) (lat : Nat) : OpSpec :=
  { tys, ty2 := .none, a, b, c, dks := 1, aux := 0, sat, rm := false, mods, lat }

/-- A vector row: destination kind v. -/
def vectorRow (tys : Nat) (a b c : Role) (aux : Nat) (sat rm mods : Bool) (lat : Nat) : OpSpec :=
  { tys, ty2 := .none, a, b, c, dks := 2, aux, sat, rm, mods, lat }

/-- The rows of R83, by opcode of R78. -/
def scalarSpec : Nat → Option OpSpec
  | 0x01 => some (scalarRow tyX .data .none .none false false 1)
  | 0x02 => some (scalarRow ty64 .lit .litOpt .none false false 1)
  | 0x03 => some (scalarRow tyI .data .data .none true true 1)
  | 0x04 => some (scalarRow tyI .data .data .none true true 1)
  | 0x05 => some (scalarRow tyI .data .data .none true true 3)
  | 0x06 => some (scalarRow tyiN .data .data .none false true 3)
  | 0x07 => some (scalarRow tynN .data .data .none false false 3)
  | 0x08 => some (scalarRow tyiN .data .data .none true true 1)
  | 0x09 => some (scalarRow tynN .data .data .none false false 1)
  | 0x0A => some (scalarRow tyiN .data .data .none false true 1)
  | 0x0B => some (scalarRow tynN .data .data .none false false 1)
  | 0x0C => some (scalarRow tyI .data .data .none false false 1)
  | 0x0D => some (scalarRow tyI .data .data .none false false 1)
  | 0x0E => some (scalarRow tyI .data .data .none false false 1)
  | 0x0F => some (scalarRow tyI .data .data .none false false 1)
  | 0x10 => some (scalarRow tyI .data .ctl .none true false 1)
  | 0x11 => some (scalarRow tyI .data .ctl .none false false 1)
  | 0x12 => some (scalarRow tyI .data .ctl .none false false 1)
  | 0x13 => some (scalarRow tyI .data .ctl .none false false 1)
  | 0x14 => some (scalarRow tyiN .data .data .none false true 1)
  | 0x15 => some (scalarRow tyiN .data .data .none false true 1)
  | 0x16 => some (scalarRow tynN .data .data .none false false 1)
  | 0x17 => some (scalarRow tynN .data .data .none false false 1)
  | 0x18 => some (scalarRow tyiN .data .none .none true false 1)
  | 0x19 => some (scalarRow tyiN .data .none .none true false 1)
  | 0x1A => some (scalarRow tyI .data .data .none false true 1)
  | 0x1B => some (scalarRow tyI .data .data .none false true 1)
  | 0x1C => some (scalarRow tyiN .data .data .none false true 1)
  | 0x1D => some (scalarRow tyiN .data .data .none false true 1)
  | 0x1E => some (scalarRow tynN .data .data .none false false 1)
  | 0x1F => some (scalarRow tynN .data .data .none false false 1)
  | 0x20 => some (scalarRow tyI .data .data .ctl false false 1)
  | 0x21 => some (scalarRow tyI .data .none .none false false 1)
  | 0x22 => some (scalarRow tyI .data .none .none false false 1)
  | 0x23 => some (scalarRow tyI .data .none .none false false 1)
  | 0x24 => some { scalarRow ty64 .data .none .none false false 1 with aux := 0xFFF }
  | 0x25 => some { scalarRow ty64 .data .data .none false false 1 with aux := 0xFFF }
  | 0x26 => some (scalarRow tyI .data .data .data true true 3)
  | 0x27 => some { scalarRow tyH .data .data .none false true 4 with rm := true }
  | 0x28 => some { scalarRow tyH .data .data .none false true 4 with rm := true }
  | 0x29 => some { scalarRow tyH .data .data .none false true 4 with rm := true }
  | 0x2A => some { scalarRow tyH .data .data .data false true 4 with rm := true }
  | 0x2B => some (scalarRow tyH .data .data .none false true 4)
  | 0x2C => some (scalarRow tyH .data .data .none false true 4)
  | 0x2D => some { scalarRow tyH .data .data .none false true 4 with aux := 0xF }
  | 0x2E => some { scalarRow tyX .data .none .none false true 4 with rm := true, ty2 := some tyX, aux := 0x3F }
  | 0x2F => some (scalarRow tyN64 .none .none .none false false 1)
  | 0x30 => some { scalarRow tyN64 .none .none .none false false 1 with aux := 0x3 }
  | 0x31 => some (scalarRow tyN64 .none .none .none false false 1)
  | 0x32 => some (scalarRow tyX .vreg .ctl .none false false 3)
  | _ => .none

/-- The rows of R102, by opcode of R79. -/
def arithSpec : Nat → Option OpSpec
  | 0x40 => some (vectorRow tyX .data .data .none 0 true true true 0)
  | 0x41 => some (vectorRow tyX .data .data .none 0 true true true 0)
  | 0x42 => some (vectorRow tyX .data .data .none 0 true true true 0)
  | 0x43 => some (vectorRow tyI .data .data .none 0 false false true 2)
  | 0x44 => some (vectorRow tyF .data .data .data 0 false true true 4)
  | 0x45 => some (vectorRow tyF .data .data .data 0 false true true 4)
  | 0x46 => some (vectorRow tyF .data .data .data 0 false true true 4)
  | 0x47 => some (vectorRow tyX .data .data .none 0 false false true 0)
  | 0x48 => some (vectorRow tyX .data .data .none 0 false false true 0)
  | 0x49 => some (vectorRow tyX .data .none .none 0 true false false 0)
  | 0x4A => some (vectorRow tyX .data .none .none 0 true false false 0)
  | 0x4B => some (vectorRow tyX .data .data .none 0 true true true 0)
  | 0x4C => some (vectorRow tyX .data .data .data 0 false false true 0)
  | 0x4D => some (vectorRow tyI .data .data .none 0 false false false 2)
  | 0x4E => some (vectorRow tyI .data .data .none 0 false false false 2)
  | 0x4F => some (vectorRow tyI .data .data .none 0 false false false 2)
  | 0x50 => some (vectorRow tyI .data .none .none 0 false false false 2)
  | 0x51 => some (vectorRow tyI .data .data .none 0 true false false 2)
  | 0x52 => some (vectorRow tyI .data .data .none 0 false false false 2)
  | 0x53 => some (vectorRow tyI .data .data .none 0 false false false 2)
  | 0x54 => some { vectorRow tyX .data .data .none 0xF false false true 0 with dks := 6 }
  | 0x55 => some (vectorRow tyX .data .data .data 0 false false false 2)
  | 0x56 => some { vectorRow tyX .data .none .none 0x3F false true true 4 with ty2 := some tyX }
  | 0x57 => some (vectorRow tyH .data .none .none 0 false true true 8)
  | 0x58 => some (vectorRow tyH .data .none .none 0 false true true 8)
  | 0x59 => some (vectorRow tyH .data .none .none 0 false true true 8)
  | 0x5A => some (vectorRow tyH .data .none .none 0 false true true 8)
  | 0x5B => some (vectorRow tyH .data .none .none 0 false true true 8)
  | 0x5C => some (vectorRow tyH .data .none .none 0 false true true 8)
  | 0x5D => some { vectorRow ty8 .data .data .data 0 true false false 2 with ty2 := some ty8 }
  | 0x5E => some (vectorRow tyBf .data .data .data 0 false true true 4)
  | 0x5F => some { vectorRow tyH .data .data .none 0x7F false true false 6 with ty2 := some tyQ }
  | 0x60 => some { vectorRow tyH .vreg .none .none 0 false true false 4 with ty2 := some tyQ }
  | 0x61 => some (vectorRow tyH .data .data .none 0 false true false 8)
  | 0x62 => some (vectorRow tyI .data .data .data 0 true false true 2)
  | 0x63 => some { vectorRow ty8 .data .data .data 0 true false false 2 with ty2 := some ty8 }
  | _ => .none

/-- The rows of R119, by opcode of R80. -/
def dataSpec : Nat → Option OpSpec
  | 0x80 => some (vectorRow tyX .data .none .none 0 false false false 2)
  | 0x81 => some (vectorRow tyX .data .ctl .ident 0xF false false false 3)
  | 0x82 => some (vectorRow tyI .sdata .sdata .none 0 true false false 2)
  | 0x83 => some (vectorRow tyX .data .data .ident 0x7 false false false 3)
  | 0x84 => some (vectorRow tyX .data .ctl .ident 0x7 false false false 3)
  | 0x85 => some (vectorRow tyX .data .ctl .ident 0xF false false false 3)
  | 0x86 => some (vectorRow tyX .data .ctl .ident 0x7 false false false 3)
  | 0x87 => some (vectorRow tyX .data .data .ident 0xF false false false 3)
  | 0x88 => some (vectorRow tyX .data .data .ident 0xF false false false 3)
  | 0x89 => some { vectorRow tyX .data .none .none 0x7 true true false 6 with dks := 3 }
  | 0x8A => some (vectorRow tyX .data .none .none 0xF true true false 6)
  | 0x8B => some (vectorRow tyX .data .kmask .none 0xF true true false 6)
  | 0x8C => some (vectorRow tyX .data .none .ident 0 false false false 3)
  | 0x8D => some (vectorRow tyX .data .none .none 0 false false false 3)
  | 0x8E => some (vectorRow tyI .data .none .none 0 false false false 2)
  | 0x8F => some (vectorRow tyI .data .sdata .none 0 true false false 6)
  | 0x90 => some (vectorRow tyN8 .data .data .ctl 0 false false false 6)
  | 0x91 => some (vectorRow (tyI + tyH) .data .data .none 0 false false false 2)
  | 0x92 => some { vectorRow tyX .data .ctl .none 0x3F false true false 2 with ty2 := some tyX, dks := 8 }
  | 0x93 => some { vectorRow tyX .none .ctl .none 0x1FF false true false 2 with ty2 := some tyX }
  | 0x94 => some { vectorRow tyZero .kmask .kmask .none 0 false false false 2 with dks := 4 }
  | 0x95 => some { vectorRow tyZero .kmask .kmask .none 0 false false false 2 with dks := 4 }
  | 0x96 => some { vectorRow tyZero .kmask .kmask .none 0 false false false 2 with dks := 4 }
  | 0x97 => some { vectorRow tyZero .kmask .none .none 0 false false false 2 with dks := 4 }
  | 0x98 => some { vectorRow tyZero .kmask .none .none 0x7 false false false 2 with dks := 5 }
  | _ => .none

def opSpec (op : Nat) : Option OpSpec :=
  if op < 0x40 then scalarSpec op else if op < 0x80 then arithSpec op else dataSpec op

/-! ## Registers of a slot (R60, R71, R74) -/

/-- Width of the operation in bits. -/
def SlotOp.bits (q : SlotOp) : Nat := 256 * 2 ^ q.h.width.toNat

/-- Registers by which a repetition moves: 1, 2 or 4 by width (R74). -/
def SlotOp.group (q : SlotOp) : Nat := 2 ^ q.h.width.toNat

/-- The mask register: the slot's override or the control word's (R60). -/
def SlotOp.maskReg (q : SlotOp) : Nat := if q.ovr = 0 then q.h.mask.toNat else q.ovr.toNat

/-- How far repetition `j` moves a register number (R74). -/
def SlotOp.move (q : SlotOp) (j : Nat) : Nat := j * q.h.stride.toNat * q.group

/-- The s register of a number under the bank offset, in repetition `j`; s0 is neither offset nor moved (R60, R74). -/
def SlotOp.sReg (q : SlotOp) (n : BitVec 6) (j : Nat) : BitVec 6 :=
  if n = 0 then 0
  else
    let b := n + 4 * q.bank.setWidth 6
    if b = 0 then 0 else b + BitVec.ofNat 6 (q.move j)

/-- The v register of a number under the bank offset, in repetition `j`. -/
def SlotOp.vReg (q : SlotOp) (n : BitVec 6) (j : Nat) : BitVec 6 :=
  n + 4 * q.bank.setWidth 6 + BitVec.ofNat 6 (q.move j)

/-- The destination number in repetition `j`: k and tile-row numbers take no bank offset (R60). -/
def SlotOp.dst (q : SlotOp) (j : Nat) : BitVec 6 :=
  if q.h.dk = 0 then q.sReg q.h.dn j
  else if q.h.dk = 1 then q.vReg q.h.dn j
  else q.h.dn + BitVec.ofNat 6 (q.move j)

/-- The data source type: the operation's, or the secondary type of a conversion (R95, R107, R131), or the fixed types
of the dot products (R109, R110). -/
def srcTy (op : Nat) (h : Hcw) (i : Nat) : Nat :=
  if op = 0x2E ∨ op = 0x56 ∨ op = 0x92 then h.ty2.toNat
  else if op = 0x5D ∨ op = 0x63 then (if i = 0 then h.ty.toNat else if i = 1 then h.ty2.toNat else 4)
  else if op = 0x5E then (if i = 2 then 8 else 9)
  else h.ty.toNat

/-- Width in bits of a v source (R71, R107, R114). -/
def srcBits (op : Nat) (q : SlotOp) : Nat :=
  if op = 0x56 then q.bits / tyWidth q.h.ty.toNat * tyWidth q.h.ty2.toNat
  else if op = 0x60 then 512
  else if op = 0x32 then 256
  else q.bits

/-- Registers in the destination group: `vqnt` and `vinter` write a pair, `vred` one register. -/
def dstRegs (op : Nat) (q : SlotOp) : Nat :=
  if q.h.dk ≠ 1 then 1
  else if op = 0x5F ∨ op = 0x90 then 2
  else if op = 0x89 then 1
  else q.group

/-- The width whose lane groups an operation occupies (R71; the wider operand of a `vcvt`, R107). -/
def laneBits (op : Nat) (q : SlotOp) : Nat := if op = 0x56 then Nat.max (srcBits op q) q.bits else q.bits

/-- Lane groups of a vector operation, as a mask of LG0-LG3. -/
def lanes (op : Nat) (q : SlotOp) : Nat :=
  if op < 0x40 then 0 else (2 ^ (laneBits op q / 256) - 1) * 2 ^ q.h.base.toNat

/-- The source fields with their roles. `kmov` reads its A per aux, scalar `vbcast` reads no B (R134, R121). DESIGN CHOICE (log 77): scalar
`vbcast` keeps its identity source C, which need not be zero (R65, R121). -/
def sources (op : Nat) (q : SlotOp) (sp : OpSpec) : List (Nat × Src × Role) :=
  let a : Role :=
    if op = 0x98 ∧ q.h.aux.toNat % 4 = 1 then .sreg
    else if op = 0x98 ∧ q.h.aux.toNat % 4 = 2 then .vreg
    else if op = 0x81 ∧ q.h.aux.toNat / 8 % 2 = 1 then .sdata
    else sp.a
  let b : Role :=
    if op = 0x81 ∧ q.h.aux.toNat / 8 % 2 = 1 then .none
    else if op = 0x5F ∧ q.h.aux.toNat / 4 % 2 = 0 then .none
    else if op = 0x91 ∧ q.h.ty.toNat ≥ 8 then .none
    else sp.b
  [(0, q.h.a, a), (1, q.h.b, b), (2, q.h.c, sp.c)]

def Src.isZero (x : Src) : Bool :=
  decide (x.kind = 0 ∧ x.num = 0 ∧ x.pol = 0 ∧ x.neg = 0 ∧ x.abs = 0)

/-! ## The checks (R61-R76) -/

/-- A source field is well formed by itself (R65, R67). -/
def Src.shapeOk (x : Src) : Bool :=
  (x.kind != 1 || x.num.toNat < 4) && (x.kind != 2 || x.num == 0) && (x.kind != 3 || x.num.toNat ≤ 8)

/-- A source's kind is admitted for its role and element type (R67, R85, R117). -/
def roleOk (op : Nat) (q : SlotOp) (i : Nat) (x : Src) (r : Role) : Bool :=
  let t := srcTy op q.h i
  match r with
  | .none => x.isZero
  | .data => x.shapeOk && (x.kind != 3 || x.num.toNat ≥ 6 || tyInt t)
  | .sdata => x.shapeOk && (x.kind != 3 || x.num.toNat ≥ 6 || tyInt t)
  | .ctl => x.shapeOk && (x.kind != 2 || op < 0x40)
  | .lit => x.shapeOk && x.kind == 1
  | .litOpt => x.isZero || (x.shapeOk && x.kind == 1)
  | .vreg | .sreg => x.kind == 0
  | .kmask => x.shapeOk && (x.kind != 3 || x.num.toNat ≤ 5)
  | .ident => x.isZero || (x.shapeOk && (x.kind == 1 || (x.kind == 3 && x.num.toNat ≥ 5 &&
      (x.num.toNat ≥ 6 || tyInt t))))

/-- Modifiers are admitted on data of a type that takes them (R69, R83, R102). -/
def modOk (op : Nat) (q : SlotOp) (sp : OpSpec) (i : Nat) (x : Src) (r : Role) : Bool :=
  (x.neg == 0 && x.abs == 0) ||
    (r == .data && sp.mods && !tyUnsigned (srcTy op q.h i) &&
      ((op != 0x2E && op != 0x56) || tyFloat q.h.ty2.toNat))

/-- The register group a source names in repetition `j`: file (0 s, 1 v, 2 k), first number, count. -/
def srcRegs (op : Nat) (q : SlotOp) (j : Nat) (x : Src) (r : Role) : Option (Nat × Nat × Nat) :=
  if x.kind ≠ 0 then .none
  else match r with
    | .none | .lit | .litOpt | .ident => .none
    | .ctl | .sdata | .sreg => some (0, (q.sReg x.num j).toNat, 1)
    | .kmask => some (2, (q.vReg x.num j).toNat, 1)
    | .vreg => some (1, (q.vReg x.num j).toNat, if op = 0x60 then 2 else 1)
    | .data =>
      if op < 0x40 then some (0, (q.sReg x.num j).toNat, 1)
      else some (1, (q.vReg x.num j).toNat, srcBits op q / 256)

/-- Alignment, range and overlap of the registers of repetition `j` (R64, R65, R76, R117). -/
def regsOk (op : Nat) (q : SlotOp) (sp : OpSpec) (j : Nat) : Bool :=
  let d := (q.dst j).toNat
  let nd := dstRegs op q
  let dOk :=
    if q.h.dk = 1 then d % nd == 0
    else if q.h.dk = 2 then decide (d < 8)
    else if q.h.dk = 3 then d % 8 == 0
    else true
  dOk && (sources op q sp).all fun (_, x, r) =>
    match srcRegs op q j x r with
    | .none => true
    | some (f, n, c) =>
      (f != 1 || n % c == 0) && (f != 2 || decide (n < 8)) &&
        (f != 1 || q.h.dk != 1 || (n == d && c == nd) || decide (n + c ≤ d) || decide (d + nd ≤ n))

/-- Substitute codes against a target: code 10 needs a target with a NaN, which no integer, `q4`, codebook or Fertite type has (R50). -/
def substOk (t code : Nat) : Bool := code < 2 || (code == 2 && !tyInt t && decide (t < 13))

/-- The conditions that single entries add. DESIGN CHOICE (log 77): on `vinter` and on `kand`, `kor`, `kxor`, `knot` and `kmov`, whose mask
field must be zero, the slot's mask override must be zero too (R63, R127, R134). -/
def entryOk (op : Nat) (q : SlotOp) : Bool :=
  let h := q.h
  let t := h.ty.toNat
  let u := h.ty2.toNat
  let aux := h.aux.toNat
  let subs := substOk t (aux % 4) && substOk t (aux / 4 % 4) && substOk t (aux / 16 % 4)
  match op with
  | 0x24 | 0x25 => decide (aux % 64 + (aux / 64 % 64 + 1) ≤ 64)
  | 0x2D => decide (aux < 8)
  | 0x2E => subs
  | 0x54 => decide (aux < if tyFloat t then 8 else 6)
  | 0x56 => subs && (srcBits op q == 256 || srcBits op q == 512 || srcBits op q == 1024)
  | 0x5F =>
    let nb := q.bits / (32 * tyWidth t)
    decide (1 ≤ nb ∧ nb ≤ 2 ∧ nb * 32 * tyWidth u ≤ 256) && h.z == 0 && (u == 13 || aux % 4 == 0) &&
      [aux / 8 % 4, aux / 32 % 4].all fun c => c < 2 || (c == 2 && (u == 11 || u == 12))
  | 0x60 =>
    let nb := q.bits / (32 * tyWidth t)
    decide (1 ≤ nb ∧ nb ≤ 2 ∧ nb * 32 * tyWidth u ≤ 256)
  | 0x81 => aux / 8 % 2 == 0 || aux % 8 == 0
  | 0x89 => decide (aux % 8 < if tyFloat t then 3 else 6) && h.z == 0
  | 0x8A | 0x8B => decide (aux % 8 < if tyFloat t then 3 else 6)
  | 0x8C => h.z == 0
  | 0x90 => q.maskReg == 0 && h.z == 0
  | 0x92 => subs && q.bits == 256 / tyWidth t * tyWidth u
  | 0x93 => subs && q.bits == 32 * tyWidth t
  | 0x94 | 0x95 | 0x96 | 0x97 => h.width == 0 && q.maskReg == 0 && h.z == 0
  | 0x98 =>
    h.width == 0 && q.maskReg == 0 && h.z == 0 && aux % 4 != 3 &&
      (if h.dk = 0 then aux % 4 == 0 else aux / 4 % 2 == 0)
  | _ => true

/-- Every check of a slot that does not depend on the bundle or the state (R61, R63-R65, R68, R69, R74, R76). -/
def hcwOk (op : Nat) (q : SlotOp) : Bool :=
  match opSpec op with
  | .none => false
  | some sp =>
    let h := q.h
    let t := h.ty.toNat
    let isS := decide (op < 0x40)
    let conv := op = 0x2E ∨ op = 0x56 ∨ op = 0x92 ∨ op = 0x93
    (if isS then q.slot == .s else (q.slot == .v0 || q.slot == .v1 || q.slot == .v2)) &&
    sp.tys.testBit t &&
    (match sp.ty2 with
      | .none => h.ty2 == 0
      | some m => m.testBit h.ty2.toNat) &&
    h.width != 3 && h.rm.toNat ≤ 4 &&
    (!isS || (h.width == 0 && h.base == 0 && h.mask == 0 && h.z == 0 && q.ovr == 0)) &&
    (isS || h.base.toNat % (Nat.max (laneBits op q) 256 / 256) == 0) &&
    (h.sat == 0 || (sp.sat && tyInt t)) &&
    (h.rm == 0 || (sp.rm && (tyFloat t || (decide conv && tyFloat h.ty2.toNat)))) &&
    sp.dks.testBit h.dk.toNat &&
    decide (h.aux.toNat ||| sp.aux = sp.aux) &&
    entryOk op q &&
    (sources op q sp).all (fun (i, x, r) => roleOk op q i x r && modOk op q sp i x r) &&
    decide (((sources op q sp).filter fun (_, x, r) => r != .none && x.kind == 2).length ≤ 1) &&
    (List.range (h.rep.toNat + 1)).all (regsOk op q sp)

/-- Literal words a slot names (R18): all below the pool's length. -/
def hcwLitsOk (op : Nat) (q : SlotOp) (l : Nat) : Bool :=
  match opSpec op with
  | .none => true
  | some sp => (sources op q sp).all fun (_, x, r) => r == .none || x.kind != 1 || decide (x.num.toNat < l)

/-- Latency of an operation (R23, R78-R80). -/
def hcwLat (op : Nat) (q : SlotOp) : Nat :=
  match opSpec op with
  | .none => 1
  | some sp => if sp.lat = 0 then (if tyInt q.h.ty.toNat then 2 else 4) else sp.lat

end Sys2Proof
end

