-- ==== Sys2Proof/Machine/Fields.lean ====
section
/-!
DEFINITION. The limits the entries set on the fields of C, M and W slots (spec 09 R167-R185, 10 R187-R217, 08 R149-R158,
02 R35), and the opcode of every control-word operation (04 R78-R80).
-/
namespace Sys2Proof

/-- Registers of a vector access width code (R167). -/
def wRegs (w : BitVec 2) : Nat := 2 ^ w.toNat

/-- The opcode and slot of a control-word operation; `none` for every other instruction. -/
def Instr.hcw? : Instr → Option (Nat × SlotOp)
  | .mov q => some (0x01, q)
  | .movl q => some (0x02, q)
  | .add q => some (0x03, q)
  | .sub q => some (0x04, q)
  | .mul q => some (0x05, q)
  | .mulh q => some (0x06, q)
  | .mulhn q => some (0x07, q)
  | .div q => some (0x08, q)
  | .divn q => some (0x09, q)
  | .rem q => some (0x0A, q)
  | .remn q => some (0x0B, q)
  | .and q => some (0x0C, q)
  | .or q => some (0x0D, q)
  | .xor q => some (0x0E, q)
  | .andn q => some (0x0F, q)
  | .shl q => some (0x10, q)
  | .shr q => some (0x11, q)
  | .sar q => some (0x12, q)
  | .rol q => some (0x13, q)
  | .min q => some (0x14, q)
  | .max q => some (0x15, q)
  | .minn q => some (0x16, q)
  | .maxn q => some (0x17, q)
  | .abs q => some (0x18, q)
  | .neg q => some (0x19, q)
  | .cmpeq q => some (0x1A, q)
  | .cmpne q => some (0x1B, q)
  | .cmplt q => some (0x1C, q)
  | .cmple q => some (0x1D, q)
  | .cmpltn q => some (0x1E, q)
  | .cmplen q => some (0x1F, q)
  | .sel q => some (0x20, q)
  | .clz q => some (0x21, q)
  | .ctz q => some (0x22, q)
  | .popc q => some (0x23, q)
  | .bext q => some (0x24, q)
  | .bins q => some (0x25, q)
  | .madd q => some (0x26, q)
  | .fadd q => some (0x27, q)
  | .fsub q => some (0x28, q)
  | .fmul q => some (0x29, q)
  | .fma q => some (0x2A, q)
  | .fmin q => some (0x2B, q)
  | .fmax q => some (0x2C, q)
  | .fcmp q => some (0x2D, q)
  | .fcvt q => some (0x2E, q)
  | .rdcyc q => some (0x2F, q)
  | .rdtc q => some (0x30, q)
  | .rqpop q => some (0x31, q)
  | .vget q => some (0x32, q)
  | .vadd q => some (0x40, q)
  | .vsub q => some (0x41, q)
  | .vmul q => some (0x42, q)
  | .vmulh q => some (0x43, q)
  | .vfma q => some (0x44, q)
  | .vfms q => some (0x45, q)
  | .vfnma q => some (0x46, q)
  | .vmin q => some (0x47, q)
  | .vmax q => some (0x48, q)
  | .vabs q => some (0x49, q)
  | .vneg q => some (0x4A, q)
  | .vabd q => some (0x4B, q)
  | .vclamp q => some (0x4C, q)
  | .vand q => some (0x4D, q)
  | .vor q => some (0x4E, q)
  | .vxor q => some (0x4F, q)
  | .vnot q => some (0x50, q)
  | .vshl q => some (0x51, q)
  | .vshr q => some (0x52, q)
  | .vsar q => some (0x53, q)
  | .vcmp q => some (0x54, q)
  | .vsel q => some (0x55, q)
  | .vcvt q => some (0x56, q)
  | .vrcp q => some (0x57, q)
  | .vrsq q => some (0x58, q)
  | .vsqrt q => some (0x59, q)
  | .vexp2 q => some (0x5A, q)
  | .vlog2 q => some (0x5B, q)
  | .vtanh q => some (0x5C, q)
  | .vdp4 q => some (0x5D, q)
  | .vdp2 q => some (0x5E, q)
  | .vqnt q => some (0x5F, q)
  | .vdqnt q => some (0x60, q)
  | .vsmth q => some (0x61, q)
  | .vimad q => some (0x62, q)
  | .vsad q => some (0x63, q)
  | .vmov q => some (0x80, q)
  | .vbcast q => some (0x81, q)
  | .viota q => some (0x82, q)
  | .vperm q => some (0x83, q)
  | .vrotl q => some (0x84, q)
  | .vslide q => some (0x85, q)
  | .vxlane q => some (0x86, q)
  | .vzip q => some (0x87, q)
  | .vunzip q => some (0x88, q)
  | .vred q => some (0x89, q)
  | .vscan q => some (0x8A, q)
  | .vsscan q => some (0x8B, q)
  | .vcmprs q => some (0x8C, q)
  | .vexpnd q => some (0x8D, q)
  | .vpopc q => some (0x8E, q)
  | .vpfx q => some (0x8F, q)
  | .vinter q => some (0x90, q)
  | .vrnd q => some (0x91, q)
  | .vtrow q => some (0x92, q)
  | .vtcol q => some (0x93, q)
  | .kand q => some (0x94, q)
  | .kor q => some (0x95, q)
  | .kxor q => some (0x96, q)
  | .knot q => some (0x97, q)
  | .kmov q => some (0x98, q)
  | _ => none

/-- The control-word operation of an opcode; `none` for the codes that trap with cause 0x02 (R61, R78-R80). -/
def hcwInstr (op : Nat) (q : SlotOp) : Option Instr :=
  match op with
  | 0x01 => some (.mov q)
  | 0x02 => some (.movl q)
  | 0x03 => some (.add q)
  | 0x04 => some (.sub q)
  | 0x05 => some (.mul q)
  | 0x06 => some (.mulh q)
  | 0x07 => some (.mulhn q)
  | 0x08 => some (.div q)
  | 0x09 => some (.divn q)
  | 0x0A => some (.rem q)
  | 0x0B => some (.remn q)
  | 0x0C => some (.and q)
  | 0x0D => some (.or q)
  | 0x0E => some (.xor q)
  | 0x0F => some (.andn q)
  | 0x10 => some (.shl q)
  | 0x11 => some (.shr q)
  | 0x12 => some (.sar q)
  | 0x13 => some (.rol q)
  | 0x14 => some (.min q)
  | 0x15 => some (.max q)
  | 0x16 => some (.minn q)
  | 0x17 => some (.maxn q)
  | 0x18 => some (.abs q)
  | 0x19 => some (.neg q)
  | 0x1A => some (.cmpeq q)
  | 0x1B => some (.cmpne q)
  | 0x1C => some (.cmplt q)
  | 0x1D => some (.cmple q)
  | 0x1E => some (.cmpltn q)
  | 0x1F => some (.cmplen q)
  | 0x20 => some (.sel q)
  | 0x21 => some (.clz q)
  | 0x22 => some (.ctz q)
  | 0x23 => some (.popc q)
  | 0x24 => some (.bext q)
  | 0x25 => some (.bins q)
  | 0x26 => some (.madd q)
  | 0x27 => some (.fadd q)
  | 0x28 => some (.fsub q)
  | 0x29 => some (.fmul q)
  | 0x2A => some (.fma q)
  | 0x2B => some (.fmin q)
  | 0x2C => some (.fmax q)
  | 0x2D => some (.fcmp q)
  | 0x2E => some (.fcvt q)
  | 0x2F => some (.rdcyc q)
  | 0x30 => some (.rdtc q)
  | 0x31 => some (.rqpop q)
  | 0x32 => some (.vget q)
  | 0x40 => some (.vadd q)
  | 0x41 => some (.vsub q)
  | 0x42 => some (.vmul q)
  | 0x43 => some (.vmulh q)
  | 0x44 => some (.vfma q)
  | 0x45 => some (.vfms q)
  | 0x46 => some (.vfnma q)
  | 0x47 => some (.vmin q)
  | 0x48 => some (.vmax q)
  | 0x49 => some (.vabs q)
  | 0x4A => some (.vneg q)
  | 0x4B => some (.vabd q)
  | 0x4C => some (.vclamp q)
  | 0x4D => some (.vand q)
  | 0x4E => some (.vor q)
  | 0x4F => some (.vxor q)
  | 0x50 => some (.vnot q)
  | 0x51 => some (.vshl q)
  | 0x52 => some (.vshr q)
  | 0x53 => some (.vsar q)
  | 0x54 => some (.vcmp q)
  | 0x55 => some (.vsel q)
  | 0x56 => some (.vcvt q)
  | 0x57 => some (.vrcp q)
  | 0x58 => some (.vrsq q)
  | 0x59 => some (.vsqrt q)
  | 0x5A => some (.vexp2 q)
  | 0x5B => some (.vlog2 q)
  | 0x5C => some (.vtanh q)
  | 0x5D => some (.vdp4 q)
  | 0x5E => some (.vdp2 q)
  | 0x5F => some (.vqnt q)
  | 0x60 => some (.vdqnt q)
  | 0x61 => some (.vsmth q)
  | 0x62 => some (.vimad q)
  | 0x63 => some (.vsad q)
  | 0x80 => some (.vmov q)
  | 0x81 => some (.vbcast q)
  | 0x82 => some (.viota q)
  | 0x83 => some (.vperm q)
  | 0x84 => some (.vrotl q)
  | 0x85 => some (.vslide q)
  | 0x86 => some (.vxlane q)
  | 0x87 => some (.vzip q)
  | 0x88 => some (.vunzip q)
  | 0x89 => some (.vred q)
  | 0x8A => some (.vscan q)
  | 0x8B => some (.vsscan q)
  | 0x8C => some (.vcmprs q)
  | 0x8D => some (.vexpnd q)
  | 0x8E => some (.vpopc q)
  | 0x8F => some (.vpfx q)
  | 0x90 => some (.vinter q)
  | 0x91 => some (.vrnd q)
  | 0x92 => some (.vtrow q)
  | 0x93 => some (.vtcol q)
  | 0x94 => some (.kand q)
  | 0x95 => some (.kor q)
  | 0x96 => some (.kxor q)
  | 0x97 => some (.knot q)
  | 0x98 => some (.kmov q)
  | _ => none

/-- Element size in bits of a gather or scatter (R184). -/
def gathBits (e : BitVec 2) : Nat := 8 * 2 ^ e.toNat

/-- The index group of a gather or scatter: its bits (R184). -/
def gathIndexBits (w e : BitVec 2) : Nat := 256 * wRegs w / gathBits e * 32

/-- The limits of a gather or scatter's fields (R184). -/
def gathOk (a c : BitVec 6) (w e : BitVec 2) : Bool :=
  let ib := gathIndexBits w e
  w != 3 && a.toNat % wRegs w == 0 && (ib == 256 || ib == 512 || ib == 1024) && c.toNat % (ib / 256) == 0

/-- The limits of the entries on the fields of an instruction; an event has no encoding and no limit. -/
def Instr.fieldsOk : Instr → Bool
  | .br cond a _ => decide (cond.toNat < 8) && (cond != 0 || a == 0)
  | .loop a _ => a != 0
  | .jmpr _ imm | .ld _ _ imm | .lds _ _ imm | .st _ _ imm | .depdec _ imm | .stage _ imm | .prmx _ _ imm
  | .trap _ imm => imm.l == 0 || decide (imm.imm.toNat < 4)
  | .pref lvl _ imm => decide (lvl.toNat < 2) && (imm.l == 0 || decide (imm.imm.toNat < 4))
  | .ldx _ _ _ sz _ => sz != 7
  | .stx _ _ _ sz _ => sz == 0 || sz == 2 || sz == 4 || sz == 6
  | .vld a _ w _ _ | .vst a _ w _ _ => w != 3 && a.toNat % wRegs w == 0
  | .vlds a _ w buf _ => w != 3 && a.toNat % wRegs w == 0 && buf == 0
  | .vldh a _ c w | .vsth a _ c w => w != 3 && a.toNat % wRegs w == 0 && c.toNat % 2 == 0
  | .vgath a _ c _ w _ e | .vscat a _ c _ w _ e => gathOk a c w e
  | .vchkp _ b w => w != 3 && b.toNat % wRegs w == 0
  | .amoCas _ _ c _ => c.toNat % 2 == 0
  | .amoFaddb _ _ c sz | .redFaddb _ c sz => c.toNat % 2 == 0 && sz == 0
  | .amoFadd _ _ _ sz | .redFadd _ _ sz => sz == 0
  | .copy _ _ c _ | .copyo _ _ c _ => c.toNat % 2 == 0
  | .copyx _ b _ => b.toNat % 4 == 0 && b != 0
  | .ysend a _ => a.toNat % 4 == 0
  | .fence scope _ => decide (scope.toNat < 6)
  | .fencep scope p q => decide (scope.toNat < 6) && p != 0 && q != 0
  | .ctopen a _ => a.toNat % 16 == 0
  | .tenc _ b _ fmt _ _ => b.toNat % 2 == 0 && decide (fmt.toNat < 3)
  | .mfs _ n | .mts _ n => decide (n.toNat ≤ 0xD)
  | .mdrain _ _ fmt _ _ part => decide (part.toNat < [4, 2, 1, 0].getD fmt.toNat 0)
  | .mpad kv => decide (kv.toNat ≤ 64)
  | .waitReg k n => k != 3 && (k != 2 || decide (n.toNat < 8))
  | i =>
    match i.hcw? with
    | some (op, q) => hcwOk op q
    | none => true

/-- Literal words the instruction names lie below the pool's length `l` (R18). -/
def Instr.litsOk (l : Nat) : Instr → Bool
  | .jmpr _ imm | .ld _ _ imm | .lds _ _ imm | .st _ _ imm | .depdec _ imm | .stage _ imm | .prmx _ _ imm
  | .trap _ imm | .pref _ _ imm => imm.l == 0 || decide (imm.imm.toNat < l)
  | .waitCycLiteral w | .waitBarGang _ w => decide (w.toNat < l)
  | i =>
    match i.hcw? with
    | some (op, q) => hcwLitsOk op q l
    | none => true

/-- A delayed transfer (R28). -/
def Instr.delayed : Instr → Bool
  | .br .. | .jmp .. | .jmpr .. | .call .. | .callr .. | .ret .. | .loop .. => true
  | _ => false

/-- A terminal transfer (R29). -/
def Instr.terminal : Instr → Bool
  | .endTask | .eret => true
  | _ => false

end Sys2Proof
end

