-- ==== Sys2Proof/WellFormed.lean ====
section
/-!
DEFINITION. Well-formed instructions: those whose fields every entry of the spec admits, so that only the state can make them
trap. The checks themselves stand in Machine/Fields.lean and Machine/HcwTable.lean.
-/
namespace Sys2Proof

/-- The fields of the instruction are within the limits of its entry (cause 0x02 otherwise, R37 step 3). -/
def Instr.wf (i : Instr) : Bool := i.fieldsOk

end Sys2Proof
end

