-- ==== Sys2Proof/Decode.lean ====
section
/-!
DEFINITION. Encoding and decoding: the C slot (spec 02 R32, R33; 09 R167; 10 R187), the M slot (02 R34, 08 R149), the W slot
(02 R35), control words (04 R60, R62) and the bundle in memory (02 R14-R18, R38). Every function is total; what the spec
assigns no meaning is `none` (cause 0x02) or an illegal bundle (cause 0x01).
-/
namespace Sys2Proof

/-! ## C slot -/

/-- The low 20 bits and the field a of format CI (R32). -/
def ciFields (op : Nat) (a b : BitVec 6) (imm : CImm) : List (Nat × Nat) :=
  [(13, imm.imm.toNat), (1, imm.l.toNat), (6, b.toNat), (6, a.toNat), (6, op)]

/-- Format CI with L = 0 (R167, R187). -/
def ciImm (op : Nat) (a b : BitVec 6) (imm : Nat) : List (Nat × Nat) :=
  [(13, imm), (1, 0), (6, b.toNat), (6, a.toNat), (6, op)]

/-- Formats C3 and CE: the low byte holds minor, or d and minor (R32). -/
def c3Fields (op : Nat) (a b c : BitVec 6) (low : List (Nat × Nat)) : List (Nat × Nat) :=
  low ++ [(6, c.toNat), (6, b.toNat), (6, a.toNat), (6, op)]

/-- Format CJ (R32). -/
def cjFields (op : Nat) (cond : BitVec 4) (a : BitVec 6) (off : BitVec 16) : List (Nat × Nat) :=
  [(16, off.toNat), (6, a.toNat), (4, cond.toNat), (6, op)]

/-- The minor byte of an indexed access (R174). -/
def xMinor (sz : BitVec 3) (sh : BitVec 2) : List (Nat × Nat) := [(3, sz.toNat), (2, sh.toNat), (3, 0)]

/-- The immediate of a vector access (R167). -/
def vFields (op : Nat) (a b : BitVec 6) (w : BitVec 2) (buf : BitVec 1) (off : BitVec 10) : List (Nat × Nat) :=
  [(10, off.toNat), (1, buf.toNat), (2, w.toNat), (1, 0), (6, b.toNat), (6, a.toNat), (6, op)]

/-- The low byte of an atomic: operation, zero, size (R187). -/
def amoMinor (m : Nat) (sz : BitVec 1) : List (Nat × Nat) := [(5, m), (2, 0), (1, sz.toNat)]

/-- The low byte of a gather or scatter (R184). -/
def gathMinor (k : BitVec 3) (w : BitVec 2) (sc : BitVec 1) (e : BitVec 2) : List (Nat × Nat) :=
  [(2, e.toNat), (1, sc.toNat), (2, w.toNat), (3, k.toNat)]

/-- The fields of a C slot, lowest first; `none` where the instruction is not in the C slot. -/
def Instr.cFields : Instr → Option (List (Nat × Nat))
  | .br cond a off => some (cjFields 0x01 cond a off)
  | .jmp off => some (cjFields 0x02 0 0 off)
  | .jmpr b imm => some (ciFields 0x03 0 b imm)
  | .call off => some (cjFields 0x04 0 0 off)
  | .callr off => some (cjFields 0x05 0 0 off)
  | .ret b => some (c3Fields 0x06 0 b 0 [(8, 0)])
  | .loop a off => some (cjFields 0x07 0 a off)
  | .ld a b imm => some (ciFields 0x08 a b imm)
  | .ldx a b c sz sh => some (c3Fields 0x09 a b c (xMinor sz sh))
  | .lds a b imm => some (ciFields 0x0A a b imm)
  | .chkp a b => some (c3Fields 0x0B a b 0 [(8, 0)])
  | .st a b imm => some (ciFields 0x0C a b imm)
  | .stx a b c sz sh => some (c3Fields 0x0D a b c (xMinor sz sh))
  | .pref lvl b imm => some (ciFields 0x0E (lvl.setWidth 6) b imm)
  | .ipref off => some (cjFields 0x0F 0 0 off)
  | .vld a b w buf off => some (vFields 0x10 a b w buf off)
  | .vst a b w buf off => some (vFields 0x11 a b w buf off)
  | .vldh a b c w => some (c3Fields 0x12 a b c [(6, 0), (2, w.toNat)])
  | .vsth a b c w => some (c3Fields 0x13 a b c [(6, 0), (2, w.toNat)])
  | .vgath a b c k w sc e => some (c3Fields 0x14 a b c (gathMinor k w sc e))
  | .vscat a b c k w sc e => some (c3Fields 0x15 a b c (gathMinor k w sc e))
  | .vlds a b w buf off => some (vFields 0x16 a b w buf off)
  | .vchkp a b w => some (c3Fields 0x17 a b 0 [(2, w.toNat), (6, 0)])
  | .amoAdd a b c sz => some (c3Fields 0x18 a b c (amoMinor 0x0 sz))
  | .amoAnd a b c sz => some (c3Fields 0x18 a b c (amoMinor 0x1 sz))
  | .amoOr a b c sz => some (c3Fields 0x18 a b c (amoMinor 0x2 sz))
  | .amoXor a b c sz => some (c3Fields 0x18 a b c (amoMinor 0x3 sz))
  | .amoMin a b c sz => some (c3Fields 0x18 a b c (amoMinor 0x4 sz))
  | .amoMax a b c sz => some (c3Fields 0x18 a b c (amoMinor 0x5 sz))
  | .amoMinn a b c sz => some (c3Fields 0x18 a b c (amoMinor 0x6 sz))
  | .amoMaxn a b c sz => some (c3Fields 0x18 a b c (amoMinor 0x7 sz))
  | .amoSwap a b c sz => some (c3Fields 0x18 a b c (amoMinor 0x8 sz))
  | .amoCas a b c sz => some (c3Fields 0x18 a b c (amoMinor 0x9 sz))
  | .amoIncw a b c sz => some (c3Fields 0x18 a b c (amoMinor 0xA sz))
  | .amoFaddb a b c sz => some (c3Fields 0x18 a b c (amoMinor 0xB sz))
  | .amoFadd a b c sz => some (c3Fields 0x18 a b c (amoMinor 0xC sz))
  | .redAdd b c sz => some (c3Fields 0x19 0 b c (amoMinor 0x0 sz))
  | .redAnd b c sz => some (c3Fields 0x19 0 b c (amoMinor 0x1 sz))
  | .redOr b c sz => some (c3Fields 0x19 0 b c (amoMinor 0x2 sz))
  | .redXor b c sz => some (c3Fields 0x19 0 b c (amoMinor 0x3 sz))
  | .redMin b c sz => some (c3Fields 0x19 0 b c (amoMinor 0x4 sz))
  | .redMax b c sz => some (c3Fields 0x19 0 b c (amoMinor 0x5 sz))
  | .redMinn b c sz => some (c3Fields 0x19 0 b c (amoMinor 0x6 sz))
  | .redMaxn b c sz => some (c3Fields 0x19 0 b c (amoMinor 0x7 sz))
  | .redIncw b c sz => some (c3Fields 0x19 0 b c (amoMinor 0xA sz))
  | .redFaddb b c sz => some (c3Fields 0x19 0 b c (amoMinor 0xB sz))
  | .redFadd b c sz => some (c3Fields 0x19 0 b c (amoMinor 0xC sz))
  | .amov b c sz => some (c3Fields 0x1A 0 b c (amoMinor 0x0 sz))
  | .depdec b imm => some (ciFields 0x1B 0 b imm)
  | .copy a b c h => some (c3Fields 0x20 a b c [(8, h.toNat)])
  | .copyx a b c => some (c3Fields 0x21 a b c [(8, 0)])
  | .copyo a b c h => some (c3Fields 0x22 a b c [(8, h.toNat)])
  | .brel a => some (ciImm 0x23 a 0 0)
  | .bset a b c => some (c3Fields 0x24 a b c [(8, 0)])
  | .stage b imm => some (ciFields 0x25 0 b imm)
  | .expect a b m g => some (ciImm 0x26 a b (m.toNat + 64 * g.toNat))
  | .arrive a m g => some (ciImm 0x27 a 0 (m.toNat + 64 * g.toNat))
  | .arriveInit a b m g => some (ciImm 0x27 a b (m.toNat + 64 * g.toNat + 128))
  | .join a => some (ciImm 0x28 a 0 0)
  | .leave a => some (ciImm 0x29 a 0 0)
  | .gbar a => some (ciImm 0x2A a 0 0)
  | .ysend a slot => some (c3Fields 0x2B a 0 0 [(4, slot.toNat), (4, 0)])
  | .yrecv b slot => some (ciImm 0x2C 0 b slot.toNat)
  | .fence scope t => some (c3Fields 0x2D 0 0 0 [(3, scope.toNat), (1, t.toNat), (4, 0)])
  | .fencep scope p q =>
    some (c3Fields 0x2E (scope.setWidth 6) (q.setWidth 6) ((q >>> 6).setWidth 6) [(7, p.toNat), (1, 0)])
  | .prmx a b imm => some (ciFields 0x2F a b imm)
  | .spawn b => some (c3Fields 0x30 0 b 0 [(8, 0)])
  | .endTask => some (c3Fields 0x31 0 0 0 [(8, 0)])
  | .phase a => some (ciImm 0x32 a 0 0)
  | .ctopen a off => some (cjFields 0x33 0 a off)
  | .ctclose => some (c3Fields 0x34 0 0 0 [(8, 0)])
  | .trap b imm => some (ciFields 0x35 0 b imm)
  | .eret => some (c3Fields 0x36 0 0 0 [(8, 0)])
  | .hset b c => some (c3Fields 0x38 0 b c [(8, 0)])
  | .rlay b c tag => some (c3Fields 0x39 0 b c [(5, 0), (3, tag.toNat)])
  | .tenc a b c fmt v16l auto =>
    some (c3Fields 0x3A a b c [(1, v16l.toNat), (1, auto.toNat), (3, 0), (3, fmt.toNat)])
  | .rset g b => some (c3Fields 0x3B (g.setWidth 6) b 0 [(8, 0)])
  | .mfs a n => some (ciImm 0x3C a 0 n.toNat)
  | .mts a n => some (ciImm 0x3D a 0 n.toNat)
  | .hsnap a => some (c3Fields 0x3E a 0 0 [(8, 0)])
  | _ => none

/-- The atomic of a minor code (R188). -/
def amoInstr (m : Nat) (a b c : BitVec 6) (sz : BitVec 1) : Option Instr :=
  match m with
  | 0x0 => some (.amoAdd a b c sz)
  | 0x1 => some (.amoAnd a b c sz)
  | 0x2 => some (.amoOr a b c sz)
  | 0x3 => some (.amoXor a b c sz)
  | 0x4 => some (.amoMin a b c sz)
  | 0x5 => some (.amoMax a b c sz)
  | 0x6 => some (.amoMinn a b c sz)
  | 0x7 => some (.amoMaxn a b c sz)
  | 0x8 => some (.amoSwap a b c sz)
  | 0x9 => some (.amoCas a b c sz)
  | 0xA => some (.amoIncw a b c sz)
  | 0xB => some (.amoFaddb a b c sz)
  | 0xC => some (.amoFadd a b c sz)
  | _ => none

/-- The posted atomic of a minor code (R188). -/
def redInstr (m : Nat) (b c : BitVec 6) (sz : BitVec 1) : Option Instr :=
  match m with
  | 0x0 => some (.redAdd b c sz)
  | 0x1 => some (.redAnd b c sz)
  | 0x2 => some (.redOr b c sz)
  | 0x3 => some (.redXor b c sz)
  | 0x4 => some (.redMin b c sz)
  | 0x5 => some (.redMax b c sz)
  | 0x6 => some (.redMinn b c sz)
  | 0x7 => some (.redMaxn b c sz)
  | 0xA => some (.redIncw b c sz)
  | 0xB => some (.redFaddb b c sz)
  | 0xC => some (.redFadd b c sz)
  | _ => none

/-- The instruction that the fields of a C word name, before unused fields and limits are checked (R33). -/
def rawC (w : Nat) : Option Instr :=
  let a := BitVec.ofNat 6 (w / 0x100000)
  let b := BitVec.ofNat 6 (w / 0x4000)
  let c := BitVec.ofNat 6 (w / 0x100)
  let ja := BitVec.ofNat 6 (w / 0x10000)
  let off := BitVec.ofNat 16 w
  let imm : CImm := { l := BitVec.ofNat 1 (w / 0x2000), imm := BitVec.ofNat 13 w }
  let h := BitVec.ofNat 8 w
  let vw := BitVec.ofNat 2 (w / 0x800)
  let vb := BitVec.ofNat 1 (w / 0x400)
  let vo := BitVec.ofNat 10 w
  let m := BitVec.ofNat 6 w
  let g := BitVec.ofNat 1 (w / 0x40)
  let sz := BitVec.ofNat 1 (w / 0x80)
  match w / 0x4000000 % 64 with
  | 0x01 => some (.br (BitVec.ofNat 4 (w / 0x400000)) ja off)
  | 0x02 => some (.jmp off)
  | 0x03 => some (.jmpr b imm)
  | 0x04 => some (.call off)
  | 0x05 => some (.callr off)
  | 0x06 => some (.ret b)
  | 0x07 => some (.loop ja off)
  | 0x08 => some (.ld a b imm)
  | 0x09 => some (.ldx a b c (BitVec.ofNat 3 w) (BitVec.ofNat 2 (w / 8)))
  | 0x0A => some (.lds a b imm)
  | 0x0B => some (.chkp a b)
  | 0x0C => some (.st a b imm)
  | 0x0D => some (.stx a b c (BitVec.ofNat 3 w) (BitVec.ofNat 2 (w / 8)))
  | 0x0E => some (.pref (BitVec.ofNat 2 (w / 0x100000)) b imm)
  | 0x0F => some (.ipref off)
  | 0x10 => some (.vld a b vw vb vo)
  | 0x11 => some (.vst a b vw vb vo)
  | 0x12 => some (.vldh a b c (BitVec.ofNat 2 (w / 64)))
  | 0x13 => some (.vsth a b c (BitVec.ofNat 2 (w / 64)))
  | 0x14 =>
    some (.vgath a b c (BitVec.ofNat 3 (w / 32)) (BitVec.ofNat 2 (w / 8)) (BitVec.ofNat 1 (w / 4)) (BitVec.ofNat 2 w))
  | 0x15 =>
    some (.vscat a b c (BitVec.ofNat 3 (w / 32)) (BitVec.ofNat 2 (w / 8)) (BitVec.ofNat 1 (w / 4)) (BitVec.ofNat 2 w))
  | 0x16 => some (.vlds a b vw vb vo)
  | 0x17 => some (.vchkp a b (BitVec.ofNat 2 w))
  | 0x18 => amoInstr (w % 32) a b c sz
  | 0x19 => redInstr (w % 32) b c sz
  | 0x1A => some (.amov b c sz)
  | 0x1B => some (.depdec b imm)
  | 0x20 => some (.copy a b c h)
  | 0x21 => some (.copyx a b c)
  | 0x22 => some (.copyo a b c h)
  | 0x23 => some (.brel a)
  | 0x24 => some (.bset a b c)
  | 0x25 => some (.stage b imm)
  | 0x26 => some (.expect a b m g)
  | 0x27 => if w / 0x80 % 2 = 1 then some (.arriveInit a b m g) else some (.arrive a m g)
  | 0x28 => some (.join a)
  | 0x29 => some (.leave a)
  | 0x2A => some (.gbar a)
  | 0x2B => some (.ysend a (BitVec.ofNat 4 w))
  | 0x2C => some (.yrecv b (BitVec.ofNat 4 w))
  | 0x2D => some (.fence (BitVec.ofNat 3 w) (BitVec.ofNat 1 (w / 8)))
  | 0x2E =>
    some (.fencep (BitVec.ofNat 3 (w / 0x100000)) (BitVec.ofNat 7 w)
      (BitVec.ofNat 7 (w / 0x4000 % 64 + 64 * (w / 0x100 % 2))))
  | 0x2F => some (.prmx a b imm)
  | 0x30 => some (.spawn b)
  | 0x31 => some .endTask
  | 0x32 => some (.phase a)
  | 0x33 => some (.ctopen ja off)
  | 0x34 => some .ctclose
  | 0x35 => some (.trap b imm)
  | 0x36 => some .eret
  | 0x38 => some (.hset b c)
  | 0x39 => some (.rlay b c (BitVec.ofNat 3 (w / 32)))
  | 0x3A => some (.tenc a b c (BitVec.ofNat 3 (w / 32)) (BitVec.ofNat 1 w) (BitVec.ofNat 1 (w / 2)))
  | 0x3B => some (.rset (BitVec.ofNat 3 (w / 0x100000)) b)
  | 0x3C => some (.mfs a (BitVec.ofNat 13 w))
  | 0x3D => some (.mts a (BitVec.ofNat 13 w))
  | 0x3E => some (.hsnap a)
  | _ => none

/-- The word that fields make. -/
def wordOf (fs : Option (List (Nat × Nat))) : Option Nat := fs.map pack

/-- An instruction is taken only when its own encoding is the word, so that every unused field is zero, and when its
fields are within their limits (R32, R38). -/
def checked (enc : Instr → Option (List (Nat × Nat))) (w : Nat) (i : Option Instr) : Option Instr :=
  match i with
  | some i => if wordOf (enc i) = some w ∧ i.wf = true then some i else none
  | none => none

/-- The instruction of a C word (R33, R38). -/
def decodeC (w : W32) : Option Instr := checked Instr.cFields w.toNat (rawC w.toNat)

/-! ## M and W slots -/

/-- The fields of an M slot (R34, R149), lowest first. -/
def Instr.mFields : Instr → Option (List (Nat × Nat))
  | .mzero op hold i32 => some [(1, i32.toNat), (5, 0), (1, hold.toNat), (2, op.toNat), (3, 0), (4, 0x1)]
  | .mpush g => some [(9, 0), (3, g.toNat), (4, 0x2)]
  | .mflip => some [(12, 0), (4, 0x3)]
  | .mstrm g op hold => some [(6, 0), (1, hold.toNat), (2, op.toNat), (3, g.toNat), (4, 0x4)]
  | .mdrain adv scl fmt clr quad part =>
    some [(2, part.toNat), (4, quad.toNat), (1, clr.toNat), (2, fmt.toNat), (1, scl.toNat), (1, adv.toNat), (1, 0),
      (4, 0x5)]
  | .mret g => some [(9, 0), (3, g.toNat), (4, 0x6)]
  | .mskip g n => some [(7, n.toNat), (2, 0), (3, g.toNat), (4, 0x7)]
  | .mpad kv => some [(7, kv.toNat), (5, 0), (4, 0x8)]
  | .mscl g => some [(9, 0), (3, g.toNat), (4, 0x9)]
  | _ => none

/-- The beat that an M slot names (R34). -/
def rawM (w : Nat) : Option Instr :=
  let g := BitVec.ofNat 3 (w / 0x200)
  let op := BitVec.ofNat 2 (w / 0x80)
  let hold := BitVec.ofNat 1 (w / 0x40)
  match w / 0x1000 % 16 with
  | 0x1 => some (.mzero op hold (BitVec.ofNat 1 w))
  | 0x2 => some (.mpush g)
  | 0x3 => some .mflip
  | 0x4 => some (.mstrm g op hold)
  | 0x5 =>
    some (.mdrain (BitVec.ofNat 1 (w / 0x400)) (BitVec.ofNat 1 (w / 0x200)) op hold (BitVec.ofNat 4 (w / 4))
      (BitVec.ofNat 2 w))
  | 0x6 => some (.mret g)
  | 0x7 => some (.mskip g (BitVec.ofNat 7 w))
  | 0x8 => some (.mpad (BitVec.ofNat 7 w))
  | 0x9 => some (.mscl g)
  | _ => none

def decodeM (w : BitVec 16) : Option Instr := checked Instr.mFields w.toNat (rawM w.toNat)

/-- The fields of a W slot (R35), lowest first. -/
def Instr.wFields : Instr → Option (List (Nat × Nat))
  | .waitFull b => some [(6, b.toNat), (6, 0), (4, 0x1)]
  | .waitFree b => some [(6, b.toNat), (6, 0), (4, 0x2)]
  | .waitCyc a => some [(6, a.toNat), (6, 0), (4, 0x3)]
  | .waitCycLiteral l => some [(2, l.toNat), (10, 0), (4, 0x4)]
  | .waitReg k n => some [(6, n.toNat), (2, k.toNat), (4, 0), (4, 0x5)]
  | .waitBar p b => some [(6, b.toNat), (1, p.toNat), (1, 0), (4, 0), (4, 0x6)]
  | .waitBarGang p l => some [(2, l.toNat), (4, 0), (1, p.toNat), (1, 1), (4, 0), (4, 0x6)]
  | .waitRing g n => some [(9, n.toNat), (3, g.toNat), (4, 0x7)]
  | .waitSpace g => some [(9, 0), (3, g.toNat), (4, 0x8)]
  | .waitGroup g => some [(6, g.toNat), (6, 0), (4, 0x9)]
  | .waitTrellis => some [(12, 0), (4, 0xA)]
  | .waitYslot slot => some [(4, slot.toNat), (8, 0), (4, 0xB)]
  | _ => none

/-- The wait that a W slot names (R35). -/
def rawW (w : Nat) : Option Instr :=
  let n6 := BitVec.ofNat 6 w
  let g := BitVec.ofNat 3 (w / 0x200)
  match w / 0x1000 % 16 with
  | 0x1 => some (.waitFull n6)
  | 0x2 => some (.waitFree n6)
  | 0x3 => some (.waitCyc n6)
  | 0x4 => some (.waitCycLiteral (BitVec.ofNat 2 w))
  | 0x5 => some (.waitReg (BitVec.ofNat 2 (w / 64)) n6)
  | 0x6 =>
    if w / 0x80 % 2 = 1 then some (.waitBarGang (BitVec.ofNat 1 (w / 64)) (BitVec.ofNat 2 w))
    else some (.waitBar (BitVec.ofNat 1 (w / 64)) n6)
  | 0x7 => some (.waitRing g (BitVec.ofNat 9 w))
  | 0x8 => some (.waitSpace g)
  | 0x9 => some (.waitGroup n6)
  | 0xA => some .waitTrellis
  | 0xB => some (.waitYslot (BitVec.ofNat 4 w))
  | _ => none

def decodeW (w : BitVec 16) : Option Instr := checked Instr.wFields w.toNat (rawW w.toNat)

/-! ## S and V slots -/

/-- The fields of a source, lowest first (R62). -/
def Src.fields (x : Src) : List (Nat × Nat) :=
  [(1, x.abs.toNat), (1, x.neg.toNat), (1, x.pol.toNat), (6, x.num.toNat), (2, x.kind.toNat)]

/-- The fields of a control word, lowest first (R62). -/
def hcwFields (op : Nat) (h : Hcw) : List (Nat × Nat) :=
  [(154, 0), (16, h.aux.toNat), (4, h.stride.toNat), (8, h.rep.toNat), (5, h.ty2.toNat), (3, 0)] ++
    h.c.fields ++ h.b.fields ++ h.a.fields ++
    [(6, h.dn.toNat), (2, h.dk.toNat), (1, h.z.toNat), (3, h.mask.toNat), (1, h.sat.toNat), (3, h.rm.toNat),
      (2, h.base.toNat), (2, h.width.toNat), (5, h.ty.toNat), (8, op)]

/-- Widths of a source's fields and of a control word's. -/
def srcWidths : List Nat := [1, 1, 1, 6, 2]
def hcwWidths : List Nat :=
  [154, 16, 4, 8, 5, 3] ++ srcWidths ++ srcWidths ++ srcWidths ++ [6, 2, 1, 3, 1, 3, 2, 2, 5, 8]

/-- A source from its fields. -/
def srcOf (abs neg pol num kind : Nat) : Src :=
  { kind := BitVec.ofNat 2 kind, num := BitVec.ofNat 6 num, pol := BitVec.ofNat 1 pol, neg := BitVec.ofNat 1 neg,
    abs := BitVec.ofNat 1 abs }

/-- Opcode and control word of 256 bits; `none` where a zero field is not zero (R63). -/
def hcwOf (raw : Nat) : Option (Nat × Hcw) :=
  match unpack hcwWidths raw with
  | [z0, aux, stride, rep, ty2, z1, ca, cn, cp, cu, ck, ba, bn, bp, bu, bk, aa, an, ap, au, ak, dn, dk, z, mask, sat,
      rm, base, width, ty, op] =>
    if z0 = 0 ∧ z1 = 0 then
      some (op,
        { ty := BitVec.ofNat 5 ty, width := BitVec.ofNat 2 width, base := BitVec.ofNat 2 base, rm := BitVec.ofNat 3 rm,
          sat := BitVec.ofNat 1 sat, mask := BitVec.ofNat 3 mask, z := BitVec.ofNat 1 z, dk := BitVec.ofNat 2 dk,
          dn := BitVec.ofNat 6 dn, a := srcOf aa an ap au ak, b := srcOf ba bn bp bu bk, c := srcOf ca cn cp cu ck,
          ty2 := BitVec.ofNat 5 ty2, rep := BitVec.ofNat 8 rep, stride := BitVec.ofNat 4 stride,
          aux := BitVec.ofNat 16 aux })
    else none
  | _ => none

/-- The fields of a slot word, lowest first (R60). -/
def slotFields (q : SlotOp) : List (Nat × Nat) := [(3, q.ovr.toNat), (4, q.bank.toNat), (9, q.idx.toNat)]

/-- The operation of an S or V slot, given the control word its index names (R60-R63). -/
def decodeH (slot : Slot) (s : BitVec 16) (raw : W256) : Option Instr :=
  match hcwOf raw.toNat with
  | some (op, h) =>
    let q : SlotOp :=
      { slot, idx := BitVec.ofNat 9 (s.toNat / 128), bank := BitVec.ofNat 4 (s.toNat / 8), ovr := BitVec.ofNat 3 s.toNat,
        h }
    match hcwInstr op q with
    | some i => if i.wf = true then some i else none
    | none => none
  | none => none

/-! ## The words of an instruction -/

/-- What an instruction is written as: the no-op header, a C word, an M or W slot, or a slot with its control word. -/
inductive Code where
  | nop
  | c (w : W32)
  | m (w : BitVec 16)
  | w (w : BitVec 16)
  | h (slot : Slot) (s : BitVec 16) (raw : W256)
  deriving DecidableEq, Repr

/-- The words of an instruction; an event has none. -/
def encode (i : Instr) : Option Code :=
  match i with
  | .nop => some .nop
  | i =>
    match i.cFields, i.mFields, i.wFields, i.hcw? with
    | some fs, _, _, _ => some (.c (BitVec.ofNat 32 (pack fs)))
    | _, some fs, _, _ => some (.m (BitVec.ofNat 16 (pack fs)))
    | _, _, some fs, _ => some (.w (BitVec.ofNat 16 (pack fs)))
    | _, _, _, some (op, q) =>
      some (.h q.slot (BitVec.ofNat 16 (pack (slotFields q))) (BitVec.ofNat 256 (pack (hcwFields op q.h))))
    | _, _, _, _ => none

/-- The instruction that words stand for. -/
def decodeCode : Code → Option Instr
  | .nop => some .nop
  | .c w => decodeC w
  | .m w => decodeM w
  | .w w => decodeW w
  | .h slot s raw => decodeH slot s raw

/-! ## Bundles (R14-R18) -/

/-- A slot of a bundle: where it stands, its encoding (the trap value of cause 0x02, R337), its instruction if it is legal. -/
structure BundleOp where
  slot : Slot
  enc : W32
  i : Option Instr
  deriving DecidableEq, Repr

/-- A bundle as decoded: its literal pool, gap, mark, length in words and slots in the order of R10. -/
structure Bundle where
  lits : List W32
  gap : Nat
  y : Bool
  words : Nat
  ops : List BundleOp
  deriving DecidableEq, Repr

/-- The outcome of decoding: a bundle, or an illegal one (cause 0x01) by its header. -/
inductive Decoded where
  | bundle (b : Bundle)
  | illegal (header : W32)
  deriving DecidableEq, Repr

/-- The 16-bit slots a header marks present, in the order of R16. -/
def presentSlots (h : Nat) : List Slot :=
  (if h / 2 ^ 28 % 2 = 1 then [.s] else []) ++ (if h / 2 ^ 27 % 2 = 1 then [.v0] else []) ++
    (if h / 2 ^ 26 % 2 = 1 then [.v1] else []) ++ (if h / 2 ^ 25 % 2 = 1 then [.v2] else []) ++
    (if h / 2 ^ 24 % 2 = 1 then [.m] else []) ++ (if h / 2 ^ 23 % 2 = 1 then [.w] else [])

/-- Whether a header marks the C slot present. -/
def hasC (h : Nat) : Bool := h / 2 ^ 29 % 2 == 1

/-- A bundle's length in words (R16). -/
def bundleWords (h : Nat) : Nat :=
  1 + (if hasC h then 1 else 0) + ((presentSlots h).length + 1) / 2 + h / 2 ^ 20 % 8

/-- A header that R38 lets stand: form 01, at most four literals, zero bits zero. -/
def headerOk (h : Nat) : Bool :=
  h / 2 ^ 30 % 4 == 1 && decide (h / 2 ^ 20 % 8 ≤ 4) && h % 2 ^ 15 == 0

/-- The halfwords of words, low half first (R16). -/
def halves : List W32 → List (BitVec 16)
  | [] => []
  | w :: ws => BitVec.ofNat 16 w.toNat :: BitVec.ofNat 16 (w.toNat / 65536) :: halves ws

/-- A 16-bit slot decoded on its own. -/
def decode16 (slot : Slot) (s : BitVec 16) (table : Nat → W256) : Option Instr :=
  match slot with
  | .m => decodeM s
  | .w => decodeW s
  | _ => decodeH slot s (table (s.toNat / 128))

/-- The slots decoded in order: a literal beyond the pool, a lane group claimed twice or still held by a repetition, or a
held S slot makes a slot illegal (R18, R72, R75). -/
def decodeSlots (l : Nat) (table : Nat → W256) (heldS : Bool) :
    Nat → List (Slot × BitVec 16) → List BundleOp
  | _, [] => []
  | claimed, (slot, s) :: rest =>
    let i := decode16 slot s table
    let need := match i.bind Instr.hcw? with
      | some (op, q) => lanes op q
      | none => 0
    let ok : Bool := match i with
      | some j => j.litsOk l && decide (need &&& claimed = 0) && !(slot == .s && heldS)
      | none => false
    { slot, enc := BitVec.ofNat 32 s.toNat, i := if ok then i else none } ::
      decodeSlots l table heldS (claimed ||| need) rest

/-- The bundle that starts at an address, from the words of its line from there on (R14-R18, R37 steps 2 and 3).
`held` is the mask of lane groups still held by repetitions (R75). -/
def decodeBundle (addr : Nat) (ws : List W32) (table : Nat → W256) (held : Nat) (heldS : Bool) : Decoded :=
  match ws with
  | [] => .illegal 0
  | hd :: rest =>
    let h := hd.toNat
    let n := bundleWords h
    if headerOk h = false ∨ addr % 256 + 4 * n > 256 ∨ ws.length < n then .illegal hd
    else
      let ss := presentSlots h
      let l := h / 2 ^ 20 % 8
      let cw := rest.head?.getD 0
      let body := if hasC h then rest.drop 1 else rest
      let nw := (ss.length + 1) / 2
      let hs := halves (body.take nw)
      if (hs.drop ss.length).any (· != 0) then .illegal hd
      else if h / 2 ^ 23 % 128 = 0 then
        .bundle { lits := (body.drop nw).take l, gap := h / 2 ^ 16 % 16, y := h / 2 ^ 15 % 2 == 1, words := n, ops := [] }
      else
        let c :=
          if hasC h then
            let i := decodeC cw
            [{ slot := .c, enc := cw, i := if optAll i (·.litsOk l) then i else none : BundleOp }]
          else []
        .bundle { lits := (body.drop nw).take l, gap := h / 2 ^ 16 % 16, y := h / 2 ^ 15 % 2 == 1, words := n,
                  ops := c ++ decodeSlots l table heldS held (ss.zip hs) }

/-! ## The host's word -/

/-- The instruction that the decoder reads from a row's bits, as the opcode table numbers them: 32 bits are the no-op header
or a C word, 16 bits an M slot or, failing that, a W slot (log 2). -/
def decodeTableWord (nbits w : Nat) : Option Instr :=
  if nbits = 32 then
    if w % 2 ^ 32 = 0x40000000 then some .nop else decodeC (BitVec.ofNat 32 w)
  else if nbits = 16 then
    match decodeM (BitVec.ofNat 16 w) with
    | some i => some i
    | none => decodeW (BitVec.ofNat 16 w)
  else none

end Sys2Proof
end

