-- ==== Sys2Proof/Config.lean ====
section
/-!
DEFINITION. What an implementation fixes and the free values: opaque constants without a body, so that nothing in Lean can
evaluate one or prove a value of it (assumption log 5).
-/
namespace Sys2Proof.Config

/-- FREE VALUE (log 5): a value the spec leaves open, by the counter `State.fresh`. -/
opaque freeWord : Nat → W64
/-- FREE VALUE (log 5): a vector register's worth of bits the spec leaves open. -/
opaque freeVec : Nat → W256
/-- FREE VALUE (log 8): the index function of a home slice's 4,096 sets, by line (12 R223). -/
opaque lineIndex : Nat → BitVec 12
/-- FREE VALUE (log 5): the class λ of a copy whose farther end lies in host or peer memory, by physical address (14 R252). -/
opaque farClass : Nat → W64
/-- FREE VALUE (log 5): the requester ID of the peer that a host-port address reaches (27 R375). -/
opaque peerRid : Nat → BitVec 16
/-- FREE VALUE (log 5): the Mantle's signature of an attestation request (28 R390): nonce, digests, service level, module number. -/
opaque signature : W256 → List (BitVec 512) → BitVec 2 → BitVec 8 → BitVec 1056
/-- FREE VALUE (log 5): the digest of the Mantle's firmware (28 R390), and of a configuration record, whose layout the spec does not
give (28 R388). -/
opaque firmwareDigest : BitVec 512
opaque recordDigest : Option ConfigCopy → BitVec 512
/-- FREE VALUE (log 5): the program store that comes with a substitution table (21 R319): its bytes. -/
opaque progStore : List SubstEntry → List Byte

end Sys2Proof.Config
end

