-- ==== Sys2Proof/Machine/State.lean ====
section
/-!
DEFINITION. The state of a KM-C64 module as plain data: the spans of R3 (bundle, task, context, module), the core
hardware, the queues of every engine, and the model's own agenda. INVENTORY.md lists each piece with its rule.
-/
namespace Sys2Proof.Machine

/-! ## Registers and their flags -/

/-- A register as a gate and a mark name it; s, v and k carry a full/empty bit (R24). -/
inductive RegId where
  | s (n : BitVec 6)
  | v (n : BitVec 6)
  | k (n : BitVec 3)
  /-- a tile register, which has no full/empty bit and can only be marked (R369) -/
  | x (n : BitVec 3)
  deriving DecidableEq, Repr

/-- The register files (R6): unlisted registers hold zero; x is keyed by 32·tile + row. -/
structure Regs where
  s : Sp W64
  v : Sp W256
  k : Sp W128
  x : Sp W256
  wl : Sp W32
  deriving DecidableEq, Repr

/-- A register group left empty and marked by a poisoned load (0x0B, R176, R369) or a breach of phase isolation
(0x19, R313), with the trap value its first reader takes. -/
structure Mark where
  regs : List RegId
  cause : BitVec 8
  addr : W64
  deriving DecidableEq, Repr

/-- The flag file: empty bits (1 = empty, R24), poison tags (R180) and marks (R176). -/
structure FlagFile where
  sE : W64
  vE : W64
  kE : BitVec 8
  tagS : Sp (BitVec 3)
  tagV : Sp (BitVec 3)
  marks : List Mark
  deriving DecidableEq, Repr

/-- The system registers of R217, by field; `sys.ctdepth` is the number of open regions and `sys.lt` the core's lt. -/
structure SysRegs where
  trapvec : W64
  cause : W64
  epc : W64
  tval : W64
  sa : BitVec 8
  da : BitVec 8
  rp : BitVec 7
  kv : BitVec 7
  stage : W32
  cvs : BitVec 5
  rqkey : W64
  rqctr : W64
  split : BitVec 3
  h : Bool
  prv : Bool
  ph : Bool
  log : Bool
  rpl : Bool
  hs : Bool
  deriving DecidableEq, Repr

/-! ## The matrix unit (R136) -/

/-- The class of a weight plane (R144). -/
inductive PClass where
  | b4 | b8 | b16
  deriving DecidableEq, Repr

/-- An accumulator row: tag, SATF, poison mark (R369), 128 columns. -/
structure AccRow where
  i32 : Bool
  satf : Bool
  bad : Bool
  vals : RowBits
  deriving DecidableEq, Repr

/-- A row of a weight plane: integer bit, exact weights by column (w1 for the odd k of the 4-bit class), poison mark. -/
structure PlaneRow where
  int : Bool
  w0 : List Val
  w1 : List Val
  bad : Bool
  deriving DecidableEq, Repr

structure Plane where
  cls : PClass
  rows : Sp PlaneRow
  deriving DecidableEq, Repr

/-- The 64-byte MS pieces that an engine has read, by address ÷ 64, with their bytes, poison and time (R233). -/
abbrev MsGot : Type := List (Nat × List Byte × Bool × Time)

/-- The V16L table copy of a Fertite ring (R146). -/
inductive V16 where
  | none
  /-- being read, with the 64-byte MS pieces that have been (R233, R355) -/
  | loading (table : W64) (l : Time) (got : MsGot := [])
  | ready (bytes : List Byte)
  /-- the cause of a failed translation or protection, 0x0B where a byte of the table is poisoned, and what SUB adds (R343) -/
  | failed (cause : BitVec 8) (table : W64) (sub : BitVec 8 := 0)
  deriving DecidableEq, Repr

structure Matrix where
  acc : Sp AccRow
  active : Plane
  shadow : Plane
  clsSet : Bool
  cs : Sp W32
  rings : Sp W64
  v16 : Sp V16
  deriving DecidableEq, Repr

/-! ## Results in flight (R23, R330) -/

/-- A landing in an accumulator row, not yet folded in (R330). -/
inductive AccUpd where
  | init (i32 : Bool) (vals : RowBits)
  /-- the beat's sums; under a FREE native also the terms of each column (R325), elsewhere none -/
  | beat (op : BitVec 2) (i32 : Bool) (t : RowBits) (terms : List (List Val))
  deriving DecidableEq, Repr

/-- What a fixed-latency result does when it lands. -/
inductive Effect where
  | nothing
  | s (n : BitVec 6) (x : W64)
  | v (n : BitVec 6) (x : W256)
  | k (n : BitVec 3) (x : W128)
  | x (key : Nat) (x : W256)
  | acc (row : BitVec 8) (u : AccUpd)
  | plane (row : Nat) (r : PlaneRow) (clear : Option PClass)
  | swap
  | cs (x : RowBits)
  | sys (n : Nat) (x : W64)
  | ring (g : BitVec 3) (x : W64) (l : Time)
  | buf (b : BitVec 6) (w0 w1 : W64)
  | handle (pa : Nat) (words : List W64)
  | latch (off : Nat) (x : BitVec 1024) (bad : Bool) (t : Time)
  | tagged (r : RegId) (t : BitVec 3)
  /-- a long-latency result that fills its register -/
  | fill (n : BitVec 6) (x : W64)
  deriving DecidableEq, Repr

/-- A result in flight: its landing cycle, its place in the order of R27 (bundle, slot, repetition), its effect and
the flags ORed into `sys.cvs` with it (R52). -/
structure Flight where
  due : Nat
  seq : Nat
  slot : Nat
  rep : Nat
  eff : Effect
  flags : BitVec 5
  deriving DecidableEq, Repr

/-! ## The bundle at hand -/

/-- What has become of the bundle at hand: it issues, it is held (R21), or it trapped (R37). -/
inductive BunSt where
  | issued | held | trapped
  deriving DecidableEq, Repr

/-- The bundle-span state of R3: where the bundle stands, its literals, its gap and mark; which ring its M slot pops
(R274); whether all its slots have passed the issue checks (R22); the repetition a repeated slot is at (R74). -/
structure Bun where
  addr : W64
  next : W64
  lits : List W32
  gap : Nat
  y : Bool
  mret : Option (BitVec 3)
  issuing : Bool
  st : BunSt
  rep : Nat
  seq : Nat
  deriving DecidableEq, Repr

/-- A callr whose lookup is due in its second delay bundle (R317, R318). -/
structure CallrWait where
  digest : BitVec 128
  free : Bool
  sf : Bool
  entry : W64
  nb : Nat
  outs : W64
  outv : W64
  yd : Nat
  deriving DecidableEq, Repr

/-- A pending delayed transfer (R31): the decision, the target, the delay bundles still to issue; for a `callr` what its lookup
needs (R318). -/
structure Xfer where
  taken : Bool
  target : W64
  left : Nat
  callr : Option CallrWait
  deriving DecidableEq, Repr

/-- A trap about to be delivered (R337). -/
structure Trap where
  cause : BitVec 8
  slot : Slot
  tval : W64
  sub : BitVec 8
  /-- bytes of the access that is refused, whose walks have read the tables (R344) -/
  n : Nat := 1
  deriving DecidableEq, Repr

/-- The deferred posted-operation fault record (R346, R333). -/
structure Dpf where
  addr : W64
  sub : BitVec 8
  bun : W64
  more : Bool
  /-- the posting bundle's place in issue order -/
  seq : Nat
  deriving DecidableEq, Repr

/-- Repetitions of a repeated slot not yet run (R74, R75). -/
structure Rep where
  i : Instr
  bun : Bun
  at_ : Int
  last : Nat
  deriving DecidableEq, Repr

/-- Where a value that float additions formed under a FREE native stands (R325). -/
inductive ChainAt where
  | reg (r : RegId)
  | acc (row : BitVec 8)
  deriving DecidableEq, Repr

/-- Terms that are added, with the roundings that the listing makes between them: each a mode and a format (R325). -/
structure Part where
  terms : List Val
  rounds : List (Nat × Nat)
  deriving DecidableEq, Repr

/-- A value that a chain of additions has left, by place, bit offset and encoding, and the write that put it there: its bundle's place
in issue order, its slot and repetition. -/
structure Chain where
  at_ : ChainAt
  off : Nat
  bits : Nat
  part : Part
  key : Nat × Nat × Nat := (0, 0, 0)
  deriving DecidableEq, Repr

/-- Where a native stands (R320-R324): at a mapped point it has just reached; on its way to the next; on its way there at a
pre-empt request; stopped for one; or with the bundles up to the next mapped point run. -/
inductive NatSt where
  | point | running | last | stopped | ran
  deriving DecidableEq, Repr

/-- A native run in progress (R320): its grade, the entry, the routine it stands for, the result registers and the yield distance of
the call's descriptor; where it stands and the cycle in which its next mapped point can be reached; the place in issue order of the
call's last delay bundle; what its float additions have formed, with the write that each register they may stand in holds; and the result
registers that the listing leaves empty at the mapped point where it stands. -/
structure Native where
  grade : BitVec 2
  entry : W64
  routine : Routine
  outs : W64
  outv : W64
  yd : Nat
  st : NatSt
  due : Nat
  seq : Nat
  chains : List Chain
  writers : List (RegId × (Nat × Nat × Nat)) := []
  empty : List RegId := []
  /-- how often the way to the next mapped point has proved longer than what was tried: each try goes twice as far -/
  tries : Nat := 0
  deriving DecidableEq, Repr

/-- A containment region's record (R210, R348). -/
structure Region where
  handler : W64
  first : BitVec 6
  vals : List W64
  rings : List W64
  deriving DecidableEq, Repr

/-- A containment unwind waiting for the long-latency results in flight (R211). -/
structure Unwind where
  bun : W64
  sub : BitVec 8
  slot : Slot
  tval : W64
  mark : Option Mark
  deriving DecidableEq, Repr

/-- A freeze in progress (R329): F, the step, whether the task is faulted out (R340), its PREQ or destroy. -/
structure Freeze where
  f : Nat
  gang : Bool
  fault : Option W64
  deriving DecidableEq, Repr

structure Ctl where
  pc : W64
  /-- E of the next bundle, before its own gap when `gapIn` is false (R21, R36) -/
  eBase : Nat
  gapIn : Bool
  xfer : Option Xfer
  latch : Option Xfer
  seq : Nat
  bun : Bun
  dpf : Option Dpf
  missed : List (BitVec 16)
  cterr : List (BitVec 16)
  regions : List Region
  unwind : Option Unwind
  native : Option Native
  freeze : Option Freeze
  /-- the task's `end` has issued: the steps of its retirement done so far (R13, R194) -/
  ending : Option Nat
  /-- the cycle ρ from which the task runs on this core (R308, R334) -/
  rho : Nat
  /-- a hold or a replayed Yoke point has moved the stream off its slots since its last Yoke bundle (R355, R366, R391) -/
  slip : Bool
  /-- a free value that stands in s63 for a link not known when its call issued, and the delay bundle whose words will give it (R28) -/
  owed63 : Option (W64 × W64)
  /-- the 64-byte MS pieces of a bitmap that the Topiary engine has zeroed for the `rlay` at hand, and when (R243, R355) -/
  zeroed : List (Nat × Time)
  deriving DecidableEq, Repr

/-! ## Queues of the core -/

/-- Where a byte of an access is performed (R263): this core's scratchpad, gang member m's, or a physical address,
with whether its page holds memory-side lines (R233), and the format of its window where that is a Fertite region (R227). -/
inductive Place where
  | own (off : Nat)
  | gang (m : Nat) (off : Nat)
  | glob (pa : Nat) (ms : Bool) (ft : Option Nat)
  deriving DecidableEq, Repr

structure Piece where
  at_ : Place
  len : Nat
  deriving DecidableEq, Repr

/-- One element of a load: its byte offset in the destination, its address, its pieces; for a handle read the bitmap bit that sends
it to other pieces, the handle's image, its words and the coordinates (R245); and what it has read, with its poison, where its unit has been
performed ahead of the rest (R265). -/
structure LdElem where
  off : Nat
  addr : W64
  pieces : List Piece
  alt : Option (Place × Nat × List Piece)
  from_ : Option (Nat × List W64 × List Nat) := none
  got : Option (List Byte × Bool) := none
  deriving DecidableEq, Repr

inductive LoadDst where
  | s (r : BitVec 6) (signed : Bool)
  | v (r : BitVec 6) (n : Nat)
  deriving DecidableEq, Repr

/-- An element that a posted store writes: its address and bytes. -/
structure StElem where
  addr : W64
  bytes : List Byte
  deriving DecidableEq, Repr

/-- An operation on the core path, in the task's issue order (R186). -/
inductive CoreOp where
  | load (dst : LoadDst) (addr : W64) (len : Nat) (keep : Bool) (elems : List LdElem) (spec : Bool)
  | amo (op : Nat) (dst : BitVec 6) (addr : W64) (at_ : Place) (size : Nat) (v v2 : W64)
  | store (elems : List StElem) (scalar : Bool)
  | hstore (img : Nat) (words : List W64) (elems : List (List Nat × List Byte))
  | red (op : Nat) (addr : W64) (size : Nat) (v v2 : W64)
  | depdec (addr : W64)
  | spawn (addr : W64)
  deriving DecidableEq, Repr

structure CqEntry where
  op : CoreOp
  bun : W64
  seq : Nat
  /-- the core's lt at issue, carried by scratchpad writes (R267) -/
  lt : Time
  /-- the cycle of issue -/
  start : Nat
  /-- scratchpad bytes that a vector store whose first units have been performed keeps locked (R274) -/
  locks : List Piece := []
  /-- its first units have been performed, under intents that were granted (R395) -/
  granted : Bool := false
  deriving DecidableEq, Repr

/-- A divide in a station (R89); one with a short random source waits until `ready` bits have been generated (R68). -/
structure Div where
  start : Int
  reg : BitVec 6
  val : W64
  ready : Nat
  deriving DecidableEq, Repr

/-- A pop waiting for random bits (R68): it fills once `ready` bits have been generated for the task. -/
structure RqPend where
  ready : Nat
  effs : List Effect
  flags : BitVec 5
  deriving DecidableEq, Repr

structure Queues where
  fly : List Flight
  placket : List Flight
  reps : List Rep
  cq : List CqEntry
  divs : List Div
  /-- random bits generated and reserved so far (R129): the queue holds the difference -/
  rqGen : Nat
  rqUsed : Nat
  rqPend : List RqPend
  /-- the last cycle in which the generator filled the queue -/
  rqCyc : Nat
  /-- destinations of `hsnap`s whose interval end is still to come (R218, R357) -/
  hq : List (BitVec 6)
  deriving DecidableEq, Repr

/-! ## Engines of the core -/

inductive BufSt where
  | free | filling | full | draining
  deriving DecidableEq, Repr

structure Buf where
  w0 : W64
  w1 : W64
  st : BufSt
  deriving DecidableEq, Repr

/-- A barrier (R204), with the largest times carried into the phase in progress and the completed one, where any has been
(R273). -/
structure Bar where
  exp : BitVec 16
  arr : BitVec 16
  pend : Int
  par : Bool
  tNow : Option Time
  tDone : Option Time
  deriving DecidableEq, Repr

/-- What a copy request does: fetch into a buffer, fetch into a ring slot, write a buffer back, or convert (R197-R199). -/
inductive CopyKind where
  | fetch
  | ring (g : BitVec 3) (slot : Nat) (reg : W64)
  | back
  | conv
  deriving DecidableEq, Repr

/-- What an engine's request has done so far: the largest time assigned, whether poison was withheld and a line of another module
written, the good writes and those that wrote poison, the bytes written, the ports written through, the times assigned to the lines and
64-byte pieces written (R266), the conversion flags; the indices of the units performed ahead of the rest (R265), and the 64-byte MS
pieces already read, with their time (R233). -/
structure Moved where
  t : Time := 0
  held : Bool := false
  far : Bool := false
  good : List (Nat × Nat) := []
  poor : List (Nat × Nat) := []
  wrote : Nat := 0
  peers : List Nat := []
  mine : Sp Time := []
  flags : BitVec 5 := 0
  done : List Nat := []
  got : MsGot := []
  deriving DecidableEq, Repr

/-- A request of the copy engine (R248): its tag, promise and check (R252, R253), its captured handle, coordinates
and buffer entry, or for `copyx` its descriptor quad and record address; and what it has moved ahead of its completion. -/
structure CopyReq where
  tag : BitVec 16
  kind : CopyKind
  active : Bool
  /-- its write intents were granted before a tray latch opened (R395) -/
  granted : Bool
  base : Time
  promise : Nat
  chk : Bool
  missed : Bool
  buf : BitVec 6
  w0 : W64
  w1 : W64
  handle : List W64
  img : Nat := 0
  xs : List Nat
  desc : List W64
  rcd : Option W64
  bytes : Nat
  bar : Option (Option Nat × BitVec 6)
  bun : W64
  seq : Nat
  moved : Moved := {}
  deriving DecidableEq, Repr

/-- A trellis request (R284). -/
structure TenReq where
  dst : BitVec 6
  fmt : Nat
  v16l : Bool
  auto : Bool
  e : Nat
  targets : List W32
  block : W64
  scale : W64
  base : Time
  bun : W64
  seq : Nat
  running : Bool
  table : Option (List Byte)
  /-- the table read failed (cause, and what SUB adds, R343) or met poison (0x0B) when the request started (R287) -/
  bad : BitVec 8
  sub : BitVec 8 := 0
  /-- the 64-byte MS pieces of the table that have been read, and what has been written: 0 the block, 1 the scale byte (R233, R355) -/
  got : MsGot := []
  done : List Nat := []
  deriving DecidableEq, Repr

/-- A conversion that this task's `rlay` started and that has not dropped its old base (R209): handle image, die. -/
structure Conv where
  img : Nat
  die : Nat
  deriving DecidableEq, Repr

/-- The task's membership of a group: the generation its latest `gbar` awaits (R206). -/
structure GroupMem where
  await : Option Nat
  deriving DecidableEq, Repr

/-- A completed copy's subtraction that its barrier has not taken yet (R205, R329): barrier, bytes, time, tag. -/
structure Owed where
  bar : Option Nat × BitVec 6
  bytes : Nat
  t : Time
  tag : BitVec 16
  deriving DecidableEq, Repr

structure Engines where
  bufs : Sp Buf
  bars : Sp Bar
  cpq : List CopyReq
  nextTag : BitVec 16
  owed : List Owed
  relp : Nat
  relStop : Bool
  ten : List TenReq
  groups : Sp GroupMem
  conv : List Conv
  /-- largest time assigned to completed operations of paths C, Y, M, B, L, T, F since a fence named them (R266) -/
  pathT : Sp Time
  /-- ports through which the task has posted writes since its last fence of scope SYSTEM (R270) -/
  portW : List Nat
  deriving DecidableEq, Repr

/-! ## The task and the core -/

/-- The task placed on a core: its record, context and gang, and what placement took from them (R297, R300, R308). -/
structure TaskId where
  rcd : Nat
  ctx : BitVec 12
  member : Nat
  n : Nat
  cores : List Nat
  ptroot : Nat
  troute : W32
  fws : List W64
  ymask : BitVec 16
  save : Nat
  level : Nat
  tcx : W32
  tcy : W32
  tcz : W32
  sched : W64
  schn : Nat
  phase : W32
  idem : Bool
  deriving DecidableEq, Repr

/-- The task span (R3): what a pre-emption carries in the context image. -/
structure TaskSpan where
  task : Option TaskId
  regs : Regs
  flags : FlagFile
  sys : SysRegs
  ctl : Ctl
  mat : Matrix
  q : Queues
  eng : Engines
  hcw : Sp W256
  hcwBad : List Nat
  hcwFault : Option (BitVec 8 × W64)
  /-- rows of the control-word image that are still to be read: at a logged point of an MS page, or over a link that is not up (R77, R355,
  R385); entry and place -/
  hcwLeft : List (Nat × Piece) := []
  scratch : Sp Byte
  scratchBad : List Nat
  deriving DecidableEq, Repr

/-- A translation held in a TLB (R234): context, first address, log2 of the page size, physical base, attributes. -/
structure TlbEntry where
  ctx : BitVec 12
  va : Nat
  lg : Nat
  pa : Nat
  ms : Bool
  u : Bool
  x : Bool
  w : Bool
  rd : Bool
  deriving DecidableEq, Repr

/-- A sector in L1 with its lease (R222, R229). -/
structure L1Sector where
  sector : Nat
  w : Time
  r : Time
  data : Sp Byte
  bad : Bool
  ft : Option Nat
  deriving DecidableEq, Repr

/-- CORECTL (R328). -/
structure CoreCtl where
  gang : Bool
  done : Bool
  busy : Bool
  deriving DecidableEq, Repr

structure Core where
  id : Nat
  lt : Time
  st : Time
  l1 : List L1Sector
  icache : List (Nat × Sp Byte)
  tlb : List TlbEntry
  tlbY : List TlbEntry
  tlbT : List TlbEntry
  ctl : CoreCtl
  /-- the core has taken its turn in this cycle; its turn is put off for a Yoke beat, as a sender (1) or receiver (2);
  late-edge hold cycles left -/
  acted : Bool
  defer : Nat
  hold : Nat
  t : TaskSpan
  deriving DecidableEq, Repr

/-! ## Context and module span -/

/-- The descriptor fields a context takes at its creation (R297, R298), and its page table's root and format windows as its
last placement read them (R226, R297). -/
structure Ctx where
  ptroot : Nat
  fws : List W64
  htab : Nat
  gtab : Nat
  fqbase : Nat
  fqk : Nat
  mqbase : Nat
  mqn : Nat
  lq : List (Nat × Nat)
  oldir : Nat
  htbase : Nat
  htsnap : Nat
  hsk : Nat
  hr : List (Nat × Nat)
  pcbase : Nat
  pck : Nat
  closing : Bool
  deriving DecidableEq, Repr

structure GMember where
  rcd : Nat
  m : Nat
  later : Bool
  arrived : Bool
  deriving DecidableEq, Repr

/-- A group (R311), with the largest times carried into the generation in progress and the last completed (R273). -/
structure Group where
  elig : Nat
  arr : Nat
  newm : Nat
  narr : Nat
  gen : Nat
  /-- generations that ended because their last counted member left; `gen + skip` numbers what a `gbar` awaits (R206) -/
  skip : Nat
  mem : List GMember
  tNow : Option Time
  tNext : Option Time
  tDone : Option Time
  deriving DecidableEq, Repr

/-- A home-cache line's times, format (none: FT = 0), and valid and dirty bits by sector (R223, R228); its bytes are those of memory, its
poison bits `State.memBad`'s. -/
structure HomeLine where
  wts : Time
  rts : Time
  ft : Option Nat
  valid : BitVec 4
  dirty : BitVec 4
  deriving DecidableEq, Repr

/-- An entry of a ready queue or of the held list (R305, R312): its record, home die, level, the cycles in which it reached
its level and its queue, whether it resumes from images, and the one gang member it stands for (none: all of them). -/
structure RqEntry where
  rcd : Nat
  ctx : BitVec 12
  die : Nat
  level : Nat
  since : Nat
  first : Nat
  parked : Bool
  member : Option Nat
  /-- the entry's slot in its context's spill queue, while its die's hardware queue is full (R305) -/
  spill : Option Nat
  deriving DecidableEq, Repr

/-- An accepted submission (R302, R312): its place in the order of submissions, its context, the phase that counts it,
whether it resumes a faulted-out task from its images (R340), whether it waits from a context that is gone (R298), and the SUCC
decrements that a retirement cut short by the loss of its die has made (R370). -/
structure Sub where
  order : Nat
  ctx : Nat
  counted : Option Nat
  resumes : Bool
  gone : Bool
  paid : Nat := 0
  deriving DecidableEq, Repr

/-- The reservation token (R309). -/
structure Token where
  rcd : Nat
  cores : List Nat
  deriving DecidableEq, Repr

/-- A Topiary request (R243): handle image, context, issuing task, base time, V16L-free geometry is read from the handle. -/
structure TopReq where
  img : Nat
  ctx : BitVec 12
  ptroot : Nat
  fws : List W64
  rcd : Nat
  member : Nat
  bun : W64
  seq : Nat
  base : Time
  prv : Bool
  /-- the tile that comes next; none until the bitmap has said so (R244, R247) -/
  next : Option Nat := none
  /-- bytes of the bitmap that have been read, as 64-byte MS pieces (R233) -/
  bits : MsGot := []
  /-- the tile under conversion is locked, with the lines of its old and new storage (R244), and what of it has been moved (R265) -/
  locked : Bool := false
  lines : List Nat := []
  moved : Moved := {}
  deriving DecidableEq, Repr

/-- An access from outside: of the host, of the Mantle, or of another module. -/
inductive OutAcc where
  | register (a : RegAddr) (v : W64)
  | write (port : BitVec 1) (a : HostAddr) (bytes : List Byte) (bad : Bool)
  | read (port : BitVec 1) (a : HostAddr) (len : BitVec 13) (rid : BitVec 16)
  | mantle (m : MantleMsg)
  | flit (link : BitVec 6) (num : BitVec 12) (flit : SeamFlit)
  | sector (m : BitVec 8) (sector : W64) (w : SeamWrite)
  deriving DecidableEq, Repr

/-- A beat driven on a die's Yoke in the present cycle (R261). -/
structure YBeat where
  die : Nat
  rcd : Nat
  member : Nat
  slot : Nat
  x : BitVec 1024
  bad : Bool
  lt : Time
  deriving DecidableEq, Repr

/-- CTXCMD (R298). -/
structure CtxCmd where
  result : BitVec 8
  done : Bool
  busy : Bool
  op : BitVec 2
  ctx : BitVec 12
  deriving DecidableEq, Repr

/-- TLBIA and TLBIC (R344). -/
structure Tlbi where
  gran : BitVec 41
  done : Bool
  busy : Bool
  scope : BitVec 2
  ctx : BitVec 12
  deriving DecidableEq, Repr

/-- A Seam link (R383, R384, R386). Received: the sequence number expected and the one acknowledged last, CRC errors by lane and flits of
the present window of 2^20, at ×8 whether the healthy half is the upper one. Sent: the number of the next flit, the retry buffer (number,
address it is for), addresses whose flits still wait for room in it, the flit last refused and its failed replays, and what failed lanes
have cost the transmit direction: the lane that the spare replaces, the half in use. The peer was in service when the link came up
(R231). -/
structure Link where
  peer : BitVec 8
  plink : BitVec 6
  splane : BitVec 5
  spu : Bool
  width : BitVec 2
  up : Bool
  retry : W32
  crcerr : W32
  num : BitVec 12
  laneErr : Sp Nat
  flits : Nat
  next : BitVec 12
  sent : List (BitVec 12 × Nat)
  nakAt : Option (BitVec 12)
  fails : Nat
  txSpare : Bool
  txHalf : Bool
  ackd : Option (BitVec 12)
  high : Bool
  wait : List Nat
  txLane : BitVec 5
  txHigh : Bool
  serving : Bool
  deriving DecidableEq, Repr

/-- What a port's function reports through Advanced Error Reporting (R377; the kinds are those of PCI Express, log 72). -/
inductive AerErr where
  | malformed | poisoned | aborted | unsupported | surpriseDown
  deriving DecidableEq, Repr

structure Port where
  up : Bool
  cxl : Bool
  width : BitVec 5
  aer : List AerErr
  deriving DecidableEq, Repr

/-- A granted write intent of another module (R373): the sectors it names, each committed or not. -/
structure Intent where
  m : BitVec 8
  sectors : List (Nat × Bool)
  deriving DecidableEq, Repr

/-- What the outside world last received from a port, the Mantle or, as another module, from a home here (R378, R387, R390; R228,
R235: the time of a write performed, the cause of one refused, a lease). -/
inductive Reply where
  | none
  | value (v : W64)
  | bytes (b : List Byte) (bad : Bool)
  | unsupported
  | abort
  | signature (s : BitVec 1056) (measures : List (BitVec 512)) (level : BitVec 2) (modNo : BitVec 8)
  | written (t : Time)
  | refused (cause : BitVec 8)
  | lease (w r : Time) (b : List Byte) (bad : Bool)
  | accepted (num : BitVec 12)
  | nak (num : BitVec 12)
  deriving DecidableEq, Repr

structure Sup where
  level : BitVec 2
  chg : Bool
  tgt : BitVec 2
  cfgerr : BitVec 8
  ctxtab : BitVec 41
  cmd : CtxCmd
  /-- TLBIA and TLBIC of each die's common block (R344) -/
  tlbi : Sp Tlbi
  win : BitVec 8
  capEn : Bool
  cap : BitVec 16
  pwr : BitVec 16
  overcap : Bool
  steps : Sp Nat
  thermal : BitVec 8
  loss : Bool
  latch : Bool
  pres : Bool
  arm : Bool
  alert : BitVec 5
  /-- MSI-X vectors signalled, by function and vector (R377, R382) -/
  msix : List (Nat × Nat)
  /-- health counters by register offset (R376) -/
  cnt : Sp W32
  /-- poison-enable registers, by 32·port + n (R375) -/
  ppen : Sp (BitVec 17)
  ports : Sp Port
  /-- ports whose completer answers with Unsupported Request or Completer Abort at present (R380): an input -/
  deny : List Nat
  /-- registers written by the host in this cycle; Mantle writes that come behind one of those and wait for the next cycle (R378) -/
  hostWrote : List Nat
  late : List (Nat × W64)
  /-- the module has reached S1 in a domain already in service and not yet received its floor (R231) -/
  joining : Bool
  /-- the least lt of each link peer as it last came (R230) -/
  floors : List Time
  /-- what a home here last answered to a request that a flit brought, besides the flit's acknowledgement (R235, R383) -/
  served : Reply
  links : Sp Link
  cfg : Option ConfigCopy
  lost : List (BitVec 8)
  /-- compute dies and cores that have left service (R367, R370) -/
  outDies : List Nat
  outCores : List Nat
  intents : List Intent
  quiesce : Bool
  doorbells : List (BitVec 12 × BitVec 2)
  /-- the largest time of the host writes through each port, the Mantle's last; the time that goes into TIME of a launch-queue
  entry, by entry address ÷ 16 (R268, R304) -/
  portT : Sp Time
  posted : Sp Time
  reply : Reply
  unplaceable : Nat
  badImages : Nat
  /-- replay divergences of logged points that the Mantle has counted (R355) -/
  diverged : Nat
  deriving DecidableEq, Repr

/-- The substitution table of a die, with its counters and the table waiting to take effect (R319). -/
structure SubstTable where
  entries : List SubstEntry
  wait : Option (List SubstEntry)
  lookups : Nat
  hits : Nat
  rewinds : Nat
  fallbacks : Nat
  deriving DecidableEq, Repr

/-- What moves next besides the cores' own streams: a step of the table, for a core or for the module, or one of the
choices R222, R223 and R234 leave to the hardware (which line, sector or translation leaves a cache); or a core's turn in which
no engine moves on its own. -/
inductive Act where
  | turn
  | step (i : Instr)
  | stepAt (core : Nat) (i : Instr)
  | evictLine (line : Nat)
  | dropL1 (core : Nat) (sector : Nat)
  | dropIline (core : Nat) (line : Nat)
  | dropTlb (core : Nat)
  /-- inputs from outside the rows of the table: a correctable error arises in stored state or is found and corrected (R368); the
  completer behind a port denies accesses or serves them (R380); a request leaves for another module (R383, R385) -/
  | soft (core : Nat) (place : EccPlace)
  | found (core : Nat) (place : EccPlace)
  | completer (port : Nat) (deny : Bool)
  | seamSend (pa : Nat)
  /-- units of an access wider than R265's are performed one by one: one of a core's oldest vector access, one of a copy; an MS piece
  of a copy's source is read at its unit (R233) -/
  | vecUnit (core : Nat) (k : Nat)
  | copyUnit (core : Nat) (tag : BitVec 16) (k : Nat)
  | copyPiece (core : Nat) (tag : BitVec 16) (k : Nat)
  /-- a unit of the tile that a Topiary engine converts (R244, R265) -/
  | tileUnit (die : Nat) (k : Nat)
  deriving DecidableEq, Repr

/-- Why a step stops. -/
inductive Fault where
  /-- Raised by `step` alone: the module has no power (R3: every state of the module span has ended) and nothing is
  to happen next. Safe: the hardware does nothing there either. -/
  | noPower
  deriving DecidableEq, Repr

/-- Why a step has no meaning. -/
inductive Refusal where
  /-- Raised by an arm of `exec` for a row without a meaning yet. Safe. -/
  | notModelled (mnemonic : String)
  deriving DecidableEq, Repr

/-- The module as the turn of one core sees it. -/
structure State where
  power : Bool
  cyc : Nat
  core : Core
  others : List Core
  mem : List Host.Cell
  memBad : List Nat
  lines : Sp HomeLine
  mt : Sp Time
  ut : Sp Time
  floor : Time
  /-- lt of every core not listed here: all cores run on since reset (R229) -/
  idleLt : Time
  ptags : Sp (Nat × Nat)
  ctxs : Sp Ctx
  groups : Sp Group
  images : Sp TaskSpan
  ready : List RqEntry
  helds : List RqEntry
  /-- submissions accepted, by record, and how many there have been (R302, R312) -/
  subs : Sp Sub
  subNo : Nat
  token : Option Token
  /-- requests for the token in order of arrival: die and record (R309) -/
  tokenQ : List (Nat × Nat)
  /-- the cycle in which a die last placed an entry (R307) -/
  placedAt : Sp Nat
  topiary : Sp (List TopReq)
  /-- the translations held by each die's Topiary engine (R234) -/
  topTlb : Sp (List TlbEntry)
  subst : Sp SubstTable
  yoke : List YBeat
  /-- operations counted at a logged point, by context, point, record and member (R353) -/
  seqs : List ((Nat × Nat × Nat × Nat) × Nat)
  sup : Sup
  /-- errors that a read or a scrub will find and correct, by core (R368) -/
  soft : List (Nat × EccPlace)
  agenda : List Act
  /-- accesses from outside that wait until a tile under conversion commits, in order (R244) -/
  outHeld : List OutAcc := []
  fresh : Nat
  deriving DecidableEq, Repr

/-! ## Values at reset -/

def Regs.zero : Regs := { s := [], v := [], k := [], x := [], wl := [] }

def FlagFile.clear : FlagFile := { sE := 0, vE := 0, kE := 0, tagS := [], tagV := [], marks := [] }

def SysRegs.zero : SysRegs :=
  { trapvec := 0, cause := 0, epc := 0, tval := 0, sa := 0, da := 0, rp := 0, kv := 0, stage := 0, cvs := 0,
    rqkey := 0, rqctr := 0, split := 1, h := false, prv := false, ph := false, log := false, rpl := false, hs := false }

/-- Both planes hold zero weights with class 8-bit and every integer bit set (R136). -/
def Plane.zero : Plane := { cls := .b8, rows := [] }

def Matrix.zero : Matrix :=
  { acc := [], active := .zero, shadow := .zero, clsSet := false, cs := [], rings := [], v16 := [] }

def Bun.none : Bun :=
  { addr := 0, next := 0, lits := [], gap := 0, y := false, mret := .none, issuing := false, st := .issued, rep := 0,
    seq := 0 }

def Ctl.start : Ctl :=
  { pc := 0, eBase := 0, gapIn := false, xfer := none, latch := none, seq := 0, bun := .none, dpf := none,
    missed := [], cterr := [], regions := [], unwind := none, native := none, freeze := none,
    ending := none, rho := 0, slip := false, owed63 := none, zeroed := [] }

/-- The random queue starts full: the generator fills 4,096 bits ahead of POS (R129). -/
def Queues.empty : Queues :=
  { fly := [], placket := [], reps := [], cq := [], divs := [], rqGen := 4096, rqUsed := 0, rqPend := [], rqCyc := 0, hq := [] }

def Engines.idle : Engines :=
  { bufs := [], bars := [], cpq := [], nextTag := 0, owed := [], relp := 0, relStop := false, ten := [], groups := [], conv := [],
    pathT := [], portW := [] }

def TaskSpan.fresh : TaskSpan :=
  { task := none, regs := .zero, flags := .clear, sys := .zero, ctl := .start, mat := .zero, q := .empty, eng := .idle,
    hcw := [], hcwBad := [], hcwFault := none, scratch := [], scratchBad := [] }

/-- A core after power-on: lt 0 (R231), nothing placed, caches empty. -/
def Core.reset (id : Nat) : Core :=
  { id, lt := 0, st := 0, l1 := [], icache := [], tlb := [], tlbY := [], tlbT := [],
    ctl := { gang := false, done := false, busy := false }, acted := false, defer := 0, hold := 0, t := .fresh }

/-- The supervisor registers at their reset values (R296, R298, R344, R389, R392, R394). -/
def Sup.reset : Sup :=
  { level := 0, chg := false, tgt := 3, cfgerr := 0, ctxtab := 0,
    cmd := { result := 0, done := false, busy := false, op := 0, ctx := 0 },
    tlbi := [],
    win := 10, capEn := true, cap := 14000, pwr := 0, overcap := false, steps := [], thermal := 0, loss := false, deny := [], hostWrote := [], late := [], joining := false, floors := [], served := .none,
    latch := false, pres := true, arm := true, alert := 0, msix := [], cnt := [], ppen := [], ports := [], links := [],
    cfg := none, lost := [], outDies := [], outCores := [], intents := [], quiesce := false, doorbells := [], portT := [],
    posted := [], reply := .none,
    unplaceable := 0, badImages := 0, diverged := 0 }

/-- The module right after power-on (R231): every lt, MT and the floor 0, no line in the home cache, no context, no
task placed; the core shown is core 0 (the other cores join `others` when a task is placed on them). -/
def State.reset : State :=
  { power := true, cyc := 0, core := .reset 0, others := [], mem := [], memBad := [], lines := [], mt := [], ut := [],
    floor := 0, idleLt := 0, ptags := [], ctxs := [], groups := [], images := [], ready := [], helds := [], subs := [], subNo := 0,
    token := none, tokenQ := [], placedAt := [],
    topiary := [], topTlb := [], subst := [], yoke := [], seqs := [], sup := .reset, soft := [], agenda := [], fresh := 0 }

end Sys2Proof.Machine
end

