-- ==== Sys2Proof/Machine/Memory.lean ====
section
/-!
DEFINITION. Memory by physical address with its poison, the home cache's logical times, leases and memory-side times (spec 12
R223-R235, 15 R263-R270), scratchpads and their arbiters, format windows, and translation (23 R342-R347).
-/
namespace Sys2Proof.Machine
open Sys2Proof

/-! ## Logical time (R229) -/

/-- a ≤ b modulo 2^48. -/
def tle (a b : Time) : Bool := decide ((b - a).toNat < 2 ^ 47)
def tmax (a b : Time) : Time := if tle a b then b else a
def lease : Time := 16

/-- A time joined with the largest carried so far, where any has been (R266, R268, R273). -/
def tjoin (o : Option Time) (t : Time) : Option Time :=
  match o with
  | some u => some (tmax u t)
  | none => some t

/-- What two phases carry together. -/
def tjoins (a b : Option Time) : Option Time :=
  match b with
  | some t => tjoin a t
  | none => a

/-- A time raised to what has been carried. -/
def tafter (t : Time) (o : Option Time) : Time :=
  match o with
  | some u => tmax t u
  | none => t

/-- A stamp that would lag the floor by more than 2^45 is raised (R230). -/
def raiseTo (f t : Time) : Time := if decide ((f - t).toNat < 2 ^ 47) && decide (2 ^ 45 < (f - t).toNat) then f - 2 ^ 45 else t

/-! ## Bytes -/

/-- What a byte that nothing has written reads as (log 3). -/
def memDefault : Byte := 0

/-- The canonical form of a memory: addresses strictly rising, no entry at the default. -/
def Memory.wf (m : List Host.Cell) : Bool := spSorted 0 m && m.all fun c => c.2 != memDefault

def memGet (m : List Host.Cell) (a : Nat) : Byte := spGet memDefault m a
def memSet (m : List Host.Cell) (a : Nat) (b : Byte) : List Host.Cell := spSet memDefault m a b

/-- `n` bytes from an address on. -/
def memRead (m : List Host.Cell) (a : Nat) : Nat → List Byte
  | 0 => []
  | n + 1 => memGet m a :: memRead m (a + 1) n

/-- Bytes stored from an address on. -/
def memWrite (m : List Host.Cell) (a : Nat) : List Byte → List Host.Cell
  | [] => m
  | b :: bs => memWrite (memSet m a b) (a + 1) bs

/-- Granules of size `g` that a list names bad, less those that a write of `[a, a + n)` covers whole (R347). -/
def clearBad (g : Nat) (bad : List Nat) (a n : Nat) : List Nat :=
  bad.filter fun k => !(decide (a ≤ g * k) && decide (g * k + g ≤ a + n))

/-- Some byte of `[a, a + n)` lies in a bad granule. -/
def hitsBad (g : Nat) (bad : List Nat) (a n : Nat) : Bool :=
  bad.any fun k => decide (g * k < a + n) && decide (a < g * k + g)

/-- The granules of size `g` that `[a, a + n)` touches, added to a list. -/
def markBad (g : Nat) (bad : List Nat) (a n : Nat) : List Nat :=
  if n = 0 then bad
  else (List.range ((a + n - 1) / g + 1 - a / g)).foldl (fun l i => setAdd l (a / g + i)) bad

/-- `[a, a + n)` cut at multiples of `g`; the fuel is the number of pieces. -/
def cut (g : Nat) : Nat → Nat → Nat → List (Nat × Nat)
  | 0, _, _ => []
  | f + 1, a, n => if n = 0 then [] else (a, min n (g - a % g)) :: cut g f (a + min n (g - a % g)) (n - min n (g - a % g))

def cuts (g a n : Nat) : List (Nat × Nat) := cut g (n / g + 2) a n

def State.rd (s : State) (pa n : Nat) : List Byte := memRead s.mem pa n
def State.rd64 (s : State) (pa : Nat) : W64 := BitVec.ofNat 64 (ofLe (s.rd pa 8))
def State.rd32 (s : State) (pa : Nat) : W32 := BitVec.ofNat 32 (ofLe (s.rd pa 4))

/-- Words of 8 bytes from an address on. -/
def State.rdWords (s : State) (pa : Nat) : Nat → List W64
  | 0 => []
  | k + 1 => s.rd64 pa :: s.rdWords (pa + 8) k

/-- Bytes stored, clearing the poison of sectors written whole (R347). -/
def State.wr (s : State) (pa : Nat) (bs : List Byte) : State :=
  { s with mem := memWrite s.mem pa bs, memBad := clearBad 256 s.memBad pa bs.length }

/-- Poisoned bytes: the sectors become poisoned with the bytes in them (R200, R347). -/
def State.wrBad (s : State) (pa : Nat) (bs : List Byte) : State :=
  let s := s.wr pa bs
  { s with memBad := markBad 256 s.memBad pa bs.length }

/-- One field of a word in memory. -/
def State.rdField (s : State) (pa lo len : Nat) : Nat := field (s.rd64 pa).toNat lo len

/-! ## Physical addresses (R342, R223, R224, R233) -/

/-- The module's own number (R388); 0 before a configuration record is applied. -/
def State.modNo (s : State) : BitVec 8 :=
  match s.sup.cfg with
  | some c => c.modNo
  | none => 0

/-- Stacks in service, ascending (R224). DESIGN CHOICE (log 101): before a record is applied all 32 are. -/
def State.stacks (s : State) : List Nat :=
  match s.sup.cfg with
  | some c => (List.range 32).filter c.hbm.getLsbD
  | none => List.range 32

def isPeer (pa : Nat) : Bool := decide (2 ^ 56 ≤ pa)
def paModule (pa : Nat) : Nat := field pa 48 8
def State.isLocal (s : State) (pa : Nat) : Bool := !isPeer pa && paModule pa == s.modNo.toNat

/-- A local physical address beyond the installed memory (R224). -/
def State.beyond (s : State) (pa : Nat) : Bool :=
  s.isLocal pa && decide (s.stacks.length * 96 * 2 ^ 30 ≤ pa % 2 ^ 48)

/-- The stack that is home to a line (R223, R224). -/
def State.homeOf (s : State) (pa : Nat) : Nat :=
  let st := s.stacks
  let n := st.length
  if n = 32 ∨ n = 0 then field pa 10 5 ^^^ field pa 15 5 ^^^ field pa 20 5
  else
    let m := field pa 10 38
    let k := m / n
    st.getD ((m + k + k / n) % n) 0

def State.modSup (s : State) (f : Sup → Sup) : State := { s with sup := f s.sup }
/-- The global core id 16·d + c and its die (R1). -/
def dieOf (core : Nat) : Nat := core / 16

/-! ## Health counters (R376) -/

/-- Register offset of a compute die's counter i: LEREP, CECC, UECC, DEPUF. -/
def dieCnt (die i : Nat) : Nat := die * 0x400000 + 0x100 + 8 * i
/-- Register offset of a base die's counter i: HCECC, HUECC, FTREF, WLPSN. -/
def baseCnt (b i : Nat) : Nat := 0x10000000 + b * 0x100000 + 0x100 + 8 * i

/-- A counter plus n, saturating. -/
def State.bump (s : State) (off n : Nat) : State :=
  s.modSup fun u => { u with cnt := spSet 0 u.cnt off (BitVec.ofNat 32 (min ((spGet 0 u.cnt off).toNat + n) (2 ^ 32 - 1))) }

/-! ## Correctable errors (R368) -/

/-- The counter of a correction (R368, R376). -/
def State.fixCnt (s : State) (id : Nat) : EccPlace → Nat
  | .memSector pa => baseCnt (s.homeOf pa.toNat) 0
  | _ => dieCnt (dieOf id) 1

/-- Correctable errors found are corrected and counted, one by one. -/
def State.correct (s : State) (p : Nat × EccPlace → Bool) : State :=
  (s.soft.filter p).foldl (fun s x => s.bump (s.fixCnt x.1 x.2) 1) { s with soft := s.soft.filter fun x => !p x }

/-- The 32-byte unit of a scratchpad lies in these bytes. -/
def unitIn (n : BitVec 18) (off len : Nat) : Bool := decide (32 * n.toNat < off + len) && decide (off < 32 * n.toNat + 32)

/-- A scratchpad is read: a correctable error found there is corrected. -/
def State.fixScratch (s : State) (id off len : Nat) : State :=
  s.correct fun x => x.1 == id && match x.2 with
    | .scratchUnit n => unitIn n off len
    | _ => false

/-- Memory, or a core's L1 sector of it, is read: a correctable error found there is corrected. -/
def State.fixMem (s : State) (id pa len : Nat) : State :=
  s.correct fun x => match x.2 with
    | .memSector a => decide (a.toNat / 256 * 256 < pa + len) && decide (pa < a.toNat / 256 * 256 + 256)
    | .l1Sector a => x.1 == id && a.toNat / 256 == pa / 256
    | _ => false

/-- Memory is read at its home: a correctable error found there is corrected; no core's L1 takes part. -/
def State.fixHome (s : State) (pa len : Nat) : State :=
  s.correct fun x => match x.2 with
    | .memSector a => decide (a.toNat / 256 * 256 < pa + len) && decide (pa < a.toNat / 256 * 256 + 256)
    | _ => false

/-- The key of a home slice's stamp MT, and of a memory-side unit (R225, R233). -/
def State.sliceKey (s : State) (pa : Nat) : Nat := 32 * paModule pa + s.homeOf pa
def State.unitKey (s : State) (pa : Nat) : Nat := 16 * s.sliceKey pa + field pa 6 4

/-- The stamps of a slice and of a memory-side unit, within 2^45 of the floor (R230; log 70 for UT). -/
def State.mtAt (s : State) (k : Nat) : Time := raiseTo s.floor (spGet 0 s.mt k)
def State.utAt (s : State) (k : Nat) : Time := raiseTo s.floor (spGet 0 s.ut k)

/-- A line at its home; one not held starts at the slice's MT (R225). -/
def State.line (s : State) (pa : Nat) : HomeLine :=
  match spFind s.lines (pa / 1024) with
  | some h => { h with wts := raiseTo s.floor h.wts, rts := raiseTo s.floor h.rts }
  | none =>
    let t := s.mtAt (s.sliceKey pa)
    { wts := t, rts := t, ft := none, valid := 0, dirty := 0 }

/-- A line leaves the home cache, its dirty sectors written back: its slice's MT takes its read time (R223, R225). -/
def State.evictLine (s : State) (line : Nat) : State :=
  match spFind s.lines line with
  | some _ =>
    let k := s.sliceKey (1024 * line)
    { s with lines := spErase s.lines line, mt := spSet 0 s.mt k (tmax (s.mtAt k) (s.line (1024 * line)).rts) }
  | none => s

/-- The set of its home slice that a line falls into: 64 MiB of 16 ways of 1,024 bytes are 4,096 sets; which line falls into which is a free
value (R1, R223; log 8). -/
def homeSet (line : Nat) : BitVec 12 := Config.lineIndex line

/-- The lines of a set of a home slice, that of an address. -/
def State.setLines (s : State) (pa : Nat) : List Nat :=
  (s.lines.map (·.1)).filter fun l => s.sliceKey (1024 * l) == s.sliceKey pa && homeSet l == homeSet (pa / 1024)

/-- Room for a line that its slice does not hold: a set of 16 lines evicts one, of a free choice (R1, R223; log 8). -/
def State.roomAt (s : State) (pa : Nat) : State :=
  if (spFind s.lines (pa / 1024)).isSome || decide (s.lines.length < 16) then s
  else
    let ls := s.setLines pa
    if ls.length < 16 then s
    else { s.evictLine (ls.getD ((Config.freeWord s.fresh).toNat % ls.length) 0) with fresh := s.fresh + 1 }

def State.setLine (s : State) (pa : Nat) (h : HomeLine) : State :=
  let s := s.roomAt pa
  { s with lines := spPut s.lines (pa / 1024) h }

/-- The sectors of a line that `[a, a + n)` reaches. -/
def sectorsOf (line a n : Nat) : BitVec 4 :=
  (List.range 4).foldl (fun m i =>
    if 1024 * line + 256 * i < a + n ∧ a < 1024 * line + 256 * i + 256 then m ||| BitVec.ofNat 4 (2 ^ i) else m) 0

/-- Sectors of a line filled or, by a write, made dirty (R223). -/
def HomeLine.touch (h : HomeLine) (line a n : Nat) (wr : Bool) : HomeLine :=
  let m := sectorsOf line a n
  { h with valid := h.valid ||| m, dirty := if wr then h.dirty ||| m else h.dirty }

/-- An access reaches its line's sectors. -/
def State.touch (s : State) (pa n : Nat) (wr : Bool) : State :=
  { s with lines := match spFind s.lines (pa / 1024) with
      | some h => spPut s.lines (pa / 1024) (h.touch (pa / 1024) pa n wr)
      | none => s.lines }

/-! ## Writes of the hardware's own (records, tables, logs, images) -/

/-- A line after a write at its home that carries no time of its own: later than every read (R229, R263). -/
def HomeLine.later (h : HomeLine) : HomeLine := { h with wts := h.rts + 1, rts := h.rts + 1 }

/-- A hardware write of up to 8 bytes: the line takes its time. -/
def State.hwLine (s : State) (pa : Nat) : State :=
  if isPeer pa then s else s.setLine pa ((s.line pa).later.touch (pa / 1024) pa 8 true)

def State.wr64 (s : State) (pa : Nat) (w : W64) : State := (s.hwLine pa).wr pa (leBytes 8 w.toNat)
def State.wr32 (s : State) (pa : Nat) (w : W32) : State := (s.hwLine pa).wr pa (leBytes 4 w.toNat)

def State.wrWords (s : State) (pa : Nat) : List W64 → State
  | [] => s
  | w :: ws => (s.wr64 pa w).wrWords (pa + 8) ws

/-- One field of a word in memory written. -/
def State.wrField (s : State) (pa lo len v : Nat) : State :=
  s.wr64 pa (BitVec.ofNat 64 (setField (s.rd64 pa).toNat lo len v))

/-- The home-cache lines of a range take the time of a hardware write of it. -/
def State.hwLines (s : State) (pa n : Nat) : State :=
  { s with lines := s.lines.map fun l =>
      (l.1, if pa < 1024 * (l.1 + 1) ∧ 1024 * l.1 < pa + n then (s.line (1024 * l.1)).later.touch l.1 pa n true else l.2) }

/-- A hardware write of a range. -/
def State.hwWr (s : State) (pa : Nat) (bs : List Byte) : State := (s.hwLines pa bs.length).wr pa bs

/-! ## Engine and host accesses at the home (R266, R268, R233) -/

/-- The time of an engine's read, or of a memory-side read, with base time L (R266, R233). -/
def State.engTime (s : State) (l : Time) (pa : Nat) (ms wr : Bool) : State × Time :=
  if isPeer pa then (s, l)
  else if ms then
    let u := s.utAt (s.unitKey pa)
    if wr then
      let t := tmax l (u + 1)
      ({ s with ut := spSet 0 s.ut (s.unitKey pa) t }, t)
    else (s, tmax l u)
  else
    let h := s.line pa
    if wr then
      let t := tmax l (h.rts + 1)
      (s.setLine pa { h with wts := t, rts := t }, t)
    else
      let t := tmax l h.wts
      (s.setLine pa { h with rts := tmax h.rts t }, t)

/-- Accesses to host or peer memory fail: the port's link is down, or its completer denies them (R377, R380). -/
def State.peerDown (s : State) (pa : Nat) : Bool :=
  isPeer pa && (s.sup.deny.contains (field pa 55 1) ||
    !(optAll (spFind s.sup.ports (field pa 55 1)) (·.up) && (spFind s.sup.ports (field pa 55 1)).isSome))

/-- The module of an address is lost to this one (R385). -/
def State.lostAt (s : State) (pa : Nat) : Bool :=
  !isPeer pa && s.sup.lost.any fun m => m.toNat == paModule pa

/-- Reads of the address return poison: a poisoned sector, a port that is down, a lost module. -/
def State.badAt (s : State) (pa n : Nat) : Bool :=
  hitsBad 256 s.memBad pa n || s.peerDown pa || s.lostAt pa

/-- The format that a line carries after an access: it keeps the one it has (R228). -/
def ftJoin (old new : Option Nat) : Option Nat :=
  match old with
  | some f => some f
  | none => new

/-- The line of a Fertite access takes its format (R228). -/
def State.noteFt (s : State) (pa : Nat) (ms : Bool) (ft : Option Nat) : State :=
  if ft.isSome && !ms && !isPeer pa then s.setLine pa { s.line pa with ft := ftJoin (s.line pa).ft ft } else s

def State.engRead (s : State) (l : Time) (pa n : Nat) (ms : Bool) : State × Time × List Byte × Bool :=
  (cuts (if ms then 64 else 1024) pa n).foldl
    (fun (s, t, bs, bad) (a, k) =>
      let (s', t') := s.engTime l a ms false
      (if ms then s' else s'.touch a k false, tmax t t', bs ++ s.rd a k, bad || s.badAt a k))
    (s, l, [], false)

/-- The line or the 64-byte MS piece of an address, as one key. -/
def timeKey (ms : Bool) (pa : Nat) : Nat := if ms then 2 * (pa / 64) + 1 else 2 * (pa / 1024)

/-- The latest write and the latest access at the home of an address stand at a time. -/
def State.standsAt (s : State) (pa : Nat) (ms : Bool) (t : Time) : Bool :=
  if ms then s.utAt (s.unitKey pa) == t else (s.line pa).wts == t && (s.line pa).rts == t

/-- The time of a write of a request: that of its other writes of the line or 64-byte piece while nothing later stands there and its base
time has not risen beyond it, since one request's writes of a line take one time (R266, the case of a flag and its data). -/
def State.writeTime (s : State) (l : Time) (pa : Nat) (ms : Bool) (mine : Sp Time) : State × Time :=
  match spFind mine (timeKey ms pa) with
  | some t => if !isPeer pa && tle l t && s.standsAt pa ms t then (s, t) else s.engTime l pa ms true
  | none => s.engTime l pa ms true

/-- Bytes written by an engine's request, which has taken the times `mine` so far; poison is carried as `bad` (R200). -/
def State.engWriteBy (s : State) (l : Time) (pa : Nat) (bs : List Byte) (ms : Bool) (ft : Option Nat) (bad : Bool) (mine : Sp Time) :
    State × Time × Sp Time :=
  (cuts (if ms then 64 else 1024) pa bs.length).foldl
    (fun (s, t, mine) (a, k) =>
      let (s, t') := s.writeTime l a ms mine
      let part := (bs.drop (a - pa)).take k
      let s := if ms then s else s.touch a k true
      let s := s.noteFt a ms ft
      (if bad then s.wrBad a part else s.wr a part, tmax t t', spPut mine (timeKey ms a) t'))
    (if bad then s else { s with memBad := clearBad 256 s.memBad pa bs.length }, l, mine)

/-- Bytes written at their home by themselves. -/
def State.engWrite (s : State) (l : Time) (pa : Nat) (bs : List Byte) (ms : Bool) (ft : Option Nat) (bad : Bool) : State × Time :=
  let (s, t, _) := s.engWriteBy l pa bs ms ft bad []
  (s, t)

/-- A read at the home that L1 does not serve: lt rises to its time (R229, R233). -/
def State.homeRead (s : State) (pa : Nat) (ms : Bool) : State :=
  let (s', t) := s.engTime s.core.lt pa ms false
  { s' with core := { s'.core with lt := tmax s'.core.lt t } }

/-! ## The core's L1 (R222, R229) -/

def l1Find (l : List L1Sector) (k : Nat) : Option L1Sector := findFirst? (·.sector == k) l

def l1Put (l : List L1Sector) (x : L1Sector) : List L1Sector := x :: l.filter (·.sector != x.sector)

/-- The memory cells of one sector. -/
def State.sectorCells (s : State) (k : Nat) : Sp Byte :=
  s.mem.filter fun c => decide (256 * k ≤ c.1) && decide (c.1 < 256 * k + 256)

/-- Sets of a core's L1: its MiB over 8 KiB (R222). -/
def Core.l1Sets (c : Core) : Nat := 128 * c.t.sys.split.toNat

/-- The other lines that a core's L1 holds in the set of a line of 1,024 bytes. DESIGN CHOICE (log 99): with L1 = 3 a line's set is its number
modulo 384. -/
def Core.l1Others (c : Core) (line : Nat) : List Nat :=
  ((c.l1.map fun x => x.sector / 4).filter fun l => l != line && l % c.l1Sets == line % c.l1Sets).eraseDups

/-- Room in L1 for a sector: where eight other lines fill its set, one of them leaves, of a free choice (R222; log 8). -/
def State.l1Room (s : State) (k : Nat) : State :=
  let ls := s.core.l1Others (k / 4)
  if ls.length < 8 then s
  else
    let l := ls.getD ((Config.freeWord s.fresh).toNat % ls.length) 0
    { s with fresh := s.fresh + 1, core := { s.core with l1 := s.core.l1.filter fun x => x.sector / 4 != l } }

/-- A core's read of a coherent sector at its home: a renewal or a fill, with the lease and lt of R229. -/
def State.l1Fill (s : State) (k : Nat) (ft : Option Nat) (old : Option L1Sector) : State × L1Sector :=
  let pa := 256 * k
  let c := s.core
  let h := s.line pa
  let h := { h with rts := tmax h.rts (tmax (h.wts + lease) (c.lt + lease)), ft := ftJoin h.ft ft }
  let lt := tmax c.lt h.wts
  let r := if tle h.rts (lt + lease) then h.rts else lt + lease
  let same := match old with
    | some x => if x.w = h.wts then some { x with r } else none
    | none => none
  let x := same.getD { sector := k, w := h.wts, r, data := s.sectorCells k, bad := s.badAt pa 256, ft := h.ft }
  let s := (s.setLine pa (h.touch (pa / 1024) pa 256 false)).l1Room k
  ({ s with core := { s.core with lt, l1 := l1Put s.core.l1 x } }, x)

/-- A core's read of a coherent sector: a hit while the lease covers lt, the home otherwise (R229); a lost module's home renews
nothing (R385). -/
def State.l1Read (s : State) (k : Nat) (ft : Option Nat) : State × L1Sector :=
  match l1Find s.core.l1 k with
  | some x => if tle s.core.lt x.r then (s, x) else s.l1Fill k ft (if s.lostAt (256 * k) then none else some x)
  | none => s.l1Fill k ft none

/-! ## Scratchpads (R220, R263, R267) -/

def Core.scratchSize (c : Core) : Nat := (8 - c.t.sys.split.toNat) * 2 ^ 20

def Core.scrRead (c : Core) (off n : Nat) : List Byte := memRead c.t.scratch off n
def Core.scrBad (c : Core) (off n : Nat) : Bool := hitsBad 32 c.t.scratchBad off n

/-- A write performed at the arbiter with the time it carries (R267). -/
def Core.scrWrite (c : Core) (off : Nat) (bs : List Byte) (bad : Bool) (t : Time) : Core :=
  let m := clearBad 32 c.t.scratchBad off bs.length
  { c with
    st := tmax c.st t
    t := { c.t with
      scratch := memWrite c.t.scratch off bs
      scratchBad := if bad then markBad 32 m off bs.length else m } }

/-- The core with a global id. -/
def State.coreById (s : State) (id : Nat) : Option Core :=
  if s.core.id = id then some s.core else findFirst? (·.id == id) s.others

def State.updCore (s : State) (id : Nat) (f : Core → Core) : State :=
  if s.core.id = id then { s with core := f s.core }
  else { s with others := s.others.map fun c => if c.id = id then f c else c }

/-- The core that gang member m of the running task stands on (R309); none outside a gang, without such a member, or while
it is not placed. -/
def State.memberId (s : State) (m : Nat) : Option Nat :=
  match s.core.t.task with
  | some t =>
    if 1 < t.n then
      match t.cores[m]? with
      | some id =>
        match s.coreById id with
        | some c => if optAll c.t.task (fun u => u.rcd == t.rcd && u.member == m) && c.t.task.isSome then some id else none
        | none => none
      | none => none
    else none
  | none => none

/-- The address of the context image of gang member m of the running task (R332). -/
def TaskId.imageOf (t : TaskId) (m : Nat) : Nat := t.save + m * 0x800000

/-- Gang member m is PARKED: its image exists. -/
def State.memberParked (s : State) (m : Nat) : Bool :=
  match s.core.t.task with
  | some t => decide (1 < t.n ∧ m < t.n) && (s.memberId m).isNone && (spFind s.images (t.imageOf m)).isSome
  | none => false

/-- A place as its arbiter or home knows it: a gang window of the member itself is its own scratchpad. -/
def State.owner (s : State) (p : Place) : Place :=
  match p with
  | .gang m off => if s.memberId m = some s.core.id then .own off else p
  | p => p

/-- The running task's gang has a member m that has not retired. -/
def State.hasMember (s : State) (m : Nat) : Bool := (s.memberId m).isSome || s.memberParked m

/-! ## Core-path accesses (R263, R267, R233) -/

/-- Another core takes the place of the one whose turn it is. -/
def State.focus (s : State) (id : Nat) : State :=
  if s.core.id = id then s
  else
    match findFirst? (fun c : Core => c.id == id) s.others with
    | some c => { s with core := c, others := s.core :: s.others.filter (·.id != id) }
    | none => s

/-- A place is read: what correctable errors are found there are corrected (R368). -/
def State.fixPlace (s : State) (p : Place) (n : Nat) : State :=
  match p with
  | .own off => s.fixScratch s.core.id off n
  | .gang m off =>
    match s.memberId m with
    | some id => s.fixScratch id off n
    | none => s
  | .glob pa _ _ => s.fixMem s.core.id pa n

/-- The same for an engine of the core, which reads memory at its home. -/
def State.fixEng (s : State) (p : Place) (n : Nat) : State :=
  match p with
  | .glob pa _ _ => s.fixHome pa n
  | p => s.fixPlace p n

/-- A piece of a core-path read at its point: bytes, poison, and lt raised. -/
def State.coreRead (s : State) (p : Place) (n : Nat) : State × List Byte × Bool :=
  let s := s.fixPlace p n
  match p with
  | .own off =>
    let c := s.core
    ({ s with core := { c with lt := tmax c.lt c.st } }, c.scrRead off n, c.scrBad off n)
  | .gang m off =>
    match (s.memberId m).bind s.coreById with
    | some c => ({ s with core := { s.core with lt := tmax s.core.lt c.st } }, c.scrRead off n, c.scrBad off n)
    | none => (s, List.replicate n 0, true)
  | .glob pa ms ft =>
    if isPeer pa then (s, s.rd pa n, s.badAt pa n)
    else if ms then
      let (s', t) := s.engTime s.core.lt pa true false
      ({ s' with core := { s'.core with lt := tmax s'.core.lt t } }, s.rd pa n, s.badAt pa n)
    else
      let (s, x) := s.l1Read (pa / 256) ft
      (s, memRead x.data pa n, x.bad)

/-- Ports through which the running task has posted writes (R270). -/
def Engines.postPorts (e : Engines) (ps : List Nat) : Engines := { e with portW := ps.foldl setAdd e.portW }
def State.postPorts (s : State) (ps : List Nat) : State :=
  { s with core := { s.core with t := { s.core.t with eng := s.core.t.eng.postPorts ps } } }

/-- A piece of a core-path write performed at its point. `lt0` is the writer's lt at issue, carried into a scratchpad; the
answer is false where the home refuses by FT (R228). -/
def State.coreWrite (s : State) (p : Place) (bs : List Byte) (lt0 : Time) : State × Bool :=
  match p with
  | .own off => ({ s with core := s.core.scrWrite off bs false lt0 }, true)
  | .gang m off =>
    match s.memberId m with
    | some id => (s.updCore id fun c => c.scrWrite off bs false lt0, true)
    | none => (s, true)
  | .glob pa ms ft =>
    if isPeer pa then ((s.wr pa bs).postPorts [field pa 55 1], true)
    else if ms then
      let (s, t) := s.engTime s.core.lt pa true true
      ({ (s.wr pa bs) with core := { s.core with lt := tmax s.core.lt t } }, true)
    else if (s.line pa).ft.isSome && ft.isNone then (s, false)
    else
      let (s, t) := s.engTime s.core.lt pa false true
      let s := (s.wr pa bs).touch pa bs.length true
      let c := s.core
      let l1 := match l1Find c.l1 (pa / 256) with
        | some x =>
          l1Put c.l1 { x with
            w := t, r := t, data := s.sectorCells (pa / 256), bad := hitsBad 256 s.memBad (256 * (pa / 256)) 256 }
        | none => c.l1
      ({ s with core := { c with lt := tmax c.lt t, l1 } }, true)

/-! ## Windows and regions (R163-R165) -/

inductive Region3 where
  | own
  | gang (m : Nat)
  | glob
  | nowhere
  deriving DecidableEq, Repr

def gangBase : Nat := 0x01FFFFFFC0000000
def ownBase : Nat := 0x01FFFFFFE0000000

/-- The region of an address of 57 bits (R163). -/
def regionOf (a : Nat) : Region3 :=
  if a < gangBase then .glob
  else if a < ownBase then .gang ((a - gangBase) / 0x800000)
  else if a < ownBase + 0x800000 then .own
  else .nowhere

/-- The address lies in the window of a gang member that is PARKED: an access there waits. -/
def State.awayAt (s : State) (va : W64) : Bool :=
  match regionOf va.toNat with
  | .gang m => s.memberParked m
  | _ => false

/-- The cause with which R163, R165 or R164 refuses an access of `n` bytes, in that order; the members of a gang share one
split, their record's. -/
def State.windowCause (s : State) (va : W64) (n : Nat) : Option (BitVec 8) :=
  let a := va.toNat
  if 2 ^ 57 ≤ a then some 0x08
  else
    let r := regionOf a
    if r = .nowhere then some 0x08
    else if regionOf (a + n - 1) ≠ r then some 0x07
    else match r with
      | .own => if s.core.scratchSize < a - ownBase + n then some 0x09 else none
      | .gang m =>
        if s.hasMember m = false ∨ s.core.scratchSize < (a - gangBase) % 0x800000 + n then some 0x09 else none
      | _ => none

/-! ## Format windows (R226, R227) -/

/-- The words of format window n. -/
def fwWords (fws : List W64) (n : Nat) : List Nat := (fws.drop (4 * n)).take 4 |>.map (·.toNat)

def fwFmt (fws : List W64) (n : Nat) : Nat := field ((fwWords fws n).getD 2 0) 0 5
def fwEnt (fws : List W64) (n : Nat) : Nat := field ((fwWords fws n).getD 2 0) 5 5
def fwTable (fws : List W64) (n : Nat) : Nat := field ((fwWords fws n).getD 3 0) 0 57

def isFertite (fmt : Nat) : Bool := fmt == 0x0F || fmt == 0x10 || fmt == 0x11

/-- A window's fields are admitted (R226). -/
def fwFieldsOk (fws : List W64) (n : Nat) : Bool :=
  let w := fwWords fws n
  let fmt := fwFmt fws n
  let ent := fwEnt fws n
  decide (fmt ≤ 0x11) && decide (field (w.getD 0 0) 16 41 ≤ field (w.getD 1 0) 16 41) &&
    (if fmt = 0x0E then ent == 0 || ent == 9 || ent == 10 || ent == 11 || ent == 12 else ent == 0) &&
    (if fmt = 0x0E then fwTable fws n % 16 == 0 else !isFertite fmt || fwTable fws n % 256 == 0)

def fwValid (fws : List W64) (n : Nat) : Bool :=
  field ((fwWords fws n).getD 0 0) 0 1 == 1 && fwFieldsOk fws n

/-- The governing window of an address: the lowest valid one that matches (R227). -/
def fwMatch (fws : List W64) (va : Nat) : Option Nat :=
  findFirst? (fun n => fwValid fws n && decide (field ((fwWords fws n).getD 0 0) 16 41 ≤ va / 65536) &&
    decide (va / 65536 ≤ field ((fwWords fws n).getD 1 0) 16 41)) (List.range 16)

/-- The format of the region that governs an address, where it is Fertite (R227). -/
def ftOf (fws : List W64) (va : Nat) : Option Nat :=
  match fwMatch fws va with
  | some n => if isFertite (fwFmt fws n) then some (fwFmt fws n) else none
  | none => none

/-- The address lies in a Fertite region (R227). -/
def inFertite (fws : List W64) (va : Nat) : Bool := (ftOf fws va).isSome

/-! ## Translation (R342-R344) -/

/-- What an access wants of a page. -/
inductive Acc where
  | rd | wr | amo | fetch
  deriving DecidableEq, Repr

/-- A table entry at a level is malformed (R343). -/
def pteBad (level : Nat) (e : Nat) : Bool :=
  let lf := field e 1 1
  let addr := field e 8 49
  field e 57 7 != 0 || field e 7 1 != 0 ||
  (decide (level ≤ 1) && lf == 1) || (level == 4 && lf == 0) ||
  (lf == 1 && addr % 2 ^ ([40, 31, 22, 13, 8].getD level 8) != 0) ||
  (lf == 0 && decide (level ≤ 2) && addr % 16 != 0) ||
  (field e 3 1 == 1 && field e 2 1 == 0) || (field e 6 1 == 1 && field e 4 1 == 1) ||
  (lf == 0 && field e 2 5 != 0)

/-- The walk through the levels left: first bit and count of the index at each (R342). The answer is the translation, or
the fault's cause and SUB. -/
def State.walkFrom (s : State) (ctx : BitVec 12) (va : Nat) : Nat → List (Nat × Nat) → Nat → Except (BitVec 8 × BitVec 8) TlbEntry
  | _, [], _ => .error (0x08, 0)
  | level, (lo, bits) :: rest, table =>
    let a := table + 8 * field va lo bits
    if s.badAt a 8 then .error (0x08, 0x0B)
    else
      let e := s.rdField a 0 64
      if field e 0 1 = 0 ∨ pteBad level e = true then .error (0x08, 0)
      else if field e 1 1 = 1 then
        .ok { ctx, va := va / 2 ^ lo * 2 ^ lo, lg := lo, pa := 256 * field e 8 49, ms := field e 6 1 == 1,
              u := field e 5 1 == 1, x := field e 4 1 == 1, w := field e 3 1 == 1, rd := field e 2 1 == 1 }
      else s.walkFrom ctx va (level + 1) rest (256 * field e 8 49)

/-- The first bit and the number of bits of each level's index (R342). -/
def walkLevels : List (Nat × Nat) := [(48, 9), (39, 9), (30, 9), (21, 9), (16, 5)]

/-- A walk from a root (R344). -/
def State.walk (s : State) (ctx : BitVec 12) (root va : Nat) : Except (BitVec 8 × BitVec 8) TlbEntry :=
  s.walkFrom ctx va 0 walkLevels root

/-- The entry of a TLB that covers an address. -/
def tlbFind (tlb : List TlbEntry) (ctx : BitVec 12) (va : Nat) : Option TlbEntry :=
  findFirst? (fun e => e.ctx == ctx && e.va == va / 2 ^ e.lg * 2 ^ e.lg) tlb

/-- Protection of a leaf (R343); an atomic is refused on every executable page (R189). -/
def protOk (e : TlbEntry) (acc : Acc) (prv : Bool) : Bool :=
  (prv || e.u) &&
    match acc with
    | .rd => e.rd
    | .wr => e.w && (prv || !e.x)
    | .amo => e.w && !e.x
    | .fetch => e.x

/-- What translation needs to know of a task. -/
structure Xl where
  ctx : BitVec 12
  root : Nat
  fws : List W64
  prv : Bool
  tlb : List TlbEntry
  deriving DecidableEq, Repr

/-- The translation of the running task's accesses through one of its TLBs. -/
def Core.xl (c : Core) (tlb : List TlbEntry) : Xl :=
  match c.t.task with
  | some t => { ctx := t.ctx, root := t.ptroot, fws := t.fws, prv := c.t.sys.prv, tlb }
  | none => { ctx := 0, root := 0, fws := [], prv := false, tlb }

/-- One address translated, from the TLB or by a walk; installed memory is checked at the leaf (R224). -/
def State.leafOf (s : State) (x : Xl) (va : Nat) : Except (BitVec 8 × BitVec 8) TlbEntry :=
  let r : Except (BitVec 8 × BitVec 8) TlbEntry := match tlbFind x.tlb x.ctx va with
    | some e => .ok e
    | none => s.walk x.ctx x.root va
  match r with
  | .ok e => if s.beyond (e.pa + va % 2 ^ e.lg) then .error (0x08, 0) else .ok e
  | .error c => .error c

/-- How an access is checked after translation. -/
structure AccKind where
  acc : Acc
  /-- natural alignment that an MS page asks of a scalar; none for a vector, which an MS page refuses (R166, R233) -/
  align : Option Nat
  /-- an engine, which may access MS pages in any size (R233) -/
  eng : Bool
  deriving DecidableEq, Repr

/-- Translation of a global access, sector by sector; the first that fails answers. -/
def State.leaves (s : State) (x : Xl) : List (Nat × Nat) → Except (BitVec 8 × BitVec 8) (List (Nat × Nat × TlbEntry))
  | [] => .ok []
  | (a, n) :: rest =>
    match s.leafOf x a with
    | .error c => .error c
    | .ok e =>
      match s.leaves x rest with
      | .error c => .error c
      | .ok es => .ok ((a, n, e) :: es)

/-- The cause with which an access from `va` is refused once all of it is translated: its alignment on MS (log 21), then protection,
then format (R166, R233, R407 step 4). -/
def AccKind.refuses (k : AccKind) (x : Xl) (va : Nat) (es : List (Nat × Nat × TlbEntry)) : Option (BitVec 8) :=
  let ms := !k.eng && es.any fun e => e.2.2.ms
  if ms && optAll k.align (fun w => va % w != 0) && k.align.isSome then some 0x06
  else if (es.any fun e => !protOk e.2.2 k.acc x.prv) || (ms && k.align.isNone) then some 0x09
  else if (k.acc == .wr || k.acc == .amo) && !k.eng && es.any (fun e => inFertite x.fws e.1) then some 0x0A
  else none

/-- A translated piece. -/
def pieceAt (x : Xl) (e : Nat × Nat × TlbEntry) : Piece × TlbEntry :=
  ({ at_ := .glob (e.2.2.pa + e.1 % 2 ^ e.2.2.lg) e.2.2.ms (ftOf x.fws e.1), len := e.2.1 }, e.2.2)

/-- The pieces of a global access, or the first check that fails over all of them in the order of R407 step 4. -/
def State.piecesOf (s : State) (x : Xl) (k : AccKind) (va : Nat) (cs : List (Nat × Nat)) :
    Except (BitVec 8 × BitVec 8) (List (Piece × TlbEntry)) :=
  match s.leaves x cs with
  | .error c => .error c
  | .ok es =>
    match k.refuses x va es with
    | some c => .error (c, 0)
    | none => .ok (es.map (pieceAt x))

/-- The pieces of an access of `n` bytes, windows and translation included: the cause and SUB of the first check that
fails in the order of R407, steps 3 and 4. -/
def State.access (s : State) (x : Xl) (k : AccKind) (va : W64) (n : Nat) :
    Except (BitVec 8 × BitVec 8) (List (Piece × TlbEntry)) :=
  match s.windowCause va n with
  | some c => .error (c, 0)
  | none =>
    let a := va.toNat
    let none' : TlbEntry :=
      { ctx := 0, va := 0, lg := 0, pa := 0, ms := false, u := false, x := false, w := false, rd := false }
    match regionOf a with
    | .own => .ok [({ at_ := .own (a - ownBase), len := n }, none')]
    | .gang m => .ok [({ at_ := .gang m ((a - gangBase) % 0x800000), len := n }, none')]
    | _ => s.piecesOf x k a (cuts 256 a n)

/-- A TLB with room for one more entry: a full one loses an entry of a free choice (R234; log 8). -/
def tlbRoom (cap n : Nat) (l : List TlbEntry) : Nat × List TlbEntry :=
  if l.length < cap then (n, l) else (n + 1, l.eraseIdx ((Config.freeWord n).toNat % l.length))

/-- An entry joins a TLB of a capacity; the free choices are counted from n. -/
def tlbPut (cap : Nat) (x : Nat × List TlbEntry) (e : TlbEntry) : Nat × List TlbEntry :=
  if x.2.contains e then x
  else
    let (n, l) := tlbRoom cap x.1 x.2
    (n, e :: l)

/-- A translation joins the core's TLB of 2,048 entries (R234). -/
def State.tlbIn (s : State) (e : TlbEntry) : State :=
  let (n, l) := tlbPut 2048 (s.fresh, s.core.tlb) e
  { s with fresh := n, core := { s.core with tlb := l } }

/-- The cause that a deferred or fetch fault's SUB holds for a failed translation (R343, R345, R346). -/
def subOf (c : BitVec 8 × BitVec 8) : BitVec 8 := if c.2 = 0x0B then 0x0B else c.1

/-- The translations of an access in a request's record of those it used; window pieces carry none. -/
def tlbAdd (tlb : List TlbEntry) (ps : List (Piece × TlbEntry)) : List TlbEntry :=
  ps.foldl (fun l p =>
    match p.1.at_ with
    | .glob .. => if l.contains p.2 then l else p.2 :: l
    | _ => l) tlb

/-- The table entries' lines that a walk read, as reads at their homes (R232, R344). -/
def State.walkLines (s : State) (va : Nat) : List (Nat × Nat) → Nat → State
  | [], _ => s
  | (lo, bits) :: rest, table =>
    let a := table + 8 * field va lo bits
    let e := s.rdField a 0 64
    let s := (s.engTime s.core.lt a false false).1.touch a 8 false
    if field e 0 1 = 0 ∨ field e 1 1 = 1 then s else s.walkLines va rest (256 * field e 8 49)

/-- The translation of an access by the core: where the TLB does not hold it, the tables are read and it joins (R234, R344). -/
def State.noteWalk (s : State) (va : Nat) (e : TlbEntry) : State :=
  if s.core.tlb.contains e then s else (s.walkLines va walkLevels (s.core.xl []).root).tlbIn e

/-- What protection asks for rules out the use of a leaf, so that a walk to it installs nothing (R343, R344). -/
def TlbEntry.barred (e : TlbEntry) (prv : Bool) : Bool := !protOk e .rd prv || !protOk e .amo prv || !protOk e .fetch prv

/-- The tables are read by the walk for one page of a refused access of the core, which installs nothing; the answer says whether the
page has a translation (R344). -/
def State.refusedAt (s : State) (va : Nat) : State × Bool :=
  let x := s.core.xl s.core.tlb
  if regionOf va ≠ .glob ∨ (tlbFind x.tlb x.ctx va).isSome = true then (s, true)
  else
    match s.walk x.ctx x.root va with
    | .error _ => (s.walkLines va walkLevels x.root, false)
    | .ok e => (if e.barred x.prv then s.walkLines va walkLevels x.root else s, true)

/-- The same for each page that an access of `n` bytes lies in, up to the first without a translation. -/
def State.noteRefused (s : State) (va : Nat) (n : Nat := 1) : State :=
  match s.refusedAt va with
  | (s', true) => if va / 65536 = (va + n - 1) / 65536 then s' else (s'.refusedAt (va + n - 1)).1
  | (s', false) => s'

end Sys2Proof.Machine
end

