-- ==== Sys2Proof/Machine/Num.lean ====
section
/-!
DEFINITION. Number formats and exact arithmetic (spec 03): values, rounding, conversion with substitutes, minimum and
maximum, the q4 codes. A finite value is exact: (-1)^neg * m * 2^e.
-/
namespace Sys2Proof

/-! ## Formats (R42) -/

/-- Exponent bits, mantissa bits and bias of a float type. -/
def fltFmt : Nat → Nat × Nat × Nat
  | 8 => (8, 23, 127)
  | 9 => (8, 7, 127)
  | 10 => (5, 10, 15)
  | 11 => (4, 3, 7)
  | 12 => (5, 2, 15)
  | _ => (8, 23, 127)

/-- Precision p and least exponent emin of R48. -/
def fltP (t : Nat) : Nat := (fltFmt t).2.1 + 1
def fltEmin (t : Nat) : Int := 1 - ((fltFmt t).2.2 : Int)

/-- Largest finite magnitude, as m and e (R42). -/
def fltMax : Nat → Nat × Int
  | 8 => (2 ^ 24 - 1, 104)
  | 9 => (2 ^ 8 - 1, 120)
  | 10 => (2 ^ 11 - 1, 5)
  | 11 => (14, 5)
  | 12 => (7, 13)
  | _ => (0, 0)

/-- Only e4m3 has no infinity (R42). -/
def hasInf (t : Nat) : Bool := tyFloat t && t != 11

/-- The canonical NaN (R46). -/
def canonNan : Nat → Nat
  | 8 => 0x7FC00000
  | 9 => 0x7FC0
  | 10 => 0x7E00
  | 11 => 0x7F
  | 12 => 0x7E
  | _ => 0

/-- Range of an integer type (R40). -/
def intMin (t : Nat) : Int := if t % 2 = 0 then -(2 ^ (tyWidth t - 1) : Int) else 0
def intMax (t : Nat) : Int := if t % 2 = 0 then 2 ^ (tyWidth t - 1) - 1 else 2 ^ tyWidth t - 1

/-! ## Plain functions of values -/

/-- An integer as a value. -/
def Val.ofInt (x : Int) : Val := .fin (decide (x < 0)) x.natAbs 0

def Val.neg : Val → Bool
  | .nan s | .inf s | .fin s _ _ => s

def Val.isNan : Val → Bool
  | .nan _ => true
  | _ => false

def Val.isInf : Val → Bool
  | .inf _ => true
  | _ => false

def Val.isZero : Val → Bool
  | .fin _ m _ => m == 0
  | _ => false

def Val.negate : Val → Val
  | .nan s => .nan !s
  | .inf s => .inf !s
  | .fin s m e => .fin (!s) m e

def Val.abs : Val → Val
  | .nan _ => .nan false
  | .inf _ => .inf false
  | .fin _ m e => .fin false m e

/-- A magnitude m1 * 2^e1 is at most m2 * 2^e2. -/
def magLe (m1 : Nat) (e1 : Int) (m2 : Nat) (e2 : Int) : Bool :=
  if e1 ≥ e2 then decide (m1 * 2 ^ (e1 - e2).toNat ≤ m2) else decide (m1 ≤ m2 * 2 ^ (e2 - e1).toNat)

/-- The signed integer of a finite value in units of 2^q, exact when q is at most its exponent. -/
def Val.scaled (q : Int) : Val → Int
  | .fin s m e => (if s then -1 else 1) * (m * 2 ^ (e - q).toNat : Int)
  | _ => 0

/-- The integer a finite value holds, where it is one. -/
def Val.toInt : Val → Int
  | .fin s m e =>
    let a : Int := if e ≥ 0 then (m * 2 ^ e.toNat : Nat) else (m / 2 ^ (-e).toNat : Nat)
    if s then -a else a
  | _ => 0

/-! ## Encodings (R40, R42, R54) -/

/-- `val` of a float encoding. -/
def fltVal (t bits : Nat) : Val :=
  let (eb, mb, bias) := fltFmt t
  let m := bits % 2 ^ mb
  let e := bits / 2 ^ mb % 2 ^ eb
  let s := bits / 2 ^ (mb + eb) % 2 == 1
  if t = 11 then
    if e = 15 ∧ m = 7 then .nan s
    else if e = 0 then .fin s m (-9) else .fin s (8 + m) (e - 10 : Int)
  else if e = 2 ^ eb - 1 then (if m = 0 then .inf s else .nan s)
  else if e = 0 then .fin s m (1 - (bias : Int) - mb)
  else .fin s (2 ^ mb + m) ((e : Int) - bias - mb)

/-- `val(b, t)` for the types 0x00 to 0x0C (R59). -/
def valOf (t bits : Nat) : Val :=
  if tySigned t then .ofInt (signed (tyWidth t) bits)
  else if tyInt t then .ofInt ((bits % 2 ^ tyWidth t : Nat) : Int)
  else fltVal t bits

/-- The encoding of a representable value of a float type (R59). -/
def fltEnc (t : Nat) (x : Val) : Nat :=
  let (eb, mb, bias) := fltFmt t
  let sgn (s : Bool) : Nat := if s then 2 ^ (mb + eb) else 0
  match x with
  | .nan _ => canonNan t
  | .inf s => sgn s + (2 ^ eb - 1) * 2 ^ mb
  | .fin s m e =>
    if m = 0 then sgn s
    else
      let l : Int := (m.log2 : Int) + e
      if l ≥ fltEmin t then
        let mant := if m.log2 ≤ mb then m * 2 ^ (mb - m.log2) else m / 2 ^ (m.log2 - mb)
        sgn s + (l + bias).toNat * 2 ^ mb + mant % 2 ^ mb
      else
        let q : Int := fltEmin t - mb
        sgn s + (if e ≥ q then m * 2 ^ (e - q).toNat else m / 2 ^ (q - e).toNat)

/-- `enc(x, t)` (R59). -/
def encOf (t : Nat) (x : Val) : Nat := if tyInt t then wrapN (tyWidth t) x.toInt else fltEnc t x

/-! ## Rounding (R47, R48) -/

/-- Whether an inexact magnitude moves away from zero. `odd` is the lower neighbour's last bit; `c` compares the remainder
with half a quantum. -/
def roundUp (rm : Nat) (neg odd : Bool) (c : Ordering) : Bool :=
  match rm with
  | 0 => c == .gt || (c == .eq && odd)
  | 1 => false
  | 2 => neg
  | 3 => !neg
  | _ => c != .lt

/-- The magnitude (m + ε) * 2^e rounded to multiples of 2^q, in units of 2^q; `sticky` says that 0 < ε < 1. -/
def roundMag (rm : Nat) (neg : Bool) (m : Nat) (e : Int) (sticky : Bool) (q : Int) : Nat :=
  if q ≤ e then m * 2 ^ (e - q).toNat
  else
    let s := (q - e).toNat
    let k := m / 2 ^ s
    let r := m % 2 ^ s
    if r = 0 ∧ sticky = false then k
    else
      let c : Ordering := if 2 * r < 2 ^ s then .lt else if 2 * r = 2 ^ s ∧ sticky = false then .eq else .gt
      if roundUp rm neg (k % 2 == 1) c then k + 1 else k

/-- The overflow result of a mode (R48 step 2). -/
def overflowVal (t rm : Nat) (neg : Bool) : Val :=
  let big : Val := .fin neg (fltMax t).1 (fltMax t).2
  match rm with
  | 1 => big
  | 2 => if neg then .inf true else big
  | 3 => if neg then big else .inf false
  | _ => .inf neg

/-- `round` of (-1)^neg * (m + ε) * 2^e into a float type (R48); with `sticky`, m has more bits than the precision. -/
def roundFlt (t rm : Nat) (neg : Bool) (m : Nat) (e : Int) (sticky : Bool) : Val :=
  if m = 0 ∧ sticky = false then .fin neg 0 0
  else
    let l : Int := (m.log2 : Int) + e
    let q : Int := max l (fltEmin t) - fltP t + 1
    let k := roundMag rm neg m e sticky q
    if magLe k q (fltMax t).1 (fltMax t).2 then .fin neg k q else overflowVal t rm neg

/-- `round(x, t, rm)` for a float type; specials pass. -/
def roundVal (t rm : Nat) : Val → Val
  | .fin s m e => roundFlt t rm s m e false
  | x => x

/-- Rounding into the integers, q = 1 (R48). -/
def roundInt (rm : Nat) : Val → Int
  | .fin s m e => (if s then -1 else 1) * (roundMag rm s m e false 0 : Int)
  | _ => 0

/-! ## Exact arithmetic (R49, R59) -/

/-- The exact product; a NaN operand or infinity times zero is a NaN. -/
def Val.mul : Val → Val → Val
  | .nan _, _ => .nan false
  | _, .nan _ => .nan false
  | .inf s, y => if y.isZero then .nan false else .inf (xor s y.neg)
  | x, .inf s => if x.isZero then .nan false else .inf (xor s x.neg)
  | .fin s m e, .fin s' m' e' => .fin (xor s s') (m * m') (e + e')

/-- The exact sum with the zero signs of R49. -/
def Val.add (rm : Nat) : Val → Val → Val
  | .nan _, _ => .nan false
  | _, .nan _ => .nan false
  | .inf s, .inf s' => if s = s' then .inf s else .nan false
  | .inf s, _ => .inf s
  | _, .inf s => .inf s
  | .fin s m e, .fin s' m' e' =>
    let q := min e e'
    let z := (Val.fin s m e).scaled q + (Val.fin s' m' e').scaled q
    if z = 0 then .fin (if m = 0 ∧ m' = 0 ∧ s = s' then s else rm == 2) 0 0
    else .fin (decide (z < 0)) z.natAbs q

/-- A float result written by a helper: canonical NaN, and NaN for an infinite e4m3 (R59). -/
def fltRes (t rm : Nat) (x : Val) : Nat :=
  let y := roundVal t rm x
  if y.isNan ∨ (y.isInf ∧ t = 11) then canonNan t else fltEnc t y

/-- The order of two values; none when one is a NaN. -/
def Val.cmp : Val → Val → Option Ordering
  | .nan _, _ => none
  | _, .nan _ => none
  | .inf s, .inf s' => some (if s = s' then .eq else if s then .lt else .gt)
  | .inf s, _ => some (if s then .lt else .gt)
  | _, .inf s => some (if s then .gt else .lt)
  | .fin s m e, .fin s' m' e' =>
    let q := min e e'
    some (compare ((Val.fin s m e).scaled q) ((Val.fin s' m' e').scaled q))

/-- `fmin` and `fmax`: −0 below +0, a NaN operand gives a NaN (R57). -/
def Val.fmin (x y : Val) : Val :=
  match x.cmp y with
  | none => .nan false
  | some .lt => x
  | some .gt => y
  | some .eq => if x.neg then x else y

def Val.fmax (x y : Val) : Val :=
  match x.cmp y with
  | none => .nan false
  | some .lt => y
  | some .gt => x
  | some .eq => if x.neg then y else x

/-! ## Narrowing and conversion (R41, R50, R51) -/

/-- `sat` or `wrap` into an integer type, as its encoding (R41). -/
def narrow (t : Nat) (sat : Bool) (x : Int) : Nat :=
  wrapN (tyWidth t) (if sat then max (intMin t) (min (intMax t) x) else x)

/-- The flags of R52. -/
def flagNan : BitVec 5 := 1
def flagInf : BitVec 5 := 2
def flagOvf : BitVec 5 := 4
def flagUnf : BitVec 5 := 8
def flagLength : BitVec 5 := 16

/-- `subst(code, t, s)` (R50). -/
def subst (code t : Nat) (s : Bool) : Nat :=
  match code with
  | 0 =>
    if tyInt t then wrapN (tyWidth t) (if s then intMin t else intMax t)
    else fltEnc t (.fin s (fltMax t).1 (fltMax t).2)
  | 1 => 0
  | _ => canonNan t

/-- `cvt(x, t, rm, sn, si, so)` (R51). -/
def cvt (x : Val) (t rm sn si so : Nat) : Nat × BitVec 5 :=
  match x with
  | .nan s => if tyFloat t then (canonNan t, 0) else (subst sn t s, flagNan)
  | .inf s => if hasInf t then (fltEnc t (.inf s), 0) else (subst si t s, flagInf)
  | .fin s m e =>
    if tyInt t then
      let y := roundInt rm x
      if y < intMin t ∨ intMax t < y then (subst so t s, flagOvf) else (wrapN (tyWidth t) y, 0)
    else if m = 0 then (fltEnc t x, 0)
    else
      let y := roundFlt t rm s m e false
      if y.isInf ∧ hasInf t = false then (subst so t s, flagOvf)
      else if y.isZero then (fltEnc t y, flagUnf)
      else (fltEnc t y, 0)

/-! ## Identities (R58) -/

/-- The identity of an operation (0 sum, 1 minimum, 2 maximum), as an encoding. -/
def identity (op t : Nat) : Nat :=
  match op with
  | 0 => if tyInt t then 0 else fltEnc t (.fin true 0 0)
  | 1 => if tyInt t then wrapN (tyWidth t) (intMax t) else if t = 11 then 0x7E else fltEnc t (.inf false)
  | _ => if tyInt t then wrapN (tyWidth t) (intMin t) else if t = 11 then 0xFE else fltEnc t (.inf true)

/-! ## The q4 codes (R53, R54) -/

/-- `q4val(c, type)`, with halves as exponent −1. -/
def q4val (ty c : Nat) : Val :=
  match ty with
  | 0 => .ofInt (signed 4 c)
  | _ =>
    let s := c / 8 % 2 == 1
    let k := c % 8
    match ty with
    | 1 => .fin s ([0, 1, 2, 3, 4, 6, 8, 12].getD k 0) (-1)
    | 2 => .fin s ([0, 1, 2, 4, 8, 16, 32, 64].getD k 0) 0
    | _ => .fin s ([0, 1, 2, 3, 4, 6, 8, 12].getD k 0) 0

/-- A value times 2^k. -/
def Val.shift (k : Int) : Val → Val
  | .fin s m e => .fin s m (e + k)
  | x => x

/-- A predicate of `fcmp` and `vcmp` on an order (R94). -/
def fltPred (p : Nat) (o : Option Ordering) : Bool :=
  match o with
  | none => p == 1 || p == 6
  | some c =>
    match p with
    | 0 => c == .eq
    | 1 => c != .eq
    | 2 => c == .lt
    | 3 => c != .gt
    | 4 => c == .gt
    | 5 => c != .lt
    | 6 => false
    | _ => true

end Sys2Proof
end

