-- ==== Sys2Proof/Machine/Ops.lean ====
section
/-!
DEFINITION. The named operations over State that every meaning uses: parts of the task, registers with their full/empty bits,
tags and marks (spec 02 R24-R27, 09 R176, R180), results in flight (02 R23), and taking a trap and returning from one
(23 R336-R340, 10 R211).
-/
namespace Sys2Proof.Machine
open Sys2Proof

/-! ## Parts of the state -/

/-- The task span of the core whose turn it is. -/
def State.t (s : State) : TaskSpan := s.core.t

def State.modT (s : State) (f : TaskSpan → TaskSpan) : State := { s with core := { s.core with t := f s.core.t } }
def State.modRegs (s : State) (f : Regs → Regs) : State := s.modT fun t => { t with regs := f t.regs }
def State.modFlags (s : State) (f : FlagFile → FlagFile) : State := s.modT fun t => { t with flags := f t.flags }
def State.modSys (s : State) (f : SysRegs → SysRegs) : State := s.modT fun t => { t with sys := f t.sys }
def State.modCtl (s : State) (f : Ctl → Ctl) : State := s.modT fun t => { t with ctl := f t.ctl }
def State.modBun (s : State) (f : Bun → Bun) : State := s.modCtl fun c => { c with bun := f c.bun }
def State.modMat (s : State) (f : Matrix → Matrix) : State := s.modT fun t => { t with mat := f t.mat }
def State.modQ (s : State) (f : Queues → Queues) : State := s.modT fun t => { t with q := f t.q }
def State.modEng (s : State) (f : Engines → Engines) : State := s.modT fun t => { t with eng := f t.eng }
/-- An MSI-X vector signalled by both functions (R377, R382). -/
def State.msi (s : State) (v : Nat) : State := s.modSup fun u => { u with msix := u.msix ++ [(0, v), (1, v)] }
def State.modTask (s : State) (f : TaskId → TaskId) : State := s.modT fun t => { t with task := t.task.map f }

/-- The bundle at hand. -/
def State.bun (s : State) : Bun := s.t.ctl.bun

/-! ## Times by path (R266) -/

/-- A time assigned on a path, counted for the fences to come (R266). -/
def Engines.noteTime (e : Engines) (path : Nat) (t : Time) : Engines :=
  { e with pathT := spPut e.pathT path ((tjoin (spFind e.pathT path) t).getD t) }

/-- What a request wrote outside the module: its time on path F, and the ports it wrote through (R270, R272). -/
def Engines.noteFar (e : Engines) (far : Bool) (t : Time) (ps : List Nat) : Engines :=
  (if far then e.noteTime 6 t else e).postPorts ps

/-! ## Registers -/

/-- s0 reads as zero (R6). -/
def State.sGet (s : State) (r : BitVec 6) : W64 := if r = 0 then 0 else spGet 0 s.t.regs.s r.toNat
def State.vGet (s : State) (r : BitVec 6) : W256 := spGet 0 s.t.regs.v r.toNat
/-- k0 reads as all ones (R6). -/
def State.kGet (s : State) (r : BitVec 3) : W128 := if r = 0 then BitVec.allOnes 128 else spGet 0 s.t.regs.k r.toNat

/-- A group of v registers as one number, the first register lowest (R99). -/
def State.vGroup (s : State) (r : BitVec 6) : Nat → Nat
  | 0 => 0
  | n + 1 => (s.vGet r).toNat + 2 ^ 256 * s.vGroup (r + 1) n

/-- A write of an s register: s0 discards it; the poison tag clears (R64, R180). -/
def State.sPut (s : State) (r : BitVec 6) (x : W64) : State :=
  if r = 0 then s
  else
    s.modT fun t =>
      { t with
        regs := { t.regs with s := spSet 0 t.regs.s r.toNat x }
        flags := { t.flags with tagS := spErase t.flags.tagS r.toNat } }

def State.vPut (s : State) (r : BitVec 6) (x : W256) : State :=
  s.modT fun t =>
    { t with
      regs := { t.regs with v := spSet 0 t.regs.v r.toNat x }
      flags := { t.flags with tagV := spErase t.flags.tagV r.toNat } }

/-- A write of a k register: k0 discards it (R64). -/
def State.kPut (s : State) (r : BitVec 3) (x : W128) : State :=
  if r = 0 then s else s.modRegs fun g => { g with k := spSet 0 g.k r.toNat x }

/-- A group of v registers written from one number. -/
def State.vPutGroup (s : State) (r : BitVec 6) (x : Nat) : Nat → State
  | 0 => s
  | n + 1 => (s.vPut r (BitVec.ofNat 256 x)).vPutGroup (r + 1) (x / 2 ^ 256) n

/-! ## Full and empty (R24) -/

/-- A register's empty bit; s0 and k0 are always full. -/
def State.emptyAt (s : State) : RegId → Bool
  | .s n => n != 0 && s.t.flags.sE.getLsbD n.toNat
  | .v n => s.t.flags.vE.getLsbD n.toNat
  | .k n => n != 0 && s.t.flags.kE.getLsbD n.toNat
  | .x _ => false

/-- One bit of a word set or cleared. -/
def setBit {w : Nat} (x : BitVec w) (n : Nat) (b : Bool) : BitVec w :=
  if b then x ||| BitVec.ofNat w (2 ^ n) else x &&& ~~~BitVec.ofNat w (2 ^ n)

def FlagFile.setEmpty (f : FlagFile) (r : RegId) (b : Bool) : FlagFile :=
  match r with
  | .s n => if n = 0 then f else { f with sE := setBit f.sE n.toNat b }
  | .v n => { f with vE := setBit f.vE n.toNat b }
  | .k n => if n = 0 then f else { f with kE := setBit f.kE n.toNat b }
  | .x _ => f

def State.setEmpty (s : State) (r : RegId) (b : Bool) : State := s.modFlags (·.setEmpty r b)
def State.setEmpties (s : State) (rs : List RegId) (b : Bool) : State :=
  s.modFlags fun f => rs.foldl (fun f r => f.setEmpty r b) f

/-- The registers of a v group. -/
def vRegs (r : BitVec 6) (n : Nat) : List RegId := (List.range n).map fun i => .v (r + BitVec.ofNat 6 i)

/-! ## Marks and tags (R176, R180) -/

/-- The mark that covers a register. -/
def State.markOf (s : State) (r : RegId) : Option Mark := findFirst? (·.regs.contains r) s.t.flags.marks

/-- A register's poison tag. -/
def State.tagOf (s : State) : RegId → BitVec 3
  | .s n => spGet 0 s.t.flags.tagS n.toNat
  | .v n => spGet 0 s.t.flags.tagV n.toNat
  | .k _ => 0
  | .x _ => 0

/-- A load's or breach's group left empty and marked (R176, R313). -/
def State.mark (s : State) (rs : List RegId) (cause : BitVec 8) (addr : W64) : State :=
  s.modFlags fun f => { f with marks := { regs := rs, cause, addr } :: f.marks }

/-- A register written by its kind; a tile register is cleared, which is all that is ever asked of it. -/
def State.rPut (s : State) (r : RegId) (x : Nat) : State :=
  match r with
  | .s n => s.sPut n (BitVec.ofNat 64 x)
  | .v n => s.vPut n (BitVec.ofNat 256 x)
  | .k n => s.kPut n (BitVec.ofNat 128 x)
  | .x n => s.modRegs fun g => { g with x := g.x.filter fun p => p.1 / 32 != n.toNat }

/-- A marked group made full with value zero, its mark cleared (R176). -/
def State.clearMark (s : State) (m : Mark) : State :=
  let s := m.regs.foldl (fun s r => (s.rPut r 0).setEmpty r false) s
  s.modFlags fun f => { f with marks := f.marks.filter (· != m) }

/-- A register filled with a tagged zero (R181). -/
def State.tagFill (s : State) (r : RegId) (t : BitVec 3) : State :=
  let s := (s.rPut r 0).setEmpty r false
  s.modFlags fun f => match r with
    | .s n => if n = 0 then f else { f with tagS := spSet 0 f.tagS n.toNat t }
    | .v n => { f with tagV := spSet 0 f.tagV n.toNat t }
    | .k _ => f
    | .x _ => f

/-! ## Results in flight (R23, R27) -/

def Flight.before (a b : Flight) : Bool :=
  decide (a.seq < b.seq) || (a.seq == b.seq && (decide (a.slot < b.slot) || (a.slot == b.slot && decide (a.rep ≤ b.rep))))

/-- A flight put into the order of R27: bundle, then slot, then repetition. -/
def flyInsert (x : Flight) : List Flight → List Flight
  | [] => [x]
  | y :: ys => if y.before x then y :: flyInsert x ys else x :: y :: ys

/-- A result of the bundle at hand that lands `lat` cycles after the present one. -/
def State.fly (s : State) (lat : Nat) (slot : Slot) (e : Effect) (flags : BitVec 5 := 0) : State :=
  let b := s.bun
  let x : Flight := { due := s.cyc + lat, seq := b.seq, slot := slot.code, rep := b.rep, eff := e, flags }
  s.modQ fun q => { q with fly := flyInsert x q.fly }

/-- A v group's result: one landing for each register. -/
def State.flyV (s : State) (lat : Nat) (slot : Slot) (r : BitVec 6) (x : Nat) : Nat → State
  | 0 => s
  | n + 1 => (s.fly lat slot (.v r (BitVec.ofNat 256 x))).flyV lat slot (r + 1) (x / 2 ^ 256) n

/-! ## System registers (R217, R336) -/

/-- `sys.mode` (R217). -/
def SysRegs.mode (y : SysRegs) : W64 :=
  BitVec.ofNat 64 (pack [(1, y.h.toNat), (1, y.prv.toNat), (1, y.ph.toNat), (1, y.log.toNat), (1, y.rpl.toNat),
    (1, y.hs.toNat)])

/-- A system register as `mfs` reads it (R217). -/
def State.sysGet (s : State) (n : Nat) : W64 :=
  let y := s.t.sys
  match n with
  | 0x0 => y.trapvec
  | 0x1 => y.cause
  | 0x2 => y.epc
  | 0x3 => y.tval
  | 0x4 => BitVec.ofNat 64 (y.sa.toNat + 256 * y.da.toNat)
  | 0x5 => BitVec.ofNat 64 (y.rp.toNat + 256 * y.kv.toNat)
  | 0x6 => y.stage.setWidth 64
  | 0x7 => y.cvs.setWidth 64
  | 0x8 => y.rqkey
  | 0x9 => y.rqctr
  | 0xA => s.core.lt.setWidth 64
  | 0xB => y.split.setWidth 64
  | 0xC => BitVec.ofNat 64 s.t.ctl.regions.length
  | 0xD => y.mode
  | _ => 0

/-- Writable bits of the trap registers (R336). -/
def trapvecMask : W64 := 0x01FFFFFFFFFFFFFC
def causeMask : W64 := 0xFFFFFFFF01FF0FFF
def epcMask : W64 := 0x01FFFFFFFFFFFFFF

/-- A system register's write as it takes effect; read-only bits stay as they read (R129, R137, R138, R217, R336). The
supervisor's write of `sys.stage` is included; numbers with nothing to write change nothing (R299). DESIGN CHOICE (log 78): a write of
`sys.rqkey` or `sys.rqctr` counts the bits that a short pop has reserved as generated, so that pop fills at the next fill. -/
def State.sysPut (s : State) (n : Nat) (x : W64) : State :=
  match n with
  | 0x0 => s.modSys fun y => { y with trapvec := x &&& trapvecMask }
  | 0x1 => s.modSys fun y => { y with cause := x &&& causeMask }
  | 0x2 => s.modSys fun y => { y with epc := x &&& epcMask }
  | 0x3 => s.modSys fun y => { y with tval := x }
  | 0x4 => s.modSys fun y => { y with sa := x.setWidth 8, da := (x >>> 8).setWidth 8 }
  | 0x5 => s.modSys fun y => { y with rp := x.setWidth 7, kv := (x >>> 8).setWidth 7 }
  | 0x6 => s.modSys fun y => { y with stage := x.setWidth 32 }
  | 0x7 => s.modSys fun y => { y with cvs := x.setWidth 5 }
  | 0x8 => (s.modSys fun y => { y with rqkey := x }).modQ fun q => { q with rqGen := q.rqUsed }
  | 0x9 => (s.modSys fun y => { y with rqctr := x }).modQ fun q => { q with rqGen := q.rqUsed }
  | _ => s

/-- The stream is on its Yoke slots again (R366, R391). -/
def State.onSlot (s : State) : State := s.modCtl fun c => { c with slip := false }

/-! ## Freezing (R329) -/

/-- The task is frozen: cycle F has come. -/
def State.frozen (s : State) : Bool :=
  match s.t.ctl.freeze with
  | some z => decide (z.f ≤ s.cyc)
  | none => false

/-- The last cycle whose landings are applied now: effects due at F or later are caught. -/
def State.landBy (s : State) : Nat :=
  match s.t.ctl.freeze with
  | some z => min s.cyc (z.f - 1)
  | none => s.cyc

/-! ## The task's places -/

/-- The bundle follows in a delayed transfer's shadow: one is pending (R31). -/
def State.inDelay (s : State) : Bool := s.t.ctl.xfer.isSome


/-- A free value: the next value of the counter that makes each one new (log 5). -/
def State.free (s : State) : State × W64 := ({ s with fresh := s.fresh + 1 }, Config.freeWord s.fresh)
def State.freeV (s : State) : State × W256 := ({ s with fresh := s.fresh + 1 }, Config.freeVec s.fresh)

/-! ## Taking a trap (R338, R340) -/

/-- PDIST of a posting bundle as seen from the bundle that reports it (R336). -/
def pdist (epc bun : W64) : Nat :=
  let d : Int := ((epc.toNat : Int) - (bun.toNat : Int)) / 4
  if -(2 ^ 31 : Int) ≤ d ∧ d < 2 ^ 31 then wrapN 32 d else 0x80000000

/-- `sys.cause` of a trap (R336). -/
def causeWord (cause : BitVec 8) (slot : Slot) (dly : Bool) (sub : BitVec 8) (more : Bool) (pd : Nat) : W64 :=
  BitVec.ofNat 64 (pack [(8, cause.toNat), (3, slot.code), (1, dly.toNat), (4, 0), (8, sub.toNat), (1, more.toNat), (7, 0),
    (32, pd)])

/-- The trap is faulted out: a handler is running, none is named, or the context routes the cause away (R340). -/
def State.faultsOut (s : State) (cause : BitVec 8) : Bool :=
  s.t.sys.h || s.t.sys.trapvec == 0 ||
    match s.t.task with
    | some t => t.troute.getLsbD cause.toNat
    | none => false

/-- The frame of R338: which register saves what (EPC without its read-only bits, R336), and the trap latch. A trap value that the spec leaves open is the free value of
the counter here, which moves on (log 5). -/
def State.frame (s : State) (tr : Trap) (epc : W64) (more : Bool) (pd : Nat) : State :=
  let x := s.t.ctl.xfer
  let s := State.modSys { s with fresh := s.fresh + 1 } fun y =>
    { y with cause := causeWord tr.cause tr.slot x.isSome tr.sub more pd, epc := epc &&& epcMask, tval := tr.tval }
  s.modCtl fun c => { c with latch := c.xfer, xfer := none, bun := { c.bun with st := .trapped } }

/-- Taking a trap at a bundle: delivery to the task's handler, whose first bundle counts from this cycle, or the fault-out
of R340, which freezes the task in the next cycle. -/
def State.deliver (s : State) (tr : Trap) (epc : W64) (more : Bool := false) (pd : Nat := 0) : State :=
  if s.faultsOut tr.cause then
    let s := s.frame tr epc more pd
    s.modCtl fun c => { c with freeze := some { f := s.cyc + 1, gang := false, fault := some s.t.sys.cause } }
  else
    let s := s.frame tr epc more pd
    let s := s.modSys fun y => { y with h := true }
    s.modCtl fun c => { c with pc := s.t.sys.trapvec, eBase := s.cyc + 1, gapIn := false }

/-- Return from a handler (R339): H clears, the latched transfer is pending again, the next bundle is at EPC. -/
def State.trapReturn (s : State) : State :=
  let s := s.modSys fun y => { y with h := false }
  s.modCtl fun c =>
    { c with xfer := c.latch, latch := none, bun := { c.bun with next := s.t.sys.epc } }

/-- The deferred posted-operation fault record: the first failure in issue order is kept, any other sets MORE (R346). -/
def Ctl.deferFault (c : Ctl) (addr : W64) (sub : BitVec 8) (bun : W64) (seq : Nat) : Ctl :=
  { c with dpf := match c.dpf with
      | none => some { addr, sub, bun, more := false, seq }
      | some d => if seq < d.seq then some { addr, sub, bun, more := true, seq } else some { d with more := true } }

def State.deferFault (s : State) (addr : W64) (sub : BitVec 8) (bun : W64) (seq : Nat) : State :=
  s.modCtl (·.deferFault addr sub bun seq)

/-- Delivery of the deferred record as cause 0x11; the record clears (R194, R209, R346). -/
def State.deliverDeferred (s : State) (d : Dpf) : State :=
  let epc := s.bun.addr
  let s := s.deliver { cause := 0x11, slot := .c, tval := d.addr, sub := d.sub } epc d.more (pdist epc d.bun)
  s.modCtl fun c => { c with dpf := none }

/-- The walk that an access refused by translation or protection made has read the tables; so has that of a counter which `end`'s own
check refuses, where no deferred fault stands (R344, R194). -/
def State.noteTrap (s : State) (tr : Trap) : State :=
  if tr.cause = 0x08 ∨ tr.cause = 0x09 ∨ tr.cause = 0x17 ∨ (tr.cause = 0x11 ∧ s.t.ctl.dpf = none) then s.noteRefused tr.tval.toNat tr.n
  else s

/-- A trap of the bundle at hand. Poison met in an open region with H = 0 unwinds instead (R211, R348); a poisoned or
breached group is made full and zero at delivery (R176). Cause 0x11 reports the deferred record where one is held (R194). -/
def State.raise (s : State) (tr : Trap) (m : Option Mark := none) : State :=
  let s := s.noteTrap tr
  let epc := s.bun.addr
  if tr.cause = 0x0B ∧ s.t.ctl.regions ≠ [] ∧ s.t.sys.h = false then
    s.modCtl fun c =>
      { c with unwind := some { bun := epc, sub := 0x0B, slot := tr.slot, tval := tr.tval, mark := m }
               bun := { c.bun with st := .trapped } }
  else
    match m, tr.cause == 0x11, s.t.ctl.dpf with
    | some m, _, _ => if s.faultsOut tr.cause then s.deliver tr epc else (s.deliver tr epc).clearMark m
    | none, true, some d => s.deliverDeferred d
    | none, _, _ => s.deliver tr epc

end Sys2Proof.Machine
end

