-- ==== Sys2Proof/Machine/Operands.lean ====
section
/-!
DEFINITION. Operand forms of the control words (spec 04 R64-R74, 05 R81, 07 R117, R118), the random stream (07 R128, R129), the
immediates of the C slot (09 R167) and how a slot's result is written.
-/
namespace Sys2Proof.Machine
open Sys2Proof

/-! ## The random stream (R128, R129) -/

/-- Word W(i) of the stream of a key (R128). -/
def rqWord (key : W64) (i : Nat) : W64 :=
  let z := key + BitVec.ofNat 64 (i + 1) * 0x9E3779B97F4A7C15
  let z := (z ^^^ (z >>> 30)) * 0xBF58476D1CE4E5B9
  let z := (z ^^^ (z >>> 27)) * 0x94D049BB133111EB
  z ^^^ (z >>> 31)

/-- Words i to i + n − 1 joined, the first lowest. -/
def rqWords (key : W64) (i : Nat) : Nat → Nat
  | 0 => 0
  | n + 1 => (rqWord key i).toNat + 2 ^ 64 * rqWords key (i + 1) n

/-- The `w` stream bits from a position on, the first as bit 0. -/
def rqBits (key : W64) (pos : W64) (w : Nat) : Nat :=
  let p := pos.toNat
  rqWords key (p / 64) (w / 64 + 2) / 2 ^ (p % 64) % 2 ^ w

/-- A pop of `w` bits: it reserves them and moves POS (R128, R129). -/
def State.pop (s : State) (w : Nat) : State × Nat :=
  let y := s.t.sys
  let x := rqBits y.rqkey y.rqctr w
  let s := s.modSys fun y => { y with rqctr := y.rqctr + BitVec.ofNat 64 w }
  (s.modQ fun q => { q with rqUsed := q.rqUsed + w }, x)

/-- Bits reserved that have not been generated yet: the pop was short (R68). -/
def State.rqShort (s : State) : Bool := decide (s.t.q.rqGen < s.t.q.rqUsed)

/-! ## Literals and specials (R66, R67) -/

def State.lit (s : State) (n : BitVec 6) : W32 := s.bun.lits.getD n.toNat 0

/-- A literal word as an element of type t (R66). -/
def litElem (t : Nat) (w : W32) : Nat :=
  if t = 6 then (w.signExtend 64).toNat
  else if t = 7 then w.toNat
  else w.toNat % 2 ^ tyWidth t

/-- The integer of special codes 0x00 to 0x04 (R67). -/
def State.specialInt (s : State) (code : Nat) : Nat :=
  match s.t.task, code with
  | _, 0 => s.cyc % 2 ^ 64
  | some t, 1 => t.tcx.toNat
  | some t, 2 => t.tcy.toNat
  | some t, 3 => t.tcz.toNat
  | _, 4 => s.core.id
  | _, _ => 0

/-- A special source as an element of type t (R67). -/
def State.specialElem (s : State) (t code : Nat) : Nat :=
  if code ≤ 4 then s.specialInt code % 2 ^ tyWidth t
  else if code = 5 then 2 ^ tyWidth t - 1
  else identity (code - 6) t

/-- A literal or special source as an element of type t. -/
def State.elemOf (s : State) (t : Nat) (x : Src) : Nat :=
  if x.kind = 1 then litElem t (s.lit x.num) else s.specialElem t x.num.toNat

/-- One element in every lane of `bits` bits. -/
def splat (w bits e : Nat) : Nat := joinE w (List.replicate (bits / w) e)

/-! ## Sources (R65, R81, R117) -/

/-- The bits a source supplies in the repetition at hand: data and scalar data in their element type, controls as n64, k
sources as 128 bits, the identity as one element. -/
def State.source (s : State) (op : Nat) (q : SlotOp) (i : Nat) (x : Src) (r : Role) : State × Nat :=
  let t := srcTy op q.h i
  let n := tyWidth t
  let j := s.bun.rep
  match r with
  | .none => (s, 0)
  | .lit => (s, (s.lit x.num).toNat)
  | .litOpt => (s, (s.lit x.num).toNat)
  | .ctl =>
    if x.kind = 0 then (s, (s.sGet (q.sReg x.num j)).toNat)
    else if x.kind = 2 then s.pop 64
    else (s, s.elemOf 7 x)
  | .sdata =>
    if x.kind = 0 then (s, (s.sGet (q.sReg x.num j)).toNat % 2 ^ n)
    else if x.kind = 2 then s.pop n
    else (s, s.elemOf t x)
  | .sreg => (s, (s.sGet (q.sReg x.num j)).toNat)
  | .vreg => (s, s.vGroup (q.vReg x.num j) (if op = 0x60 then 2 else 1))
  | .kmask =>
    if x.kind = 0 then (s, (s.kGet ((q.vReg x.num j).setWidth 3)).toNat)
    else if x.kind = 1 then (s, (s.lit x.num).toNat)
    else if x.kind = 2 then s.pop 128
    else (s, if x.num.toNat ≤ 4 then s.specialInt x.num.toNat else 2 ^ 128 - 1)
  | .ident => (s, if x.isZero then identity 0 t else s.elemOf t x)
  | .data =>
    if op < 0x40 then
      if x.kind = 0 then (s, (s.sGet (q.sReg x.num j)).toNat % 2 ^ n)
      else if x.kind = 2 then s.pop n
      else (s, s.elemOf t x)
    else
      let w := srcBits op q
      if x.kind = 0 then (s, s.vGroup (q.vReg x.num j) (w / 256))
      else if x.kind = 2 then s.pop w
      else (s, splat n w (s.elemOf t x))

/-- The three sources of a slot, A, B and C, with the pops they make. -/
def State.operands (s : State) (op : Nat) (q : SlotOp) : State × Nat × Nat × Nat :=
  match opSpec op with
  | none => (s, 0, 0, 0)
  | some sp =>
    match sources op q sp with
    | [(_, xa, ra), (_, xb, rb), (_, xc, rc)] =>
      let (s, a) := s.source op q 0 xa ra
      let (s, b) := s.source op q 1 xb rb
      let (s, c) := s.source op q 2 xc rc
      (s, a, b, c)
    | _ => (s, 0, 0, 0)

/-- A data element with the modifiers of its source: absolute, then negate (R69). -/
def modVal (x : Src) (v : Val) : Val :=
  let v := if x.abs = 1 then v.abs else v
  if x.neg = 1 then v.negate else v

/-! ## Masks (R70, R73, R118) -/

/-- The mask of a slot as a number. -/
def State.maskBits (s : State) (q : SlotOp) : Nat := (s.kGet (BitVec.ofNat 3 q.maskReg)).toNat

/-- Element e of width w is active (R73). -/
def active (m w e : Nat) : Bool := m.testBit (e * w / 8)

/-- Result elements merged with the old destination: an inactive element keeps its bits or becomes zero (R73, R100). -/
def merge (m w : Nat) (z : Bool) : Nat → List Nat → List Nat → List Nat
  | _, [], _ => []
  | e, x :: xs, old => (if active m w e then x else if z then 0 else old.headD 0) :: merge m w z (e + 1) xs old.tail

/-! ## Results -/

/-- What `put(d, x, t)` writes for an encoding of type t (R81). -/
def putVal (t : Nat) (e : Nat) : W64 :=
  if tySigned t then BitVec.ofInt 64 (signed (tyWidth t) e) else BitVec.ofNat 64 (e % 2 ^ tyWidth t)

/-- The registers that effects write, for the empty bits of a long-latency result. -/
def Effect.reg? : Effect → Option RegId
  | .s n _ => some (.s n)
  | .v n _ => some (.v n)
  | .k n _ => some (.k n)
  | _ => none

/-- The slot pops the random queue (R68, R96). -/
def hcwPops (op : Nat) (q : SlotOp) : Bool :=
  op == 0x31 ||
    match opSpec op with
    | none => false
    | some sp => (sources op q sp).any fun (_, x, r) => r != .none && x.kind == 2

/-- A slot's results: in flight with their latency, or, when its pops were short, empty until the bits arrive (R68). DESIGN CHOICE
(log 66): a tile row, which has no empty bit (R24), is then written at the fill and holds its old value until then. -/
def State.results (s : State) (lat : Nat) (slot : Slot) (pops : Bool) (effs : List Effect) (flags : BitVec 5) : State :=
  if pops && s.rqShort then
    let s := s.setEmpties (effs.filterMap Effect.reg?) true
    s.modQ fun q => { q with rqPend := q.rqPend ++ [{ ready := q.rqUsed, effs, flags }] }
  else
    match effs with
    | [] => s
    | e :: es => es.foldl (fun s e => s.fly lat slot e) (s.fly lat slot e flags)

/-- A v group's effects from one number. -/
def vEffects (r : BitVec 6) (x : Nat) : Nat → List Effect
  | 0 => []
  | n + 1 => .v r (BitVec.ofNat 256 x) :: vEffects (r + 1) (x / 2 ^ 256) n

/-- A scalar slot's result register. -/
def State.scalarResult (s : State) (op : Nat) (q : SlotOp) (x : W64) (flags : BitVec 5 := 0) : State :=
  s.results (hcwLat op q) q.slot (hcwPops op q) [.s (q.dst s.bun.rep) x] flags

/-- A vector slot's result group of `regs` registers. -/
def State.vectorResult (s : State) (op : Nat) (q : SlotOp) (x regs : Nat) (flags : BitVec 5 := 0) : State :=
  s.results (hcwLat op q) q.slot (hcwPops op q) (vEffects (q.dst s.bun.rep) x regs) flags

/-- A mask result. -/
def State.maskResult (s : State) (op : Nat) (q : SlotOp) (x : Nat) : State :=
  s.results (hcwLat op q) q.slot (hcwPops op q) [.k ((q.dst s.bun.rep).setWidth 3) (BitVec.ofNat 128 x)] 0

/-! ## C-slot immediates (R167) -/

/-- imm13 sign-extended, or the literal word it names as a signed 32-bit value. -/
def State.immOf (s : State) (i : CImm) : W64 :=
  if i.l = 1 then (s.lit (i.imm.setWidth 6)).signExtend 64 else i.imm.signExtend 64

/-- Four times a signed word offset. -/
def off4 (off : BitVec 16) : W64 := off.signExtend 64 <<< 2

end Sys2Proof.Machine
end

