-- ==== Sys2Proof/Machine/Gate.lean ====
section
/-!
DEFINITION. The issue of a bundle (spec 02 R21-R27, R30, R37, R407; 09 R176, R180): what a slot reads and writes, what holds
its bundle, what traps it, and the one judgement over a bundle's slots.
-/
namespace Sys2Proof.Machine
open Sys2Proof

/-- What a slot asks of its bundle's issue, found from the state in which the bundle would issue. -/
structure Gate where
  slot : Slot
  /-- the slot's encoding, the trap value of cause 0x02 (R337) -/
  enc : W64
  /-- an illegality that needs no operand (R37 step 3) -/
  bad : Bool
  /-- another trap of step 3 (R316) -/
  badTrap : Option Trap
  /-- a delayed or terminal transfer (R30) -/
  xfer : Bool
  /-- registers read, with empty policy 1 (R25) -/
  reads : List (RegId × Bool)
  /-- reads of tagged registers trap (R180) -/
  tags : Bool
  /-- the control-word entry holds an uncorrectable error (R369) -/
  poison : Bool
  /-- destination registers (R26) -/
  writes : List RegId
  /-- a trap at cycle E that waits for nothing (R35) -/
  early : Option Trap
  /-- a condition that holds the bundle (R21, R35) -/
  hold : Bool
  /-- the first check of the entry that fails, in the order of R407, with its operands full -/
  trap : Option Trap
  deriving DecidableEq, Repr

/-- The encoding of an instruction as its slot holds it. -/
def slotEnc (i : Instr) : W64 :=
  match encode i with
  | some (.c w) => w.setWidth 64
  | some (.m w) => w.setWidth 64
  | some (.w w) => w.setWidth 64
  | some (.h _ w _) => w.setWidth 64
  | _ => 0

/-- The gate of a slot that asks for nothing. -/
def Gate.plain (slot : Slot) (i : Instr) : Gate :=
  { slot, enc := slotEnc i, bad := false, badTrap := none, xfer := false, reads := [], tags := slot == .c, poison := false, writes := [],
    early := none, hold := false, trap := none }

/-- The gate of a C slot that reads s registers, always under a stall (R25). -/
def Gate.c (i : Instr) (reads : List (BitVec 6)) (writes : List RegId) : Gate :=
  { Gate.plain .c i with
    xfer := i.delayed || i.terminal, reads := reads.map fun n => (.s n, false), writes }

/-- A trap value's register code (R337); a tile register is never empty, so that its code is never used. -/
def RegId.code : RegId → W64
  | .s n => n.setWidth 64
  | .v n => n.setWidth 64 ||| 0x40
  | .k n => n.setWidth 64 ||| 0x80
  | .x n => n.setWidth 64 ||| 0xC0

/-- The trap of a slot. -/
def Gate.trapOf (g : Gate) (cause : BitVec 8) (tval : W64) (sub : BitVec 8 := 0) : Trap :=
  { cause, slot := g.slot, tval, sub }

/-- The first of a list of checks that fails. -/
def firstTrap : List (Option Trap) → Option Trap
  | [] => none
  | some t :: _ => some t
  | none :: ts => firstTrap ts

/-- A check: the trap when its condition holds. -/
def trapIf (c : Bool) (cause : BitVec 8) (tval : W64) (slot : Slot := .c) (sub : BitVec 8 := 0) : Option Trap :=
  if c then some { cause, slot, tval, sub } else none

/-- The judgement on a bundle in a cycle at or after its E. -/
inductive Verdict where
  | go
  | hold
  | trap (t : Trap) (m : Option Mark)
  deriving DecidableEq, Repr

/-- The first element that a search finds something for. -/
def firstOf {α β : Type} (f : α → Option β) : List α → Option β
  | [] => none
  | x :: xs =>
    match f x with
    | some y => some y
    | none => firstOf f xs

/-- Poison, breach and tag traps of one slot: the first of its reads that is marked or, in the C slot, tagged (R176,
R180, R313), or its control-word entry (R369). -/
def State.poisonTrap (s : State) (g : Gate) : Option (Trap × Option Mark) :=
  if g.poison then some (g.trapOf 0x0B 0, none)
  else
    firstOf (fun r : RegId × Bool =>
      match s.markOf r.1 with
      | some m => some (g.trapOf m.cause m.addr, some m)
      | none => if g.tags && s.tagOf r.1 != 0 then some (g.trapOf 0x0B 0, none) else none) g.reads

/-- The register is a result register of the `callr` whose delay bundles these are (R317). -/
def State.resultReg (s : State) (r : RegId) : Bool :=
  match s.t.ctl.xfer.bind (·.callr), r with
  | some c, .s n => c.outs.getLsbD n.toNat
  | some c, .v n => c.outv.getLsbD n.toNat
  | _, _ => false

/-- The judgement over a bundle's slots, in the order of R37 from its step 3 on. DESIGN CHOICE (log 73): a bundle that is held is judged
anew in every cycle that it is tried, so a register that was full at E and is emptied while the bundle is held traps then (R26).
DESIGN CHOICE (log 91): the trap of cause 0x18 that a wait raises at cycle E stands after causes 0x04 and 0x05 of the whole bundle. -/
def State.judge (s : State) (gs : List Gate) : Verdict :=
  match firstOf (fun g : Gate => if g.bad then some (g.trapOf 0x02 g.enc) else g.badTrap) gs with
  | some t => .trap t none
  | none =>
  if s.inDelay && gs.any (·.xfer) then .trap { cause := 0x03, slot := .c, tval := 0, sub := 0 } none
  else
  match firstOf s.poisonTrap gs with
  | some (t, m) => .trap t m
  | none =>
  match firstOf (fun g : Gate =>
      firstOf (fun r : RegId × Bool => if (r.2 || s.resultReg r.1) && s.emptyAt r.1 then some (g.trapOf 0x04 r.1.code) else none) g.reads) gs with
  | some t => .trap t none
  | none =>
  match firstOf (fun g : Gate =>
      firstOf (fun r : RegId => if s.emptyAt r then some (g.trapOf 0x05 r.code) else none) g.writes) gs with
  | some t => .trap t none
  | none =>
  match firstOf (·.early) gs with
  | some t => .trap t none
  | none =>
  if gs.any (fun g => g.hold || g.reads.any fun r => s.emptyAt r.1) then .hold
  else
  match firstOf (·.trap) gs with
  | some t => .trap t none
  | none => .go

/-- What an instruction does as a slot of the bundle at hand: its effect when the bundle has passed the judgement; standing
alone, the judgement first. -/
def issue (g : Gate) (eff : State → State) (s : State) : Host.Outcome State Fault Refusal :=
  if s.bun.issuing then .next (eff s)
  else
    match s.judge [g] with
    | .go => .next (eff (s.modBun fun b => { b with st := .issued }))
    | .hold => .next (s.modBun fun b => { b with st := .held })
    | .trap t m => .next (s.raise t m)

/-! ## Control-word slots (R60-R76) -/

/-- A register named by file code and number. -/
def regOf (file n : Nat) : RegId :=
  if file = 0 then .s (BitVec.ofNat 6 n) else if file = 1 then .v (BitVec.ofNat 6 n) else .k (BitVec.ofNat 3 n)

/-- The source mask of a cross-lane operation (R118). -/
def hasKS (op : Nat) : Bool := op == 0x81 || (decide (0x83 ≤ op) && decide (op ≤ 0x88))
def kSOf (q : SlotOp) : BitVec 3 := q.h.aux.setWidth 3

/-- The tile registers that a slot reads (R131, R132): the column's, or the one whose row a masked write merges into. -/
def tileReads (op : Nat) (q : SlotOp) : List (RegId × Bool) :=
  if op = 0x93 then [(.x (BitVec.ofNat 3 (q.h.aux.toNat / 64)), false)]
  else if op = 0x92 ∧ q.h.z = 0 ∧ q.maskReg ≠ 0 then
    (List.range (q.h.rep.toNat + 1)).map fun j => (.x (BitVec.ofNat 3 ((q.dst j).toNat / 8)), false)
  else []

/-- The registers a slot reads over all repetitions, with their empty policies; k sources, the mask and kS always stall
(R70, R117, R118). -/
def hcwReads (op : Nat) (q : SlotOp) : List (RegId × Bool) :=
  match opSpec op with
  | none => []
  | some sp =>
    ((List.range (q.h.rep.toNat + 1)).map fun j =>
      ((sources op q sp).map fun (_, x, r) =>
        match srcRegs op q j x r with
        | some (f, n, c) => (List.range c).map fun i => (regOf f (n + i), f != 2 && x.pol == 1)
        | none => []).flatten).flatten ++
      (if op < 0x40 then [] else [(.k (BitVec.ofNat 3 q.maskReg), false)]) ++
      (if hasKS op then [(.k (kSOf q), false)] else []) ++ tileReads op q

/-- The destination registers of a repetition. -/
def hcwDst (op : Nat) (q : SlotOp) (j : Nat) : List RegId :=
  if q.h.dk = 0 then [.s (q.dst j)]
  else if q.h.dk = 1 then vRegs (q.dst j) (dstRegs op q)
  else if q.h.dk = 2 then [.k ((q.dst j).setWidth 3)]
  else []

def hcwWrites (op : Nat) (q : SlotOp) : List RegId :=
  ((List.range (q.h.rep.toNat + 1)).map (hcwDst op q)).flatten

/-- The gate of a control-word slot. -/
def State.gateHcw (s : State) (i : Instr) (op : Nat) (q : SlotOp) : Gate :=
  { Gate.plain q.slot i with
    tags := false
    reads := hcwReads op q
    poison := s.t.hcwBad.contains q.idx.toNat
    writes := hcwWrites op q
    hold := decide (0x08 ≤ op ∧ op ≤ 0x0B) && decide (4 ≤ s.t.q.divs.length) }

/-- The first run of a control-word slot: its effect now, and its repetitions left for the cycles to come (R74). -/
def State.repeated (s : State) (i : Instr) (q : SlotOp) (eff : State → State) : State :=
  let s' := eff s
  if s.bun.rep = 0 ∧ q.h.rep ≠ 0 then
    let b := { s.bun with issuing := true, rep := 0 }
    s'.modQ fun t => { t with reps := t.reps ++ [{ i, bun := b, at_ := s.cyc, last := q.h.rep.toNat }] }
  else s'

/-- A control-word operation: its gate, its effect and its repetitions. -/
def runHcw (i : Instr) (eff : Nat → SlotOp → State → State) (s : State) : Host.Outcome State Fault Refusal :=
  match i.hcw? with
  | some (op, q) => issue (s.gateHcw i op q) (fun s => s.repeated i q (eff op q)) s
  | none => .next s

end Sys2Proof.Machine
end

