-- ==== Sys2Proof/Machine/Points.lean ====
section
/-!
DEFINITION. What every access does at its point of performance besides its bytes: the order log and its replay (spec 24
R352-R355), the isolation of phase tasks (20 R313), and why a write fails at its home (12 R228, 28 R380, R385).
-/
namespace Sys2Proof.Machine
open Sys2Proof

/-! ## The order log (R352-R355) -/

/-- Who performs an operation at a logged point: context, mode, gang member, record address ÷ 256. -/
structure Issuer where
  ctx : BitVec 12
  log : Bool
  rpl : Bool
  m : Nat
  rcd : Nat
  deriving DecidableEq, Repr

/-- The running task as an issuer. -/
def State.issuer (s : State) : Issuer :=
  match s.t.task with
  | some t => { ctx := t.ctx, log := s.t.sys.log, rpl := s.t.sys.rpl, m := t.member, rcd := t.rcd / 256 }
  | none => { ctx := 0, log := false, rpl := false, m := 0, rcd := 0 }

/-- The address of a context's descriptor (R296). -/
def State.descAt (s : State) (ctx : BitVec 12) : Nat := 65536 * field s.sup.ctxtab.toNat 0 41 + 1024 * ctx.toNat

/-- A descriptor word. -/
def State.descWord (s : State) (ctx : BitVec 12) (n : Nat) : Nat := (s.rd64 (s.descAt ctx + 8 * n)).toNat

def State.cores (s : State) : List Core := s.core :: s.others

/-- A task of a context is PLACED, or PARKED with its image. -/
def State.tasksOf (s : State) (ctx : BitVec 12) : List TaskSpan :=
  let mine (t : TaskSpan) : Bool := optAll t.task (fun k => k.ctx == ctx) && t.task.isSome
  let live (t : TaskSpan) : Bool := optAll t.task fun k => decide (3 ≤ s.rdField k.rcd 32 8 ∧ s.rdField k.rcd 32 8 ≤ 4)
  ((s.cores.map (·.t)).filter mine) ++ (s.images.map (·.2)).filter fun t => mine t && live t

/-- LOG and RPL of a context: a change waits until none of its tasks is PLACED or PARKED (R352). -/
def State.ctxMode (s : State) (ctx : BitVec 12) : Bool × Bool :=
  match s.tasksOf ctx with
  | t :: _ => (t.sys.log, t.sys.rpl)
  | [] => (field (s.descWord ctx 0) 0 1 == 1, field (s.descWord ctx 0) 1 1 == 1)

/-- The Mantle or the host as an issuer (R353), in the context's mode. -/
def State.outside (s : State) (ctx : BitVec 12) : Issuer :=
  let m := s.ctxMode ctx
  { ctx, log := m.1, rpl := m.2, m := 0, rcd := 2 ^ 50 - 1 }

def State.oldir (s : State) (ctx : BitVec 12) : Nat :=
  match spFind s.ctxs ctx.toNat with
  | some c => c.oldir
  | none => 0

def seqGet (l : List ((Nat × Nat × Nat × Nat) × Nat)) (k : Nat × Nat × Nat × Nat) : Nat :=
  match findFirst? (fun e : (Nat × Nat × Nat × Nat) × Nat => e.1 == k) l with
  | some e => e.2
  | none => 0

def seqBump (l : List ((Nat × Nat × Nat × Nat) × Nat)) (k : Nat × Nat × Nat × Nat) : List ((Nat × Nat × Nat × Nat) × Nat) :=
  (k, seqGet l k + 1) :: l.filter (·.1 != k)

/-- The two words of an entry (R353). -/
def logEntry (w : Issuer) (kind tag seq : Nat) : W64 × W64 :=
  (BitVec.ofNat 64 (pack [(50, w.rcd), (6, w.m), (8, kind)]), BitVec.ofNat 64 (pack [(32, tag), (32, seq)]))

/-- A member of a record stands on a core or has an image. -/
def State.memberHere (s : State) (r m : Nat) : Bool :=
  let is (t : TaskSpan) : Bool := optAll t.task (fun k => k.rcd == r && k.member == m) && t.task.isSome
  s.cores.any (fun c => is c.t) || s.images.any fun p => is p.2

/-- The entry at HEAD names a task that has retired or failed, or a gang member that has retired (R355). -/
def State.entryGone (s : State) (e : W64) : Bool :=
  let r := field e.toNat 0 50
  let st := s.rdField (256 * r) 32 8
  r != 2 ^ 50 - 1 &&
    (st == 5 || st == 6 || ((st == 3 || st == 4) && !s.memberHere (256 * r) (field e.toNat 50 6)))

/-- Counts of a point as its next operation finds them: a stream that holds nothing yet begins them anew (R353; log 71). -/
def State.seqsAt (s : State) (ctx : BitVec 12) (point head : Nat) : List ((Nat × Nat × Nat × Nat) × Nat) :=
  if head = 0 then s.seqs.filter fun e => !(e.1.1 == ctx.toNat && e.1.2.1 == point) else s.seqs

/-- The point whose slot's second word is here diverges: DIV, and the Mantle's count (R355). -/
def State.diverge (s : State) (c : Nat) : State := (s.wrField c 62 1 1).modSup fun u => { u with diverged := u.diverged + 1 }

/-- An operation arrives at a logged point: recorded (R354), or in replay performed only when the stream has it next, the
point having diverged otherwise (R355). The answer says whether it is performed now. DEDUCED (log 89): an entry that holds poison is lost
(R368), and the point diverges there. -/
def State.logPoint (s : State) (w : Issuer) (point kind tag : Nat) : State × Bool :=
  if w.log = false ∧ w.rpl = false then (s, true)
  else
    let slot := s.oldir w.ctx + 16 * point
    let base := s.rdField slot 0 57
    let c := slot + 8
    let size := s.rdField c 32 30
    let head := s.rdField c 0 32
    let key := (w.ctx.toNat, point, w.rcd, w.m)
    let seqs := s.seqsAt w.ctx point head
    let e := logEntry w kind tag (seqGet seqs key)
    let at_ := base + 16 * head
    let s' := { s with seqs := seqBump seqs key }
    if w.rpl then
      if s.rdField c 62 1 = 1 then (s', true)
      else if base = 0 ∨ size ≤ head then (s'.diverge c, true)
      else if s.badAt at_ 16 = true ∨ s.entryGone (s.rd64 at_) = true then (s'.diverge c, true)
      else if s.rd64 at_ = e.1 ∧ s.rd64 (at_ + 8) = e.2 then (s'.wrField c 0 32 (head + 1), true)
      else (s, false)
    else if base = 0 ∨ size ≤ head then (s'.wrField c 63 1 1, true)
    else (((s'.wr64 at_ e.1).wr64 (at_ + 8) e.2).wrField c 0 32 (head + 1), true)

/-- The logged point of a memory-side unit (R352). -/
def State.msPoint (s : State) (pa : Nat) : Nat := 16 * s.homeOf pa + field pa 6 4
/-- The logged point of a core's barriers. -/
def barPoint (core : Nat) : Nat := 512 + core
def yokePoint (die : Nat) : Nat := 1536 + die
def hashPoint : Nat := 1600

/-- The memory-side units that the pieces of an access reach, each a logged point. -/
def State.unitsOf (s : State) (ps : List Piece) : List Nat :=
  ps.foldl (fun l p => match p.at_ with
    | .glob pa true _ => if isPeer pa then l else l ++ [s.msPoint pa]
    | _ => l) []

/-- An access logged at every unit it reaches; false when a unit makes it wait. -/
def State.logUnits (s : State) (w : Issuer) (kind : Nat) : List Nat → State × Bool
  | [] => (s, true)
  | p :: ps =>
    let (s, ok) := s.logPoint w p kind 0
    if ok then s.logUnits w kind ps else (s, false)

/-! ## Isolation of phase tasks (R313) -/

/-- The running task as a phase task: its record and context. -/
def State.phaseTask (s : State) : Option (Nat × Nat) :=
  match s.t.task with
  | some t => if s.t.sys.ph then some (t.rcd, t.ctx.toNat) else none
  | none => none

/-- The sectors that `[pa, pa + n)` touches. -/
def sectorNos (pa n : Nat) : List Nat :=
  if n = 0 then [] else (List.range ((pa + n - 1) / 256 + 1 - pa / 256)).map (pa / 256 + ·)

/-- An access of a phase task to a sector that another phase task of the context has written in this phase. -/
def State.breachAs (s : State) (who : Option (Nat × Nat)) (pa n : Nat) : Bool :=
  match who with
  | none => false
  | some (r, c) =>
    !isPeer pa && (sectorNos pa n).any fun k =>
      match spFind s.ptags k with
      | some (r', c') => c' == c && r' != r
      | none => false

def State.tagAs (s : State) (who : Option (Nat × Nat)) (pa n : Nat) : State :=
  match who with
  | none => s
  | some w => if isPeer pa then s else { s with ptags := (sectorNos pa n).foldl (fun l k => spPut l k w) s.ptags }

def State.breach (s : State) (p : Piece) : Bool :=
  match p.at_ with
  | .glob pa _ _ => s.breachAs s.phaseTask pa p.len
  | _ => false

def State.tagWrite (s : State) (p : Piece) : State :=
  match p.at_ with
  | .glob pa _ _ => s.tagAs s.phaseTask pa p.len
  | _ => s

/-! ## Why a write fails at its home -/

/-- The port is down or the module lost (R380, R385: 0x08), or the line's FT bit refuses it (R228: 0x0A). -/
def State.writeFails (s : State) (p : Place) : Option (BitVec 8) :=
  match p with
  | .glob pa ms ft =>
    if s.peerDown pa || s.lostAt pa then some 0x08
    else if !isPeer pa && !ms && (s.line pa).ft.isSome && ft.isNone then some 0x0A
    else none
  | _ => none

/-- Bytes in a line that a tile under conversion keeps locked, in its old or new storage: a write there waits until the tile commits
(R244). -/
def State.lineBusy (s : State) (pa n : Nat) : Bool :=
  decide (0 < n) && s.topiary.any fun d => d.2.any fun q => q.lines.any fun l => decide (1024 * l < pa + n) && decide (pa < 1024 * l + 1024)

/-- The same of a piece of a write. -/
def State.pieceBusy (s : State) (p : Piece) : Bool :=
  match p.at_ with
  | .glob pa _ _ => s.lineBusy pa p.len
  | _ => false

/-- Sectors of other modules that pieces lie in. -/
def State.farSectors (s : State) (ps : List Piece) : List Nat :=
  (ps.flatMap fun p => match p.at_ with
    | .glob pa _ _ => if isPeer pa || s.isLocal pa then [] else sectorNos pa p.len
    | _ => []).eraseDups

/-- An open tray latch holds a write of several sectors of other modules (R395). -/
def State.quiesced (s : State) (ps : List Piece) : Bool := s.sup.quiesce && decide (1 < (s.farSectors ps).length)

/-! ## Seam links (R383-R385) -/

def Link.down : Link :=
  { peer := 0, plink := 0, splane := 0, spu := false, width := 0, up := false, retry := 0, crcerr := 0, num := 0, laneErr := []
    flits := 0, next := 0, sent := [], nakAt := none, fails := 0, txSpare := false, txHalf := false, ackd := none, high := false
    wait := [], txLane := 0, txHigh := false, serving := false }
def State.link1 (s : State) (l : Nat) : Link := spGet Link.down s.sup.links l

def State.modLink (s : State) (l : BitVec 6) (f : Link → Link) : State :=
  if 48 ≤ l.toNat then s
  else s.modSup fun u => { u with links := spSet Link.down u.links l.toNat (f (spGet Link.down u.links l.toNat)) }

/-- The links of a module's set that are up, ascending. -/
def State.linksTo (s : State) (m : Nat) : List Nat :=
  match s.sup.cfg with
  | none => []
  | some c => (List.range 48).filter fun i =>
      (s.link1 i).up && c.links.any fun l => l.1.toNat == m && l.2.getLsbD i

/-- The link over which a request or write to an address of another module goes (R385). -/
def State.linkFor (s : State) (pa : Nat) : Option Nat :=
  let ls := s.linksTo (paModule pa)
  ls[field pa 10 5 % ls.length]?

/-- A flit enters the retry buffer of a link, which keeps 1,024 until they are acknowledged, or waits for room in it (R383). -/
def Link.push (x : Link) (pa : Nat) : Link :=
  if 1024 ≤ x.sent.length ∨ x.wait ≠ [] then { x with wait := x.wait ++ [pa] }
  else { x with sent := x.sent ++ [(x.next, pa)], next := x.next + 1 }

/-- Flits that wait enter a link's retry buffer as far as it has room. -/
def Link.refill (x : Link) : Link := x.wait.foldl Link.push { x with wait := [] }

/-- A request leaves for the module of an address. -/
def State.seamSend (s : State) (pa : Nat) : State :=
  match s.linkFor pa with
  | some l => s.modLink (BitVec.ofNat 6 l) fun x => x.push pa
  | none => s

/-- The module's own accesses to other modules leave over their links, a flit for each sector (R385). -/
def State.sendFar (s : State) (ps : List Piece) : State := (s.farSectors ps).foldl (fun s k => s.seamSend (256 * k)) s

/-- No link of the set of an address's module is up, and the module is not lost yet: an access waits (R385). -/
def State.cutOff (s : State) (pa : Nat) : Bool := !isPeer pa && !s.isLocal pa && !s.lostAt pa && (s.linksTo (paModule pa)).isEmpty

/-- Some of the pieces cannot be reached yet. -/
def State.farWaits (s : State) (ps : List Piece) : Bool := (s.farSectors ps).any fun k => s.cutOff (256 * k)

/-- The pieces of an access without their translations. -/
def bare (ps : List (Piece × TlbEntry)) : List Piece := ps.map (·.1)

end Sys2Proof.Machine
end

