-- ==== Sys2Proof/Machine/Rings.lean ====
section
/-!
DEFINITION. Ring registers and tile geometry (spec 08 R140-R142, R216), and the Fertite blocks they hold (16 R277-R279).
-/
namespace Sys2Proof.Machine
open Sys2Proof

/-! ## The ring register (R140) -/

structure Ring where
  base : Nat
  fmt : Nat
  sm : Nat
  role : Nat
  nt : Nat
  head : Nat
  cnt : Nat
  rpos : Nat
  aux : Nat
  fw : Nat
  sc : Nat
  deriving DecidableEq, Repr

def ringOf (x : W64) : Ring :=
  let n := x.toNat
  { base := field n 0 15, fmt := field n 15 5, sm := field n 20 1, role := field n 21 1, nt := field n 22 4 + 1,
    head := field n 26 4, cnt := field n 30 5, rpos := field n 35 9, aux := field n 44 15, fw := field n 59 4,
    sc := field n 63 1 }

def State.ringReg (s : State) (g : BitVec 3) : W64 := spGet 0 s.t.mat.rings g.toNat
def State.ring (s : State) (g : BitVec 3) : Ring := ringOf (s.ringReg g)

/-- A ring register with HEAD, CNT and RPOS replaced. -/
def ringWith (x : W64) (head cnt rpos : Nat) : W64 :=
  BitVec.ofNat 64 (setField (setField (setField x.toNat 26 4 head) 30 5 cnt) 35 9 rpos)

def State.setRing (s : State) (g : BitVec 3) (x : W64) : State :=
  s.modMat fun m => { m with rings := spSet 0 m.rings g.toNat x }

/-- The format windows of the task as they stood at its placement (R226). -/
def State.fws (s : State) : List W64 :=
  match s.t.task with
  | some t => t.fws
  | none => []

/-! ## Fertite geometry (R277, R278) -/

/-- Block bytes and blocks in a sector. -/
def ftBytes (fmt : Nat) : Nat := if fmt = 0x0F then 32 else if fmt = 0x10 then 48 else 64
def ftPer (fmt : Nat) : Nat := if fmt = 0x0F then 8 else if fmt = 0x10 then 5 else 4

/-- Step and start of weight i. -/
def ftStep (fmt i : Nat) : Nat := if fmt = 0x0F then 1 else if fmt = 0x11 then 2 else 1 + i % 2
def ftStart (fmt i : Nat) : Nat := if fmt = 0x0F then i else if fmt = 0x11 then 2 * i else 3 * i / 2

/-- The window of weight i of a block held as a number, with the tail-biting wrap. -/
def ftWin (fmt block i : Nat) : Nat :=
  let lb := 8 * ftBytes fmt
  (block + 2 ^ lb * (block % 2 ^ 16)) / 2 ^ ftStart fmt i % 2 ^ 16

/-- The function V16H (R279). -/
def v16h (x : Nat) : Int :=
  let y := (x * 0xA3B5 + 0x1F21) % 2 ^ 16
  ((y % 16 + y / 16 % 16 + y / 256 % 16 + y / 4096 : Nat) : Int) - 30

/-- The function V16L under a table of 256 i8 entries. -/
def v16l (table : List Byte) (x : Nat) : Int :=
  signed 8 (table.getD ((x / 256) ^^^ (x % 256)) 0).toNat

/-! ## Tile geometry (R141, R144) -/

def is8bit (fmt : Nat) : Bool := fmt == 0 || fmt == 11 || fmt == 12
def is16bit (fmt : Nat) : Bool := fmt == 9 || fmt == 10

/-- A cb3 entry type that a window admits. -/
def entOk (ent : Nat) : Bool := is8bit ent || is16bit ent

/-- Rows per tile, tile bytes and class of a combination; `ent` is the cb3 entry type. -/
def ringGeom (fmt role ent : Nat) : Option (Nat × Nat × Option PClass) :=
  if is8bit fmt then some (128, 16384, some .b8)
  else if is16bit fmt then some (if role = 1 then 64 else 128, 16384, some .b16)
  else if fmt = 13 then some (128, 16384, some .b4)
  else if fmt = 8 then (if role = 0 then some (32, 16384, none) else none)
  else if fmt = 14 then
    if role = 0 ∨ entOk ent = false then none
    else if is8bit ent then some (128, 48 * 128, some .b8) else some (64, 48 * 64, some .b16)
  else if isFertite fmt then
    (if role = 1 then some (256, (128 + ftPer fmt - 1) / ftPer fmt * 256, some .b8) else none)
  else none

/-- The cb3 entry type of a ring, from its format window. -/
def State.ringEnt (s : State) (r : Ring) : Nat := fwEnt s.fws r.fw

def State.ringRows (s : State) (r : Ring) : Nat :=
  match ringGeom r.fmt r.role (s.ringEnt r) with
  | some g => g.1
  | none => 0

def State.tileBytes (s : State) (r : Ring) : Nat :=
  match ringGeom r.fmt r.role (s.ringEnt r) with
  | some g => g.2.1
  | none => 0

def State.ringClass (s : State) (r : Ring) : Option PClass :=
  match ringGeom r.fmt r.role (s.ringEnt r) with
  | some g => g.2.2
  | none => none

/-- Scratchpad offset of tile slot `slot`. -/
def State.tileAt (s : State) (r : Ring) (slot : Nat) : Nat := r.base * 256 + slot * s.tileBytes r

/-- Bytes of auxiliary region that each tile slot has in the scratchpad (R141); none where AUX is unused or names a buffer. -/
def auxBytes (r : Ring) : Nat :=
  if r.role = 1 then
    if isFertite r.fmt then 128
    else if r.fmt = 13 then 1024
    else if r.sc = 1 then 512
    else if r.sm = 1 then (if is8bit r.fmt then 512 else 256)
    else 0
  else if r.sc = 1 ∨ r.fmt = 13 then 1024
  else 0

/-- SC and SM are legal for the combination (R141, R147). -/
def scSmOk (r : Ring) : Bool :=
  (r.sc == 0 || is8bit r.fmt) &&
    (r.sm == 0 || (r.role == 1 && r.sc == 0 && (r.fmt == 11 || r.fmt == 12 || r.fmt == 9)))

/-- `rset` accepts a ring value (R141, R216). -/
def State.ringOk (s : State) (x : W64) : Bool :=
  let r := ringOf x
  match ringGeom r.fmt r.role (s.ringEnt r) with
  | none => false
  | some (rows, t, _) =>
    let size := s.core.scratchSize
    scSmOk r &&
    (r.fmt != 14 || (fwValid s.fws r.fw && fwFmt s.fws r.fw == 14 && entOk (s.ringEnt r) && decide (r.aux < 64))) &&
    (r.fmt == 14 || isFertite r.fmt || r.fw == 0) &&
    (r.fmt == 14 || auxBytes r != 0 || r.aux == 0) &&
    decide (r.base * 256 + r.nt * t ≤ size) &&
    (auxBytes r == 0 || decide (r.aux * 256 + r.nt * auxBytes r ≤ size)) &&
    decide (r.cnt ≤ r.nt) && decide (r.head < r.nt) && decide (r.rpos ≤ rows)

/-! ## Buffers (R196) -/

def Buf.zero : Buf := { w0 := 0, w1 := 0, st := .free }
def State.buf (s : State) (b : BitVec 6) : Buf := spGet Buf.zero s.t.eng.bufs b.toNat
def State.setBuf (s : State) (b : BitVec 6) (x : Buf) : State :=
  s.modEng fun e => { e with bufs := spSet Buf.zero e.bufs b.toNat x }
def State.setBufSt (s : State) (b : BitVec 6) (st : BufSt) : State := s.setBuf b { s.buf b with st }

def Buf.rl (b : Buf) : Bool := b.w0.getLsbD 51
def Buf.rg (b : Buf) : BitVec 3 := (b.w0 >>> 48).setWidth 3
def Buf.chk (b : Buf) : Bool := b.w0.getLsbD 47
def Buf.size (b : Buf) : Nat := field b.w0.toNat 24 23
def Buf.off (b : Buf) : Nat := field b.w0.toNat 0 24
def Buf.e0 (b : Buf) : Nat := field b.w1.toNat 0 16
def Buf.e1 (b : Buf) : Nat := field b.w1.toNat 16 16
/-- The barrier a completion subtracts from: gang member and number (R196). -/
def Buf.bar (b : Buf) : Option (Option Nat × BitVec 6) :=
  if b.w1.getLsbD 38 then
    some (if b.w1.getLsbD 45 then some (field b.w1.toNat 39 6) else none, (b.w1 >>> 32).setWidth 6)
  else none

/-! ## Own scratchpad reads -/

/-- Bytes of this core's scratchpad as a number. -/
def State.scr (s : State) (off n : Nat) : Nat := ofLe (s.core.scrRead off n)

/-- The own-window address of the first poisoned unit that a list of ranges meets (R347). -/
def State.scrBadAt (s : State) (rs : List (Nat × Nat)) : Option W64 :=
  match findFirst? (fun r : Nat × Nat => s.core.scrBad r.1 r.2) rs with
  | none => none
  | some (a, n) =>
    match findFirst? (fun k => decide (32 * k < a + n) && decide (a < 32 * k + 32)) s.t.scratchBad with
    | some k => some (BitVec.ofNat 64 (ownBase + 32 * k))
    | none => none

/-! ## Tile commands (R274) -/

def overlaps (a n b m : Nat) : Bool := decide (a < b + m) && decide (b < a + n)

/-- The scratchpad ranges that a fetch fills. -/
def State.fetchRanges (s : State) (q : CopyReq) : List (Nat × Nat) :=
  match q.kind with
  | .fetch => [(Buf.off { w0 := q.w0, w1 := q.w1, st := .filling }, q.bytes)]
  | .ring _ slot reg =>
    let r := ringOf reg
    [(s.tileAt r slot, s.tileBytes r), (r.aux * 256 + slot * auxBytes r, auxBytes r)]
  | _ => []

/-- Ranges that this core's fetches in the midst of their writes keep locked; a request is not locked out by itself. -/
def State.copyLocks (s : State) (tag : Option (BitVec 16)) : List (Nat × Nat) :=
  s.t.eng.cpq.flatMap fun q => if q.moved.done = [] ∨ some q.tag = tag then [] else s.fetchRanges q

/-- Gang member m of a span's task, seen from another span, is the task of that one. -/
def TaskSpan.names (t : TaskSpan) (m : Nat) (u : TaskSpan) : Bool :=
  match t.task, u.task with
  | some a, some b => a.rcd == b.rcd && b.member == m && decide (1 < a.n)
  | _, _ => false

/-- Ranges of a task's scratchpad that a span's vector store in the midst of its writes keeps locked: its own, or through a gang
window. -/
def TaskSpan.storeLocks (t : TaskSpan) (own : Bool) (u : TaskSpan) : List (Nat × Nat) :=
  match t.q.cq with
  | e :: _ => e.locks.filterMap fun p => match p.at_ with
      | .own off => if own then some (off, p.len) else none
      | .gang m off => if t.names m u then some (off, p.len) else none
      | .glob .. => none
  | [] => []

/-- Ranges of this core's scratchpad that the vector stores of other tasks keep locked, on their cores or PARKED. -/
def State.otherLocks (s : State) : List (Nat × Nat) :=
  let mine (t : TaskSpan) : Bool := match t.task, s.t.task with
    | some a, some b => a.rcd == b.rcd && a.member == b.member
    | _, _ => false
  ((s.others.map (·.t) ++ s.images.map (·.2)).filter fun t => !mine t).flatMap fun t => t.storeLocks false s.t

/-- An access by this core's engines to its scratchpad waits for a tile command in the midst of its writes. -/
def State.engLocked (s : State) (tag : Option (BitVec 16)) (rs : List (Nat × Nat)) : Bool :=
  let ls := s.copyLocks tag ++ s.t.storeLocks true s.t ++ s.otherLocks
  rs.any fun r => ls.any fun l => overlaps r.1 r.2 l.1 l.2

/-- An access by this core's core path does: to its own oldest store it is not locked out. -/
def State.pathLocked (s : State) (off n : Nat) : Bool :=
  (s.copyLocks none ++ s.otherLocks).any fun l => overlaps off n l.1 l.2

end Sys2Proof.Machine
end

