-- ==== Sys2Proof/Machine/Layout.lean ====
section
/-!
DEFINITION. Tensor handles and layouts (spec 13 R236-R241, R244, R245): the handle's words, its checks, the address of an
element under a layout, and the conversion tiles.
-/
namespace Sys2Proof.Machine
open Sys2Proof

/-! ## The handle (R237) -/

structure Handle where
  base : Nat
  halt : Bool
  cv : Bool
  ttag : Nat
  v : Bool
  fwi : Nat
  rank : Nat
  tag : Nat
  fmt : Nat
  raw : List Nat
  sbase : Nat
  cbmp : Nat
  tbase : Nat
  cdone : Nat
  deriving DecidableEq, Repr

/-- Word i of a handle's words. -/
def wordAt (ws : List W64) (i : Nat) : Nat := (ws.getD i 0).toNat

def handleOf (ws : List W64) : Handle :=
  let w := wordAt ws
  { base := field (w 0) 0 57, halt := field (w 1) 20 1 == 1, cv := field (w 1) 19 1 == 1, ttag := field (w 1) 16 3,
    v := field (w 1) 15 1 == 1, fwi := field (w 1) 10 4, rank := field (w 1) 8 2 + 1, tag := field (w 1) 5 3,
    fmt := field (w 1) 0 5,
    raw := [field (w 2) 0 32, field (w 2) 32 32, field (w 3) 0 32, field (w 3) 32 32],
    sbase := field (w 4) 0 57, cbmp := field (w 5) 0 57, tbase := field (w 6) 0 57, cdone := field (w 7) 0 32 }

/-- Extent i: one beyond the rank (R237). -/
def Handle.e (h : Handle) (i : Nat) : Nat := if i < h.rank then h.raw.getD i 0 else 1

/-- A format whose elements are plain numbers of whole bytes. -/
def unpacked (fmt : Nat) : Bool := decide (fmt ≤ 0x0C)

/-- Bytes of an element of an unpacked format. -/
def elemBytes (fmt : Nat) : Nat := tyWidth fmt / 8

/-- Block length in elements, block bytes and blocks per sector of a layout tag and format (R238); none where not blocked. -/
def hBlk (tag fmt : Nat) : Option (Nat × Nat × Nat) :=
  if tag = 4 then
    if fmt = 0x0D then some (32, 16, 16)
    else if is8bit fmt then some (32, 32, 8)
    else if fmt = 0x0E then some (128, 48, 5)
    else none
  else if tag = 5 then
    if isFertite fmt then some (256, ftBytes fmt, ftPer fmt) else none
  else none

/-- A tag admits a format (R238). -/
def tagAdmits (tag fmt : Nat) : Bool := if tag ≤ 3 then unpacked fmt else (hBlk tag fmt).isSome

def cdiv (a b : Nat) : Nat := (a + b - 1) / b

/-- Blocks along dimension 0, and in all (R240). -/
def Handle.q0 (h : Handle) (tag : Nat) : Nat :=
  match hBlk tag h.fmt with
  | some (b, _, _) => cdiv (h.e 0) b
  | none => 0
def Handle.nBlocks (h : Handle) (tag : Nat) : Nat := h.q0 tag * h.e 1 * h.e 2 * h.e 3

/-- Storage size under a tag (R240). -/
def Handle.size (h : Handle) (tag : Nat) : Nat :=
  match hBlk tag h.fmt with
  | some (_, _, s) => cdiv (h.nBlocks tag) s * 256
  | none =>
    if tag ≤ 1 then h.e 0 * h.e 1 * h.e 2 * h.e 3 * elemBytes h.fmt
    else cdiv (h.e 0) 128 * cdiv (h.e 1) 128 * h.e 2 * h.e 3 * 16384 * elemBytes h.fmt

/-- The swizzle of T128S (R240). -/
def swz (o : Nat) : Nat := (o / 256 ^^^ o / 2048 % 8) * 256 + o % 256

/-- The matrix index. -/
def Handle.mat (h : Handle) (x : List Nat) : Nat := x.getD 3 0 * h.e 2 + x.getD 2 0

/-- The block that holds an element (R240). -/
def Handle.block (h : Handle) (tag : Nat) (x : List Nat) : Nat :=
  match hBlk tag h.fmt with
  | some (b, _, _) => (h.mat x * h.e 1 + x.getD 1 0) * h.q0 tag + x.getD 0 0 / b
  | none => 0

/-- Offset of block β from BASE. -/
def blockOff (tag fmt β : Nat) : Nat :=
  match hBlk tag fmt with
  | some (_, bb, s) => β / s * 256 + β % s * bb
  | none => 0

/-- Byte offset of an element from BASE; for a packed format, of its block (R240). -/
def Handle.off (h : Handle) (tag : Nat) (x : List Nat) : Nat :=
  let x0 := x.getD 0 0
  let x1 := x.getD 1 0
  let n := elemBytes h.fmt
  let m := h.mat x
  match hBlk tag h.fmt with
  | some (b, _, _) => blockOff tag h.fmt (h.block tag x) + (if is8bit h.fmt then x0 % b else 0)
  | none =>
    if tag = 0 then ((m * h.e 1 + x1) * h.e 0 + x0) * n
    else if tag = 1 then ((m * h.e 0 + x0) * h.e 1 + x1) * n
    else
      let p0 := cdiv (h.e 0) 128
      let p1 := cdiv (h.e 1) 128
      let t := (m * p1 * p0 + x1 / 128 * p0 + x0 / 128) * 16384 * n
      let o := (x1 % 128 * 128 + x0 % 128) * n
      t + (if tag = 3 then swz o else o)

/-- The coordinates lie inside the extents. -/
def Handle.inside (h : Handle) (x : List Nat) : Bool :=
  (List.range 4).all fun i => decide (x.getD i 0 < h.e i)

/-! ## Conversion tiles (R244) -/

def Handle.t0 (h : Handle) : Nat := if h.tag = 5 then 256 else 128
def Handle.tileOf (h : Handle) (x : List Nat) : Nat :=
  (h.mat x * cdiv (h.e 1) 128 + x.getD 1 0 / 128) * cdiv (h.e 0) h.t0 + x.getD 0 0 / h.t0
def Handle.nTiles (h : Handle) : Nat := cdiv (h.e 0) h.t0 * cdiv (h.e 1) 128 * h.e 2 * h.e 3

/-- The address of an element when its tile's bitmap bit is b (R245). -/
def Handle.va (h : Handle) (b : Bool) (x : List Nat) : Nat :=
  if h.cv && b then h.tbase + h.off h.ttag x else h.base + h.off h.tag x

/-! ## The checks of `hset` (R239) -/

/-- `[a, a + n)` touches a window (R163). -/
def touchesWindow (a n : Nat) : Bool := decide (a < ownBase + 0x800000) && decide (gangBase < a + n)


/-- BASE is aligned for tag and format (R238). -/
def baseAligned (tag fmt base : Nat) : Bool :=
  base % (if tag ≤ 1 then elemBytes fmt else if tag ≤ 3 then 1024 else 256) == 0

/-- The format window that a tag and format need. -/
def needsWindow (tag fmt : Nat) : Bool := tag == 5 || (tag == 4 && fmt == 0x0E)
def needsScale (tag fmt : Nat) : Bool := tag == 5 || (tag == 4 && fmt != 0x0E)

/-- FWI is right for a handle's storage (reason 7). -/
def fwiOk (fws : List W64) (h : Handle) : Bool :=
  if needsWindow h.tag h.fmt then
    fwValid fws h.fwi && fwFmt fws h.fwi == h.fmt &&
      decide (field ((fwWords fws h.fwi).getD 0 0) 16 41 ≤ h.base / 65536) &&
      decide ((h.base + h.size h.tag - 1) / 65536 ≤ field ((fwWords fws h.fwi).getD 1 0) 16 41)
  else h.fwi == 0

/-- The first failing row of R239 for a valid descriptor, or 0. -/
def hReasonV (fws : List W64) (ws : List W64) : Nat :=
  let h := handleOf ws
  let w := wordAt ws
  let ext := (List.range 4).all fun i => if i < h.rank then h.raw.getD i 0 != 0 else h.raw.getD i 0 == 0
  if 0x11 < h.fmt then 1
  else if 5 < h.tag ∨ tagAdmits h.tag h.fmt = false then 2
  else if baseAligned h.tag h.fmt h.base = false then 3
  else if ext = false then 4
  else if 2 ^ 57 < h.base + h.size h.tag ∨ touchesWindow h.base (h.size h.tag) = true then 5
  else if (h.sbase != 0) != needsScale h.tag h.fmt ∨
      (needsScale h.tag h.fmt && touchesWindow h.sbase (h.nBlocks h.tag)) = true then 6
  else if fwiOk fws h = false then 7
  else if field (w 0) 57 7 ≠ 0 ∨ field (w 1) 16 48 ≠ 0 ∨ field (w 1) 14 1 ≠ 0 ∨ field (w 4) 57 7 ≠ 0 ∨
      field (w 5) 57 7 ≠ 0 ∨ w 6 ≠ 0 ∨ w 7 ≠ 0 ∨ h.cbmp % 8 ≠ 0 then 8
  else if h.tag = 5 ∧ h.e 0 % 256 ≠ 0 then 9
  else 0

/-- The reason with which `hset` refuses a descriptor, or 0 (R239). DESIGN CHOICE (log 106): one with V = 0 is accepted if all eight words are
zero. -/
def hReason (fws : List W64) (ws : List W64) : Nat :=
  if (handleOf ws).v then hReasonV fws ws
  else if ws.all (· == 0) then 0 else 8

/-! ## Handles in memory (R236) -/

/-- The image of handle n of the running task's context. -/
def State.handleAt (s : State) (n : Nat) : Nat :=
  match s.t.task with
  | some t =>
    match spFind s.ctxs t.ctx.toNat with
    | some c => c.htab + 64 * (n % 256)
    | none => 64 * (n % 256)
  | none => 64 * (n % 256)

def State.handleWords (s : State) (n : Nat) : List W64 := s.rdWords (s.handleAt n) 8
def State.handle (s : State) (n : Nat) : Handle := handleOf (s.handleWords n)

/-- The coherent read of a handle at issue (R236, R232). -/
def State.readHandle (s : State) (n : Nat) : State :=
  s.homeRead (s.handleAt n) false

/-- Coordinates from a pair of registers (R185). -/
def coords (lo hi : W64) : List Nat :=
  [lo.toNat % 2 ^ 32, lo.toNat / 2 ^ 32, hi.toNat % 2 ^ 32, hi.toNat / 2 ^ 32]

/-- The coordinates moved along dimensions 0 and 1. -/
def along (x : List Nat) (i j : Nat) : List Nat := [x.getD 0 0 + i, x.getD 1 0 + j, x.getD 2 0, x.getD 3 0]

end Sys2Proof.Machine
end

