-- ==== Sys2Proof/Machine/LoadStore.lean ====
section
/-!
DEFINITION. The issue of core-path loads and stores (spec 09 R163-R186): addresses, the checks made before issue, and the
operation that joins the core path. What happens at the point of performance stands in Perform.lean.
-/
namespace Sys2Proof.Machine
open Sys2Proof

/-! ## Addresses (R174) -/

def State.addrImm (s : State) (b : BitVec 6) (imm : CImm) : W64 := s.sGet b + s.immOf imm
def State.addrIdx (s : State) (b c : BitVec 6) (sh : BitVec 2) : W64 := s.sGet b + s.sGet c <<< sh.toNat

/-- Bytes that an indexed access moves. -/
def xSize (sz : BitVec 3) : Nat := 2 ^ (sz.toNat / 2)
/-- An indexed load sign-extends. -/
def xSigned (sz : BitVec 3) : Bool := sz.toNat % 2 == 1

/-! ## Checks before issue (R175, R177) -/

def scalarAcc (acc : Acc) (n : Nat) : AccKind := { acc, align := some n, eng := false }
def vectorAcc (acc : Acc) : AccKind := { acc, align := none, eng := false }

/-- The core's translation of the running task's accesses. -/
def State.xl (s : State) : Xl := s.core.xl s.core.tlb

/-- The pieces of a checked access, or the trap cause with which it ends. -/
def State.checkRead (s : State) (k : AccKind) (va : W64) (n : Nat) : Except (BitVec 8) (List (Piece × TlbEntry)) :=
  match s.access s.xl k va n with
  | .ok ps => .ok ps
  | .error (c, _) => .error c

/-- The trap of a checked access. -/
def State.readTrap (s : State) (k : AccKind) (va : W64) (n : Nat) : Option Trap :=
  match s.checkRead k va n with
  | .ok _ => none
  | .error c => some { cause := c, slot := .c, tval := va, sub := 0, n }

/-- The cause of a checked access as a deferred fault's SUB gives it (R343). -/
def State.readSub (s : State) (k : AccKind) (va : W64) (n : Nat) : Option (BitVec 8) :=
  match s.access s.xl k va n with
  | .ok _ => none
  | .error c => some (subOf c)

/-- The pieces of a checked access that has passed its checks. -/
def State.readPieces (s : State) (k : AccKind) (va : W64) (n : Nat) : List (Piece × TlbEntry) :=
  match s.checkRead k va n with
  | .ok ps => ps
  | .error _ => []

/-- The window checks of a posted access (R163-R165). -/
def State.windowTrap (s : State) (va : W64) (n : Nat) : Option Trap :=
  match s.windowCause va n with
  | some c => some { cause := c, slot := .c, tval := va, sub := 0 }
  | none => none

/-- The first of several failed checks by the order of their causes (R407). -/
def byCause (cs : List (BitVec 8)) (ts : List Trap) : Option Trap := firstOf (fun c => findFirst? (·.cause == c) ts) cs

/-- The window checks of several ranges of one slot, step by step over all of them (R407 step 3). -/
def State.windowsTrap (s : State) (xs : List (W64 × Nat)) : Option Trap :=
  byCause [0x08, 0x07, 0x09] (xs.filterMap fun x => s.windowTrap x.1 x.2)

/-- The checks of several accesses of one slot, step by step over all of them (R407 steps 3 and 4). -/
def State.readsTrap (s : State) (k : AccKind) (xs : List (W64 × Nat)) : Option Trap :=
  firstTrap [s.windowsTrap xs, byCause [0x06, 0x08, 0x09, 0x0A] (xs.filterMap fun x => s.readTrap k x.1 x.2)]

/-- The translations that an access used join the TLB, the tables' lines being read where a walk was made (R234). -/
def State.noteWalks (s : State) (ps : List (Piece × TlbEntry)) : State :=
  ps.foldl (fun s p =>
    match p.1.at_ with
    | .glob .. => s.noteWalk p.2.va p.2
    | _ => s) s

/-! ## Joining the core path (R186) -/

/-- A place in the scratchpad of a gang member that is PARKED: an access there waits. -/
def State.placeAway (s : State) (p : Place) : Bool :=
  match p with
  | .gang m _ => s.memberParked m
  | _ => false

/-- Bytes in the own scratchpad, through either window, that a tile command in the midst of its writes locks: an access there waits
(R274). -/
def State.placeLocked (s : State) (p : Place) (n : Nat) : Bool :=
  match s.owner p with
  | .own off => s.pathLocked off n
  | _ => false

def State.enq (s : State) (op : CoreOp) : State :=
  s.modQ fun q => { q with cq := q.cq ++ [{ op, bun := s.bun.addr, seq := s.bun.seq, lt := s.core.lt, start := s.cyc }] }

def LoadDst.regs : LoadDst → List RegId
  | .s r _ => if r = 0 then [] else [.s r]
  | .v r n => vRegs r n

/-- A load's issue: its destination empties and the access joins the core path (R175). -/
def State.postLoad (s : State) (dst : LoadDst) (addr : W64) (len : Nat) (keep : Bool) (elems : List LdElem) (spec : Bool)
    (ps : List (Piece × TlbEntry)) : State :=
  ((s.noteWalks ps).setEmpties dst.regs true).enq (.load dst addr len keep elems spec)

/-- A load of one run of bytes. -/
def State.runLoad (s : State) (k : AccKind) (dst : LoadDst) (va : W64) (n : Nat) (spec : Bool) : State :=
  let ps := s.readPieces k va n
  s.postLoad dst va n false [{ off := 0, addr := va, pieces := bare ps, alt := none }] spec ps

/-! ## Scalar loads -/

def State.gateLoad (s : State) (i : Instr) (reads : List (BitVec 6)) (a : BitVec 6) (va : W64) (n : Nat) : Gate :=
  { Gate.c i reads [.s a] with hold := s.awayAt va, trap := s.readTrap (scalarAcc .rd n) va n }

def execLd (a b : BitVec 6) (imm : CImm) (s : State) : Host.Outcome State Fault Refusal :=
  issue (s.gateLoad (.ld a b imm) [b] a (s.addrImm b imm) 8)
    (fun s => s.runLoad (scalarAcc .rd 8) (.s a false) (s.addrImm b imm) 8 false) s

def State.gateLdx (s : State) (a b c : BitVec 6) (sz : BitVec 3) (sh : BitVec 2) : Gate :=
  { s.gateLoad (.ldx a b c sz sh) [b, c] a (s.addrIdx b c sh) (xSize sz) with bad := sz == 7 }

def execLdx (a b c : BitVec 6) (sz : BitVec 3) (sh : BitVec 2) (s : State) : Host.Outcome State Fault Refusal :=
  issue (s.gateLdx a b c sz sh)
    (fun s => s.runLoad (scalarAcc .rd (xSize sz)) (.s a (xSigned sz)) (s.addrIdx b c sh) (xSize sz) false) s

/-! ## Speculative loads (R181) -/

/-- The tag for the cause that the checked load would raise. -/
def tagFor (c : BitVec 8) : BitVec 3 :=
  if c = 0x08 then 2 else if c = 0x09 then 3 else if c = 0x06 then 4 else if c = 0x07 then 5 else 1

/-- A speculative load: the load itself, or a tagged zero one cycle after issue. -/
def State.specLoad (s : State) (k : AccKind) (dst : LoadDst) (va : W64) (n : Nat) (misaligned : Bool) : State :=
  let tagged (s : State) (c : BitVec 8) : State :=
    dst.regs.foldl (fun s r => s.fly 1 .c (.tagged r (tagFor c))) (s.setEmpties dst.regs true)
  if misaligned then tagged s 0x06
  else
    match s.checkRead k va n with
    | .ok _ => s.runLoad k dst va n true
    | .error c => tagged (s.noteRefused va.toNat n) c

def execLds (a b : BitVec 6) (imm : CImm) (s : State) : Host.Outcome State Fault Refusal :=
  issue (Gate.c (.lds a b imm) [b] [.s a])
    (fun s => s.specLoad (scalarAcc .rd 8) (.s a false) (s.addrImm b imm) 8 false) s

/-! ## Scalar stores (R177) -/

def State.gateStore (s : State) (i : Instr) (reads : List (BitVec 6)) (va : W64) (n : Nat) : Gate :=
  { Gate.c i reads [] with hold := s.awayAt va, trap := s.windowTrap va n }

def State.postStore (s : State) (va : W64) (n : Nat) (x : W64) : State :=
  s.enq (.store [{ addr := va, bytes := leBytes n x.toNat }] true)

def execSt (a b : BitVec 6) (imm : CImm) (s : State) : Host.Outcome State Fault Refusal :=
  issue (s.gateStore (.st a b imm) [a, b] (s.addrImm b imm) 8) (fun s => s.postStore (s.addrImm b imm) 8 (s.sGet a)) s

def State.gateStx (s : State) (a b c : BitVec 6) (sz : BitVec 3) (sh : BitVec 2) : Gate :=
  { s.gateStore (.stx a b c sz sh) [a, b, c] (s.addrIdx b c sh) (xSize sz) with bad := xSigned sz }

def execStx (a b c : BitVec 6) (sz : BitVec 3) (sh : BitVec 2) (s : State) : Host.Outcome State Fault Refusal :=
  issue (s.gateStx a b c sz sh) (fun s => s.postStore (s.addrIdx b c sh) (xSize sz) (s.sGet a)) s

/-! ## PREF (R179) -/

/-- The sector of an address is brought into L1 (level 0) or to the home cache; anything that fails a check is ignored. A sector
written after the core's lt goes no further than the home: L1 keeps a lease only over times that lt has reached (R229). -/
def State.prefetch (s : State) (lvl : BitVec 2) (va : W64) : State :=
  match regionOf va.toNat, s.access s.xl (scalarAcc .rd 1) va 1 with
  | .glob, .ok ((p, e) :: _) =>
    let s := s.noteWalks [(p, e)]
    match p.at_ with
    | .glob pa false ft =>
      if isPeer pa then s
      else if lvl = 0 ∧ tle (s.line pa).wts s.core.lt = true then (s.l1Read (pa / 256) ft).1
      else s.setLine pa ({ s.line pa with ft := ftJoin (s.line pa).ft ft }.touch (pa / 1024) pa 1 false)
    | _ => s
  | _, _ => s.noteRefused va.toNat

def execPref (lvl : BitVec 2) (b : BitVec 6) (imm : CImm) (s : State) : Host.Outcome State Fault Refusal :=
  issue { Gate.c (.pref lvl b imm) [b] [] with bad := decide (2 ≤ lvl.toNat) }
    (fun s => s.prefetch lvl (s.addrImm b imm)) s

/-! ## Vector loads and stores (R183) -/

def wBytes (w : BitVec 2) : Nat := 32 * wRegs w

/-- A signed offset in units of 32 bytes. -/
def off32 (off : BitVec 10) : W64 := off.signExtend 64 <<< 5

/-- The address of a vector access: from a register, or in a buffer. -/
def State.vAddr (s : State) (b : BitVec 6) (buf : BitVec 1) (off : BitVec 10) : W64 :=
  if buf = 1 then BitVec.ofNat 64 (ownBase + (s.buf b).off) + off32 off else s.sGet b + off32 off

/-- The access does not lie in the buffer's extent. -/
def State.outOfBuf (s : State) (b : BitVec 6) (off : BitVec 10) (n : Nat) : Bool :=
  let o := (off32 off).toInt
  decide (o < 0) || decide (((s.buf b).size : Int) < o + n)

/-- The checks of a vector access before issue, in the order of R407. -/
def State.vTraps (s : State) (b : BitVec 6) (buf : BitVec 1) (off : BitVec 10) (n : Nat) (addr : Option Trap)
    (states : List BufSt) : Option Trap :=
  let va := s.vAddr b buf off
  firstTrap [
    trapIf (va.toNat % 32 != 0) 0x06 va,
    s.windowTrap va n,
    trapIf (buf == 1 && s.outOfBuf b off n) 0x09 va,
    addr,
    trapIf (buf == 1 && !states.contains (s.buf b).st) 0x0E (b.setWidth 64)]

def vReads (b : BitVec 6) (buf : BitVec 1) : List (BitVec 6) := if buf = 1 then [] else [b]

/-- A width code and the alignment of its group (R167). -/
def wOk (a : BitVec 6) (w : BitVec 2) : Bool := w != 3 && a.toNat % wRegs w == 0

def State.gateVld (s : State) (a b : BitVec 6) (w : BitVec 2) (buf : BitVec 1) (off : BitVec 10) : Gate :=
  { Gate.c (.vld a b w buf off) (vReads b buf) (vRegs a (wRegs w)) with
    bad := !wOk a w
    hold := s.awayAt (s.vAddr b buf off)
    trap := s.vTraps b buf off (wBytes w) (s.readTrap (vectorAcc .rd) (s.vAddr b buf off) (wBytes w)) [.full] }

def execVld (a b : BitVec 6) (w : BitVec 2) (buf : BitVec 1) (off : BitVec 10) (s : State) :
    Host.Outcome State Fault Refusal :=
  issue (s.gateVld a b w buf off)
    (fun s => s.runLoad (vectorAcc .rd) (.v a (wRegs w)) (s.vAddr b buf off) (wBytes w) false) s

def State.gateVst (s : State) (a b : BitVec 6) (w : BitVec 2) (buf : BitVec 1) (off : BitVec 10) : Gate :=
  { Gate.c (.vst a b w buf off) (vReads b buf) [] with
    bad := !wOk a w
    hold := s.awayAt (s.vAddr b buf off)
    reads := (vReads b buf).map (fun n => (.s n, false)) ++ (vRegs a (wRegs w)).map fun r => (r, false)
    trap := s.vTraps b buf off (wBytes w) none [.free, .full] }

def execVst (a b : BitVec 6) (w : BitVec 2) (buf : BitVec 1) (off : BitVec 10) (s : State) :
    Host.Outcome State Fault Refusal :=
  issue (s.gateVst a b w buf off) (fun s =>
    s.enq (.store [{ addr := s.vAddr b buf off, bytes := leBytes (wBytes w) (s.vGroup a (wRegs w)) }] false)) s

def gateVlds (a b : BitVec 6) (w : BitVec 2) (buf : BitVec 1) (off : BitVec 10) : Gate :=
  { Gate.c (.vlds a b w buf off) [b] (vRegs a (wRegs w)) with bad := buf == 1 || !wOk a w }

def execVlds (a b : BitVec 6) (w : BitVec 2) (buf : BitVec 1) (off : BitVec 10) (s : State) :
    Host.Outcome State Fault Refusal :=
  issue (gateVlds a b w buf off) (fun s =>
    let va := s.sGet b + off32 off
    s.specLoad (vectorAcc .rd) (.v a (wRegs w)) va (wBytes w) (va.toNat % 32 != 0)) s

/-! ## Gather and scatter (R184) -/

/-- Element bytes, count, and registers of the index group. -/
def gBytes (e : BitVec 2) : Nat := 2 ^ e.toNat
def gCount (w e : BitVec 2) : Nat := wBytes w / gBytes e
def gIdxBits (w e : BitVec 2) : Nat := 32 * gCount w e
def gIdxRegs (w e : BitVec 2) : Nat := (gIdxBits w e + 255) / 256

/-- The slot is legal: widths, group alignments, and an index group of 256, 512 or 1,024 bits. -/
def gatherOk (a c : BitVec 6) (w e : BitVec 2) : Bool :=
  wOk a w && (gIdxBits w e == 256 || gIdxBits w e == 512 || gIdxBits w e == 1024) && c.toNat % gIdxRegs w e == 0

/-- The active elements with their addresses. -/
def State.gElems (s : State) (b c : BitVec 6) (k : BitVec 3) (w : BitVec 2) (sc : BitVec 1) (e : BitVec 2) :
    List (Nat × W64) :=
  let m := (s.kGet k).toNat
  let idx := elems 32 (gCount w e) (s.vGroup c (gIdxRegs w e))
  ((List.range (gCount w e)).zip idx).filterMap fun p =>
    if active m (8 * gBytes e) p.1 then
      some (p.1, s.sGet b + (BitVec.ofNat 32 p.2).signExtend 64 <<< (if sc = 1 then e.toNat else 0))
    else none

/-- The registers that a gather or scatter reads besides its data. -/
def gReads (b c : BitVec 6) (k : BitVec 3) (w e : BitVec 2) : List (RegId × Bool) :=
  [(.s b, false)] ++ (vRegs c (gIdxRegs w e)).map (fun r => (r, false)) ++ [(.k k, false)]

/-- The checks of one element. -/
def State.gTrap (s : State) (n : Nat) (addr : W64 → Option Trap) (x : Nat × W64) : Option Trap :=
  firstTrap [trapIf (x.2.toNat % n != 0) 0x06 x.2, s.windowTrap x.2 n, addr x.2]

def State.gateVgath (s : State) (a b c : BitVec 6) (k : BitVec 3) (w : BitVec 2) (sc : BitVec 1) (e : BitVec 2) : Gate :=
  { Gate.c (.vgath a b c k w sc e) [] (vRegs a (wRegs w)) with
    bad := !gatherOk a c w e
    reads := gReads b c k w e
    hold := (s.gElems b c k w sc e).any fun x => s.awayAt x.2
    trap := firstOf (s.gTrap (gBytes e) fun va => s.readTrap (vectorAcc .rd) va (gBytes e)) (s.gElems b c k w sc e) }

/-- VGATH (R184). DESIGN CHOICE (log 94): the trap value of a poisoned gather is s_b. -/
def execVgath (a b c : BitVec 6) (k : BitVec 3) (w : BitVec 2) (sc : BitVec 1) (e : BitVec 2) (s : State) :
    Host.Outcome State Fault Refusal :=
  issue (s.gateVgath a b c k w sc e) (fun s =>
    let n := gBytes e
    let xs := s.gElems b c k w sc e
    let ps := xs.map fun x => s.readPieces (vectorAcc .rd) x.2 n
    let ls := (xs.zip ps).map fun p => { off := p.1.1 * n, addr := p.1.2, pieces := bare p.2, alt := none : LdElem }
    s.postLoad (.v a (wRegs w)) (s.sGet b) n true ls false ps.flatten) s

def State.gateVscat (s : State) (a b c : BitVec 6) (k : BitVec 3) (w : BitVec 2) (sc : BitVec 1) (e : BitVec 2) : Gate :=
  { Gate.c (.vscat a b c k w sc e) [] [] with
    bad := !gatherOk a c w e
    reads := gReads b c k w e ++ (vRegs a (wRegs w)).map fun r => (r, false)
    hold := (s.gElems b c k w sc e).any fun x => s.awayAt x.2
    trap := firstOf (s.gTrap (gBytes e) fun _ => none) (s.gElems b c k w sc e) }

def execVscat (a b c : BitVec 6) (k : BitVec 3) (w : BitVec 2) (sc : BitVec 1) (e : BitVec 2) (s : State) :
    Host.Outcome State Fault Refusal :=
  issue (s.gateVscat a b c k w sc e) (fun s =>
    let n := gBytes e
    let x := s.vGroup a (wRegs w)
    s.enq (.store ((s.gElems b c k w sc e).map fun p =>
      { addr := p.2, bytes := leBytes n (x / 2 ^ (8 * n * p.1)) }) false)) s

/-! ## Handle accesses (R185, R245) -/

/-- Elements of the register group, with their coordinates, that lie in the tensor. -/
def hRun (h : Handle) (x : List Nat) (w : BitVec 2) : List (Nat × List Nat) :=
  ((List.range (wBytes w / elemBytes h.fmt)).map fun e => (e, along x e 0)).filter fun p => h.inside p.2

/-- The bitmap byte and bit of an element's tile. -/
def Handle.bitAt (h : Handle) (x : List Nat) : W64 × Nat :=
  (BitVec.ofNat 64 (h.cbmp + h.tileOf x / 8), h.tileOf x % 8)

/-- Where a bitmap byte is. -/
def State.bitPlace (s : State) (va : W64) : Option Place :=
  match s.readPieces (scalarAcc .rd 1) va 1 with
  | [(p, _)] => some p.at_
  | _ => none

/-- A bit as memory, or the scratchpad of a window, holds it at a place (R163, R245). -/
def State.bitOf (s : State) (p : Place) (i : Nat) : Bool :=
  match p with
  | .glob pa _ _ => (memGet s.mem pa).toNat.testBit i
  | .own off => (ofLe (s.core.scrRead off 1)).testBit i
  | .gang m off => optAll ((s.memberId m).bind s.coreById) (fun c => (ofLe (c.scrRead off 1)).testBit i) &&
      ((s.memberId m).bind s.coreById).isSome

/-- A read of a bitmap byte takes its time at the home (R229, R245), or raises lt to the scratchpad's stamp (R267). -/
def State.readBit (s : State) (p : Option Place) : State :=
  match p with
  | some (.glob pa ms ft) => (s.fixPlace (.glob pa ms ft) 1).homeRead pa ms
  | some p => (s.coreRead p 1).1
  | none => s

/-- The bitmap bit of an element. -/
def State.tileBit (s : State) (h : Handle) (x : List Nat) : Bool :=
  h.cv && optAll (s.bitPlace (h.bitAt x).1) (s.bitOf · (h.bitAt x).2) && (s.bitPlace (h.bitAt x).1).isSome

/-- The bitmap byte of an element lies where an access waits: at a gang member that is PARKED, or in bytes that a tile command locks
(R274). -/
def State.bitWaits (s : State) (h : Handle) (xs : List (List Nat)) : Bool :=
  h.cv && xs.any fun x => optAll (s.bitPlace (h.bitAt x).1) (fun p => s.placeAway p || s.placeLocked p 1) &&
    (s.bitPlace (h.bitAt x).1).isSome || s.awayAt (h.bitAt x).1

/-- The address of an element as its tile stands (R245). -/
def State.hAddr (s : State) (h : Handle) (x : List Nat) : W64 := BitVec.ofNat 64 (h.va (s.tileBit h x) x)

/-- The checks of elements read through a handle: those of the bitmap, which says where an element stands, then the elements'. -/
def State.hTrap (s : State) (h : Handle) (xs : List (List Nat)) : Option Trap :=
  firstTrap [
    if h.cv then s.readsTrap (scalarAcc .rd 1) (xs.map fun x => ((h.bitAt x).1, 1)) else none,
    s.readsTrap (vectorAcc .rd) (xs.map fun x => (s.hAddr h x, elemBytes h.fmt))]

def State.coordsOf (s : State) (c : BitVec 6) : List Nat := coords (s.sGet c) (s.sGet (c + 1))

/-- A handle number register names no handle, or one that the access may not use. -/
def State.hBad (s : State) (b : BitVec 6) (ok : Nat → Bool) : Bool :=
  let h := s.handle (s.sGet b).toNat
  decide (256 ≤ (s.sGet b).toNat) || !h.v || !ok h.fmt

/-- DESIGN CHOICE (log 96): the trap value of cause 0x1B is the whole of s_b. -/
def State.gateVldh (s : State) (a b c : BitVec 6) (w : BitVec 2) : Gate :=
  let h := s.handle (s.sGet b).toNat
  let bad := s.hBad b unpacked
  { Gate.c (.vldh a b c w) [b, c, c + 1] (vRegs a (wRegs w)) with
    bad := !wOk a w || c.toNat % 2 == 1
    hold := s.bitWaits h ((hRun h (s.coordsOf c) w).map (·.2))
    trap := firstTrap [
      trapIf bad 0x1B (s.sGet b),
      if bad then none else s.hTrap h ((hRun h (s.coordsOf c) w).map (·.2))] }

/-- The load elements of a handle run, each with its handle: where the bit of its tile is still 0, the bit and the new storage go along.
The bitmap itself is read as the element is performed (R245). -/
def State.hElem (s : State) (img : Nat) (ws : List W64) (x : Nat × List Nat) : LdElem × List (Piece × TlbEntry) :=
  let h := handleOf ws
  let n := elemBytes h.fmt
  let va := s.hAddr h x.2
  let ps := s.readPieces (vectorAcc .rd) va n
  let alt := if h.cv && !s.tileBit h x.2 then
      match s.bitPlace (h.bitAt x.2).1, s.readPieces (vectorAcc .rd) (BitVec.ofNat 64 (h.va true x.2)) n with
      | some p, q :: qs => some (p, (h.bitAt x.2).2, bare (q :: qs))
      | _, _ => none
    else none
  ({ off := x.1 * n, addr := va, pieces := bare ps, alt, from_ := some (img, ws, x.2) }, ps)

/-- VLDH (R185). DESIGN CHOICE (log 94): the trap value of a poisoned run is the address of its first element inside the tensor, or the
handle's BASE where none is. -/
def execVldh (a b c : BitVec 6) (w : BitVec 2) (s : State) : Host.Outcome State Fault Refusal :=
  issue (s.gateVldh a b c w) (fun s =>
    let h := s.handle (s.sGet b).toNat
    let xs := hRun h (s.coordsOf c) w
    let n := (s.sGet b).toNat
    let ls := xs.map (s.hElem (s.handleAt n) (s.handleWords n))
    let addr := match ls with
      | l :: _ => l.1.addr
      | [] => BitVec.ofNat 64 h.base
    (s.readHandle (s.sGet b).toNat).postLoad (.v a (wRegs w)) addr (elemBytes h.fmt) false (ls.map (·.1)) false
      (ls.map (·.2)).flatten) s

/-- DESIGN CHOICE (log 96): the trap value of cause 0x1B is the whole of s_b, that of cause 0x0A the handle's BASE. -/
def State.gateVsth (s : State) (a b c : BitVec 6) (w : BitVec 2) : Gate :=
  let h := s.handle (s.sGet b).toNat
  { Gate.c (.vsth a b c w) [b, c, c + 1] [] with
    bad := !wOk a w || c.toNat % 2 == 1
    reads := [(.s b, false), (.s c, false), (.s (c + 1), false)] ++ (vRegs a (wRegs w)).map (fun r => (r, false))
    trap := firstTrap [
      trapIf (s.hBad b fun f => unpacked f || isFertite f) 0x1B (s.sGet b),
      if isFertite h.fmt then none
      else s.windowsTrap ((hRun h (s.coordsOf c) w).map fun x => (s.hAddr h x.2, elemBytes h.fmt)),
      trapIf (isFertite h.fmt) 0x0A (BitVec.ofNat 64 h.base)] }

def execVsth (a b c : BitVec 6) (w : BitVec 2) (s : State) : Host.Outcome State Fault Refusal :=
  issue (s.gateVsth a b c w) (fun s =>
    let ws := s.handleWords (s.sGet b).toNat
    let h := handleOf ws
    let n := elemBytes h.fmt
    let x := s.vGroup a (wRegs w)
    (s.readHandle (s.sGet b).toNat).enq (.hstore (s.handleAt (s.sGet b).toNat) ws ((hRun h (s.coordsOf c) w).map fun p =>
      (p.2, leBytes n (x / 2 ^ (8 * n * p.1)))))) s

/-! ## PAGE_WALK (R342, R344) -/

/-- PAGE_WALK (R342): the walk that an access to an address asks for; a valid translation joins the TLB. -/
def execPageWalk (va : W64) (s : State) : Host.Outcome State Fault Refusal :=
  let x := s.xl
  match s.walk x.ctx x.root va.toNat with
  | .ok e => .next (s.noteWalk va.toNat e)
  | .error _ => .next (s.walkLines va.toNat walkLevels x.root)

end Sys2Proof.Machine
end

