-- ==== Sys2Proof/Machine/Atomic.lean ====
section
/-!
DEFINITION. Atomics, decrements and submissions as the C slot issues them (spec 10 R188-R193): operand forms, the checks before
issue, and the operation that joins the core path.
-/
namespace Sys2Proof.Machine
open Sys2Proof

/-! ## Operands (R188) -/

/-- Operation 9 is `cas`, 11 is `faddb`: they take a pair of registers. -/
def amoPair (op : Nat) : Bool := op == 9 || op == 11
def amoBytes (sz : BitVec 1) : Nat := if sz = 1 then 8 else 4

/-- The new value of an atomic, or none where it stores nothing (R188). The operand of `amov` (R190) is that of `swap`. -/
def amoNew (op size old v v2 : Nat) : Option Nat :=
  let w := 8 * size
  let m := 2 ^ w
  let v := v % m
  let v2 := v2 % m
  match op with
  | 0 => some ((old + v) % m)
  | 1 => some (old &&& v)
  | 2 => some (old ||| v)
  | 3 => some (old ^^^ v)
  | 4 => some (if signed w old ≤ signed w v then old else v)
  | 5 => some (if signed w old < signed w v then v else old)
  | 6 => some (min old v)
  | 7 => some (max old v)
  | 8 => some v
  | 9 => if old = v then some v2 else none
  | 10 => some (if v ≤ old then 0 else old + 1)
  | 11 => if v2 ≤ old then none else some (min (old + v) v2)
  | _ => some (fltRes 8 0 ((fltVal 8 old).add 0 (fltVal 8 v)))

/-- What `amo` returns: the old word, with bit 63 set where `faddb` met its bound. -/
def amoOld (op size old v2 : Nat) : Nat :=
  if op = 11 ∧ v2 % 2 ^ (8 * size) ≤ old then old + 2 ^ 63 else old

/-- Operations exempt from phase isolation on MS lines (R313). -/
def amoExempt (op : Nat) : Bool := decide (op ≤ 7)

/-- The size and the register pair are legal (R187, R188). -/
def amoOk (op : Nat) (c : BitVec 6) (sz : BitVec 1) : Bool :=
  (!amoPair op || c.toNat % 2 == 0) && !((op == 11 || op == 12) && sz == 1)

def amoReads (op : Nat) (b c : BitVec 6) : List (BitVec 6) := if amoPair op then [b, c, c + 1] else [b, c]

/-! ## Checks and effects -/

def State.gateAmo (s : State) (i : Instr) (op : Nat) (a b c : BitVec 6) (sz : BitVec 1) : Gate :=
  let va := s.sGet b
  let n := amoBytes sz
  { Gate.c i (amoReads op b c) [.s a] with
    bad := !amoOk op c sz
    hold := s.awayAt va
    trap := firstTrap [trapIf (va.toNat % n != 0) 0x06 va, s.readTrap (scalarAcc .amo n) va n] }

/-- The value an atomic's pair adds: s_(c+1), for `cas` and `faddb`. -/
def State.amoPairVal (s : State) (op : Nat) (c : BitVec 6) : W64 := if amoPair op then s.sGet (c + 1) else 0

/-- An `amo` issues: its destination empties and it joins the core path. -/
def State.postAmo (op : Nat) (a b c : BitVec 6) (sz : BitVec 1) (s : State) : State :=
  let va := s.sGet b
  let n := amoBytes sz
  match s.readPieces (scalarAcc .amo n) va n with
  | p :: ps =>
    ((s.noteWalks (p :: ps)).setEmpties (LoadDst.s a false).regs true).enq
      (.amo op a va p.1.at_ n (s.sGet c) (s.amoPairVal op c))
  | [] => s

def State.gateRed (s : State) (i : Instr) (op : Nat) (b c : BitVec 6) (sz : BitVec 1) : Gate :=
  let va := s.sGet b
  let n := amoBytes sz
  { Gate.c i (amoReads op b c) [] with
    bad := !amoOk op c sz
    hold := s.awayAt va
    trap := firstTrap [trapIf (va.toNat % n != 0) 0x06 va, s.windowTrap va n] }

/-- A `red` or `amov` issues: posted on the core path. -/
def State.postRed (op : Nat) (b c : BitVec 6) (sz : BitVec 1) (s : State) : State :=
  s.enq (.red op (s.sGet b) (amoBytes sz) (s.sGet c) (s.amoPairVal op c))

/-- AMOV (R190). -/
def execAmov (b c : BitVec 6) (sz : BitVec 1) (s : State) : Host.Outcome State Fault Refusal :=
  issue (s.gateRed (.amov b c sz) 8 b c sz) (State.postRed 8 b c sz) s

/-! ## Decrements and submissions (R191, R192) -/

/-- The address of a counter or record must be global (R163, R191, R192). -/
def globalTrap (va : W64) : Option Trap :=
  firstTrap [trapIf (decide (2 ^ 57 ≤ va.toNat) || regionOf va.toNat == .nowhere) 0x08 va,
    trapIf (regionOf va.toNat != .glob) 0x09 va]

def State.gateDepdec (s : State) (b : BitVec 6) (imm : CImm) : Gate :=
  let va := s.addrImm b imm
  { Gate.c (.depdec b imm) [b] [] with trap := firstTrap [trapIf (va.toNat % 4 != 0) 0x06 va, globalTrap va] }

/-- DEPDEC (R191). -/
def execDepdec (b : BitVec 6) (imm : CImm) (s : State) : Host.Outcome State Fault Refusal :=
  issue (s.gateDepdec b imm) (fun s => s.enq (.depdec (s.addrImm b imm))) s

def State.gateSpawn (s : State) (b : BitVec 6) : Gate :=
  let va := s.sGet b
  { Gate.c (.spawn b) [b] [] with trap := firstTrap [trapIf (va.toNat % 256 != 0) 0x06 va, globalTrap va] }

/-- SPAWN (R192). -/
def execSpawn (b : BitVec 6) (s : State) : Host.Outcome State Fault Refusal :=
  issue (s.gateSpawn b) (fun s => s.enq (.spawn (s.sGet b))) s

/-! ## Meanings of the atomics -/

/-- AMO_ADD (R188): wrapping add. -/
def execAmoAdd (a b c : BitVec 6) (sz : BitVec 1) (s : State) : Host.Outcome State Fault Refusal :=
  issue (s.gateAmo (.amoAdd a b c sz) 0 a b c sz) (State.postAmo 0 a b c sz) s

/-- AMO_AND (R188): and. -/
def execAmoAnd (a b c : BitVec 6) (sz : BitVec 1) (s : State) : Host.Outcome State Fault Refusal :=
  issue (s.gateAmo (.amoAnd a b c sz) 1 a b c sz) (State.postAmo 1 a b c sz) s

/-- AMO_OR (R188): or. -/
def execAmoOr (a b c : BitVec 6) (sz : BitVec 1) (s : State) : Host.Outcome State Fault Refusal :=
  issue (s.gateAmo (.amoOr a b c sz) 2 a b c sz) (State.postAmo 2 a b c sz) s

/-- AMO_XOR (R188): xor. -/
def execAmoXor (a b c : BitVec 6) (sz : BitVec 1) (s : State) : Host.Outcome State Fault Refusal :=
  issue (s.gateAmo (.amoXor a b c sz) 3 a b c sz) (State.postAmo 3 a b c sz) s

/-- AMO_MIN (R188): signed minimum. -/
def execAmoMin (a b c : BitVec 6) (sz : BitVec 1) (s : State) : Host.Outcome State Fault Refusal :=
  issue (s.gateAmo (.amoMin a b c sz) 4 a b c sz) (State.postAmo 4 a b c sz) s

/-- AMO_MAX (R188): signed maximum. -/
def execAmoMax (a b c : BitVec 6) (sz : BitVec 1) (s : State) : Host.Outcome State Fault Refusal :=
  issue (s.gateAmo (.amoMax a b c sz) 5 a b c sz) (State.postAmo 5 a b c sz) s

/-- AMO_MINN (R188): unsigned minimum. -/
def execAmoMinn (a b c : BitVec 6) (sz : BitVec 1) (s : State) : Host.Outcome State Fault Refusal :=
  issue (s.gateAmo (.amoMinn a b c sz) 6 a b c sz) (State.postAmo 6 a b c sz) s

/-- AMO_MAXN (R188): unsigned maximum. -/
def execAmoMaxn (a b c : BitVec 6) (sz : BitVec 1) (s : State) : Host.Outcome State Fault Refusal :=
  issue (s.gateAmo (.amoMaxn a b c sz) 7 a b c sz) (State.postAmo 7 a b c sz) s

/-- AMO_SWAP (R188): swap. -/
def execAmoSwap (a b c : BitVec 6) (sz : BitVec 1) (s : State) : Host.Outcome State Fault Refusal :=
  issue (s.gateAmo (.amoSwap a b c sz) 8 a b c sz) (State.postAmo 8 a b c sz) s

/-- AMO_CAS (R188): compare and swap. -/
def execAmoCas (a b c : BitVec 6) (sz : BitVec 1) (s : State) : Host.Outcome State Fault Refusal :=
  issue (s.gateAmo (.amoCas a b c sz) 9 a b c sz) (State.postAmo 9 a b c sz) s

/-- AMO_INCW (R188): bounded increment. -/
def execAmoIncw (a b c : BitVec 6) (sz : BitVec 1) (s : State) : Host.Outcome State Fault Refusal :=
  issue (s.gateAmo (.amoIncw a b c sz) 10 a b c sz) (State.postAmo 10 a b c sz) s

/-- AMO_FADDB (R188): bounded add. -/
def execAmoFaddb (a b c : BitVec 6) (sz : BitVec 1) (s : State) : Host.Outcome State Fault Refusal :=
  issue (s.gateAmo (.amoFaddb a b c sz) 11 a b c sz) (State.postAmo 11 a b c sz) s

/-- AMO_FADD (R188): f32 add. -/
def execAmoFadd (a b c : BitVec 6) (sz : BitVec 1) (s : State) : Host.Outcome State Fault Refusal :=
  issue (s.gateAmo (.amoFadd a b c sz) 12 a b c sz) (State.postAmo 12 a b c sz) s

/-- RED_ADD (R188): wrapping add, posted. -/
def execRedAdd (b c : BitVec 6) (sz : BitVec 1) (s : State) : Host.Outcome State Fault Refusal :=
  issue (s.gateRed (.redAdd b c sz) 0 b c sz) (State.postRed 0 b c sz) s

/-- RED_AND (R188): and, posted. -/
def execRedAnd (b c : BitVec 6) (sz : BitVec 1) (s : State) : Host.Outcome State Fault Refusal :=
  issue (s.gateRed (.redAnd b c sz) 1 b c sz) (State.postRed 1 b c sz) s

/-- RED_OR (R188): or, posted. -/
def execRedOr (b c : BitVec 6) (sz : BitVec 1) (s : State) : Host.Outcome State Fault Refusal :=
  issue (s.gateRed (.redOr b c sz) 2 b c sz) (State.postRed 2 b c sz) s

/-- RED_XOR (R188): xor, posted. -/
def execRedXor (b c : BitVec 6) (sz : BitVec 1) (s : State) : Host.Outcome State Fault Refusal :=
  issue (s.gateRed (.redXor b c sz) 3 b c sz) (State.postRed 3 b c sz) s

/-- RED_MIN (R188): signed minimum, posted. -/
def execRedMin (b c : BitVec 6) (sz : BitVec 1) (s : State) : Host.Outcome State Fault Refusal :=
  issue (s.gateRed (.redMin b c sz) 4 b c sz) (State.postRed 4 b c sz) s

/-- RED_MAX (R188): signed maximum, posted. -/
def execRedMax (b c : BitVec 6) (sz : BitVec 1) (s : State) : Host.Outcome State Fault Refusal :=
  issue (s.gateRed (.redMax b c sz) 5 b c sz) (State.postRed 5 b c sz) s

/-- RED_MINN (R188): unsigned minimum, posted. -/
def execRedMinn (b c : BitVec 6) (sz : BitVec 1) (s : State) : Host.Outcome State Fault Refusal :=
  issue (s.gateRed (.redMinn b c sz) 6 b c sz) (State.postRed 6 b c sz) s

/-- RED_MAXN (R188): unsigned maximum, posted. -/
def execRedMaxn (b c : BitVec 6) (sz : BitVec 1) (s : State) : Host.Outcome State Fault Refusal :=
  issue (s.gateRed (.redMaxn b c sz) 7 b c sz) (State.postRed 7 b c sz) s

/-- RED_INCW (R188): bounded increment, posted. -/
def execRedIncw (b c : BitVec 6) (sz : BitVec 1) (s : State) : Host.Outcome State Fault Refusal :=
  issue (s.gateRed (.redIncw b c sz) 10 b c sz) (State.postRed 10 b c sz) s

/-- RED_FADDB (R188): bounded add, posted. -/
def execRedFaddb (b c : BitVec 6) (sz : BitVec 1) (s : State) : Host.Outcome State Fault Refusal :=
  issue (s.gateRed (.redFaddb b c sz) 11 b c sz) (State.postRed 11 b c sz) s

/-- RED_FADD (R188): f32 add, posted. -/
def execRedFadd (b c : BitVec 6) (sz : BitVec 1) (s : State) : Host.Outcome State Fault Refusal :=
  issue (s.gateRed (.redFadd b c sz) 12 b c sz) (State.postRed 12 b c sz) s

end Sys2Proof.Machine
end

