-- ==== Sys2Proof/Machine/Fetch.lean ====
section
/-!
DEFINITION. Fetching a bundle's words through the instruction cache (spec 02 R19, R20, 23 R345).
-/
namespace Sys2Proof.Machine
open Sys2Proof

/-- The line of a virtual address read through translation: its bytes by offset and the translation used; the fault's SUB
otherwise. -/
def State.fetchLine (s : State) (va : Nat) : Except (BitVec 8) (Sp Byte × TlbEntry) :=
  if 2 ^ 57 ≤ va ∨ regionOf va ≠ .glob then .error 0x08
  else
    match s.leafOf (s.core.xl s.core.tlb) va with
    | .error c => .error (subOf c)
    | .ok e =>
      if protOk e .fetch s.t.sys.prv = false then .error 0x09
      else
      let pa := (e.pa + va % 2 ^ e.lg) / 256 * 256
      if s.badAt pa 256 then .error 0x0B
      else .ok (((s.sectorCells (pa / 256)).map fun c => (c.1 - pa, c.2)), e)

/-- The line of an address in the instruction cache. -/
def State.iline (s : State) (va : Nat) : Option (Sp Byte) :=
  match findFirst? (fun l : Nat × Sp Byte => l.1 == va / 256) s.core.icache with
  | some l => some l.2
  | none => none

/-- The word at an offset of a line. -/
def lineWord (line : Sp Byte) (off : Nat) : W32 :=
  BitVec.ofNat 32 (ofLe ((List.range 4).map fun i => spGet 0 line (off + i)))

/-- The words of a line from an offset to its end, at most eleven: the longest bundle (R16). -/
def lineWords (line : Sp Byte) (off : Nat) : List W32 :=
  (List.range (min 11 ((256 - off) / 4))).map fun i => lineWord line (off + 4 * i)

/-- Room in the instruction cache of 256 lines: a full one loses a line of a free choice (R1; log 8). -/
def State.ilineRoom (s : State) : State :=
  if s.core.icache.length < 256 then s
  else
    let n := (Config.freeWord s.fresh).toNat % s.core.icache.length
    { s with fresh := s.fresh + 1, core := { s.core with icache := s.core.icache.eraseIdx n } }

/-- A line fetched into the instruction cache; the tables are read where its translation was not held, which then joins the TLB
(R234, R344). -/
def State.addLine (s : State) (va : Nat) (line : Sp Byte) (e : TlbEntry) : State :=
  let s := (s.noteWalk va e).ilineRoom
  { s with core := { s.core with icache := (va / 256, line) :: s.core.icache } }

/-- The header at an address, without a fetch being made; none where it cannot be fetched. -/
def State.peekHeader (s : State) (va : Nat) : Option Nat :=
  match s.iline va with
  | some l => some (lineWord l (va % 256)).toNat
  | none =>
    match s.fetchLine va with
    | .ok (l, _) => some (lineWord l (va % 256)).toNat
    | .error _ => none

/-- The address after the bundle at an address, as its header gives it. -/
def State.afterBundle (s : State) (va : W64) : Option W64 :=
  match s.peekHeader va.toNat with
  | some h => if headerOk h then some (va + BitVec.ofNat 64 (4 * bundleWords h)) else none
  | none => none

/-- The link of a call: the address after the second delay bundle (R28). Where a delay bundle cannot be fetched yet, its own trap comes
first and a free value stands for the link (log 5) until that bundle issues (`State.settleLink`). -/
def State.link (s : State) : State × W64 :=
  match (s.afterBundle s.bun.next).bind s.afterBundle with
  | some a => (s, a)
  | none =>
    let (s, x) := s.free
    (s.modCtl fun c => { c with owed63 := some (x, c.bun.next) }, x)

/-- A delay bundle has issued, the last one or not: a link that waited for its words takes its value where the free value still stands for
it (R28). -/
def State.settleLink (s : State) (last : Bool) : State :=
  match s.t.ctl.owed63 with
  | some (x, d) =>
    if s.bun.addr ≠ d then s
    else if last then
      (if s.sGet 63 = x then s.sPut 63 s.bun.next else s).modCtl fun c => { c with owed63 := none }
    else s.modCtl fun c => { c with owed63 := some (x, c.bun.next) }
  | none => s

end Sys2Proof.Machine
end

