-- ==== Sys2Proof/Machine/Control.lean ====
section
/-!
DEFINITION. Control transfers, traps, containment regions and system registers in the C slot (spec 02 R28-R31, 09
R168-R173, R182, 10 R195, R203, R210-R212, R217, 23 R339).
-/
namespace Sys2Proof.Machine
open Sys2Proof

/-- NOP (R10): a bundle without slots. -/
def execNop (s : State) : Host.Outcome State Fault Refusal := issue (Gate.plain .whole .nop) (fun s => s) s

/-! ## Transfers -/

/-- A delayed transfer's decision and target, with two delay bundles to come (R28). -/
def State.transfer (s : State) (taken : Bool) (target : W64) : State :=
  s.modCtl fun c => { c with xfer := some { taken, target, left := 2, callr := none } }

/-- The target of a CJ offset: counted in words from the header (R28). -/
def State.near (s : State) (off : BitVec 16) : W64 := s.bun.addr + off4 off

/-- The condition of `br` on a value read as i64 (R168). -/
def brTaken (cond : BitVec 4) (x : W64) : Bool :=
  let v := x.toInt
  match cond.toNat with
  | 0 => true
  | 1 => v == 0
  | 2 => v != 0
  | 3 => decide (v < 0)
  | 4 => decide (v ≥ 0)
  | 5 => decide (v ≤ 0)
  | 6 => decide (v > 0)
  | _ => x.getLsbD 0

def execBr (cond : BitVec 4) (a : BitVec 6) (off : BitVec 16) (s : State) : Host.Outcome State Fault Refusal :=
  issue (Gate.c (.br cond a off) [a] []) (fun s => s.transfer (brTaken cond (s.sGet a)) (s.near off)) s

/-- The target of `jmp` (R169). -/
def State.jmpTarget (s : State) (off : BitVec 16) : W64 := (s.bun.addr &&& ~~~(0x3FFFF : W64)) + off.setWidth 64 <<< 2

def execJmp (off : BitVec 16) (s : State) : Host.Outcome State Fault Refusal :=
  issue (Gate.c (.jmp off) [] []) (fun s => s.transfer true (s.jmpTarget off)) s

def State.gateJmpr (s : State) (b : BitVec 6) (imm : CImm) : Gate :=
  let t := s.sGet b + s.immOf imm
  { Gate.c (.jmpr b imm) [b] [] with trap := trapIf (t.toNat % 4 != 0) 0x06 t }

def execJmpr (b : BitVec 6) (imm : CImm) (s : State) : Host.Outcome State Fault Refusal :=
  issue (s.gateJmpr b imm) (fun s => s.transfer true (s.sGet b + s.immOf imm)) s

def execCall (off : BitVec 16) (s : State) : Host.Outcome State Fault Refusal :=
  issue (Gate.c (.call off) [] [.s 63]) (fun s =>
    let (s, l) := s.link
    (s.fly 1 .c (.s 63 l)).transfer true (s.near off)) s

def execRet (b : BitVec 6) (s : State) : Host.Outcome State Fault Refusal :=
  issue (Gate.c (.ret b) [b] []) (fun s => s.transfer true (s.sGet b)) s

def execLoop (a : BitVec 6) (off : BitVec 16) (s : State) : Host.Outcome State Fault Refusal :=
  issue (Gate.c (.loop a off) [a] [.s a]) (fun s =>
    let x := s.sGet a - 1
    (s.fly 1 .c (.s a x)).transfer (x != 0) (s.near off)) s

/-- IPREF (R173): a hint that fetches the line where it can be fetched. -/
def execIpref (off : BitVec 16) (s : State) : Host.Outcome State Fault Refusal :=
  issue (Gate.c (.ipref off) [] []) (fun s =>
    let va := (s.near off).toNat
    match s.iline va, s.fetchLine va with
    | none, .ok (l, e) => s.addLine va l e
    | none, .error _ => s.noteRefused va
    | some _, _ => s) s

/-! ## Tags (R182) -/

def execChkp (a b : BitVec 6) (s : State) : Host.Outcome State Fault Refusal :=
  issue { Gate.c (.chkp a b) [b] [.s a] with tags := false } (fun s => s.fly 1 .c (.s a ((s.tagOf (.s b)).setWidth 64))) s

/-- The tag of the lowest tagged register of a group. -/
def State.groupTag (s : State) (rs : List RegId) : BitVec 3 :=
  match findFirst? (fun r => s.tagOf r != 0) rs with
  | some r => s.tagOf r
  | none => 0

def gateVchkp (a b : BitVec 6) (w : BitVec 2) : Gate :=
  { Gate.c (.vchkp a b w) [] [.s a] with tags := false, reads := (vRegs b (wRegs w)).map fun r => (r, false) }

def execVchkp (a b : BitVec 6) (w : BitVec 2) (s : State) : Host.Outcome State Fault Refusal :=
  issue (gateVchkp a b w) (fun s => s.fly 1 .c (.s a ((s.groupTag (vRegs b (wRegs w))).setWidth 64))) s

/-! ## Traps (R212, R339) -/

def State.gateTrap (s : State) (b : BitVec 6) (imm : CImm) : Gate :=
  { Gate.c (.trap b imm) [b] [] with trap := some { cause := 0x16, slot := .c, tval := s.sGet b + s.immOf imm, sub := 0 } }

/-- TRAP (R212): its bundle always takes cause 0x16. -/
def execTrap (b : BitVec 6) (imm : CImm) (s : State) : Host.Outcome State Fault Refusal :=
  issue (s.gateTrap b imm) (fun s => s) s

def State.gateEret (s : State) : Gate := { Gate.c .eret [] [] with bad := !s.t.sys.h }

def execEret (s : State) : Host.Outcome State Fault Refusal := issue s.gateEret State.trapReturn s

/-! ## Containment regions (R210, R348) -/

/-- The 16 registers of a block. -/
def block16 (a : BitVec 6) : List (BitVec 6) := (List.range 16).map fun i => a + BitVec.ofNat 6 i

def State.gateCtopen (s : State) (a : BitVec 6) (off : BitVec 16) : Gate :=
  { Gate.c (.ctopen a off) (block16 a) [] with bad := s.t.sys.h || decide (4 ≤ s.t.ctl.regions.length) }

/-- CTOPEN (R210): the handler, sixteen registers and the ring registers are recorded. -/
def execCtopen (a : BitVec 6) (off : BitVec 16) (s : State) : Host.Outcome State Fault Refusal :=
  issue (s.gateCtopen a off) (fun s =>
    let r : Region :=
      { handler := s.near off, first := a, vals := (block16 a).map s.sGet
        rings := (List.range 8).map fun g => s.ringReg (BitVec.ofNat 3 g) }
    s.modCtl fun c => { c with regions := r :: c.regions }) s

def State.gateCtclose (s : State) : Gate :=
  { Gate.c .ctclose [] [] with bad := s.t.sys.h || s.t.ctl.regions.isEmpty }

def execCtclose (s : State) : Host.Outcome State Fault Refusal :=
  issue s.gateCtclose (fun s => s.modCtl fun c => { c with regions := c.regions.tail }) s

/-! ## System registers (R217) -/

/-- Registers that a task may not write. -/
def sysRo (n : Nat) : Bool := n == 6 || decide (0xA ≤ n ∧ n ≤ 0xD)

/-- A register number that R217 does not assign: cause 0x02. -/
def sysNone (n : BitVec 13) : Bool := decide (0xD < n.toNat)

def gateMfs (a : BitVec 6) (n : BitVec 13) : Gate := { Gate.c (.mfs a n) [] [.s a] with bad := sysNone n }

def execMfs (a : BitVec 6) (n : BitVec 13) (s : State) : Host.Outcome State Fault Refusal :=
  issue (gateMfs a n) (fun s => s.fly 1 .c (.s a (s.sysGet n.toNat))) s

def State.gateMts (s : State) (a : BitVec 6) (n : BitVec 13) : Gate :=
  { Gate.c (.mts a n) [a] [] with
    bad := sysNone n, trap := trapIf (!s.t.sys.prv && sysRo n.toNat) 0x15 (n.setWidth 64) }

/-- MTS (R217): the write takes effect in the cycle after issue. -/
def execMts (a : BitVec 6) (n : BitVec 13) (s : State) : Host.Outcome State Fault Refusal :=
  issue (s.gateMts a n) (fun s => s.fly 1 .c (.sys n.toNat (s.sGet a))) s

/-- PHASE (R195). -/
def State.phaseNo (s : State) : W64 :=
  match s.t.task with
  | some t => if s.t.sys.ph then t.phase.setWidth 64 else 0
  | none => 0

def execPhase (a : BitVec 6) (s : State) : Host.Outcome State Fault Refusal :=
  issue (Gate.c (.phase a) [] [.s a]) (fun s => s.fly 1 .c (.s a s.phaseNo)) s

def State.gateStage (s : State) (b : BitVec 6) (imm : CImm) : Gate :=
  { Gate.c (.stage b imm) [b] [] with
    trap := trapIf ((s.sGet b + s.immOf imm).getLsbD 63) 0x02 (slotEnc (.stage b imm)) }

/-- STAGE (R203): a sum saturating at 2^32 − 1, in effect, for the entries that it releases too, in the cycle after issue. -/
def execStage (b : BitVec 6) (imm : CImm) (s : State) : Host.Outcome State Fault Refusal :=
  issue (s.gateStage b imm) (fun s =>
    let x := s.t.sys.stage.toNat + (s.sGet b + s.immOf imm).toNat
    s.fly 1 .c (.sys 6 (BitVec.ofNat 64 (min x (2 ^ 32 - 1))))) s

end Sys2Proof.Machine
end

