-- ==== Sys2Proof/Machine/Chains.lean ====
section
/-!
DEFINITION. Chains of float additions under a FREE native (spec 21 R325, 25 R360): the terms that an addition adds and the roundings
that the listing makes between them, and the sum that the native may form of them. Outside a FREE native every definition here leaves
the listing's results.
-/
namespace Sys2Proof.Machine
open Sys2Proof

/-! ## Terms and roundings -/

/-- One exact term. -/
def Part.one (v : Val) : Part := { terms := [v], rounds := [] }
def Part.negate (p : Part) : Part := { p with terms := p.terms.map Val.negate }

/-- Parts added: one after another, where all but the last addition round between terms, or all at once (R110). -/
def Part.join (rm t : Nat) (once : Bool) (ps : List Part) : Part :=
  { terms := ps.flatMap (·.terms)
    rounds := ps.flatMap (·.rounds) ++ List.replicate (if once then 0 else ps.length - 2) (rm, t) }

/-- Terms added in a free order, each sum left exact or rounded by a rounding of the listing that is still unused: `pick` chooses the
two addends and the rounding of every addition. -/
def mergeFree (rm : Nat) (pick : Nat → Nat) : Nat → List Val → List (Nat × Nat) → Val
  | 0, xs, _ => xs.foldl (Val.add rm) (.fin true 0 0)
  | n + 1, xs, rs =>
    match xs with
    | [] => .fin true 0 0
    | [x] => x
    | _ =>
      let i := pick (3 * n) % xs.length
      let ys := xs.eraseIdx i
      let j := pick (3 * n + 1) % ys.length
      let z := (xs.getD i (.fin true 0 0)).add rm (ys.getD j (.fin true 0 0))
      let k := pick (3 * n + 2) % (rs.length + 1)
      match rs[k]? with
      | some (m, t) => mergeFree rm pick n (roundVal t m z :: ys.eraseIdx j) (rs.eraseIdx k)
      | none => mergeFree rm pick n (z :: ys.eraseIdx j) rs

/-- The routine `dot4` (R360), whose FREE native of this release is known. -/
def dot4 : Routine :=
  { head := [0x00425852, 0x0001000A, 0, 0, 0x00010000, 0, 0x00000040, 0x00040000]
    words := [0x4C000000, 0x00800000, 0x48030000, 0x00000100, 0x48030000, 0x00000180, 0x60000000, 0x180FC000, 0x40000000, 0x40000000]
    hcws := [0x5E4A0026 <<< 224 ||| 0x0000218C <<< 192, 0x5E4B0027 <<< 224 ||| 0x0200618C <<< 192,
      0x564A0025 <<< 224 ||| 0x06000000 <<< 192 ||| 0x02000000 <<< 160, 0x40480028 <<< 224 ||| 0x0500B000 <<< 192] }

/-- What a FREE native makes of an addition that the listing rounds to x: of two plain terms nothing else; `dot4` sums the four
products in its `vadd`'s first element and rounds once, and leaves every other value as the listing's (R360); another native sums as
its program, a free value, has it (R325). -/
def State.freeValue (s : State) (n : Native) (op e rm t x : Nat) (p : Part) : State × Nat :=
  if p.terms.length ≤ 2 then (s, x)
  else if n.routine = dot4 then
    (s, if op = 0x40 ∧ e = 0 then fltRes t rm (p.terms.foldl (Val.add rm) (.fin true 0 0)) else x)
  else
    ({ s with fresh := s.fresh + 3 * p.terms.length },
      fltRes t rm (mergeFree rm (fun i => (Config.freeWord (s.fresh + i)).toNat) p.terms.length p.terms p.rounds))

/-! ## Chains -/

/-- The FREE native whose listing the bundle at hand belongs to; repetitions of the caller's bundles are not its own (R320). -/
def State.freeNative (s : State) : Option Native :=
  match s.t.ctl.native with
  | some n => if n.grade = 2 ∧ n.seq < s.bun.seq then some n else none
  | none => none

/-- What a chain has left still stands at its place: no other write has landed there since. -/
def Native.stands (n : Native) (c : Chain) : Bool :=
  match c.at_ with
  | .reg r => n.writers.contains (r, c.key)
  | .acc _ => true

/-- The part that left an encoding at a place. -/
def Native.find (n : Native) (at_ : ChainAt) (off bits : Nat) : Option Part :=
  (findFirst? (fun c : Chain => c.at_ == at_ && c.off == off && c.bits == bits && n.stands c) n.chains).map (·.part)

/-- The write that a slot makes in the repetition at hand. -/
def State.writeKey (s : State) (slot : Slot) : Nat × Nat × Nat := (s.bun.seq, slot.code, s.bun.rep)

def State.modNative (s : State) (f : Native → Native) : State := s.modCtl fun k => { k with native := k.native.map f }

/-- The registers that writes landing in their order take, under a FREE native. -/
def State.noteWriters (s : State) (fs : List Flight) : State :=
  s.modNative fun n =>
    if n.grade ≠ 2 then n
    else { n with writers := fs.foldl (fun l f => match f.eff.reg? with
        | some r => (r, (f.seq, f.slot, f.rep)) :: l.filter (·.1 != r)
        | none => l) n.writers }

/-- A register left empty holds none of the values that stood in it. -/
def State.dropWriters (s : State) : State := s.modNative fun n => { n with writers := n.writers.filter fun w => !s.emptyAt w.1 }

/-- An accumulator row takes a value that no beat adds to it. -/
def State.endRow (s : State) (row : BitVec 8) : State :=
  s.modNative fun n => { n with chains := n.chains.filter fun c => c.at_ != .acc row }

def State.noteChain (s : State) (c : Chain) : State := s.modNative fun n => { n with chains := c :: n.chains }

/-- The place of element e of width w in a register group. -/
def elemAt (op : Nat) (dk : BitVec 2) (r : BitVec 6) (w e : Nat) : ChainAt × Nat :=
  if op < 0x40 ∨ (op = 0x89 ∧ dk = 0) then (.reg (.s r), 0)
  else (.reg (.v (r + BitVec.ofNat 6 (e * w / 256))), e * w % 256)

/-- The part that element e of a source stands for. -/
def State.argPart (s : State) (n : Native) (op : Nat) (q : SlotOp) (x : Src) (t e bits : Nat) : Part :=
  let v := Part.one (modVal x (valOf t bits))
  if x.kind ≠ 0 ∨ x.abs = 1 then v
  else
    let r := if op < 0x40 then q.sReg x.num s.bun.rep else q.vReg x.num s.bun.rep
    let (at_, off) := elemAt op 1 r (tyWidth t) e
    match n.find at_ off bits with
    | some p => if x.neg = 1 then p.negate else p
    | none => v

/-- The parts that an element of an addition adds (R93, R103). -/
def State.sumParts (s : State) (n : Native) (op : Nat) (q : SlotOp) (e a b c : Nat) : List Part :=
  let t := q.h.ty.toNat
  let ab := Part.one ((modVal q.h.a (valOf t a)).mul (modVal q.h.b (valOf t b)))
  let pa := s.argPart n op q q.h.a t e a
  let pb := s.argPart n op q q.h.b t e b
  let pc := s.argPart n op q q.h.c t e c
  match op with
  | 0x27 | 0x40 => [pa, pb]
  | 0x28 | 0x41 => [pa, pb.negate]
  | 0x2A | 0x44 => [ab, pc]
  | 0x45 => [ab, pc.negate]
  | 0x46 => [ab.negate, pc]
  | _ => []

/-- The parts of the active ones among some elements of A (R124, R125). -/
def State.activeParts (s : State) (n : Native) (op : Nat) (q : SlotOp) (as es : List Nat) : List Part :=
  let t := q.h.ty.toNat
  (es.filter (active (s.maskBits q) (tyWidth t))).map fun e => s.argPart n op q q.h.a t e (as.getD e 0)

/-- The operation adds floats (R325). -/
def addsFloats (op : Nat) (q : SlotOp) : Bool :=
  op == 0x5E || (tyFloat q.h.ty.toNat && ([0x27, 0x28, 0x2A, 0x40, 0x41, 0x44, 0x45, 0x46].contains op ||
    ([0x89, 0x8A, 0x8B].contains op && q.h.aux.toNat % 8 == 0)))

/-- An element of a vector result that the slot's mask leaves as it stands (R73); a reduction's result is whole (R124). -/
def State.passive (s : State) (op : Nat) (q : SlotOp) (t e : Nat) : Bool :=
  decide (0x40 ≤ op) && op != 0x89 && !active (s.maskBits q) (tyWidth t) e

/-- One result x, of type t, under a FREE native: formed of the parts it adds, and noted. -/
def State.chainElem (s : State) (n : Native) (op : Nat) (q : SlotOp) (t e x : Nat) (ps : List Part) : State × Nat :=
  let rm := q.h.rm.toNat
  let (at_, off) := elemAt op q.h.dk (q.dst s.bun.rep) (tyWidth t) e
  let key := s.writeKey q.slot
  match ps with
  | [] => (s, x)
  | [p] => (if p.terms.length ≤ 1 then s else s.noteChain { at_, off, bits := x, part := p, key }, x)
  | ps =>
    let p := Part.join rm t (op == 0x5E) ps
    let (s, y) := s.freeValue n op e rm t x p
    (s.noteChain { at_, off, bits := y, part := { p with rounds := p.rounds ++ [(rm, t)] }, key }, y)

/-- Results from element e on, of type t, under a FREE native. -/
def State.chainFrom (s : State) (n : Native) (op : Nat) (q : SlotOp) (t : Nat) (ps : Nat → List Part) : Nat → List Nat →
    State × List Nat
  | _, [] => (s, [])
  | e, x :: xs =>
    let (s, y) := if s.passive op q t e then (s, x) else s.chainElem n op q t e x (ps e)
    let (s, ys) := s.chainFrom n op q t ps (e + 1) xs
    (s, y :: ys)

/-- The results of float additions: the listing's, or what a FREE native makes of their parts. -/
def State.chained (s : State) (op : Nat) (q : SlotOp) (parts : Native → Nat → List Part) (xs : List Nat) : State × List Nat :=
  match s.freeNative with
  | some n => if addsFloats op q then s.chainFrom n op q (if op = 0x5E then 8 else q.h.ty.toNat) (parts n) 0 xs else (s, xs)
  | none => (s, xs)

/-- A conversion between float types passes chains on, with one rounding more (R325). -/
def State.passChains (s : State) (op : Nat) (q : SlotOp) (as xs : List Nat) : State :=
  let (u, t) := (q.h.ty2.toNat, q.h.ty.toNat)
  match s.freeNative with
  | some n =>
    if tyFloat u && tyFloat t then
      (List.range xs.length).foldl (fun s e =>
        let p := s.argPart n op q q.h.a u e (as.getD e 0)
        let (at_, off) := elemAt op q.h.dk (q.dst s.bun.rep) (tyWidth t) e
        if p.terms.length ≤ 1 ∨ s.passive op q t e = true then s
        else s.noteChain
          { at_, off, bits := xs.getD e 0, part := { p with rounds := p.rounds ++ [(q.h.rm.toNat, t)] }, key := s.writeKey q.slot }) s
    else s
  | none => s

/-- Elements of width w that a vector result leaves as they stood hold what a chain had left in them. -/
def State.keepChains (s : State) (q : SlotOp) (w : Nat) (old : List Nat) : State :=
  match s.freeNative with
  | none => s
  | some n =>
    if q.h.z = 1 then s
    else (List.range old.length).foldl (fun s e =>
      let (at_, off) := elemAt 0x40 1 (q.dst s.bun.rep) w e
      match active (s.maskBits q) w e, n.find at_ off (old.getD e 0) with
      | false, some part => s.noteChain { at_, off, bits := old.getD e 0, part, key := s.writeKey q.slot }
      | _, _ => s) s

/-- The columns of a row from j on after a FREE native's beat: the row's part and the beat's terms, the listing rounding the beat's
sum and then the row's (R155, R325). -/
def State.rowSums (s : State) (row : BitVec 8) : Nat → List (List Val) → List Nat → State × List Nat
  | j, ts :: rest, x :: xs =>
    let old := ((s.t.ctl.native.bind fun n => n.find (.acc row) (32 * j) x)).getD (Part.one (valOf 8 x))
    let p : Part := { terms := old.terms ++ ts, rounds := old.rounds ++ [(0, 8)] }
    let n := p.terms.length
    let y := fltRes 8 0 (mergeFree 0 (fun i => (Config.freeWord (s.fresh + i)).toNat) n p.terms p.rounds)
    let s := { s with fresh := s.fresh + 3 * n }
    let s := s.noteChain { at_ := .acc row, off := 32 * j, bits := y, part := { p with rounds := p.rounds ++ [(0, 8)] } }
    let (s, ys) := s.rowSums row (j + 1) rest xs
    (s, y :: ys)
  | _, _, xs => (s, xs)

end Sys2Proof.Machine
end

