-- ==== Sys2Proof/Machine/Flags.lean ====
section
/-!
DEFINITION. The sticky conversion flags `sys.cvs` (spec 03 R52): how conversions over elements collect them and how they reach
the register when a result lands.
-/
namespace Sys2Proof.Machine
open Sys2Proof

/-- Flags ORed into `sys.cvs` (R52). -/
def State.orFlags (s : State) (f : BitVec 5) : State := s.modSys fun y => { y with cvs := y.cvs ||| f }

/-- Conversions of elements from number e on, with the flags of the active ones together (R107): `conv` gives an element's
encoding and flags. -/
def convAll (m w : Nat) (conv : Nat → Nat × BitVec 5) : Nat → List Nat → List Nat × BitVec 5
  | _, [] => ([], 0)
  | e, x :: xs =>
    let (ys, f) := convAll m w conv (e + 1) xs
    if active m w e then
      let (y, f') := conv x
      (y :: ys, f ||| f')
    else (0 :: ys, f)

end Sys2Proof.Machine
end

