-- ==== Sys2Proof/Machine/Matrix.lean ====
section
/-!
DEFINITION. The matrix beats (spec 08) and the landings in the accumulator rows and planes (R153, R155).
-/
namespace Sys2Proof.Machine
open Sys2Proof

/-! ## Planes and accumulator rows -/

/-- k values that a plane of a class holds (R144), and its rows. -/
def classK : PClass → Nat
  | .b4 => 256 | .b8 => 128 | .b16 => 64
def classRows : PClass → Nat
  | .b16 => 64 | _ => 128

/-- A row nothing has written: zero weights, integer bit set. -/
def PlaneRow.zero : PlaneRow := { int := true, w0 := [], w1 := [], bad := false }
def Plane.row (p : Plane) (r : Nat) : PlaneRow := spGet PlaneRow.zero p.rows r
def vZero : Val := .fin false 0 0

/-- The weight of column j at index k. -/
def Plane.weight (p : Plane) (k j : Nat) : Val :=
  if p.cls = .b4 then (if k % 2 = 0 then (p.row (k / 2)).w0 else (p.row (k / 2)).w1).getD j vZero
  else (p.row k).w0.getD j vZero

def AccRow.zero : AccRow := { i32 := false, satf := false, bad := false, vals := 0 }
def State.accRow (s : State) (r : BitVec 8) : AccRow := spGet AccRow.zero s.t.mat.acc r.toNat
def State.setAcc (s : State) (r : BitVec 8) (x : AccRow) : State :=
  s.modMat fun m => { m with acc := spSet AccRow.zero m.acc r.toNat x }

/-- A row of 128 columns of 32 bits. -/
def rowOf (xs : List Nat) : RowBits := BitVec.ofNat 4096 (joinE 32 xs)
def colsOf (x : RowBits) : List Nat := elems 32 128 x.toNat

/-! ## Landings (R151, R153, R155, R160) -/

/-- One landing folded into a row. -/
def AccRow.fold (a : AccRow) : AccUpd → AccRow
  | .init i32 vals => { i32, satf := false, bad := false, vals }
  | .beat op i32 t _ =>
    if i32 then
      let xs := (colsOf a.vals).zip (colsOf t) |>.map fun p => (signed 32 p.1, signed 32 p.2)
      if op = 0 ∨ op = 1 then
        let out := xs.any fun p => decide (p.1 + p.2 < intMin 4) || decide (intMax 4 < p.1 + p.2)
        { a with satf := a.satf || out, vals := rowOf (xs.map fun p => narrow 4 true (p.1 + p.2)) }
      else { a with vals := rowOf (xs.map fun p => wrapN 32 (if op = 2 then max p.1 p.2 else min p.1 p.2)) }
    else
      let f (p : Nat × Nat) : Nat :=
        let x := fltVal 8 p.1
        let y := fltVal 8 p.2
        if op = 0 ∨ op = 1 then fltRes 8 0 (x.add 0 y) else fltEnc 8 (if op = 2 then x.fmax y else x.fmin y)
      { a with vals := rowOf ((colsOf a.vals).zip (colsOf t) |>.map f) }

/-- The planes exchanged. -/
def Matrix.swapped (m : Matrix) : Matrix := { m with active := m.shadow, shadow := m.active }

/-- A decoded row written into the shadow plane, the plane first cleared to another class where the push says so (R148). -/
def Matrix.pushed (m : Matrix) (row : Nat) (r : PlaneRow) (clear : Option PClass) : Matrix :=
  let p : Plane := match clear with
    | some c => { cls := c, rows := [] }
    | none => m.shadow
  { m with shadow := { p with rows := spPut p.rows row r } }

/-! ## Weights and operands (R143-R147) -/

/-- The f32 factor times a weight, rounded once to the weight's format (R147). -/
def smoothed (t : Nat) (w : Val) (factor : Nat) : Val := valOf t (fltRes t 0 (w.mul (fltVal 8 factor)))

/-- Scratchpad ranges that row `r` of the head tile takes for column j: elements first, then scale bytes or factor. -/
def State.pushRanges (s : State) (rg : Ring) (r j : Nat) : List (Nat × Nat) :=
  let base := s.tileAt rg rg.head
  let aux := rg.aux * 256
  if is8bit rg.fmt then
    (base + j * 128 + r, 1) ::
      (if rg.sc = 1 then [(aux + rg.head * 512 + 4 * j + r / 32, 1)]
       else if rg.sm = 1 then [(aux + (128 * rg.head + r) * 4, 4)] else [])
  else if is16bit rg.fmt then
    (base + j * 128 + 2 * r, 2) :: (if rg.sm = 1 then [(aux + (64 * rg.head + r) * 4, 4)] else [])
  else if rg.fmt = 13 then [(base + j * 128 + r, 1), (aux + rg.head * 1024 + 8 * j + r / 16, 1)]
  else if rg.fmt = 14 then
    let b := s.buf (BitVec.ofNat 6 rg.aux)
    [(base + 48 * r, 48), (b.off + 16 * (r % (b.size / 16)), 16)]
  else
    let per := ftPer rg.fmt
    [(base + j / per * 256 + j % per * ftBytes rg.fmt, ftBytes rg.fmt), (aux + rg.head * 128 + j, 1)]

/-- The bytes of each range as a number. -/
def State.rangeVals (s : State) (rs : List (Nat × Nat)) : List Nat := rs.map fun r => s.scr r.1 r.2

/-- The weights of column j of a row: at k = r, or for the 4-bit class at 2r and 2r + 1; `table` is the ring's V16L
table. -/
def State.pushWeight (s : State) (rg : Ring) (table : List Byte) (r j : Nat) : Val × Val :=
  let xs := s.rangeVals (s.pushRanges rg r j)
  let x := xs.getD 0 0
  let y := xs.getD 1 0
  let t := rg.fmt
  if is8bit t ∨ is16bit t then
    let w := valOf t x
    (if rg.sc = 1 then w.shift ((y % 64 : Nat) - 32) else if rg.sm = 1 then smoothed t w y else w, vZero)
  else if t = 13 then
    let k : Int := (y % 64 : Nat) - 32
    ((q4val (y / 64) (x % 16)).shift k, (q4val (y / 64) (x / 16)).shift k)
  else if t = 14 then
    let e := y / 2 ^ (16 * (x / 2 ^ (3 * j) % 8)) % 2 ^ 16
    (valOf (s.ringEnt rg) (e % 2 ^ tyWidth (s.ringEnt rg)), vZero)
  else
    let w := ftWin t x r
    ((Val.ofInt (if y / 64 = 0 then v16h w else v16l table w)).shift ((y % 64 : Nat) - 32), vZero)

/-- The row's integer bit (R144). -/
def State.rowInt (s : State) (rg : Ring) : Bool := (rg.fmt == 0 && rg.sc == 0) || (rg.fmt == 14 && s.ringEnt rg == 0)

/-- The row of a push. -/
def State.pushRow (s : State) (rg : Ring) (table : List Byte) (r : Nat) : PlaneRow :=
  let ws := (List.range 128).map (s.pushWeight rg table r)
  { int := s.rowInt rg, w0 := ws.map (·.1), w1 := if rg.fmt = 13 then ws.map (·.2) else [], bad := false }

/-- Scratchpad ranges of stream row m: the row, then its scale bytes (R141). -/
def State.streamRanges (s : State) (rg : Ring) (m : Nat) : List (Nat × Nat) :=
  let base := s.tileAt rg rg.head
  if rg.fmt = 8 then [(base + m * 512, 512)]
  else
    (base + m * 128, 128) ::
      (if rg.fmt = 13 then [(rg.aux * 256 + (128 * rg.head + m) * 8, 8)]
       else if rg.sc = 1 then [(rg.aux * 256 + (128 * rg.head + m) * 8, 4)] else [])

/-- The operand row ξ. -/
def State.streamRow (s : State) (rg : Ring) (m : Nat) : List Val :=
  let xs := s.rangeVals (s.streamRanges rg m)
  let x := xs.getD 0 0
  let y := xs.getD 1 0
  let sb (k : Nat) : Nat := field y (8 * (k / 32)) 8
  if rg.fmt = 13 then
    ((elems 4 256 x).zip (List.range 256)).map fun p => (q4val (sb p.2 / 64) p.1).shift ((sb p.2 % 64 : Nat) - 32)
  else if is16bit rg.fmt then (elems 16 64 x).map (valOf rg.fmt)
  else
    ((elems 8 128 x).zip (List.range 128)).map fun p =>
      let v := valOf rg.fmt p.1
      if rg.sc = 1 then v.shift ((sb p.2 % 64 : Nat) - 32) else v

/-! ## A beat (R154, R155) -/

/-- L of R155: the k values that take part. -/
def State.kLimit (s : State) : Nat :=
  let kv := s.t.sys.kv.toNat
  let k := classK s.t.mat.active.cls
  if kv = 0 ∨ 64 < kv then k else min k (4 * kv)

/-- The rows of the active plane that a beat reads. -/
def State.beatRows (s : State) : Nat := if s.t.mat.active.cls = .b4 then (s.kLimit + 1) / 2 else s.kLimit

/-- The tag that row SA will hold when a beat issued now lands (R154). -/
def State.pendingTag (s : State) (row : BitVec 8) : Bool :=
  let tags := (s.t.q.placket ++ s.t.q.fly).filterMap fun f =>
    match f.eff with
    | .acc r (.init i32 _) => if r = row then some i32 else none
    | _ => none
  tags.getLastD (s.accRow row).i32

/-- A beat is of integer class (R154). -/
def State.beatInt (s : State) (rg : Ring) : Bool :=
  rg.fmt == 0 && rg.sc == 0 && (List.range s.beatRows).all fun r => (s.t.mat.active.row r).int

/-- The exact sum of terms, from −0 up (R155). -/
def sumVals (xs : List Val) : Val := xs.foldl (Val.add 0) (.fin true 0 0)

/-- One term. -/
def beatTerm (op : BitVec 2) (x w : Val) : Val :=
  if op = 0 then x.mul w else if op = 1 then (x.add 0 w.negate).abs else x.add 0 w

/-- S or t of R155 for one column, as 32 bits: an exact integer, or the sum rounded once to f32. -/
def beatCol (op : BitVec 2) (i32 : Bool) (terms : List Val) : Nat :=
  if i32 then
    let xs := terms.map Val.toInt
    wrapN 32 (if op = 0 ∨ op = 1 then xs.sum
      else if op = 2 then xs.foldl max (intMin 4) else xs.foldl min (intMax 4))
  else
    fltRes 8 0 (if op = 0 ∨ op = 1 then sumVals terms
      else if op = 2 then terms.foldl Val.fmax (.inf true) else terms.foldl Val.fmin (.inf false))

/-- The terms of a beat by column. -/
def State.beatTerms (s : State) (op : BitVec 2) (xi : List Val) : List (List Val) :=
  let xs := (xi.take s.kLimit).zip (List.range s.kLimit)
  (List.range 128).map fun j => xs.map fun p => beatTerm op p.1 (s.t.mat.active.weight p.2 j)

/-- The results of a beat for all columns. -/
def State.beatRow (s : State) (op : BitVec 2) (i32 : Bool) (xi : List Val) : RowBits :=
  rowOf ((s.beatTerms op xi).map (beatCol op i32))

/-! ## Gates -/

/-- Trap of an M slot with the ring as trap value (R162). -/
def ringTrap (c : Bool) (cause : BitVec 8) (g : BitVec 3) : Option Trap := trapIf c cause (g.setWidth 64) .m

/-- The head tile has no row left to read (R142). -/
def State.noRow (s : State) (rg : Ring) : Bool := rg.cnt == 0 || decide (s.ringRows rg ≤ rg.rpos)

/-- A scratchpad read of a beat meets a poisoned unit (R347). -/
def State.beatPoison (s : State) (rs : List (Nat × Nat)) : Option Trap :=
  match s.scrBadAt rs with
  | some a => some { cause := 0x0B, slot := .m, tval := a, sub := 0 }
  | none => none

/-- The plane that a push issued now will find as the shadow (R153). -/
def State.pushPlane (s : State) : Plane :=
  if (s.t.q.placket ++ s.t.q.fly).any fun f => f.eff == .swap && decide (f.due ≤ s.cyc + 1) then s.t.mat.active
  else s.t.mat.shadow

/-- The scale byte's own-window address of column j of a Fertite row. -/
def ftScaleAt (rg : Ring) (j : Nat) : Nat := rg.aux * 256 + rg.head * 128 + j

/-- The traps of a Fertite row's blocks: a reserved scale byte (R56), a V16L block without a table (R146). DESIGN CHOICE (log 93): of several
blocks that would trap, that of the lowest column is reported. -/
def State.ftTraps (s : State) (g : BitVec 3) (rg : Ring) : Option Trap :=
  if isFertite rg.fmt then
    firstOf (fun j =>
      let ty := s.scr (ftScaleAt rg j) 1 / 64
      let a := BitVec.ofNat 64 (ownBase + ftScaleAt rg j)
      if 2 ≤ ty then some { cause := 0x02, slot := .m, tval := a, sub := 0 : Trap }
      else if ty = 1 then
        match spGet V16.none s.t.mat.v16 g.toNat with
        | .none => some { cause := 0x02, slot := .m, tval := a, sub := 0 }
        | .failed c t _ => some { cause := c, slot := .m, tval := t, sub := 0 }
        | _ => none
      else none) (List.range 128)
  else none

/-- A V16L block is met while the ring's table load is in progress (R146). -/
def State.ftWaits (s : State) (g : BitVec 3) (rg : Ring) : Bool :=
  isFertite rg.fmt && !s.noRow rg &&
    (match spGet V16.none s.t.mat.v16 g.toNat with
      | .loading .. => (List.range 128).any fun j => s.scr (ftScaleAt rg j) 1 / 64 == 1
      | _ => false)

/-- The row that a beat reads lies in a tile command in the midst of its writes (R274). -/
def State.rowLocked (s : State) (rg : Ring) (rs : List (Nat × Nat)) : Bool := !s.noRow rg && s.engLocked none rs

def State.gateMpush (s : State) (g : BitVec 3) : Gate :=
  let rg := s.ring g
  let b := s.buf (BitVec.ofNat 6 rg.aux)
  { Gate.plain .m (.mpush g) with
    hold := (rg.role == 1 && ((rg.fmt == 14 && b.st != .full) || s.ftWaits g rg)) ||
      s.rowLocked rg (((List.range 128).map (s.pushRanges rg rg.rpos)).flatten)
    trap := firstTrap [
      ringTrap (rg.role == 0) 0x02 g,
      ringTrap (s.t.mat.clsSet && s.ringClass rg != some s.pushPlane.cls) 0x02 g,
      ringTrap (rg.fmt == 14 && decide (b.size < 16)) 0x02 g,
      ringTrap (s.noRow rg) 0x0F g,
      if s.noRow rg then none
      else s.beatPoison (((List.range 128).map (s.pushRanges rg rg.rpos)).flatten),
      if s.noRow rg then none else s.ftTraps g rg] }

def State.gateMstrm (s : State) (g : BitVec 3) (op : BitVec 2) (hold : BitVec 1) : Gate :=
  let rg := s.ring g
  let sa := s.t.sys.sa
  let rowBad := (List.range s.beatRows).any fun r => (s.t.mat.active.row r).bad
  { Gate.plain .m (.mstrm g op hold) with
    hold := s.rowLocked rg (s.streamRanges rg rg.rpos)
    trap := firstTrap [
      ringTrap (rg.role == 1 || rg.fmt == 8) 0x02 g,
      ringTrap (s.ringClass rg != some s.t.mat.active.cls) 0x02 g,
      ringTrap (s.pendingTag sa && !s.beatInt rg) 0x02 g,
      ringTrap (s.noRow rg) 0x0F g,
      s.beatPoison (s.streamRanges rg rg.rpos),
      trapIf rowBad 0x0B 0 .m] }

def State.gateMdrain (s : State) (adv scl : BitVec 1) (fmt : BitVec 2) (clr : BitVec 1) (quad : BitVec 4) (part : BitVec 2) :
    Gate :=
  let row := s.accRow s.t.sys.da
  { Gate.plain .m (.mdrain adv scl fmt clr quad part) with
    writes := vRegs (4 * quad.setWidth 6) 4
    trap := firstTrap [trapIf (scl == 1 && row.i32) 0x02 (slotEnc (.mdrain adv scl fmt clr quad part)) .m,
      trapIf row.bad 0x0B 0 .m] }

def State.gateMret (s : State) (g : BitVec 3) : Gate :=
  { Gate.plain .m (.mret g) with trap := ringTrap ((s.ring g).cnt == 0) 0x0F g }

def State.gateMskip (s : State) (g : BitVec 3) (n : BitVec 7) : Gate :=
  let rg := s.ring g
  { Gate.plain .m (.mskip g n) with trap := ringTrap (decide (s.ringRows rg < rg.rpos + n.toNat + 1)) 0x0F g }

def State.gateMscl (s : State) (g : BitVec 3) : Gate :=
  let rg := s.ring g
  { Gate.plain .m (.mscl g) with
    hold := s.rowLocked rg (s.streamRanges rg rg.rpos)
    trap := firstTrap [ringTrap (rg.role == 1 || rg.fmt != 8) 0x02 g, ringTrap (s.noRow rg) 0x0F g,
      s.beatPoison (s.streamRanges rg rg.rpos)] }

/-! ## Meanings -/

/-- A beat's ring read raises the owning core's lt to the stamp of its scratchpad (R267). -/
def State.ringTime (s : State) : State := { s with core := { s.core with lt := tmax s.core.lt s.core.st } }

/-- Scratchpad ranges are read by a unit of the core: correctable errors found in them are corrected (R368). -/
def State.fixRanges (s : State) (rs : List (Nat × Nat)) : State :=
  if s.soft.isEmpty then s else rs.foldl (fun s r => s.fixScratch s.core.id r.1 r.2) s

/-- RPOS moved (R152, R154, R157). -/
def State.toRow (s : State) (g : BitVec 3) (rpos : Nat) : State :=
  let rg := s.ring g
  s.setRing g (ringWith (s.ringReg g) rg.head rg.cnt rpos)

/-- NEXT of all 128 window registers (R146). -/
def State.setNext (s : State) (next : Nat) : State :=
  s.modRegs fun r => { r with wl := (List.range 128).foldl (fun wl j =>
    spSet 0 wl j (BitVec.ofNat 32 (setField (spGet 0 wl j).toNat 16 8 next))) r.wl }

/-- SA advanced unless held (R151, R154). -/
def State.advSA (s : State) (hold : BitVec 1) : State :=
  if hold = 1 then s else s.modSys fun y => { y with sa := y.sa + 1 }

/-- The initial column value of `mzero` (R151). -/
def initCol (op : BitVec 2) (i32 : BitVec 1) : Nat :=
  if i32 = 1 then (if op = 2 then 0x80000000 else if op = 3 then 0x7FFFFFFF else 0)
  else if op = 2 then 0xFF800000 else if op = 3 then 0x7F800000 else 0x80000000

def execMzero (op : BitVec 2) (hold i32 : BitVec 1) (s : State) : Host.Outcome State Fault Refusal :=
  issue (Gate.plain .m (.mzero op hold i32)) (fun s =>
    (s.fly 12 .m (.acc s.t.sys.sa (.init (i32 == 1) (rowOf (List.replicate 128 (initCol op i32)))))).advSA hold) s

/-- The window registers of a Fertite row just decoded (R146). -/
def State.setWindows (s : State) (rg : Ring) : State :=
  let i := rg.rpos
  let wls := (List.range 128).map fun j =>
    let xs := s.rangeVals (s.pushRanges rg i j)
    BitVec.ofNat 32 (pack [(16, ftWin rg.fmt (xs.getD 0 0) i), (8, (i + 1) % 256), (8, xs.getD 1 0)])
  s.modRegs fun r => { r with wl := ((List.range 128).zip wls).foldl (fun wl p => spSet 0 wl p.1 p.2) r.wl }

def execMpush (g : BitVec 3) (s : State) : Host.Outcome State Fault Refusal :=
  issue (s.gateMpush g) (fun s =>
    let rg := s.ring g
    let cls := (s.ringClass rg).getD .b8
    let table := match spGet V16.none s.t.mat.v16 g.toNat with
      | .ready bs => bs
      | _ => []
    let clear := if s.t.mat.clsSet = false ∧ cls ≠ s.pushPlane.cls then some cls else none
    let rp := s.t.sys.rp.toNat % classRows cls
    let s := s.fly 1 .m (.plane rp (s.pushRow rg table rg.rpos) clear)
    let s := if isFertite rg.fmt then s.setWindows rg else s
    let s := s.modMat fun m => { m with clsSet := true }
    let s := s.modSys fun y => { y with rp := BitVec.ofNat 7 ((rp + 1) % classRows cls) }
    (s.fixRanges (((List.range 128).map (s.pushRanges rg rg.rpos)).flatten)).ringTime.toRow g (rg.rpos + 1)) s

def execMflip (s : State) : Host.Outcome State Fault Refusal :=
  issue (Gate.plain .m .mflip) (fun s =>
    ((s.fly 2 .m .swap).modSys fun y => { y with rp := 0 }).modMat fun m => { m with clsSet := false }) s

def execMstrm (g : BitVec 3) (op : BitVec 2) (hold : BitVec 1) (s : State) : Host.Outcome State Fault Refusal :=
  issue (s.gateMstrm g op hold) (fun s =>
    let rg := s.ring g
    let i32 := s.pendingTag s.t.sys.sa
    let t := s.beatRow op i32 (s.streamRow rg rg.rpos)
    let terms := if op = 0 ∧ i32 = false ∧ s.freeNative.isSome then s.beatTerms op (s.streamRow rg rg.rpos) else []
    (((s.fly 12 .m (.acc s.t.sys.sa (.beat op i32 t terms))).fixRanges (s.streamRanges rg rg.rpos)).ringTime.toRow g
      (rg.rpos + 1)).advSA hold) s

/-- The converted element of a drained column, with its flags (R156). -/
def drainElem (i32 : Bool) (fmt : BitVec 2) (scl : BitVec 1) (a cs : Nat) : Nat × BitVec 5 :=
  if i32 then
    let x := Val.ofInt (signed 32 a)
    if fmt = 0 then (a, 0) else cvt x (if fmt = 1 then 2 else 0) 0 0 0 0
  else
    let x := if scl = 1 then (fltVal 8 a).mul (fltVal 8 cs) else fltVal 8 a
    if fmt = 0 then (fltRes 8 0 x, 0) else if fmt = 1 then cvt x 9 0 2 2 0 else cvt x 11 0 2 0 0

/-- The columns of CS; each holds 1.0 until written (R136). -/
def State.csCols (s : State) : List Nat := (List.range 128).map fun j => (spGet 0x3F800000 s.t.mat.cs j).toNat

def execMdrain (adv scl : BitVec 1) (fmt : BitVec 2) (clr : BitVec 1) (quad : BitVec 4) (part : BitVec 2) (s : State) :
    Host.Outcome State Fault Refusal :=
  issue (s.gateMdrain adv scl fmt clr quad part) (fun s =>
    let da := s.t.sys.da
    let row := s.accRow da
    let n := 32 * 2 ^ fmt.toNat
    let cols := ((colsOf row.vals).zip s.csCols).drop (part.toNat * n) |>.take n
    let es := cols.map fun p => drainElem row.i32 fmt scl p.1 p.2
    let fl := es.foldl (fun f e => f ||| e.2) (if row.satf then flagOvf else 0)
    let x := joinE (1024 / n) (es.map (·.1))
    let effs := vEffects (4 * quad.setWidth 6) x 4
    let s := s.results 4 .m false effs fl
    let s := if clr = 1 then
        s.setAcc da { row with satf := false, bad := false,
                               vals := rowOf (List.replicate 128 (if row.i32 then 0 else 0x80000000)) }
      else s
    if adv = 1 then s.modSys fun y => { y with da := y.da + 1 } else s) s

def execMret (g : BitVec 3) (s : State) : Host.Outcome State Fault Refusal :=
  issue (s.gateMret g) (fun s =>
    let rg := s.ring g
    let s := s.setRing g (ringWith (s.ringReg g) ((rg.head + 1) % rg.nt) (rg.cnt - 1) 0)
    if isFertite rg.fmt then s.setNext 0 else s) s

def execMskip (g : BitVec 3) (n : BitVec 7) (s : State) : Host.Outcome State Fault Refusal :=
  issue (s.gateMskip g n) (fun s =>
    let rg := s.ring g
    let s := s.toRow g (rg.rpos + n.toNat + 1)
    if isFertite rg.fmt then s.setNext (rg.rpos + n.toNat + 1) else s) s

def execMpad (kv : BitVec 7) (s : State) : Host.Outcome State Fault Refusal :=
  issue (Gate.plain .m (.mpad kv)) (fun s => s.modSys fun y => { y with kv }) s

def execMscl (g : BitVec 3) (s : State) : Host.Outcome State Fault Refusal :=
  issue (s.gateMscl g) (fun s =>
    let rg := s.ring g
    let x := s.scr (s.tileAt rg rg.head + rg.rpos * 512) 512
    ((s.fly 1 .m (.cs (BitVec.ofNat 4096 x))).fixRanges (s.streamRanges rg rg.rpos)).ringTime.toRow g (rg.rpos + 1)) s

end Sys2Proof.Machine
end

