-- ==== Sys2Proof/Machine/Land.lean ====
section
/-!
DEFINITION. What lands at the start of a cycle: fixed-latency results (spec 02 R23, R27, 03 R52), accumulator rows and plane
swaps (08 R153, R155), Yoke latches (14 R261), divides (05 R89), random bits (07 R129), caught effects replayed (22 R331).
-/
namespace Sys2Proof.Machine
open Sys2Proof

/-- The flights due by a cycle that a test picks, oldest first, and the state without them. -/
def State.takeBy (s : State) (by_ : Nat) (p : Effect → Bool) : State × List Flight :=
  let due (f : Flight) : Bool := decide (f.due ≤ by_) && p f.eff
  (s.modQ fun q => { q with fly := q.fly.filter fun f => !due f }, s.t.q.fly.filter due)

/-- The flights due by now; in a frozen task those due before F (R329). -/
def State.takeDue (s : State) (p : Effect → Bool) : State × List Flight := s.takeBy s.landBy p

/-- The V16L copy of a ring whose register has just been written (R146). -/
def State.v16Start (s : State) (x : W64) (l : Time) : V16 :=
  let r := ringOf x
  if isFertite r.fmt && fwValid s.fws r.fw && fwFmt s.fws r.fw == r.fmt && fwTable s.fws r.fw != 0 then
    .loading (BitVec.ofNat 64 (fwTable s.fws r.fw)) l
  else .none

/-- A long-latency result written and its register full (R24). -/
def State.fill (s : State) (r : RegId) (x : Nat) : State := (s.rPut r x).setEmpty r false

/-- A change of every task span: on the cores and in the images. -/
def State.everySpan (s : State) (f : TaskSpan → TaskSpan) : State :=
  { s with
    core := { s.core with t := f s.core.t }
    others := s.others.map fun c => { c with t := f c.t }
    images := s.images.map fun p => (p.1, f p.2) }

/-- Accesses through a handle's image that meet a test on what they captured take new words; `drop` says that every tile has been
converted, so that an element reads its new storage (R246). -/
def LdElem.redirect (img : Nat) (test : Handle → Bool) (new : List W64) (drop : Bool) (l : LdElem) : LdElem :=
  match l.from_ with
  | some (i, ws, x) =>
    if i = img ∧ test (handleOf ws) = true then
      let l := { l with from_ := some (img, new, x) }
      if drop then
        { l with
          alt := none
          pieces := match l.alt with
            | some (_, _, ps) => ps
            | none => [] }
      else l
    else l
  | none => l

/-- The pending handle accesses of a task follow a change of the handle's image (R245, R246). -/
def TaskSpan.redirect (img : Nat) (test : Handle → Bool) (new : List W64) (drop : Bool) (t : TaskSpan) : TaskSpan :=
  let op (x : CqEntry) : CqEntry := match x.op with
    | .hstore i ws es => if i = img ∧ test (handleOf ws) = true then { x with op := .hstore img new es } else x
    | .load d a n k es sp => { x with op := .load d a n k (es.map (·.redirect img test new drop)) sp }
    | _ => x
  { t with
    q := { t.q with cq := t.q.cq.map op }
    eng := { t.eng with cpq := t.eng.cpq.map fun q =>
      if q.img = img ∧ test (handleOf q.handle) = true then { q with handle := new } else q } }

/-- Two handles lay the same tensor out in the same storage. -/
def Handle.sameRoom (h k : Handle) : Bool :=
  h.base == k.base && h.tag == k.tag && h.fmt == k.fmt && h.rank == k.rank && h.raw == k.raw

/-- A handle's image takes new words (R213, R243). Accesses issued before a conversion begins find it, whatever else of the handle has
been set again since: none writes old storage once the engine has read its tile, and a read sees an earlier write that waits (R245). -/
def State.putWords (s : State) (pa : Nat) (ws : List W64) : State :=
  let old := s.rdWords pa 8
  let s := (s.coreWrite (.glob pa false none) (ws.flatMap fun w => leBytes 8 w.toNat) s.core.lt).1
  if (ws.getD 1 0).getLsbD 19 ∧ (old.getD 1 0).getLsbD 19 = false then
    s.everySpan (·.redirect pa (fun h => !h.cv && h.sameRoom (handleOf ws)) ws false)
  else s

/-- A beat reads the row that it adds to: a correctable error found there is corrected (R368). -/
def State.fixRow (s : State) (row : BitVec 8) (u : AccUpd) : State :=
  match u with
  | .beat .. => s.correct fun x => x == (s.core.id, .accRow row)
  | .init .. => s

/-- A landing in a row; what a FREE native's beat adds it may add in another order (R325). -/
def State.landRow (s : State) (row : BitVec 8) (u : AccUpd) : State :=
  let s := s.fixRow row u
  match u with
  | .beat _ _ _ (t :: ts) =>
    let a := s.accRow row
    let (s, xs) := s.rowSums row 0 (t :: ts) (colsOf a.vals)
    s.setAcc row { a with vals := rowOf xs }
  | u => (s.setAcc row ((s.accRow row).fold u)).endRow row

/-- The planes are exchanged, with the correctable errors that stand in them (R153, R368). -/
def State.flip (s : State) : State :=
  let other (p : EccPlace) : EccPlace := match p with
    | .activeRow n => .shadowRow n
    | .shadowRow n => .activeRow n
    | p => p
  { s.modMat Matrix.swapped with soft := s.soft.map fun x => if x.1 = s.core.id then (x.1, other x.2) else x }

/-- One effect taking place. -/
def State.applyEff (s : State) (e : Effect) : State :=
  match e with
  | .nothing => s
  | .s n x => s.sPut n x
  | .v n x => s.vPut n x
  | .k n x => s.kPut n x
  | .x key x => s.modRegs fun r => { r with x := spSet 0 r.x key x }
  | .acc row u => s.landRow row u
  | .plane row r clear => s.modMat (·.pushed row r clear)
  | .swap => s.flip
  | .cs x => s.modMat fun m => { m with cs := ((List.range 128).zip (colsOf x)).foldl (fun cs p =>
      spSet 0x3F800000 cs p.1 (BitVec.ofNat 32 p.2)) m.cs }
  | .sys n x => s.sysPut n x
  | .ring g x l => (s.setRing g x).modMat fun m => { m with v16 := spSet V16.none m.v16 g.toNat (s.v16Start x l) }
  | .buf b w0 w1 => s.setBuf b { w0, w1, st := .free }
  | .handle pa ws => s.putWords pa ws
  | .latch off x bad t =>
    State.modEng { s with core := s.core.scrWrite off (leBytes 128 x.toNat) bad t } fun e => e.noteTime 3 t
  | .tagged r t => s.tagFill r t
  | .fill n x => s.fill (.s n) x.toNat

/-- Flights landed in order, their flags ORed after them (R27, R52). -/
def State.landAll (s : State) (fs : List Flight) : State :=
  let s := fs.foldl (fun s f => s.applyEff f.eff) s
  s.orFlags (fs.foldl (fun x f => x ||| f.flags) 0)

def Effect.isSys : Effect → Bool
  | .sys .. => true
  | _ => false
def Effect.isAcc : Effect → Bool
  | .acc .. => true
  | _ => false
def Effect.isSwap : Effect → Bool
  | .swap => true
  | _ => false
def Effect.isLatch : Effect → Bool
  | .latch .. => true
  | _ => false

/-- Results that land in registers, planes, CS, rings, buffers, handles and system registers: an `mts` first, then the others,
then the flags (R52). -/
def State.landResults (s : State) : State :=
  let (s, ws) := s.takeDue Effect.isSys
  let s := ws.foldl (fun s f => s.applyEff f.eff) s
  let (s, fs) := s.takeDue fun e => !(e.isAcc || e.isSwap || e.isLatch)
  s.landAll fs

def State.landAcc (s : State) : State :=
  let (s, fs) := s.takeDue Effect.isAcc
  s.landAll fs

def State.landSwap (s : State) : State :=
  let (s, fs) := s.takeDue Effect.isSwap
  s.landAll fs

/-- A latch's bytes lie where a tile command in the midst of its writes keeps them locked: it lands after that (R274). -/
def State.latchWaits (s : State) (e : Effect) : Bool :=
  match e with
  | .latch off .. => s.engLocked none [(off, 128)]
  | _ => false

/-- Latched bytes are written in the cycle they are due, so that what reads the scratchpad sees them from the next cycle on
(R143, R261). -/
def State.landLatch (s : State) : State :=
  let (s, fs) := s.takeBy (min s.landBy (s.cyc - 1)) fun e => e.isLatch && !s.latchWaits e
  s.landAll fs

/-- Caught effects whose offset after the resume has come join the results in flight (R331). -/
def State.replayPlacket (s : State) : State :=
  let due := s.t.q.placket.filter fun f => decide (f.due ≤ s.cyc)
  s.modQ fun q =>
    { q with placket := q.placket.filter (fun f => !decide (f.due ≤ s.cyc)), fly := due.foldl (fun l f => flyInsert f l) q.fly }

/-- Everything due, in the order of a cycle's start. -/
def State.land (s : State) : State := s.replayPlacket.landSwap.landResults.landAcc.landLatch

/-! ## Meanings -/

/-- RESULT_LANDING (R23). -/
def execResultLanding (s : State) : Host.Outcome State Fault Refusal := .next s.landResults

/-- ACCUMULATOR_ROW_LANDING (R155). -/
def execAccumulatorRowLanding (s : State) : Host.Outcome State Fault Refusal := .next s.landAcc

/-- PLANE_SWAP (R153). -/
def execPlaneSwap (s : State) : Host.Outcome State Fault Refusal := .next s.landSwap

/-- YOKE_LATCH_WRITE (R261). -/
def execYokeLatchWrite (s : State) : Host.Outcome State Fault Refusal := .next s.landLatch

/-- PLACKET_REPLAY (R331). -/
def execPlacketReplay (s : State) : Host.Outcome State Fault Refusal := .next s.land

/-- The oldest divide completes (R89). -/
def State.finishDivide (s : State) : State :=
  match s.t.q.divs with
  | [] => s
  | d :: ds => (s.modQ fun q => { q with divs := ds }).fill (.s d.reg) d.val.toNat

/-- The oldest divide has run for n cycles, and its random bits, where it waits for some, have come (R68, R89). -/
def State.divideDue (s : State) (n : Nat) : Bool :=
  match s.t.q.divs with
  | [] => false
  | d :: _ => decide (d.start + (n : Int) ≤ (s.cyc : Int)) && decide (d.ready ≤ s.t.q.rqGen)

/-- DIVIDE_COMPLETE (R89): the oldest divide, once it has run for six cycles. -/
def execDivideComplete (s : State) : Host.Outcome State Fault Refusal :=
  if s.divideDue 6 then .next s.finishDivide else .next s

/-- Divides that have run for seventy cycles complete (R89). -/
def State.overdueDivides (s : State) : Nat → State
  | 0 => s
  | n + 1 => if s.divideDue 70 then s.finishDivide.overdueDivides n else s

/-- A register effect that fills its register. -/
def State.fillEff (s : State) (e : Effect) : State :=
  match e with
  | .s n x => s.fill (.s n) x.toNat
  | .v n x => s.fill (.v n) x.toNat
  | .k n x => s.fill (.k n) x.toNat
  | e => s.applyEff e

/-- Flags of a fill, to be ORed with this cycle's landings, after an `mts` that lands in it (R52); in a frozen task, whose results in flight
are caught, at once (R329). -/
def State.flagsDue (s : State) (f : BitVec 5) : State :=
  let x : Flight := { due := s.cyc, seq := s.t.ctl.seq, slot := 0, rep := 0, eff := .nothing, flags := f }
  let frozen := match s.t.ctl.freeze with
    | some z => decide (z.f ≤ s.cyc)
    | none => false
  if f = 0 then s else if frozen then s.orFlags f else s.modQ fun q => { q with fly := flyInsert x q.fly }

/-- Pending pops whose bits have all been generated fill their destinations (R68). -/
def State.fillPops (s : State) : Nat → State
  | 0 => s
  | n + 1 =>
    match s.t.q.rqPend with
    | [] => s
    | p :: ps =>
      if p.ready ≤ s.t.q.rqGen then
        let s := s.modQ fun q => { q with rqPend := ps }
        let s := p.effs.foldl State.fillEff s
        (s.flagsDue p.flags).fillPops n
      else s

/-- The generator's work of a cycle (R129): up to 1,024 new bits, at most 4,096 beyond POS, and the pops they complete. -/
def State.rqFill (s : State) : State :=
  let s := s.modQ fun q => { q with rqGen := min (q.rqGen + 1024) (q.rqUsed + 4096), rqCyc := s.cyc }
  s.fillPops s.t.q.rqPend.length

/-- The generator's work of a cycle in which no result in flight lands: the flags of the pops that it completes are ORed at once (R52,
R320, R366). -/
def State.rqFillAlone (s : State) : State :=
  let s := s.rqFill
  let (fs, rest) := s.t.q.fly.partition fun f => f.eff == .nothing && decide (f.due ≤ s.cyc)
  (fs.foldl (fun s f => s.orFlags f.flags) s).modQ fun q => { q with fly := rest }

/-- RANDOM_QUEUE_FILL (R129): once a cycle. -/
def execRandomQueueFill (s : State) : Host.Outcome State Fault Refusal :=
  if s.t.q.rqCyc < s.cyc then .next s.rqFill else .next s

end Sys2Proof.Machine
end

