-- ==== Sys2Proof/Machine/Records.lean ====
section
/-!
DEFINITION. Task records, context descriptors, groups and queues (spec 20 R296-R312): fields, checks, submission, the
decrement, enqueueing, fault-queue entries and the health counters that they move (27 R376).
-/
namespace Sys2Proof.Machine
open Sys2Proof

/-! ## Records (R300, R301) -/

/-- Word n of a record. -/
def State.recW (s : State) (r n : Nat) : Nat := (s.rd64 (r + 8 * n)).toNat
def State.recF (s : State) (r n lo len : Nat) : Nat := field (s.recW r n) lo len

def stIdle : Nat := 0
def stWaiting : Nat := 1
def stReady : Nat := 2
def stPlaced : Nat := 3
def stParked : Nat := 4
def stRetired : Nat := 5
def stFailed : Nat := 6
def stHeld : Nat := 7

def State.recSt (s : State) (r : Nat) : Nat := s.recF r 0 32 8
def State.setSt (s : State) (r st : Nat) : State := s.wrField r 32 8 st
def State.fcode (s : State) (r : Nat) : Nat := s.recF r 21 0 8
def State.setFcode (s : State) (r c : Nat) : State := s.wrField (r + 8 * 21) 0 8 c
def State.recCtx (s : State) (r : Nat) : BitVec 12 := BitVec.ofNat 12 (s.recF r 5 16 12)
def State.gangSize (s : State) (r : Nat) : Nat := s.recF r 3 29 6 + 1

/-! ## Descriptors (R297) -/

def State.liveCtx (s : State) (ctx : BitVec 12) : Bool :=
  match spFind s.ctxs ctx.toNat with
  | some c => !c.closing
  | none => false

/-- LIVE of a context, moved by d. -/
def State.addLive (s : State) (ctx : BitVec 12) (d : Int) : State :=
  let a := s.descAt ctx + 8 * 58
  s.wrField a 32 32 (wrapN 32 ((s.rdField a 32 32 : Int) + d))

/-- CONV of a context, moved by d. -/
def State.addConv (s : State) (ctx : BitVec 12) (d : Int) : State :=
  let a := s.descAt ctx + 8 * 58
  s.wrField a 0 32 (wrapN 32 ((s.rdField a 0 32 : Int) + d))

/-- The current phase (R312). -/
def State.cp (s : State) (ctx : BitVec 12) : Nat := field (s.descWord ctx 55) 0 32

/-- The address of a phase's count. -/
def State.phaseAt (s : State) (ctx : BitVec 12) (p : Nat) : Nat :=
  match spFind s.ctxs ctx.toNat with
  | some c => c.pcbase + 4 * (p % 2 ^ c.pck)
  | none => 4 * p

def State.phaseCount (s : State) (ctx : BitVec 12) (p : Nat) : Nat := (s.rd32 (s.phaseAt ctx p)).toNat
def State.addPhase (s : State) (ctx : BitVec 12) (p : Nat) (d : Int) : State :=
  s.wr32 (s.phaseAt ctx p) (BitVec.ofInt 32 ((s.phaseCount ctx p : Int) + d))

/-- A fault-queue entry: record address and cause word; dropped with FQOVF where the queue is full (R297, R340, R382). -/
def State.faultEntry (s : State) (ctx : BitVec 12) (r : Nat) (cause : W64) : State :=
  match spFind s.ctxs ctx.toNat with
  | none => s
  | some c =>
    let d := s.descAt ctx
    let wp := s.rdField (d + 48) 32 32
    let rp := s.rdField (d + 56) 0 32
    if (wp + 2 ^ 32 - rp) % 2 ^ 32 = 2 ^ c.fqk then s.wrField (d + 56) 32 1 1
    else
      let s := s.wrWords (c.fqbase + 16 * (wp % 2 ^ c.fqk)) [BitVec.ofNat 64 r, cause]
      let s := s.wrField (d + 48) 32 32 ((wp + 1) % 2 ^ 32)
      s.msi 1

/-! ## Dies and cores in service (R370, R388, R389) -/

/-- The pilot die: the lowest-numbered die of the configuration record (R388). -/
def State.pilotDie (s : State) : Nat :=
  match s.sup.cfg with
  | some c => (findFirst? c.dies.getLsbD (List.range 64)).getD 0
  | none => 0

/-- A die is in service: none at S0, the pilot die at S1 (R389). -/
def State.dieUp (s : State) (d : Nat) : Bool :=
  decide (d < 64) && !s.sup.outDies.contains d &&
    (match s.sup.cfg with
      | some c => c.dies.getLsbD d
      | none => true) &&
    (decide (2 ≤ s.sup.level.toNat) || (s.sup.level == 1 && d == s.pilotDie))

def State.coreUp (s : State) (id : Nat) : Bool := s.dieUp (dieOf id) && !s.sup.outCores.contains id

/-! ## Submission (R302, R303) -/

/-- Bits of a word set, below `n`. -/
def countBits (x n : Nat) : Nat := ((List.range n).filter x.testBit).length

/-- Every field that R300 marks zero is zero. -/
def State.zeroFieldsOk (s : State) (r : Nat) : Bool :=
  [(0, 40, 24), (1, 57, 7), (2, 57, 7), (3, 51, 13), (5, 28, 36), (10, 32, 32), (11, 57, 7), (12, 13, 51), (13, 57, 7),
    (14, 57, 7), (15, 57, 7), (16, 57, 7), (17, 57, 7), (18, 57, 7), (19, 57, 7), (20, 48, 8), (21, 8, 56)].all
      (fun f => s.recF r f.1 f.2.1 f.2.2 == 0) &&
  (List.range 10).all fun i => s.recW r (22 + i) == 0

/-- FCODE of a record submitted from a context; 0 when accepted (R303). -/
def State.recCheck (s : State) (r : Nat) (ctx : BitVec 12) : Nat :=
  let st := s.recSt r
  let f := s.recF r
  let n := s.gangSize r
  let dmask := s.recW r 4
  let cmask := f 5 0 16
  let hint := f 3 19 10
  let ph := f 3 16 1
  let phase := f 10 0 32
  let pck := match spFind s.ctxs ctx.toNat with
    | some c => c.pck
    | none => 0
  if st ≠ stIdle ∧ st ≠ stRetired ∧ st ≠ stFailed then 1
  else if f 1 0 57 % 4 ≠ 0 ∨ f 2 0 57 % 32 ≠ 0 ∨ f 11 0 57 % 32 ≠ 0 ∨
      (List.range 6).any (fun i => f (14 + i) 0 57 % 4 != 0) = true then 2
  else if f 3 0 10 = 0 ∨ 512 < f 3 0 10 ∨ 4096 < f 12 0 13 then 3
  else if f 3 10 3 = 0 ∨ 5 ≤ f 3 10 3 then 4
  else if dmask = 0 ∨ cmask = 0 ∨
      (f 3 18 1 = 1 ∧ (dmask.testBit (dieOf hint) = false ∨ cmask.testBit (hint % 16) = false)) ∨
      (f 3 35 16 ≠ 0 ∧ (16 < n ∨ countBits cmask 16 < n)) ∨
      countBits dmask 64 * countBits cmask 16 < n then 5
  else if s.recCtx r ≠ ctx ∨ s.liveCtx ctx = false then 6
  else if (ph = 1 ∧ (phase < s.cp ctx ∨ s.cp ctx + 2 ^ pck ≤ phase)) ∨ (ph = 0 ∧ phase ≠ 0) then 7
  else if s.zeroFieldsOk r = false then 8
  else 0

/-- The home die of a record (R305). -/
def State.homeDie (s : State) (r : Nat) : Nat :=
  let dmask := s.recW r 4
  let hint := dieOf (s.recF r 3 19 10)
  if s.recF r 3 18 1 = 1 ∧ s.dieUp hint = true ∧ dmask.testBit hint = true then hint
  else
    match findFirst? (fun d => dmask.testBit d && s.dieUp d) (List.range 64) with
    | some d => d
    | none => (findFirst? dmask.testBit (List.range 64)).getD 0

/-- Format windows that are refused (R226). -/
def fwRefused (fws : List W64) : Nat :=
  ((List.range 16).filter fun n => !fwFieldsOk fws n).foldl (fun x n => x + 2 ^ n) 0

/-- What a placement takes from its context's descriptor for the context: the page table's root and the format windows, those that
are refused being recorded in CFGE (R226, R297). -/
def State.readDesc (s : State) (ctx : BitVec 12) : State :=
  match spFind s.ctxs ctx.toNat with
  | none => s
  | some c =>
    let d := s.descAt ctx
    let fws := s.rdWords (d + 512) 64
    let s := { s with ctxs := spPut s.ctxs ctx.toNat { c with ptroot := field (s.descWord ctx 1) 0 57, fws } }
    if s.rdField (d + 8 * 54) 0 16 = fwRefused fws then s else s.wrField (d + 8 * 54) 0 16 (fwRefused fws)

/-- A record in one of these states counts in LIVE (R297). -/
def liveSt (st : Nat) : Bool := st == stReady || st == stHeld || st == stPlaced || st == stParked

/-- A record takes a state; LIVE follows. -/
def State.toSt (s : State) (r st : Nat) : State :=
  let old := s.recSt r
  let s := s.setSt r st
  if liveSt old = liveSt st then s else s.addLive (s.recCtx r) (if liveSt st then 1 else -1)

/-- Gang members of a record with an image, that is, PARKED or faulted out (R332). -/
def State.imagesOf (s : State) (r : Nat) : List Nat :=
  let save := s.recF r 13 0 57
  (List.range (s.gangSize r)).filter fun m => (spFind s.images (save + m * 0x800000)).isSome

/-- A gang that holds Yoke slots (R260). -/
def State.yokeGang (s : State) (r : Nat) : Bool := s.recF r 3 35 16 != 0 && decide (1 < s.gangSize r)

/-- Level, queue and cycle of an entry that joins the ready queues now. -/
def State.newEntry (s : State) (r level : Nat) (parked : Bool) (member : Option Nat) : RqEntry :=
  { rcd := r, ctx := s.recCtx r, die := s.homeDie r, level, since := s.cyc, first := s.cyc, parked, member, spill := none }

/-- A task becomes READY or HELD at a logical time and enters its queue (R302, R305, R312). One that was faulted out resumes from
its images, with FCODE 0 (R340); one of a context that closes, or has closed since its submission, fails (R298). -/
def State.enqueue (s : State) (r : Nat) (t : Time) : State :=
  let ctx := s.recCtx r
  let gone := optAll (spFind s.subs r) (·.gone) && (spFind s.subs r).isSome
  if s.liveCtx ctx = false ∨ gone = true then (s.toSt r stFailed).setFcode r 0xF2
  else
    let parked := optAll (spFind s.subs r) (·.resumes) && (spFind s.subs r).isSome
    let held := s.recF r 3 16 1 == 1 && decide (s.cp ctx < s.recF r 10 0 32)
    let level := s.recF r 3 13 3
    let es := if parked && !s.yokeGang r then ((s.imagesOf r).filter fun m => !s.ready.any fun e => e.rcd == r && e.member == some m).map fun m =>
        s.newEntry r level true (some m)
      else [s.newEntry r level parked none]
    let s := (s.toSt r (if held then stHeld else stReady)).wrField (r + 8 * 20) 0 48 t.toNat
    if held then { s with helds := s.helds ++ es } else { s with ready := s.ready ++ es }

/-- The time of an operation at the memory-side unit of an address (R233). -/
def State.unitTime (s : State) (l : Time) (pa : Nat) : State × Time := s.engTime l pa true true

/-- A submission accepted: its place in their order; it resumes a faulted-out task from its images (R340). A phase task that its
phase counts already, from a submission in this context, is not counted again (R312). -/
def State.accept (s : State) (r : Nat) (ctx : BitVec 12) : State :=
  let old := (spFind s.subs r).bind fun u => if u.ctx = ctx.toNat then u.counted else none
  let p := s.recF r 10 0 32
  let ph := s.recF r 3 16 1 == 1
  let resumes := s.recSt r == stFailed && s.fcode r == 0xF0
  let s := if ph && old != some p then s.addPhase ctx p 1 else s
  let s := { s with
    subNo := s.subNo + 1
    subs := spPut s.subs r { order := s.subNo, ctx := ctx.toNat, counted := if ph then some p else old, resumes, gone := false } }
  s.setFcode r 0

/-- Submission at the record's unit: FCODE and the time it took (R302, R303). -/
def State.submit (s : State) (r : Nat) (ctx : BitVec 12) (l : Time) : State × Nat × Time :=
  let (s, t) := s.unitTime l r
  let c := s.recCheck r ctx
  if c = 1 then (s, c, t)
  else if c ≠ 0 then ((s.setSt r stFailed).setFcode r c, c, t)
  else
    let s := s.accept r ctx
    if s.recF r 0 0 32 = 0 then (s.enqueue r t, 0, t) else (s.setSt r stWaiting, 0, t)

/-- A decrement at the unit of an address; an underflow counts for a die (R191, R302). -/
def State.decrement (s : State) (pa die : Nat) (l : Time) : State × Time :=
  let (s, t) := s.unitTime l pa
  let x := (s.rd32 pa).toNat
  if x = 0 then (s.bump (dieCnt die 3) 1, t)
  else
    let s := s.wr32 pa (BitVec.ofNat 32 (x - 1))
    if pa % 256 = 0 ∧ x = 1 ∧ s.recSt pa = stWaiting then (s.enqueue pa t, t) else (s, t)

/-! ## Groups (R311) -/

def Group.zero : Group := { elig := 0, arr := 0, newm := 0, narr := 0, gen := 0, skip := 0, mem := [], tNow := none, tNext := none, tDone := none }

def groupKey (ctx : BitVec 12) (g : BitVec 6) : Nat := 64 * ctx.toNat + g.toNat
def State.group (s : State) (k : Nat) : Group := spGet Group.zero s.groups k
def State.setGroup (s : State) (k : Nat) (g : Group) : State := { s with groups := spSet Group.zero s.groups k g }

/-- Members of the next generation become members of the present one. -/
def GMember.promote (m : GMember) : GMember := if m.later then { m with later := false } else { m with arrived := false }

/-- What follows every operation on a group (R311); times carried move with the arrivals (R273). -/
def Group.settle (g : Group) : Group :=
  let g := if g.elig = 0 then
      { g with elig := g.newm, arr := g.narr, newm := 0, narr := 0, skip := g.skip + 1, mem := g.mem.map GMember.promote
               tNow := tjoins g.tNow g.tNext, tNext := none }
    else g
  if 0 < g.elig ∧ g.arr = g.elig then
    { g with gen := g.gen + 1, elig := g.elig + g.newm, arr := g.narr, newm := 0, narr := 0
             mem := g.mem.map GMember.promote, tDone := g.tNow, tNow := g.tNext, tNext := none }
  else g

def Group.find (g : Group) (r m : Nat) : Option GMember := findFirst? (fun x => x.rcd == r && x.m == m) g.mem

def Group.join (g : Group) (r m : Nat) : Group :=
  Group.settle { g with newm := g.newm + 1, mem := g.mem ++ [{ rcd := r, m, later := true, arrived := false }] }

def Group.leave (g : Group) (r m : Nat) : Group :=
  match g.find r m with
  | none => g
  | some x =>
    let g := { g with mem := g.mem.filter (· != x) }
    let g := if x.later then { g with newm := g.newm - 1, narr := if x.arrived then g.narr - 1 else g.narr }
      else { g with elig := g.elig - 1, arr := if x.arrived then g.arr - 1 else g.arr }
    g.settle

/-- An arrival that carries a time; the answer is the generation it awaits. -/
def Group.gbar (g : Group) (r m : Nat) (t : Time) : Group × Nat :=
  match g.find r m with
  | none => (g, g.gen + g.skip)
  | some x =>
    let mem := g.mem.map fun y => if y = x then { y with arrived := true } else y
    if x.later then (Group.settle { g with narr := g.narr + 1, mem, tNext := tjoin g.tNext t }, g.gen + g.skip + 1)
    else (Group.settle { g with arr := g.arr + 1, mem, tNow := tjoin g.tNow t }, g.gen + g.skip)

/-- The memory-side unit of the group table, a logged point (R311, R352). -/
def State.groupPoint (s : State) (ctx : BitVec 12) (g : BitVec 6) : Nat :=
  match spFind s.ctxs ctx.toNat with
  | some c => s.msPoint (c.gtab + 64 * g.toNat)
  | none => 0

end Sys2Proof.Machine
end

