-- ==== Sys2Proof/Machine/Perform.lean ====
section
/-!
DEFINITION. The core path at its points of performance (spec 09 R175-R177, R186, 10 R189-R193, 12 R228-R233): the oldest access
of the task is performed, and its destination fills or its failure is recorded.
-/
namespace Sys2Proof.Machine
open Sys2Proof

def State.popCq (s : State) : State := s.modQ fun q => { q with cq := q.cq.tail }

/-- An access performed once every logged unit that it reaches lets it (R355). -/
def State.atUnits (s : State) (kind : Nat) (units : List Nat) (f : State → State) : State :=
  match s.logUnits s.issuer kind units with
  | (s', true) => f s'.popCq
  | (_, false) => s

def State.pieceAway (s : State) (p : Piece) : Bool := s.placeAway p.at_
def State.pieceLocked (s : State) (p : Piece) : Bool := s.placeLocked p.at_ p.len

/-- A piece at which an access waits; one of another module to which no link is up waits for a link or for the module's loss (R385). -/
def State.pieceWaits (s : State) (p : Piece) : Bool := s.pieceAway p || s.pieceLocked p || s.farWaits [p]

/-- An access performed at its pieces; what lies at another module has gone there over a link. -/
def State.atPieces (s : State) (ps : List Piece) (f : State → State) : State :=
  if ps.any s.pieceWaits then s else s.atUnits 1 (s.unitsOf ps) fun s => f (s.sendFar ps)

/-- A write performed at its pieces, where no conversion keeps their lines locked (R244). -/
def State.atWrites (s : State) (ps : List Piece) (f : State → State) : State := if ps.any s.pieceBusy then s else s.atPieces ps f

/-! ## Loads (R175, R176, R181, R313) -/

/-- The pieces of a load element as its tile stands (R245). -/
def State.elemNow (s : State) (l : LdElem) : List Piece :=
  match l.alt, l.from_ with
  | some (p, bit, ps), _ => if s.bitOf p bit then ps else l.pieces
  | none, some (_, ws, x) =>
    let h := handleOf ws
    if h.cv || l.pieces.isEmpty then
      match bare (s.readPieces (vectorAcc .rd) (s.hAddr h x) (elemBytes h.fmt)) with
      | [] => l.pieces
      | ps => ps
    else l.pieces
  | none, none => l.pieces

/-- The bytes of a list of pieces, and whether any is poisoned. -/
def State.readPs (s : State) (ps : List Piece) : State × List Byte × Bool :=
  ps.foldl (fun (s, bs, bad) p =>
    let (s, b, x) := s.coreRead p.at_ p.len
    (s, bs ++ b, bad || x)) (s, [], false)

/-- What an element reads: what its unit has read already, or its pieces now (R265). -/
def State.readElem (s : State) (l : LdElem) : State × List Byte × Bool :=
  match l.got with
  | some (bs, bad) => (s, bs, bad)
  | none => s.readPs (s.elemNow l)

/-- A load's value filled into its destination. -/
def State.fillDst (s : State) (dst : LoadDst) (len x : Nat) : State :=
  match dst with
  | .s r sg => s.fill (.s r) (if sg then (BitVec.ofInt 64 (signed (8 * len) x)).toNat else x)
  | .v r n => ((List.range n).foldl (fun s i => s.fill (.v (r + BitVec.ofNat 6 i)) (x / 2 ^ (256 * i))) s)

/-- A destination left empty and marked (R176, R313). -/
def State.markDst (s : State) (dst : LoadDst) (cause : BitVec 8) (addr : W64) : State :=
  if dst.regs = [] then s else s.mark dst.regs cause addr

/-- The old value of the destination, for the elements that a gather leaves alone. -/
def State.dstVal (s : State) : LoadDst → Nat
  | .s _ _ => 0
  | .v r n => s.vGroup r n

/-- The bitmap byte that an element still asks. -/
def State.bitAsked (s : State) (l : LdElem) : Option Place :=
  match l.got, l.alt, l.from_ with
  | some _, _, _ => none
  | none, some (p, _, _), _ => some p
  | none, none, some (_, ws, x) => if (handleOf ws).cv then s.bitPlace ((handleOf ws).bitAt x).1 else none
  | none, none, none => none

/-- A bitmap byte is read, where its logged point lets it and nothing at its place makes it wait (R245, R274, R352, R355, R385). -/
def State.askBit (s : State) (p : Place) : Option State :=
  let ps : List Piece := [{ at_ := p, len := 1 }]
  if ps.any s.pieceWaits then none
  else
    match s.logUnits s.issuer 1 (s.unitsOf ps) with
    | (s', true) => some ((s'.sendFar ps).readBit (some p))
    | (_, false) => none

/-- The bits that a load's elements still ask are read in order; false where one waits. -/
def State.askBits (s : State) : List LdElem → State × List LdElem × Bool
  | [] => (s, [], true)
  | l :: ls =>
    match s.bitAsked l with
    | none =>
      let (s, ls, ok) := s.askBits ls
      (s, l :: ls, ok)
    | some p =>
      match s.askBit p with
      | none => (s, l :: ls, false)
      | some s' =>
        let l := { l with pieces := s.elemNow l, alt := none, from_ := none }
        let (s, ls, ok) := s'.askBits ls
        (s, l :: ls, ok)

/-- What is left of the oldest access of the task, which has begun: its intents stay granted (R395). -/
def State.setHead (s : State) (op : CoreOp) (locks : List Piece) : State :=
  s.modQ fun q => { q with cq := match q.cq with
    | e :: es => { e with op, locks, granted := true } :: es
    | [] => [] }

/-- A load is performed. DESIGN CHOICE (log 95): one that phase isolation refuses leaves its destination empty and marked with cause 0x19, a
speculative one (R181) too. -/
def State.performLoad (s : State) (dst : LoadDst) (addr : W64) (len : Nat) (keep : Bool) (elems : List LdElem)
    (spec : Bool) : State :=
  let ps := elems.flatMap s.elemNow
  if ps.any s.breach then s.popCq.markDst dst 0x19 addr
  else if ps.any s.pieceWaits then s
  else
    match s.askBits elems with
    | (s, es, false) => s.setHead (.load dst addr len keep es spec) []
    | (s, es, true) =>
      s.atPieces ((es.filter (·.got.isNone)).flatMap s.elemNow) fun s =>
        let (s, x, bad) := es.foldl (fun (s, x, bad) l =>
          let (s, bs, b) := s.readElem l
          (s, setField x (8 * l.off) (8 * bs.length) (ofLe bs), bad || b))
          (s, if keep then s.dstVal dst else 0, false)
        if bad then
          if spec then dst.regs.foldl (fun s r => s.tagFill r 1) s else s.markDst dst 0x0B addr
        else s.fillDst dst len x

/-- LOAD_RETURN (R175): the oldest access of the task, where it is a load. -/
def execLoadReturn (s : State) : Host.Outcome State Fault Refusal :=
  match s.t.q.cq with
  | { op := .load dst addr len keep elems spec, .. } :: _ => .next (s.performLoad dst addr len keep elems spec)
  | _ => .next s

/-! ## Atomics (R188-R190) -/

/-- The old word of an atomic, and whether it is poisoned. -/
def State.atomicOld (s : State) (p : Place) (n : Nat) : State × Nat × Bool :=
  match p with
  | .glob pa ms ft => (s.fixPlace (.glob pa ms ft) n, ofLe (s.rd pa n), s.badAt pa n)
  | p =>
    let (s, bs, bad) := s.coreRead p n
    (s, ofLe bs, bad)

/-- The word written back; an atomic that stores nothing takes its time at the home all the same (R229). -/
def State.atomicPut (s : State) (p : Piece) (op old : Nat) (v v2 : W64) (exempt : Bool) (lt : Time) : State :=
  match amoNew op p.len old v.toNat v2.toNat with
  | some x =>
    let s := (s.coreWrite p.at_ (leBytes p.len x) lt).1
    if exempt then s else s.tagWrite p
  | none =>
    match p.at_ with
    | .glob .. => (s.coreWrite p.at_ (leBytes p.len old) lt).1
    | _ => s

/-- The operation is exempt from phase isolation where it is performed (R313). -/
def exemptAt (op : Nat) : Place → Bool
  | .glob _ ms _ => ms && amoExempt op
  | _ => true

def State.performAmo (s : State) (e : CqEntry) (op : Nat) (dst : BitVec 6) (addr : W64) (at_ : Place) (size : Nat)
    (v v2 : W64) : State :=
  let p : Piece := { at_, len := size }
  let d : LoadDst := .s dst false
  let ex := exemptAt op at_
  if !ex && s.breach p then s.popCq.markDst d 0x19 addr
  else
    s.atWrites [p] fun s =>
      if s.writeFails at_ = some 0x0A then (s.fillDst d 8 0).deferFault addr 0x0A e.bun e.seq
      else
        let (s, old, bad) := s.atomicOld at_ size
        if bad then s.markDst d 0x0B addr
        else (s.atomicPut p op old v v2 ex e.lt).fillDst d 8 (amoOld op size old v2.toNat)

/-- AMO_RETURN (R189): the oldest access of the task, where it is the `amo` of these operands. -/
def execAmoReturn (a _b _c : BitVec 6) (sz : BitVec 1) (s : State) : Host.Outcome State Fault Refusal :=
  match s.t.q.cq with
  | e :: _ =>
    match e.op with
    | .amo op dst addr at_ size v v2 =>
      if dst = a ∧ size = amoBytes sz then .next (s.performAmo e op dst addr at_ size v v2) else .next s
    | _ => .next s
  | [] => .next s

/-! ## Posted operations (R177, R346) -/

/-- A posted operation's failure recorded; a walk that refused it has read the tables (R344, R346). -/
def State.failPosted (s : State) (e : CqEntry) (addr : W64) (sub : BitVec 8) (n : Nat := 1) : State :=
  (s.noteRefused addr.toNat n).deferFault addr sub e.bun e.seq

/-- One element stored, or its failure recorded. -/
def State.storeElem (s : State) (e : CqEntry) (k : AccKind) (x : StElem) : State :=
  match s.access s.xl k x.addr x.bytes.length with
  | .error c => s.failPosted e x.addr (subOf c) x.bytes.length
  | .ok ps =>
    if (bare ps).any s.breach then s.failPosted e x.addr 0x19
    else
      match firstOf (fun p : Piece => s.writeFails p.at_) (bare ps) with
      | some c => s.failPosted e x.addr c
      | none =>
        ((bare ps).foldl (fun (s, bs) p => (((s.coreWrite p.at_ (bs.take p.len) e.lt).1).tagWrite p, bs.drop p.len))
          (s.noteWalks ps, x.bytes)).1

/-- The pieces that a store's elements reach, but for the elements that phase isolation or their homes refuse, which are performed at
no point (R313, R354). -/
def State.storePieces (s : State) (k : AccKind) (xs : List StElem) : List Piece :=
  xs.flatMap fun x =>
    let ps := bare (s.readPieces k x.addr x.bytes.length)
    if ps.any (fun p => s.breach p || (s.writeFails p.at_).isSome) then [] else ps

/-- A posted store waits: for a PARKED member, for a tile command (R274), for a conversion (R244), or, one of several sectors of another
module that has not begun, while an open tray latch holds such writes (R395). -/
def State.storeWaits (s : State) (e : CqEntry) (k : AccKind) (xs : List StElem) : Bool :=
  let ps := s.storePieces k xs
  (!e.granted && s.quiesced ps) || ps.any fun p => s.pieceWaits p || s.pieceBusy p

/-- A posted store performed. -/
def State.performStore (s : State) (e : CqEntry) (k : AccKind) (xs : List StElem) : State :=
  if s.storeWaits e k xs then s else s.atPieces (s.storePieces k xs) fun s => xs.foldl (fun s x => s.storeElem e k x) s

/-- An element stored through a handle. -/
def State.hElemAt (s : State) (h : Handle) (x : List Nat × List Byte) : StElem := { addr := s.hAddr h x.1, bytes := x.2 }

/-- A handle store: each element goes where its tile stands now (R245); a bitmap that cannot be read fails the element, and one whose
logged point makes it wait answers none. -/
def State.hstoreElem (s : State) (e : CqEntry) (h : Handle) (x : List Nat × List Byte) : Option State :=
  match if h.cv then s.readSub (scalarAcc .rd 1) (h.bitAt x.1).1 1 else none with
  | some c => some (s.failPosted e (h.bitAt x.1).1 c)
  | none =>
    match if h.cv then s.bitPlace (h.bitAt x.1).1 else none with
    | some p => (s.askBit p).map fun s => s.storeElem e (vectorAcc .wr) (s.hElemAt h x)
    | none => some (s.storeElem e (vectorAcc .wr) (s.hElemAt h x))

/-- Pieces of one access leave for other modules, a flit for each sector that none has left for (R385). -/
def State.sendNew (s : State) (sent : List Nat) (ps : List Piece) : State × List Nat :=
  let new := (s.farSectors ps).filter fun k => !sent.contains k
  (new.foldl (fun s k => s.seamSend (256 * k)) s, sent ++ new)

/-- Elements of a handle store in order, and those that wait; `sent` names the far sectors that flits have left for. -/
def State.hstoreSome (s : State) (e : CqEntry) (h : Handle) (sent : List Nat) :
    List (List Nat × List Byte) → State × List (List Nat × List Byte)
  | [] => (s, [])
  | x :: xs =>
    let (s', sent') := s.sendNew sent (s.storePieces (vectorAcc .wr) [s.hElemAt h x])
    match s'.hstoreElem e h x with
    | some s' => s'.hstoreSome e h sent' xs
    | none => (s, x :: xs)

/-- The elements of a handle store in order; one that waits keeps the rest waiting. -/
def State.hstoreAll (s : State) (e : CqEntry) (img : Nat) (ws : List W64) (xs : List (List Nat × List Byte)) : State :=
  match s.hstoreSome e (handleOf ws) [] xs with
  | (s, []) => s.popCq
  | (s, rest) => s.setHead (.hstore img ws rest) e.locks

def State.performHstore (s : State) (e : CqEntry) (img : Nat) (ws : List W64) (xs : List (List Nat × List Byte)) : State :=
  let es := xs.map (s.hElemAt (handleOf ws))
  if s.storeWaits e (vectorAcc .wr) es then s else s.hstoreAll e img ws xs

/-- A `red` or `amov` (operation 8, a write that reads nothing, R190) at its point. -/
def State.performRed (s : State) (e : CqEntry) (op : Nat) (addr : W64) (size : Nat) (v v2 : W64) : State :=
  match s.access s.xl (scalarAcc .amo size) addr size with
  | .error c => s.popCq.failPosted e addr (subOf c) size
  | .ok [] => s.popCq
  | .ok (p :: _) =>
    let ex := exemptAt op p.1.at_
    if !ex && s.breach p.1 then s.popCq.failPosted e addr 0x19
    else
      match s.writeFails p.1.at_ with
      | some c => s.popCq.failPosted e addr c
      | none =>
        s.atWrites [p.1] fun s =>
          let s := s.noteWalks [p]
          if op = 8 then s.atomicPut p.1 op 0 v v2 ex e.lt
          else
            let (s, old, bad) := s.atomicOld p.1.at_ size
            if bad then s.failPosted e addr 0x0B else s.atomicPut p.1 op old v v2 ex e.lt

/-- The physical address of a counter or record, for its memory-side unit (R191, R192); a line with FT = 1 refuses it (R228). -/
def State.counterAt (s : State) (addr : W64) (n : Nat) : Except (BitVec 8) (Nat × List (Piece × TlbEntry)) :=
  match s.access s.xl (scalarAcc .wr 4) addr n with
  | .error c => .error (subOf c)
  | .ok ps =>
    match ps with
    | (p@{ at_ := .glob pa _ _, .. }, _) :: _ =>
      match s.writeFails p.at_ with
      | some c => .error c
      | none => if s.badAt pa n then .error 0x0B else .ok (pa, ps)
    | _ => .error 0x09

/-- lt raised to a time on acknowledgement (R229, R233). -/
def State.ack (s : State) (t : Time) : State := { s with core := { s.core with lt := tmax s.core.lt t } }

/-- An operation on a counter or record at its unit, of this module or, over a link, of another (R191, R192, R385). -/
def State.atCounter (s : State) (pa : Nat) (ps : List Piece) (f : State → State) : State :=
  if s.farWaits (ps.take 1) then s else s.atUnits 2 [s.msPoint pa] fun s => f (s.sendFar (ps.take 1))

def State.performDepdec (s : State) (e : CqEntry) (addr : W64) : State :=
  match s.counterAt addr 4 with
  | .error c => s.popCq.failPosted e addr c
  | .ok (pa, ps) =>
    s.atCounter pa (bare ps) fun s =>
      let (s, t) := (s.noteWalks ps).decrement pa (dieOf s.core.id % 64) s.core.lt
      s.ack t

def State.performSpawn (s : State) (e : CqEntry) (addr : W64) : State :=
  match s.counterAt addr 256 with
  | .error c => s.popCq.failPosted e addr c 256
  | .ok (pa, ps) =>
    s.atCounter pa (bare ps) fun s =>
      let (s, c, t) := (s.noteWalks ps).submit pa s.issuer.ctx s.core.lt
      let s := s.ack t
      if c = 0 then s else s.failPosted e addr 0x02

/-- The oldest access of the task performed, where it is posted. -/
def State.performPosted (s : State) (e : CqEntry) : State :=
  match e.op with
  | .load .. => s
  | .amo .. => s
  | .store xs scalar =>
    let n := match xs with
      | x :: _ => x.bytes.length
      | [] => 1
    s.performStore e (if scalar then scalarAcc .wr n else vectorAcc .wr) xs
  | .hstore img ws xs => s.performHstore e img ws xs
  | .red op addr size v v2 => s.performRed e op addr size v v2
  | .depdec addr => s.performDepdec e addr
  | .spawn addr => s.performSpawn e addr

/-- POSTED_OPERATION_PERFORM (R177). -/
def execPostedOperationPerform (s : State) : Host.Outcome State Fault Refusal :=
  match s.t.q.cq with
  | e :: _ => .next (s.performPosted e)
  | [] => .next s

/-- The oldest access of the task performed, whatever it is. -/
def State.performHead (s : State) : State :=
  match s.t.q.cq with
  | [] => s
  | e :: _ =>
    match e.op with
    | .load dst addr len keep elems spec => s.performLoad dst addr len keep elems spec
    | .amo op dst addr at_ size v v2 => s.performAmo e op dst addr at_ size v v2
    | _ => s.performPosted e

/-! ## Units of wide accesses (R265) -/

/-- A piece cut at naturally aligned units of `g` bytes. -/
def Piece.units (g : Nat) (p : Piece) : List Piece :=
  match p.at_ with
  | .own off => (cuts g off p.len).map fun c => { at_ := .own c.1, len := c.2 }
  | .gang m off => (cuts g off p.len).map fun c => { at_ := .gang m c.1, len := c.2 }
  | .glob pa ms ft => (cuts g pa p.len).map fun c => { at_ := .glob c.1 ms ft, len := c.2 }

/-- Two places in one unit. -/
def sameUnit (g : Nat) (p q : Place) : Bool :=
  match p, q with
  | .own a, .own b => a / g == b / g
  | .gang m a, .gang n b => m == n && a / g == b / g
  | .glob a _ _, .glob b _ _ => a / g == b / g
  | _, _ => false

/-- A load element unit by unit. -/
def State.splitElem (s : State) (g : Nat) (l : LdElem) : List LdElem :=
  match l.got, (s.elemNow l).flatMap (·.units g) with
  | none, p :: q :: ps =>
    ((p :: q :: ps).foldl (fun (o, out) (p : Piece) =>
      (o + p.len, out ++ [{ l with off := l.off + o, addr := l.addr + BitVec.ofNat 64 o, pieces := [p], alt := none, from_ := none }]))
      (0, [])).2
  | _, _ => [l]

/-- The bytes within which an access of the core path is performed whole: a sector for a scalar (R166), 32 for a vector. -/
def unitOf (scalar : Bool) : Nat := if scalar then 256 else 32

/-- The k-th unit of the oldest access, a load, is read ahead of the rest. -/
def State.unitLoad (s : State) (dst : LoadDst) (addr : W64) (len : Nat) (keep : Bool) (elems : List LdElem) (spec : Bool) (k : Nat) :
    State :=
  let g := unitOf (match dst with
    | .s _ _ => true
    | .v _ _ => false)
  let us := elems.flatMap (s.splitElem g)
  match (us.filter (·.got.isNone))[k]? with
  | none => s
  | some u =>
    match s.elemNow u with
    | [] => s
    | p :: _ =>
      let mine (l : LdElem) : Bool := l.got.isNone && (s.elemNow l).all fun q => sameUnit g p.at_ q.at_
      let ps := us.flatMap s.elemNow
      if ps.any s.breach || ps.any s.pieceWaits || us.all (fun l => l.got.isSome || mine l) ||
          us.any (fun l => mine l && (s.bitAsked l).isSome && (s.logUnits s.issuer 1 (s.unitsOf ((s.bitAsked l).toList.map fun p =>
            { at_ := p, len := 1 }))).2 == false) then s
      else
        let (s', es) := us.foldl (fun ((s : State), out) l =>
          if mine l then
            let (s, es, _) := s.askBits [l]
            let (s, out') := es.foldl (fun (s, out) l =>
              let (s, bs, bad) := s.readElem l
              (s, out ++ [{ l with pieces := [], alt := none, from_ := none, got := some (bs, bad) }])) (s, [])
            (s, out ++ out')
          else (s, out ++ [l])) (s.sendFar ((us.filter mine).flatMap s.elemNow), [])
        s'.setHead (.load dst addr len keep es spec) []

/-- The scratchpad bytes that a vector store writes. -/
def lockOf (ps : List Piece) : List Piece :=
  ps.filter fun p => match p.at_ with
    | .glob .. => false
    | _ => true

/-- A store element unit by unit. -/
def StElem.units (g : Nat) (x : StElem) : List StElem :=
  (cuts g x.addr.toNat x.bytes.length).map fun c =>
    { addr := BitVec.ofNat 64 c.1, bytes := (x.bytes.drop (c.1 - x.addr.toNat)).take c.2 }

/-- Every check that could refuse an element of a store passes. -/
def State.storeFine (s : State) (k : AccKind) (xs : List StElem) : Bool :=
  xs.all fun x => match s.access s.xl k x.addr x.bytes.length with
    | .ok ps => !((bare ps).any s.breach) && (firstOf (fun p : Piece => s.writeFails p.at_) (bare ps)).isNone
    | .error _ => false

/-- The k-th unit of the oldest access, a store, is performed ahead of the rest; a vector store locks its scratchpad bytes until it is
whole (R274). -/
def State.unitStore (s : State) (e : CqEntry) (xs : List StElem) (scalar : Bool) (k : Nat) : State :=
  let g := unitOf scalar
  let n := match xs with
    | x :: _ => x.bytes.length
    | [] => 1
  let acc := if scalar then scalarAcc .wr n else vectorAcc .wr
  let us := xs.flatMap (StElem.units g)
  match us[k]? with
  | none => s
  | some u =>
    let mine (x : StElem) : Bool := x.addr.toNat / g == u.addr.toNat / g
    if s.storeWaits e acc xs || !s.storeFine acc xs || us.all mine then s
    else
      let locks := if e.locks.isEmpty && !scalar then lockOf (s.storePieces acc xs) else e.locks
      let s' := (us.filter mine).foldl (fun s x => s.storeElem e acc x) (s.sendFar (s.storePieces acc (us.filter mine)))
      s'.setHead (.store (us.filter fun x => !mine x) scalar) locks

/-- The k-th element of the oldest access, a handle store, and those of its unit are performed ahead of the rest. -/
def State.unitHstore (s : State) (e : CqEntry) (img : Nat) (ws : List W64) (xs : List (List Nat × List Byte)) (k : Nat) : State :=
  let h := handleOf ws
  match xs[k]? with
  | none => s
  | some u =>
    let mine (x : List Nat × List Byte) : Bool := (s.hAddr h x.1).toNat / 32 == (s.hAddr h u.1).toNat / 32
    let es := xs.map (s.hElemAt h)
    if s.storeWaits e (vectorAcc .wr) es || !s.storeFine (vectorAcc .wr) es || xs.all mine then s
    else
      let locks := if e.locks.isEmpty then lockOf (s.storePieces (vectorAcc .wr) es) else e.locks
      let (s', rest) := s.hstoreSome e h [] (xs.filter mine)
      s'.setHead (.hstore img ws (xs.filter fun x => rest.contains x || !mine x)) locks

/-- One unit of the oldest access is performed by itself (R265). -/
def State.vecUnit (s : State) (k : Nat) : State :=
  match s.t.q.cq with
  | [] => s
  | e :: _ =>
    match e.op with
    | .load dst addr len keep elems spec => s.unitLoad dst addr len keep elems spec k
    | .store xs scalar => s.unitStore e xs scalar k
    | .hstore img ws xs => s.unitHstore e img ws xs k
    | _ => s

/-! ## Tasks off their cores (R275, R329) -/

/-- Words 32 and 33 of a control block (R333). -/
def Dpf.words (d : Option Dpf) : List W64 :=
  match d with
  | none => [0, 0]
  | some d => [BitVec.ofNat 64 (pack [(57, d.addr.toNat), (5, 0), (1, d.more.toNat), (1, 1)]),
      BitVec.ofNat 64 (pack [(55, d.bun.toNat / 4), (1, 0), (8, d.sub.toNat)])]

/-- Cells of memory outside a range. -/
def memDrop (m : List Host.Cell) (a n : Nat) : List Host.Cell := m.filter fun c => !(decide (a ≤ c.1) && decide (c.1 < a + n))

/-- A range of memory whose listed bytes are those of a table. -/
def memOverlay (m : List Host.Cell) (a n : Nat) (src : Sp Byte) : List Host.Cell :=
  (src.filter (·.1 < n)).foldl (fun m c => memSet m (a + c.1) c.2) (memDrop m a n)

/-- The scratchpad section of an image (R332). -/
def State.writeScratch (s : State) (key : Nat) (t : TaskSpan) : State :=
  let a := key + 0x100000
  let n := (8 - t.sys.split.toNat) * 2 ^ 20
  { s.hwLines a n with
    mem := memOverlay s.mem a n t.scratch
    memBad := t.scratchBad.foldl (fun l k => markBad 256 l (a + 32 * k) 32) (clearBad 256 s.memBad a n) }

/-- The core behind the accesses of a task that is off its core (R275): its own caches and translations, under a number that no core
has, on the die it was placed on. -/
def ghostCore (t : TaskSpan) (lt : Time) : Core :=
  { Core.reset (1024 + optGet (t.task.bind fun k => k.cores[k.member]?)) with lt, t }
where
  optGet : Option Nat → Nat
    | some n => n
    | none => 0

/-- The oldest posted operation of an image's task performed while the task is off its core (R275, R329): the writer's times, failures
and own scratchpad stay with the task, and the image in memory follows them. -/
def State.imageStep (s : State) (key : Nat) : State :=
  match spFind s.images key with
  | none => s
  | some im =>
    let c := s.core
    let lt := tafter (BitVec.ofNat 48 (field (s.rd64 (key + 24)).toNat 0 48)) (spFind im.eng.pathT 0)
    let s' := { s with core := ghostCore im lt, others := c :: s.others }.performHead
    let t := { s'.core.t with eng := s'.core.t.eng.noteTime 0 s'.core.lt }
    match s'.others with
    | [] => s
    | c' :: os =>
      let u := { s' with core := c', others := os, images := spPut s'.images key t }
      let u := if t.ctl.dpf = im.ctl.dpf then u else u.wrWords (key + 256) (Dpf.words t.ctl.dpf)
      if t.scratch = im.scratch ∧ t.scratchBad = im.scratchBad then u else u.writeScratch key t

/-- Every access of the task performed, oldest first; the fuel is their number. -/
def State.drain (s : State) : Nat → State
  | 0 => s
  | n + 1 => s.performHead.drain n

end Sys2Proof.Machine
end

