-- ==== Sys2Proof/Machine/Routines.lean ====
section
/-!
DEFINITION. Routines (spec 21 R314-R326): `callr`, the lookup in its second delay bundle, native runs and the substitution table.
The bundles that a native drives are run in Turn.lean (log 12).
-/
namespace Sys2Proof

/-! ## Routines for which a native may exist (R315, R326) -/

/-- The canonical image of a routine (R315). -/
def Routine.image (r : Routine) : List Byte :=
  (r.head ++ r.words).flatMap (fun w => leBytes 4 w.toNat) ++ r.hcws.flatMap fun w => leBytes 32 w.toNat

/-- The digest of a routine (R315): the first 16 bytes of the SHA-512 of its image. -/
def Routine.digest (r : Routine) : BitVec 128 := BitVec.ofNat 128 (ofLe ((sha512 r.image).take 16))

/-- A control word reads `@cyc` (R67). -/
def readsCyc (op : Nat) (q : SlotOp) : Bool :=
  match opSpec op with
  | none => false
  | some sp => (sources op q sp).any fun (_, x, r) => r != .none && x.kind == 3 && x.num == 0

/-- An instruction of a listing for which no native exists (R326). -/
def BundleOp.noNative (o : BundleOp) : Bool :=
  match o.slot with
  | .c => [0x04, 0x05, 0x18, 0x19, 0x1A, 0x1B, 0x28, 0x29, 0x2A, 0x2B, 0x2C, 0x30, 0x31, 0x33, 0x34, 0x35, 0x36, 0x38, 0x39, 0x3A,
      0x3D, 0x3E].contains (o.enc.toNat / 2 ^ 26)
  | .w => [0x3, 0x4, 0x6, 0x9, 0xB].contains (o.enc.toNat / 2 ^ 12)
  | _ =>
    match o.i.bind Instr.hcw? with
    | some (op, q) => op == 0x2F || readsCyc op q
    | none => false

/-- The slots of a listing in their order, bundle after bundle from the first word on. -/
def listingOps (hcws : List W256) : Nat → List W32 → List BundleOp
  | 0, _ => []
  | k + 1, ws =>
    match ws with
    | [] => []
    | _ :: rest =>
      match decodeBundle 0 (ws.take 11) (fun i => hcws.getD i 0) 0 false with
      | .bundle b => b.ops ++ listingOps hcws k (ws.drop b.words)
      | .illegal _ => listingOps hcws k rest

/-- Some bundle of a listing holds such an instruction. -/
def Routine.barred (hcws : List W256) (k : Nat) (ws : List W32) : Bool := (listingOps hcws k ws).any (·.noNative)

/-- The control-word index of an S or V slot (R60). -/
def BundleOp.hcwIdx (o : BundleOp) : Option Nat :=
  match o.slot with
  | .s | .v0 | .v1 | .v2 => some (o.enc.toNat / 128 % 512)
  | _ => none

/-- Indices numbered from n in order of first use: the number after the last, where they are. -/
def firstUse : Nat → List Nat → Option Nat
  | n, [] => some n
  | n, i :: is => if i < n then firstUse n is else if i = n then firstUse (n + 1) is else none

/-- The parts are those of a canonical image (R314, R315): 32 bytes of the descriptor, its NB words and its NH control words, numbered in
order of first use. -/
def Routine.canonical (r : Routine) : Bool :=
  let (nb, nh) := ((r.head.getD 1 0).toNat % 65536, (r.head.getD 7 0).toNat / 65536)
  decide (r.head.length = 8 ∧ 0 < nb ∧ r.words.length = nb ∧ r.hcws.length = nh) &&
    firstUse 0 ((listingOps r.hcws nb r.words).filterMap (·.hcwIdx)) == some nh

/-- A native may exist for the entry (R319, R326): its digest is its routine's, no instruction of the listing bars it, a VALUE or
FREE native's footprint is a function of the registers at entry. An entry that is not valid names none; PROG lies in the program store in
every entry of an image. -/
def SubstEntry.ok (store : BitVec 32) (e : SubstEntry) : Bool :=
  e.grade != 3 && decide (e.prog.toNat < store.toNat) && (!e.valid || ((e.grade == 0 || e.fixed) && e.routine.canonical &&
    e.digest == e.routine.digest && !Routine.barred e.routine.hcws e.routine.words.length e.routine.words))

end Sys2Proof

namespace Sys2Proof.Machine
open Sys2Proof

/-! ## Descriptors (R314, R316) -/

/-- The 64 bytes of a descriptor as words, and the translation a fetch used; the fetch's SUB where it cannot be fetched. -/
def State.routineWords (s : State) (d : W64) : Except (BitVec 8) (List Nat × Option (Sp Byte × TlbEntry)) :=
  let words (l : Sp Byte) : List Nat :=
    (List.range 8).map fun i => ofLe ((List.range 8).map fun j => spGet 0 l (d.toNat % 256 + 8 * i + j))
  match s.iline d.toNat with
  | some l => .ok (words l, none)
  | none =>
    match s.fetchLine d.toNat with
    | .ok (l, e) => .ok (words l, some (l, e))
    | .error sub => .error sub

/-- The descriptor is refused. -/
def routineBad (w : List Nat) : Bool :=
  let d (i : Nat) : Nat := w.getD i 0
  field (d 0) 0 32 != 0x00425852 || field (d 7) 32 32 != 0x40000000 || field (d 0) 49 15 != 0 || field (d 6) 57 7 != 0 ||
    field (d 7) 0 32 != 0 || (d 1).testBit 0 || (d 1).testBit 63 || field (d 0) 32 16 == 0 ||
    decide (512 < field (d 3) 48 16) || field (d 3) 0 32 == 0

/-- The descriptor that a target names: after it the entry, or in its last word the free entry. -/
def descriptorOf (t : W64) : Option W64 :=
  if t.toNat % 64 = 0 then some (t - 64) else if t.toNat % 64 = 60 then some (t - 60) else none

/-- The checks of R316, in order. -/
def State.callrTrap (s : State) (t : W64) : Option Trap :=
  match descriptorOf t with
  | none => some { cause := 0x02, slot := .c, tval := t, sub := 0 }
  | some d =>
    match s.routineWords d with
    | .error sub => some { cause := 0x17, slot := .whole, tval := d, sub }
    | .ok (w, _) => if routineBad w then some { cause := 0x02, slot := .c, tval := d, sub := 0 } else none

/-- The registers that a descriptor names as results. -/
def resultRegs (outs outv : W64) : List RegId :=
  ((List.range 64).filter outs.getLsbD).map (fun n => .s (BitVec.ofNat 6 n)) ++
    ((List.range 64).filter outv.getLsbD).map (fun n => .v (BitVec.ofNat 6 n))

/-- What the lookup needs of a descriptor. -/
def callrWait (t d : W64) (w : List Nat) : CallrWait :=
  { digest := BitVec.ofNat 128 (w.getD 4 0 + 2 ^ 64 * w.getD 5 0), free := t.toNat % 64 == 60, sf := field (w.getD 0 0) 48 1 == 1
    entry := d + 64, nb := field (w.getD 0 0) 32 16, yd := field (w.getD 3 0) 0 32, outs := BitVec.ofNat 64 (w.getD 1 0), outv := BitVec.ofNat 64 (w.getD 2 0) }

/-- The call at hand: its descriptor read. -/
def State.callOf (s : State) (off : BitVec 16) : Option (CallrWait × Option (Sp Byte × TlbEntry) × W64) :=
  let t := s.near off
  match descriptorOf t with
  | none => none
  | some d =>
    match s.routineWords d with
    | .ok (w, l) => some (callrWait t d w, l, d)
    | .error _ => none

def State.gateCallr (s : State) (off : BitVec 16) : Gate :=
  let rs := match s.callOf off with
    | some (c, _) => resultRegs c.outs c.outv
    | none => []
  { Gate.c (.callr off) [] (.s 63 :: rs) with badTrap := s.callrTrap (s.near off) }

/-- CALLR (R316, R317): the link is written, the result registers become empty, and the lookup waits for the second delay
bundle. -/
def execCallr (off : BitVec 16) (s : State) : Host.Outcome State Fault Refusal :=
  issue (s.gateCallr off) (fun s =>
    match s.callOf off with
    | none => s
    | some (c, l, d) =>
      let s := match l with
        | some (line, e) => s.addLine d.toNat line e
        | none => s
      let (s, x) := s.link
      let s := (s.fly 1 .c (.s 63 x)).setEmpties (resultRegs c.outs c.outv) true
      s.modCtl fun k => { k with xfer := some { taken := true, target := s.near off, left := 2, callr := some c } }) s

/-! ## The lookup (R318) -/

def SubstTable.empty : SubstTable := { entries := [], wait := none, lookups := 0, hits := 0, rewinds := 0, fallbacks := 0 }
def State.substOf (s : State) (die : Nat) : SubstTable := spGet SubstTable.empty s.subst die
def State.modSubst (s : State) (die : Nat) (f : SubstTable → SubstTable) : State :=
  { s with subst := spSet SubstTable.empty s.subst die (f (s.substOf die)) }

/-- The entry that serves a call. -/
def SubstTable.hit (t : SubstTable) (c : CallrWait) : Option SubstEntry :=
  match findFirst? (fun e : SubstEntry => e.valid && e.digest == c.digest) t.entries with
  | some e => if e.grade ≠ 2 ∨ (c.free && c.sf) = true then some e else none
  | none => none

/-- The lookup of a pending `callr`: on a hit the native stands at the entry and the result registers stay empty; on a miss they are
full again. -/
def State.lookup (s : State) : State :=
  match s.t.ctl.xfer with
  | none => s
  | some x =>
    match x.callr with
    | none => s
    | some c =>
      let die := dieOf s.core.id
      let e := (s.substOf die).hit c
      let s := s.modSubst die fun t => { t with lookups := t.lookups + 1, hits := t.hits + if e.isSome then 1 else 0 }
      match e with
      | none =>
        (s.setEmpties (resultRegs c.outs c.outv) false).modCtl fun k => { k with xfer := some { x with callr := none } }
      | some e =>
        let n : Native := {
          grade := e.grade, entry := c.entry, routine := e.routine, outs := c.outs, outv := c.outv, yd := c.yd
          st := .point, due := 0, seq := s.t.ctl.seq, chains := [] }
        s.modCtl fun k => { k with xfer := some { x with callr := none, target := c.entry }, native := some n }

/-- SUBSTITUTION_LOOKUP (R318): as the second delay bundle issues; at any other time nothing is looked up. -/
def execSubstitutionLookup (s : State) : Host.Outcome State Fault Refusal :=
  match s.t.ctl.xfer with
  | some x => if x.left = 1 ∧ s.bun.issuing = true then .next s.lookup else .next s
  | none => .next s

/-! ## Native runs (R320-R324) -/

/-- The address lies in the native's listing. -/
def Native.holds (n : Native) (pc : W64) : Bool :=
  decide (n.entry.toNat ≤ pc.toNat) && decide (pc.toNat < n.entry.toNat + 4 * n.routine.words.length)

/-- The words of the listing from an address on. -/
def Native.wordsAt (n : Native) (pc : W64) : List W32 := n.routine.words.drop ((pc.toNat - n.entry.toNat) / 4)

/-- The bundle at an address of the listing is Y-marked (R15). -/
def Native.yAt (n : Native) (pc : W64) : Bool :=
  match n.wordsAt pc with
  | h :: _ => headerOk h.toNat && h.toNat / 2 ^ 15 % 2 == 1
  | [] => false

/-- The registers that the call names as results. -/
def Native.results (n : Native) : List RegId := resultRegs n.outs n.outv

def State.setNative (s : State) (n : Native) : State := s.modCtl fun c => { c with native := some n }

/-- A waiting table takes effect on a die on which no native runs, at S3 (R319). -/
def State.settleTable (s : State) (die : Nat) : State :=
  match (s.substOf die).wait with
  | none => s
  | some es =>
    let runs (c : Core) : Bool := dieOf c.id == die && c.t.ctl.native.isSome
    if s.sup.level ≠ 3 ∨ runs s.core = true ∨ s.others.any runs = true then s
    else s.modSubst die fun t => { t with entries := es, wait := none }

/-- The result registers as the listing leaves them where the native stands: full, but for those that it leaves empty there (R317, R320). -/
def State.ownResults (s : State) (n : Native) : State := s.setEmpties (n.results.filter fun r => !n.empty.contains r) false

/-- The native is over: the result registers are as the listing leaves them (R317, R320). -/
def State.endNative (s : State) : State :=
  match s.t.ctl.native with
  | none => s
  | some n => ((s.ownResults n).modCtl fun c => { c with native := none }).settleTable (dieOf s.core.id)

/-- A native goes back to the mapped point at which its run began, where the task's state stands (R323, R324): counted as a rewind of
an EXACT native, as a fallback of another. -/
def State.rewound (s : State) (n : Native) : State :=
  s.modSubst (dieOf s.core.id) fun t =>
    if n.grade = 0 then { t with rewinds := t.rewinds + 1 } else { t with fallbacks := t.fallbacks + 1 }

/-- A fault condition under a native: the listing runs on from its mapped point and raises the fault (R323); at a pre-empt request
the native stops there. -/
def State.dropNative (s : State) : State :=
  match s.t.ctl.native with
  | none => s
  | some n => if n.st = .last then (s.rewound n).setNative { n with st := .stopped } else (s.rewound n).endNative

/-- A pre-empt request reaches a core with a native (R324): one that can come to its next mapped point within YD cycles runs to it, any
other gives up what it has done since the last. -/
def State.stopNative (s : State) : State :=
  match s.t.ctl.native with
  | none => s
  | some n =>
    if n.st = .running then
      if n.due ≤ s.cyc + n.yd then s.setNative { n with st := .last }
      else (s.rewound n).setNative { n with st := .stopped }
    else if n.st = .point then s.setNative { n with st := .stopped }
    else s

/-- The native's held writes are performed, in the listing's issue order (R322). -/
def State.release (s : State) : State := s.drain s.t.q.cq.length

/-- NATIVE_RETURN (R320, R322): behind the listing's last bundle the held writes are performed, the result registers are full and the
native is over. While the native is on its way, its time is up: it makes its way in the core's next turn (log 12). -/
def execNativeReturn (s : State) : Host.Outcome State Fault Refusal :=
  match s.t.ctl.native with
  | some n =>
    if n.st = .ran ∧ n.holds s.t.ctl.pc = false then .next s.release.endNative
    else if n.st = .running then .next (s.setNative { n with due := min n.due s.cyc })
    else .next s
  | none => .next s

/-- MAPPED_POINT (R322): at a Y-marked bundle of an EXACT native's listing the held writes are performed; the result registers stay
empty. While the native is on its way, as at NATIVE_RETURN. -/
def execMappedPoint (s : State) : Host.Outcome State Fault Refusal :=
  match s.t.ctl.native with
  | some n =>
    if n.grade ≠ 0 then .next s
    else if n.st = .ran ∧ n.holds s.t.ctl.pc = true ∧ n.yAt s.t.ctl.pc = true then
      .next ((s.release.setEmpties n.results true).setNative { n with st := .point })
    else if n.st = .running then .next (s.setNative { n with due := min n.due s.cyc })
    else .next s
  | none => .next s

/-! ## The table (R319, R326) -/

/-- The Mantle accepts an image (R319): signed, at most 256 entries, each one fit, no two valid ones with one digest. -/
def tableOk (es : List SubstEntry) (store : BitVec 32) (signed : Bool) : Bool :=
  signed && decide (es.length ≤ 256) && decide ((es.filter (·.valid)).map (·.digest)).Nodup && es.all (·.ok store)

/-- SUBST_TABLE_LOAD (R319). -/
def execSubstTableLoad (die : BitVec 6) (image : TableImage) (signed : Bool) (s : State) :
    Host.Outcome State Fault Refusal :=
  if tableOk image.entries image.store signed then
    .next ((s.modSubst die.toNat fun t => { t with wait := some image.entries }).settleTable die.toNat)
  else .next s

end Sys2Proof.Machine
end

