-- ==== Sys2Proof/Machine/Sync.lean ====
section
/-!
DEFINITION. Barriers, groups, fences, the Yoke, buffers and their instructions in the C slot (spec 10 R196, R202, R204-R209, 14
R259-R261, 15 R272, R273, 20 R311).
-/
namespace Sys2Proof.Machine
open Sys2Proof

/-! ## Barriers (R204, R205) -/

def Bar.zero : Bar := { exp := 0, arr := 0, pend := 0, par := false, tNow := none, tDone := none }
def pendMax : Int := 2 ^ 40 - 1

/-- After an operation: the phase completes when every arrival and byte has come. -/
def Bar.settle (b : Bar) : Bar :=
  if b.arr = b.exp ∧ b.pend = 0 then { b with par := !b.par, arr := 0, tDone := b.tNow, tNow := none } else b

def Bar.expect (b : Bar) (n : Nat) : Bar := Bar.settle { b with pend := b.pend + n }
def Bar.arrive (b : Bar) (t : Time) : Bar := Bar.settle { b with arr := b.arr + 1, tNow := tjoin b.tNow t }
def Bar.init (b : Bar) (n : BitVec 16) : Bar := Bar.settle { b with exp := n, arr := 0 }
/-- A copy completion's subtraction (R259). -/
def Bar.credit (b : Bar) (n : Nat) (t : Time) : Bar := Bar.settle { b with pend := b.pend - n, tNow := tjoin b.tNow t }

/-- The core of a barrier: this core's, or a gang member's. -/
def State.barCore (s : State) (m : Option Nat) : Option Nat :=
  match m with
  | none => some s.core.id
  | some m => s.memberId m

def Core.bar (c : Core) (b : BitVec 6) : Bar := spGet Bar.zero c.t.eng.bars b.toNat
/-- A barrier changes; when its phase completes the core's lt rises to every time carried into it, so that its accesses see what
the phase counted (R259). -/
def Core.setBar (c : Core) (b : BitVec 6) (x : Bar) : Core :=
  { c with
    lt := if (c.bar b).par = x.par then c.lt else tafter c.lt x.tDone
    t := { c.t with eng := { c.t.eng with bars := spSet Bar.zero c.t.eng.bars b.toNat x } } }

/-- A barrier as it stands at its core. -/
def State.barAt (s : State) (m : Option Nat) (b : BitVec 6) : Bar :=
  match (s.barCore m).bind s.coreById with
  | some c => c.bar b
  | none => Bar.zero

/-- The member that an operation names. -/
def memberOf (g : BitVec 1) (m : BitVec 6) : Option Nat := if g = 1 then some m.toNat else none

/-- A barrier operation at its core, recorded there (R352). -/
def State.barOp (s : State) (m : Option Nat) (b : BitVec 6) (f : Bar → Bar) : State :=
  match s.barCore m with
  | none => s
  | some id => ((s.logPoint s.issuer (barPoint id) 4 0).1).updCore id fun c => c.setBar b (f (c.bar b))

/-- In replay the operation is not the barrier core's next (R355), or the member is PARKED (R329). -/
def State.barWaits (s : State) (m : Option Nat) : Bool :=
  optAll m s.memberParked && m.isSome ||
    match s.barCore m with
    | some id => !(s.logPoint s.issuer (barPoint id) 4 0).2
    | none => false

/-- The named member does not exist. -/
def State.noMember (s : State) (g : BitVec 1) (m : BitVec 6) : Option Trap :=
  trapIf (g == 1 && !s.hasMember m.toNat) 0x18 (m.setWidth 64)

def barTrap (c : Bool) (cause : BitVec 8) (b : BitVec 6) : Option Trap := trapIf c cause (b.setWidth 64)

/-- A check of a barrier's state, once its core holds the task. -/
def State.barCheck (s : State) (g : BitVec 1) (m a : BitVec 6) (p : Bar → Bool) (cause : BitVec 8) : Option Trap :=
  firstTrap [s.noMember g m, barTrap (p (s.barAt (memberOf g m) a)) cause a]

def State.gateExpect (s : State) (a b m : BitVec 6) (g : BitVec 1) : Gate :=
  { Gate.c (.expect a b m g) [b] [] with
    hold := s.barWaits (memberOf g m)
    trap := s.barCheck g m a (fun x => decide (pendMax < x.pend + (s.sGet b).toNat)) 0x0D }

def execExpect (a b m : BitVec 6) (g : BitVec 1) (s : State) : Host.Outcome State Fault Refusal :=
  issue (s.gateExpect a b m g) (fun s => s.barOp (memberOf g m) a fun x => x.expect (s.sGet b).toNat) s

/-- Every earlier core-path access of the task has been performed. -/
def State.coreDone (s : State) : Bool := s.t.q.cq.isEmpty

def State.gateArrive (s : State) (a m : BitVec 6) (g : BitVec 1) : Gate :=
  { Gate.c (.arrive a m g) [] [] with
    hold := !s.coreDone || s.barWaits (memberOf g m)
    trap := s.barCheck g m a (fun x => x.arr == x.exp) 0x0E }

/-- ARRIVE (R205, R273): a release, carrying the arriver's lt. -/
def execArrive (a m : BitVec 6) (g : BitVec 1) (s : State) : Host.Outcome State Fault Refusal :=
  issue (s.gateArrive a m g) (fun s => s.barOp (memberOf g m) a fun x => x.arrive s.core.lt) s

def State.gateArriveInit (s : State) (a b m : BitVec 6) (g : BitVec 1) : Gate :=
  { Gate.c (.arriveInit a b m g) [b] [] with
    hold := s.barWaits (memberOf g m)
    trap := s.barCheck g m a (fun x => x.arr != 0 || x.pend != 0) 0x0E }

def execArriveInit (a b m : BitVec 6) (g : BitVec 1) (s : State) : Host.Outcome State Fault Refusal :=
  issue (s.gateArriveInit a b m g) (fun s => s.barOp (memberOf g m) a fun x => x.init ((s.sGet b).setWidth 16)) s

/-! ## Groups (R206, R311) -/

/-- The running task's group, its record and member number. -/
def State.myGroup (s : State) (g : BitVec 6) : Nat × Nat × Nat :=
  match s.t.task with
  | some t => (groupKey t.ctx g, t.rcd, t.member)
  | none => (g.toNat, 0, 0)

def State.inGroup (s : State) (g : BitVec 6) : Bool :=
  let (k, r, m) := s.myGroup g
  ((s.group k).find r m).isSome

/-- In replay the operation is not the group table's next (R355). -/
def State.groupWaits (s : State) (g : BitVec 6) : Bool :=
  !(s.logPoint s.issuer (s.groupPoint s.issuer.ctx g) 3 0).2

/-- An operation on a group, recorded at the table's unit. -/
def State.groupOp (s : State) (g : BitVec 6) (f : Group → Nat → Nat → Group) : State :=
  let (k, r, m) := s.myGroup g
  let s := (s.logPoint s.issuer (s.groupPoint s.issuer.ctx g) 3 0).1
  s.setGroup k (f (s.group k) r m)

def State.gateJoin (s : State) (g : BitVec 6) : Gate :=
  let x := s.group (s.myGroup g).1
  { Gate.c (.join g) [] [] with
    hold := s.groupWaits g
    trap := barTrap (s.inGroup g || x.elig + x.newm == 65535) 0x18 g }

def execJoin (g : BitVec 6) (s : State) : Host.Outcome State Fault Refusal :=
  issue (s.gateJoin g) (fun s => s.groupOp g Group.join) s

def State.gateLeave (s : State) (g : BitVec 6) : Gate :=
  { Gate.c (.leave g) [] [] with hold := s.groupWaits g, trap := barTrap (!s.inGroup g) 0x18 g }

def execLeave (g : BitVec 6) (s : State) : Host.Outcome State Fault Refusal :=
  issue (s.gateLeave g) (fun s => s.groupOp g Group.leave) s

/-- The generation of the task's latest `gbar` on a group has completed; so it is before any `gbar` (R206). -/
def State.groupDone (s : State) (g : BitVec 6) : Bool :=
  match (spGet { await := none } s.t.eng.groups g.toNat).await with
  | none => true
  | some n =>
    let x := s.group (s.myGroup g).1
    decide (n < x.gen + x.skip)

def State.gateGbar (s : State) (g : BitVec 6) : Gate :=
  { Gate.c (.gbar g) [] [] with
    hold := !s.coreDone || !s.groupDone g || s.groupWaits g
    trap := barTrap (!s.inGroup g) 0x18 g }

/-- GBAR (R206, R311): a release, carrying lt; the generation it arrives at is remembered. -/
def execGbar (g : BitVec 6) (s : State) : Host.Outcome State Fault Refusal :=
  issue (s.gateGbar g) (fun s =>
    let (k, r, m) := s.myGroup g
    let n := ((s.group k).gbar r m s.core.lt).2
    let s := s.groupOp g fun x r m => (x.gbar r m s.core.lt).1
    s.modEng fun e => { e with groups := spPut e.groups g.toNat { await := some n } }) s

/-! ## Fences (R209, R272) -/

def CoreOp.posted : CoreOp → Bool
  | .load .. => false
  | .amo .. => false
  | _ => true

/-- A fence of scope SYSTEM reads through every port by which the task has posted writes (R270). DESIGN CHOICE (log 85): what the host's
caches do is not waited for. -/
def State.fenced (s : State) (scope : BitVec 3) : State :=
  if scope = 5 then s.modEng fun e => { e with portW := [] } else s

def State.gateFence (s : State) (scope : BitVec 3) (t : BitVec 1) : Gate :=
  { Gate.c (.fence scope t) [] [] with
    bad := decide (6 ≤ scope.toNat)
    hold := s.t.q.cq.any (·.op.posted)
    trap := trapIf (t == 1 && s.t.ctl.dpf.isSome) 0x11 0 }

/-- FENCE (R209): once it issues, every earlier posted operation is performed at every scope (R270). -/
def execFence (scope : BitVec 3) (t : BitVec 1) (s : State) : Host.Outcome State Fault Refusal :=
  issue (s.gateFence scope t) (fun s => s.fenced scope) s

/-- A conversion of this task that has halted (R247). -/
def State.convHalted (s : State) (c : Conv) : Bool := (handleOf' (s.rd64 (c.img + 8))).1
where
  /-- HALT and CV of a handle's word 1. -/
  handleOf' (w : W64) : Bool × Bool := (w.getLsbD 20, w.getLsbD 19)

/-- A conversion writes lines of another module: some sector of its new storage or of its bitmap, or its image, is homed there (R272). -/
def State.roomFar (s : State) (x : Xl) (img : Nat) (h : Handle) : Bool :=
  let far (pa : Nat) : Bool := !isPeer pa && !s.isLocal pa
  let farRange (a n : Nat) : Bool := (List.range (n / 256 + 2)).any fun i =>
    let va := min (a + 256 * i) (a + n - 1)
    match s.leafOf x va with
    | .ok e => far (e.pa + va % 2 ^ e.lg)
    | .error _ => false
  far img || farRange h.tbase (h.size h.ttag) || farRange h.cbmp (cdiv h.nTiles 8)

def State.convFar (s : State) (c : Conv) : Bool := s.roomFar (s.core.xl s.core.tlbY) c.img (handleOf (s.rdWords c.img 8))

/-- Operations outstanding on path i: C, Y, M, B, L, T, F. -/
def State.pathBusy (s : State) (i : Nat) : Bool :=
  match i with
  | 0 => !s.coreDone
  | 1 => !s.t.eng.cpq.isEmpty
  | 3 => (s.t.q.fly ++ s.t.q.placket).any fun f => match f.eff with
    | .latch .. => true
    | _ => false
  | 4 => s.t.eng.conv.any fun c => !s.convHalted c
  | 5 => !s.t.eng.ten.isEmpty
  | 6 => !s.coreDone || !s.t.eng.cpq.isEmpty || !s.t.eng.ten.isEmpty ||
      s.t.eng.conv.any fun c => !s.convHalted c && s.convFar c
  | _ => false

def pathsIn (p : BitVec 7) : List Nat := (List.range 7).filter p.getLsbD

def State.gateFencep (s : State) (scope : BitVec 3) (p q : BitVec 7) : Gate :=
  { Gate.c (.fencep scope p q) [] [] with
    bad := decide (6 ≤ scope.toNat) || p == 0 || q == 0
    hold := (pathsIn p).any s.pathBusy
    trap := trapIf (p.getLsbD 4 && s.t.eng.conv.any s.convHalted) 0x11 0 }

/-- FENCEP (R272): lt rises to the largest time assigned on the paths waited for (R266). -/
def execFencep (scope : BitVec 3) (p q : BitVec 7) (s : State) : Host.Outcome State Fault Refusal :=
  issue (s.gateFencep scope p q) (fun s =>
    let t := (pathsIn p).foldl (fun t i => tafter t (spFind s.t.eng.pathT i)) s.core.lt
    let s := { s with core := { s.core with lt := t } }
    (s.modEng fun e => { e with pathT := (pathsIn p).foldl spErase e.pathT }).fenced scope) s

/-! ## Buffers (R196, R202) -/

/-- `bset` refuses its fields (R196). -/
def State.bsetBad (s : State) (x y : W64) : Bool :=
  let b : Buf := { w0 := x, w1 := y, st := .free }
  x >>> 52 != 0 || y >>> 46 != 0 || b.off % 32 != 0 || b.size == 0 || decide (s.core.scratchSize < b.off + b.size) ||
    (!b.rl && (b.e0 == 0 || b.e1 == 0))

def State.gateBset (s : State) (a b c : BitVec 6) : Gate :=
  { Gate.c (.bset a b c) [b, c] [] with
    trap := firstTrap [trapIf (s.bsetBad (s.sGet b) (s.sGet c)) 0x02 (slotEnc (.bset a b c)),
      barTrap ((s.buf a).st != .free) 0x0E a] }

def execBset (a b c : BitVec 6) (s : State) : Host.Outcome State Fault Refusal :=
  issue (s.gateBset a b c) (fun s => s.fly 1 .c (.buf a (s.sGet b) (s.sGet c))) s

def State.gateBrel (s : State) (a : BitVec 6) : Gate :=
  { Gate.c (.brel a) [] [] with trap := barTrap ((s.buf a).st != .full || (s.buf a).rl) 0x0E a }

def execBrel (a : BitVec 6) (s : State) : Host.Outcome State Fault Refusal :=
  issue (s.gateBrel a) (fun s => s.setBufSt a .free) s

/-! ## The Yoke (R207, R208, R260, R261) -/

def slotTrap (c : Bool) (slot : BitVec 4) : Option Trap := trapIf c 0x10 (slot.setWidth 64)

/-- The slot is in the slot set of the task's gang. -/
def State.ownsSlot (s : State) (slot : BitVec 4) : Bool :=
  match s.t.task with
  | some t => decide (1 < t.n) && t.ymask.getLsbD slot.toNat
  | none => false

def State.inGang (s : State) : Bool :=
  match s.t.task with
  | some t => decide (1 < t.n)
  | none => false

/-- The beat that the task's gang drives on a slot in this cycle. -/
def State.beatOn (s : State) (slot : BitVec 4) : Option YBeat :=
  match s.t.task with
  | some t => findFirst? (fun y => y.die == dieOf s.core.id && y.rcd == t.rcd && y.slot == slot.toNat) s.yoke
  | none => none

/-- In replay the beat is not the Yoke's next (R355). -/
def State.yokeWaits (s : State) (kind : Nat) : Bool := !(s.logPoint s.issuer (yokePoint (dieOf s.core.id)) kind 0).2

/-- A Yoke bundle that a hold or a replayed point has moved off its slot waits for the slot's next cycle; any other traps
(R355, R366, R391). -/
def State.slotHold (s : State) (slot : BitVec 4) : Bool := s.t.ctl.slip && s.ownsSlot slot && s.cyc % 16 != slot.toNat

/-- Outside a gang cause 0x18 has no number to name: its trap value is free (log 5). -/
def State.gateYsend (s : State) (a : BitVec 6) (slot : BitVec 4) : Gate :=
  { Gate.c (.ysend a slot) [] [] with
    bad := a.toNat % 4 != 0
    reads := (vRegs a 4).map fun r => (r, false)
    hold := s.yokeWaits 6 || s.slotHold slot
    trap := firstTrap [trapIf (!s.inGang) 0x18 (Config.freeWord s.fresh),
      slotTrap (s.cyc % 16 != slot.toNat || !s.ownsSlot slot || (s.beatOn slot).isSome) slot] }

/-- YSEND (R207): the quad is on the Yoke in this cycle. -/
def execYsend (a : BitVec 6) (slot : BitVec 4) (s : State) : Host.Outcome State Fault Refusal :=
  issue (s.gateYsend a slot) (fun s =>
    match s.t.task with
    | none => s
    | some t =>
      let y : YBeat :=
        { die := dieOf s.core.id, rcd := t.rcd, member := t.member, slot := slot.toNat
          x := BitVec.ofNat 1024 (s.vGroup a 4), bad := (vRegs a 4).any fun r => (s.markOf r).isSome, lt := s.core.lt }
      { (s.onSlot.logPoint s.issuer (yokePoint (dieOf s.core.id)) 6 0).1 with yoke := s.yoke ++ [y] }) s

/-- Scratchpad ranges that copies in flight are filling or draining, or have reserved (R261). -/
def State.busyRanges (s : State) : List (Nat × Nat) :=
  (((List.range 64).map (BitVec.ofNat 6)).filterMap fun b =>
    let x := s.buf b
    if x.st = .filling ∨ x.st = .draining then some (x.off, x.size) else none) ++
  s.t.eng.cpq.flatMap fun q =>
    match q.kind with
    | .ring _ slot reg =>
      let r := ringOf reg
      [(s.tileAt r slot, s.tileBytes r)]
    | _ => []

def State.gateYrecv (s : State) (b : BitVec 6) (slot : BitVec 4) : Gate :=
  let off := (s.sGet b).toNat
  let va := BitVec.ofNat 64 ownBase + s.sGet b
  { Gate.c (.yrecv b slot) [b] [] with
    hold := s.yokeWaits 7 || s.slotHold slot
    trap := firstTrap [trapIf (off % 128 != 0) 0x06 va, trapIf (decide (s.core.scratchSize < off + 128)) 0x09 va,
      slotTrap (s.cyc % 16 != slot.toNat || (s.beatOn slot).isNone ||
        s.busyRanges.any fun r => decide (off < r.1 + r.2) && decide (r.1 < off + 128)) slot] }

/-- YRECV (R208, R261): the beat is latched and written on path B two cycles later. -/
def execYrecv (b : BitVec 6) (slot : BitVec 4) (s : State) : Host.Outcome State Fault Refusal :=
  issue (s.gateYrecv b slot) (fun s =>
    match s.beatOn slot with
    | none => s
    | some y =>
      ((s.onSlot.logPoint s.issuer (yokePoint (dieOf s.core.id)) 7 0).1).fly 2 .c
        (.latch (s.sGet b).toNat y.x y.bad y.lt)) s

end Sys2Proof.Machine
end

