-- ==== Sys2Proof/Machine/Copy.lean ====
section
/-!
DEFINITION. The issue of copies (spec 10 R197-R203, 14 R248-R256): checks, promises, tags and the queue. How a request starts and
completes stands in CopyEngine.lean.
-/
namespace Sys2Proof.Machine
open Sys2Proof

/-! ## Sizes (R197, R238) -/

/-- Bytes of a buffer region of a handle's format. -/
def regionBytes (h : Handle) (b : Buf) : Nat :=
  match hBlk h.tag h.fmt with
  | some (n, bb, _) => if is8bit h.fmt then b.e0 * b.e1 else b.e1 * cdiv b.e0 n * bb
  | none => b.e0 * b.e1 * elemBytes h.fmt

/-- A format that copies move as whole blocks. -/
def isPacked (fmt : Nat) : Bool := decide (0x0D ≤ fmt)

/-- The block length of a packed handle. -/
def blockLen (h : Handle) : Nat :=
  match hBlk h.tag h.fmt with
  | some (n, _, _) => n
  | none => 1

/-! ## What a request moves (R141, R197-R199) -/

/-- Elements or blocks of a buffer region: coordinates, bytes, offset in the buffer. -/
def plainUnits (h : Handle) (b : Buf) (xs : List Nat) : List (List Nat × Nat × Nat) :=
  let (n, w, cols) := if isPacked h.fmt then
      match hBlk h.tag h.fmt with
      | some (bl, bb, _) => (bl, bb, cdiv b.e0 bl)
      | none => (1, 1, b.e0)
    else (1, elemBytes h.fmt, b.e0)
  (List.range b.e1).flatMap fun j => (List.range cols).map fun i => (along xs (n * i) j, w, (j * cols + i) * w)

/-- Elements or blocks of a ring tile: coordinates, bytes, offset in the tile (R141). -/
def tileUnits (fmt rows : Nat) (xs : List Nat) : List (List Nat × Nat × Nat) :=
  let grid (n m w step len : Nat) : List (List Nat × Nat × Nat) :=
    (List.range n).flatMap fun j => (List.range m).map fun i => (along xs (step * i) j, w, len * j + w * i)
  if isFertite fmt then
    (List.range 128).map fun j => (along xs 0 j, ftBytes fmt, j / ftPer fmt * 256 + j % ftPer fmt * ftBytes fmt)
  else if fmt = 14 then (List.range rows).map fun j => (along xs 0 j, 48, 48 * j)
  else if fmt = 13 then grid 128 8 16 32 128
  else if fmt = 8 then grid 32 128 4 1 512
  else if is16bit fmt then grid 128 64 2 1 128
  else grid 128 128 1 1 128

/-- Scale bytes of a ring tile: coordinates of their blocks, scratchpad offset (R141). DESIGN CHOICE (log 103): the block of the first of the
elements that a scale byte serves. -/
def scaleUnits (r : Ring) (slot : Nat) (xs : List Nat) : List (List Nat × Nat) :=
  let grid (m row : Nat) : List (List Nat × Nat) :=
    (List.range 128).flatMap fun j => (List.range m).map fun b =>
      (along xs (32 * b) j, r.aux * 256 + slot * auxBytes r + row * j + b)
  if isFertite r.fmt then (List.range 128).map fun j => (along xs 0 j, r.aux * 256 + slot * 128 + j)
  else if r.fmt = 13 then grid 8 8
  else if r.sc = 1 then (if r.role = 1 then grid 4 4 else grid 4 8)
  else []

/-- The addresses of units that lie in the tensor, as their tiles stand (R245). -/
def State.unitAddrs (s : State) (h : Handle) (us : List (List Nat × Nat × Nat)) : List (W64 × Nat) :=
  (us.filter fun u => h.inside u.1).map fun u => (s.hAddr h u.1, u.2.1)

/-- The addresses of scale bytes (R241). -/
def Handle.scaleAddrs (h : Handle) (us : List (List Nat × Nat)) : List (W64 × Nat) :=
  if h.sbase = 0 then []
  else (us.filter fun u => h.inside u.1).map fun u => (BitVec.ofNat 64 (h.sbase + h.block h.tag u.1), 1)

/-! ## Requests -/

/-- The copies reserved in flight into a ring. -/
def State.reserved (s : State) (g : BitVec 3) : Nat :=
  (s.t.eng.cpq.filter fun q => match q.kind with
    | .ring g' _ _ => g' == g
    | _ => false).length

/-- A ring's tiles as a copy's space check counts them: after an `mret` of the same bundle (R274). -/
def State.ringCount (s : State) (g : BitVec 3) : Nat :=
  let c := (s.ring g).cnt
  if s.bun.mret = some g then c - 1 else c

/-- A barrier that a copy names exists (R259). -/
def State.copyBar (s : State) (b : Option (Option Nat × BitVec 6)) : Option Trap :=
  match b with
  | some (some m, _) => trapIf (!s.hasMember m) 0x18 (BitVec.ofNat 64 m)
  | _ => none

/-- λ of a place (R252); for host or peer memory the spec gives no class, and λ is a free value (log 5). -/
def State.farAt (s : State) (p : Place) : Nat :=
  match s.owner p with
  | .own _ => 16
  | .gang .. => 48
  | .glob pa _ _ => if isPeer pa then (Config.farClass pa).toNat else if s.isLocal pa then 1200 else 4000

/-- The pieces that an engine of the core reaches at some addresses, sector by sector; those that it cannot reach are left out. -/
def State.engPieces (s : State) (acc : AccKind) (l : List (W64 × Nat)) : List Piece :=
  l.flatMap fun a => (cuts 256 a.1.toNat a.2).flatMap fun c =>
    match s.access (s.core.xl s.core.tlbY) acc (BitVec.ofNat 64 c.1) c.2 with
    | .ok ps => ps.map (·.1)
    | .error _ => []

def engAcc (acc : Acc) : AccKind := { acc, align := none, eng := true }

/-- Where an address lies, whether or not protection lets the engine use it; none where nothing translates it. -/
def State.spot (s : State) (va : Nat) : Option Place :=
  match regionOf va with
  | .own => some (.own (va - ownBase))
  | .gang m => some (.gang m ((va - gangBase) % 0x800000))
  | .glob =>
    match s.leafOf (s.core.xl s.core.tlbY) va with
    | .ok e => some (.glob (e.pa + va % 2 ^ e.lg) e.ms none)
    | .error _ => none
  | .nowhere => none

/-- λ of an address; one that nothing translates counts as global memory of this module (log 36). -/
def State.lambdaAt (s : State) (va : Nat) : Nat :=
  match s.spot va with
  | some p => s.farAt p
  | none => 1200

/-- λ of the farthest of some addresses, page by page, at least that of the own scratchpad (R252). -/
def State.farOf (s : State) (l : List (W64 × Nat)) : Nat :=
  (l.flatMap fun a => (cuts 65536 a.1.toNat a.2).map fun c => s.lambdaAt c.1).foldl max 16

/-- The promise of a request entering now (R252). DESIGN CHOICE (log 107): after a resume, P(n - 4) is the re-based promise. -/
def State.promise (s : State) (lam bytes : Nat) : Nat :=
  let prev := match findFirst? (fun q : CopyReq => q.tag == s.t.eng.nextTag - 4) s.t.eng.cpq with
    | some q => q.promise
    | none => 0
  max (s.cyc + 2) prev + lam + cdiv bytes 64

/-- A request enters the queue with the next tag (R248). -/
def State.enterCopy (s : State) (q : CopyReq) : State :=
  let s := { s with fresh := s.fresh + 1 }
  s.modEng fun e => { e with cpq := e.cpq ++ [{ q with tag := e.nextTag }], nextTag := e.nextTag + 1 }

/-- A request of the bundle at hand with nothing in it yet. -/
def State.copyReq (s : State) (kind : CopyKind) (promise bytes : Nat) (chk : Bool)
    (bar : Option (Option Nat × BitVec 6)) : CopyReq :=
  { tag := 0, kind, active := false, granted := false, base := 0, promise, chk, missed := false, buf := 0, w0 := 0, w1 := 0, handle := [],
    xs := [], desc := [], rcd := none, bytes, bar, bun := s.bun.addr, seq := s.bun.seq }

/-- The queue is full (R248). -/
def State.copyFull (s : State) : Bool := decide (32 ≤ s.t.eng.cpq.length)

/-- A promise's register: empty now, filled two cycles on (R252). -/
def State.givePromise (s : State) (a : BitVec 6) (p : Nat) : State :=
  (s.setEmpty (.s a) true).fly 2 .c (.fill a (BitVec.ofNat 64 p))

/-! ## COPY and COPYO (R197, R198) -/

/-- The words of handle h, coherently read. -/
def State.hWords (s : State) (h : BitVec 8) : List W64 := s.handleWords h.toNat

/-- The checks of `copy`, for its coordinates. DESIGN CHOICE (log 104): the trap value of a buffer too small is its own-window address. -/
def State.copyTraps (s : State) (b : BitVec 6) (h : BitVec 8) (xs : List Nat) : Option Trap :=
  let hd := handleOf (s.hWords h)
  let x := s.buf b
  let rg := s.ring x.rg
  firstTrap [
    trapIf (!x.rl && hd.v && decide (x.size < regionBytes hd x)) 0x09 (BitVec.ofNat 64 (ownBase + x.off)),
    trapIf (!hd.v || (x.rl && hd.fmt != rg.fmt)) 0x1B (h.setWidth 64),
    trapIf (isPacked hd.fmt && xs.getD 0 0 % blockLen hd != 0) 0x1B (h.setWidth 64),
    trapIf (x.st != .free) 0x0E (b.setWidth 64),
    trapIf (x.rl && decide (rg.nt ≤ s.ringCount x.rg + s.reserved x.rg)) 0x0F (x.rg.setWidth 64),
    s.copyBar x.bar]

/-- A fetch enters the queue: a plain buffer begins to fill, or the ring's next tail slot is reserved. -/
def State.enterFetch (s : State) (b : BitVec 6) (n : BitVec 8) (xs : List Nat) : State :=
  let ws := s.hWords n
  let hd := handleOf ws
  let x := s.buf b
  let rg := s.ring x.rg
  let bytes := if x.rl then s.tileBytes rg else regionBytes hd x
  let slot := (rg.head + rg.cnt + s.reserved x.rg) % rg.nt
  let far := s.farOf (if x.rl then s.unitAddrs hd (tileUnits rg.fmt (s.ringRows rg) xs) ++ hd.scaleAddrs (scaleUnits rg slot xs)
    else s.unitAddrs hd (plainUnits hd x xs))
  let kind := if x.rl then CopyKind.ring x.rg slot (s.ringReg x.rg) else .fetch
  let q := s.copyReq kind (s.promise far bytes) bytes x.chk x.bar
  let s := s.enterCopy { q with buf := b, w0 := x.w0, w1 := x.w1, handle := ws, img := s.handleAt n.toNat, xs }
  if x.rl then s else s.setBufSt b .filling

def State.gateCopy (s : State) (a b c : BitVec 6) (h : BitVec 8) : Gate :=
  { Gate.c (.copy a b c h) [c, c + 1] [.s a] with
    bad := c.toNat % 2 == 1
    hold := s.copyFull
    trap := s.copyTraps b h (s.coordsOf c) }

/-- The promise of the request that entered last. -/
def State.lastPromise (s : State) : Nat :=
  match s.t.eng.cpq.getLast? with
  | some q => q.promise
  | none => 0

def execCopy (a b c : BitVec 6) (h : BitVec 8) (s : State) : Host.Outcome State Fault Refusal :=
  issue (s.gateCopy a b c h) (fun s =>
    let s' := (s.readHandle h.toNat).enterFetch b h (s.coordsOf c)
    s'.givePromise a s'.lastPromise) s

/-- The checks of `copyo`. -/
def State.copyoTraps (s : State) (b : BitVec 6) (h : BitVec 8) (xs : List Nat) : Option Trap :=
  let hd := handleOf (s.hWords h)
  let x := s.buf b
  let ft := isFertite hd.fmt
  firstTrap [
    trapIf (!hd.v) 0x1B (h.setWidth 64),
    trapIf (isPacked hd.fmt && !ft && xs.getD 0 0 % blockLen hd != 0) 0x1B (h.setWidth 64),
    trapIf (ft && (xs.getD 0 0 % 256 != 0 || x.e0 % 256 != 0)) 0x0A (s.hAddr hd xs),
    trapIf (x.st != .full || x.rl) 0x0E (b.setWidth 64),
    s.copyBar x.bar]

/-- A write-back enters the queue; its buffer drains. -/
def State.enterBack (s : State) (b : BitVec 6) (n : BitVec 8) (xs : List Nat) : State :=
  let ws := s.hWords n
  let hd := handleOf ws
  let x := s.buf b
  let bytes := regionBytes hd x
  let far := s.farOf (s.unitAddrs hd (plainUnits hd x xs))
  let q := s.copyReq .back (s.promise far bytes) bytes x.chk x.bar
  (s.enterCopy { q with buf := b, w0 := x.w0, w1 := x.w1, handle := ws, img := s.handleAt n.toNat, xs }).setBufSt b .draining

def State.gateCopyo (s : State) (a b c : BitVec 6) (h : BitVec 8) : Gate :=
  { Gate.c (.copyo a b c h) [c, c + 1] [.s a] with
    bad := c.toNat % 2 == 1
    hold := s.copyFull
    trap := s.copyoTraps b h (s.coordsOf c) }

def execCopyo (a b c : BitVec 6) (h : BitVec 8) (s : State) : Host.Outcome State Fault Refusal :=
  issue (s.gateCopyo a b c h) (fun s =>
    let s' := (s.readHandle h.toNat).enterBack b h (s.coordsOf c)
    s'.givePromise a s'.lastPromise) s

/-! ## COPYX (R199) -/

/-- A descriptor quad read as numbers. -/
structure XDesc where
  src : W64
  dst : W64
  len : Nat
  sty : Nat
  dty : Nat
  rm : Nat
  sn : Nat
  si : Nat
  so : Nat
  chk : Bool
  dlen : Nat
  bar : Option (Option Nat × BitVec 6)
  z2 : Nat
  z3 : Nat
  deriving DecidableEq, Repr

def xdescOf (d : List W64) : XDesc :=
  let p := wordAt d 2
  let q := wordAt d 3
  { src := d.getD 0 0, dst := d.getD 1 0, len := field p 0 40, sty := field p 40 5, dty := field p 45 5, rm := field p 50 3,
    sn := field p 53 2, si := field p 55 2, so := field p 57 2, chk := field p 59 1 == 1, z2 := field p 60 4,
    dlen := field q 0 40, z3 := field q 54 10,
    bar := if field q 46 1 = 1 then
        some (if field q 53 1 = 1 then some (field q 47 6) else none, BitVec.ofNat 6 (field q 40 6))
      else none }

/-- Bytes of an element of a `copyx` type. DESIGN CHOICE (log 102): a packed type has no element of its own and counts as one byte. -/
def xBytes (t : Nat) : Nat := if unpacked t then elemBytes t else 1

/-- The decoded length, and the bytes the destination gets. -/
def XDesc.decoded (x : XDesc) : Nat := x.len / xBytes x.sty * xBytes x.dty
def XDesc.bytes (x : XDesc) : Nat := if x.dlen = 0 then x.decoded else x.dlen

/-- `copyx` refuses its descriptor (R199, R50, R47). DESIGN CHOICE (log 102): also for rm codes 5 to 7 and for bits that R199 gives as 0. -/
def XDesc.bad (x : XDesc) : Bool :=
  x.len == 0 || x.len % xBytes x.sty != 0 || decide (0x11 < x.sty) || decide (0x11 < x.dty) ||
    ((isPacked x.sty || isPacked x.dty) && x.sty != x.dty) || decide (5 ≤ x.rm) ||
    !(substOk x.dty x.sn && substOk x.dty x.si && substOk x.dty x.so) || x.z2 != 0 || x.z3 != 0

/-- The descriptor quad of a `copyx`. -/
def State.quad (s : State) (b : BitVec 6) : List W64 := [s.sGet b, s.sGet (b + 1), s.sGet (b + 2), s.sGet (b + 3)]

def State.gateCopyx (s : State) (a b c : BitVec 6) : Gate :=
  let x := xdescOf (s.quad b)
  let r := s.sGet c
  { Gate.c (.copyx a b c) [b, b + 1, b + 2, b + 3, c] [.s a] with
    bad := b.toNat % 4 != 0 || b == 0
    hold := s.copyFull
    trap := firstTrap [
      trapIf x.bad 0x02 (slotEnc (.copyx a b c)),
      trapIf (c != 0 && r.toNat % 8 != 0) 0x06 r,
      s.windowsTrap ([(x.src, x.len), (x.dst, x.bytes)] ++ if c = 0 then [] else [(r, 8)]),
      s.copyBar x.bar] }

/-- COPYX (R199). -/
def execCopyx (a b c : BitVec 6) (s : State) : Host.Outcome State Fault Refusal :=
  issue (s.gateCopyx a b c) (fun s =>
    let d := s.quad b
    let x := xdescOf d
    let far := s.farOf [(x.src, x.len), (x.dst, x.bytes)]
    let q := s.copyReq .conv (s.promise far x.bytes) x.bytes x.chk x.bar
    let s' := s.enterCopy { q with desc := d, rcd := if c = 0 then none else some (s.sGet c) }
    s'.givePromise a s'.lastPromise) s

/-! ## PRMX (R201) -/

def State.gatePrmx (s : State) (a b : BitVec 6) (imm : CImm) : Gate :=
  { Gate.c (.prmx a b imm) [b] [.s a] with
    trap := trapIf (decide ((s.immOf imm).toInt < 1)) 0x02 (slotEnc (.prmx a b imm)) }

/-- PRMX (R201): the promise of the copy with the tag moves; its miss is checked again. -/
def execPrmx (a b : BitVec 6) (imm : CImm) (s : State) : Host.Outcome State Fault Refusal :=
  issue (s.gatePrmx a b imm) (fun s =>
    let tag : BitVec 16 := (s.sGet b).setWidth 16
    match findFirst? (fun q : CopyReq => q.tag == tag) s.t.eng.cpq with
    | none => s.givePromise a 0
    | some q =>
      let p := q.promise + (s.immOf imm).toNat
      (s.modEng fun e => { e with cpq := e.cpq.map fun y =>
        if y.tag = tag then { y with promise := p, missed := false } else y }).givePromise a p) s

end Sys2Proof.Machine
end

