-- ==== Sys2Proof/Machine/CopyEngine.lean ====
section
/-!
DEFINITION. The copy engine (spec 10 R197-R201, 14 R248-R259, 15 R266, 27 R374, R375): a request starts, moves its bytes and
completes; promises missed; the copy schedule.
-/
namespace Sys2Proof.Machine
open Sys2Proof

/-! ## Engine accesses in a request -/

/-- A request at work: what it has moved, the machine, the first failure, the translations used. -/
structure Run extends Moved where
  s : State
  fail : Option (W64 × BitVec 8)
  used : List TlbEntry
  /-- bytes of the access that failed -/
  span : Nat := 1
  deriving DecidableEq, Repr

/-- Who the engine works for: its translation, base time, whether a peer answers, the phase task it acts as, whether its blocks
go nowhere but into regions of their format (R287), and the MS pieces that it has read already (R233). -/
structure Eng where
  xl : Xl
  l : Time
  ok : Bool
  who : Option (Nat × Nat)
  strict : Bool
  got : MsGot := []
  /-- the core whose windows a Topiary engine reaches: that of the issuing task, where it stands on one -/
  core : Option Nat := none
  deriving DecidableEq, Repr

def Run.start (s : State) (t : Time) : Run := { s, t, fail := none, used := [] }

def Run.failed (r : Run) (va : W64) (c : BitVec 8) (n : Nat := 1) : Run :=
  match r.fail with
  | none => { r with fail := some (va, c), span := n }
  | some _ => r

/-- A piece in the breach of isolation (R313). -/
def Eng.breach (e : Eng) (s : State) (p : Piece) : Bool :=
  match p.at_ with
  | .glob pa _ _ => s.breachAs e.who pa p.len
  | _ => false

/-- Bytes of an MS page: those of a 64-byte piece read before come with the time of that read (R233). -/
def Eng.readMs (e : Eng) (s : State) (pa n : Nat) : State × Time × List Byte × Bool :=
  (cuts 64 pa n).foldl (fun (s, t, bs, bad) (a, k) =>
    match findFirst? (fun g : Nat × List Byte × Bool × Time => g.1 == a / 64) e.got with
    | some (_, old, b, t') => (s, tmax t t', bs ++ (old.drop (a % 64)).take k, bad || b)
    | none =>
      let (s, t', b, x) := s.engRead e.l a k true
      (s, tmax t t', bs ++ b, bad || x)) (s, e.l, [], false)

/-- One piece read. -/
def Eng.readPiece (e : Eng) (s : State) (p : Piece) : State × Time × List Byte × Bool :=
  let s := s.fixEng p.at_ p.len
  match p.at_ with
  | .own off => (s, e.l, s.core.scrRead off p.len, s.core.scrBad off p.len)
  | .gang m off =>
    match (s.memberId m).bind s.coreById with
    | some c => (s, e.l, c.scrRead off p.len, c.scrBad off p.len)
    | none => (s, e.l, List.replicate p.len 0, true)
  | .glob pa ms ft =>
    let (s, t, bs, bad) := if ms && !isPeer pa then e.readMs s pa p.len else (s.noteFt pa ms ft).engRead e.l pa p.len ms
    (s, t, bs, bad || (isPeer pa && !e.ok))

/-- Bytes read from an address, and whether they are poisoned; a failed check reads as poison (R200). -/
def Run.read (r : Run) (e : Eng) (va : W64) (n : Nat) : Run × List Byte × Bool :=
  match r.s.access e.xl (engAcc .rd) va n with
  | .error c => (r.failed va (subOf c) n, List.replicate n 0, true)
  | .ok ps =>
    if (bare ps).any (e.breach r.s) then (r.failed va 0x19, List.replicate n 0, true)
    else
      (bare ps).foldl (fun (r, bs, bad) p =>
        let (s, t, b, x) := e.readPiece r.s p
        ({ r with s, t := tmax r.t t }, bs ++ b, bad || x)) ({ r with used := tlbAdd r.used ps }, [], false)

/-- A port may forward poisoned data to a requester (R375). -/
def State.peerOk (s : State) (port : Nat) (rid : BitVec 16) : Bool :=
  (List.range 32).any fun n =>
    let w := spGet 0 s.sup.ppen (32 * port + n)
    w.getLsbD 16 && w.setWidth 16 == rid

/-- Poison may be forwarded to the peer at an address; which requester ID a bus address routes to the host's fabric decides: a free
value (R375; log 5). -/
def State.poisonOk (s : State) (pa : Nat) : Bool := s.peerOk (field pa 55 1) (Config.peerRid pa)

/-- Why a write of the engine has no effect at a piece; `blk` is the Fertite format of which it writes whole blocks (R227, R228,
R281). -/
def Eng.refuses (e : Eng) (s : State) (blk : Option Nat) (p : Piece) : Option (BitVec 8) :=
  match p.at_ with
  | .glob pa ms ft =>
    if (ft.isSome || e.strict) && ft != blk then some 0x0A
    else if s.breachAs e.who pa p.len then some 0x19
    else if s.peerDown pa || s.lostAt pa || (isPeer pa && !e.ok) then some 0x08
    else if !ms && !isPeer pa && (s.line pa).ft.isSome && (s.line pa).ft != blk then some 0x0A
    else none
  | .gang m _ => if (s.memberId m).isNone then some 0x09 else none
  | .own _ => none

/-- The pieces of a write, or why it fails. -/
def Eng.target (e : Eng) (s : State) (va : W64) (n : Nat) (blk : Option Nat) :
    Except (BitVec 8) (List (Piece × TlbEntry)) :=
  match s.access e.xl (engAcc .wr) va n with
  | .error c => .error (subOf c)
  | .ok ps =>
    match firstOf (e.refuses s blk) (bare ps) with
    | some c => .error c
    | none => .ok ps

/-- The unused tail of the sector of an address, where whole blocks of a Fertite format are written to it (R277). -/
def ftTail (blk : Option Nat) (pa : Nat) : List (Nat × Nat) :=
  match blk with
  | some f =>
    let n := ftBytes f * ftPer f
    if n < 256 then [(256 * (pa / 256) + n, 256 - n)] else []
  | none => []

/-- Ranges zeroed with the block that is written beside them. -/
def State.zeroTail (s : State) (ws : List (Nat × Nat)) : State :=
  ws.foldl (fun s w => { s with mem := memWrite s.mem w.1 (List.replicate w.2 0) }) s

/-- One piece written; poison to a peer that has not enabled it is withheld (R375). -/
def Eng.writePiece (e : Eng) (r : Run) (blk : Option Nat) (p : Piece) (bs : List Byte) (bad : Bool) : Run :=
  match p.at_ with
  | .own off => { r with s := { r.s with core := r.s.core.scrWrite off bs bad r.t }, wrote := r.wrote + bs.length }
  | .gang m off =>
    match r.s.memberId m with
    | some id => { r with s := r.s.updCore id fun c => c.scrWrite off bs bad r.t, wrote := r.wrote + bs.length }
    | none => r
  | .glob pa ms ft =>
    if bad && isPeer pa && !r.s.poisonOk pa then { r with held := true }
    else
      let (s, t, mine) := r.s.engWriteBy e.l pa bs ms ft bad r.mine
      let ws := (pa, bs.length) :: ftTail blk pa
      { r with
        s := (s.zeroTail (ftTail blk pa)).tagAs e.who pa bs.length
        t := tmax r.t t
        mine
        far := r.far || (!isPeer pa && !r.s.isLocal pa)
        good := if bad then r.good else ws ++ r.good
        poor := if bad then ws ++ r.poor else r.poor
        wrote := r.wrote + bs.length
        peers := if isPeer pa then setAdd r.peers (field pa 55 1) else r.peers }

/-- Bytes written, or the failure recorded. -/
def Run.write (r : Run) (e : Eng) (blk : Option Nat) (va : W64) (bs : List Byte) (bad : Bool) : Run :=
  match e.target r.s va bs.length blk with
  | .error c => r.failed va c bs.length
  | .ok ps =>
    ((bare ps).foldl (fun (r, bs) p => (e.writePiece r blk p (bs.take p.len) bad, bs.drop p.len))
      ({ r with used := tlbAdd r.used ps }, bs)).1

/-- A write's failure found before any byte moves (R200). -/
def Run.tryWrite (r : Run) (e : Eng) (blk : Option Nat) (va : W64) (n : Nat) : Run :=
  match e.target r.s va n blk with
  | .error c => r.failed va c n
  | .ok _ => r

/-- Bytes of granule k that a list of ranges covers. -/
def coverage (g k : Nat) (ws : List (Nat × Nat)) : Nat :=
  ((List.range g).filter fun i => ws.any fun w => decide (w.1 ≤ g * k + i) && decide (g * k + i < w.1 + w.2)).length

/-- Granules that good writes together cover whole are clean again (R347). -/
def coverClear (g : Nat) (bad : List Nat) (good poor : List (Nat × Nat)) : List Nat :=
  bad.filter fun k => !(decide (coverage g k good = g) && decide (coverage g k poor = 0))

def Run.cleared (r : Run) : State := { r.s with memBad := coverClear 256 r.s.memBad r.good r.poor }

/-! ## What a request reads and writes (R197-R199) -/

/-- The address of an element, its bitmap bit being read where its handle converts (R245). -/
def Run.addrOf (r : Run) (e : Eng) (h : Handle) (x : List Nat) : Run × W64 :=
  if h.cv then
    let (r, bs, _) := r.read e (h.bitAt x).1 1
    (r, BitVec.ofNat 64 (h.va ((bs.getD 0 0).toNat.testBit (h.bitAt x).2) x))
  else (r, BitVec.ofNat 64 (h.va false x))

/-- An element or block read through a handle. -/
def Run.readElem (r : Run) (e : Eng) (h : Handle) (x : List Nat) (n : Nat) : Run × List Byte × Bool :=
  let (r, va) := r.addrOf e h x
  r.read e va n

/-- What a unit of a fetch holds: an element or block of the tensor, its scale byte, or zeros. -/
inductive FetchSrc where
  | elem (x : List Nat)
  | scale (x : List Nat)
  | zeros
  deriving DecidableEq, Repr

/-- A unit of a fetch: its scratchpad offset, bytes and source. -/
structure FetchUnit where
  off : Nat
  n : Nat
  src : FetchSrc
  deriving DecidableEq, Repr

/-- A unit bound for the scratchpad: offset, bytes, poison; what lies outside the tensor is zero (R197, R241). -/
def Run.fetchUnit (r : Run) (e : Eng) (h : Handle) (u : FetchUnit) : Run × Nat × List Byte × Bool :=
  match u.src with
  | .elem x =>
    if h.inside x then
      let (r, bs, bad) := r.readElem e h x u.n
      (r, u.off, bs, bad)
    else (r, u.off, List.replicate u.n 0, false)
  | .scale x =>
    if h.sbase = 0 then (r, u.off, [0x20], false)
    else if h.inside x then
      let (r, bs, bad) := r.read e (BitVec.ofNat 64 (h.sbase + h.block h.tag x)) 1
      (r, u.off, bs, bad)
    else (r, u.off, [0], false)
  | .zeros => (r, u.off, List.replicate u.n 0, false)

/-- Bytes placed in this core's scratchpad at the request's time; after a failure all of them are poisoned (R200). -/
def Run.place (r : Run) (out : List (Nat × List Byte × Bool)) : State :=
  let f := r.fail.isSome
  let c := out.foldl (fun c (off, bs, bad) => c.scrWrite off bs (bad || f) r.t) r.s.core
  let rng (p : Bool) : List (Nat × Nat) := (out.filter fun x => (x.2.2 || f) == p).map fun x => (x.1, x.2.1.length)
  let c := { c with t := { c.t with scratchBad := coverClear 32 c.t.scratchBad (rng false) (rng true) } }
  { r.s with core := c }

/-! ## The four kinds of request -/

/-- The engine as it works on a request. -/
def State.engOf (s : State) (q : CopyReq) (ok : Bool) : Eng :=
  { xl := s.core.xl s.core.tlbY, l := q.base, ok, who := s.phaseTask, strict := false, got := q.moved.got }

/-- A request goes on from what it has moved. -/
def Run.resume (s : State) (q : CopyReq) : Run := { q.moved with s, fail := none, used := [] }

/-- The sector tails of a ring tile of blocks, which a fetch writes as zero (R277): offsets in the tile and bytes. -/
def tileTails (fmt : Nat) : List (Nat × Nat) :=
  if isFertite fmt then (List.range (cdiv 128 (ftPer fmt))).flatMap fun i => ftTail (some fmt) (256 * i) else []

/-- The units of a fetch into a plain buffer or a ring slot. -/
def State.fetchUnits (s : State) (q : CopyReq) : List FetchUnit :=
  match q.kind with
  | .ring _ slot reg =>
    let rg := ringOf reg
    let b := s.tileAt rg slot
    (tileUnits rg.fmt (s.ringRows rg) q.xs).map (fun u => { off := b + u.2.2, n := u.2.1, src := .elem u.1 : FetchUnit }) ++
      (tileTails rg.fmt).map (fun w => { off := b + w.1, n := w.2, src := .zeros : FetchUnit }) ++
      (scaleUnits rg slot q.xs).map fun u => { off := u.2, n := 1, src := .scale u.1 : FetchUnit }
  | _ =>
    let b : Buf := { w0 := q.w0, w1 := q.w1, st := .filling }
    (plainUnits (handleOf q.handle) b q.xs).map fun u => { off := b.off + u.2.2, n := u.2.1, src := .elem u.1 : FetchUnit }

/-- Members of a list at some indices. -/
def pick {α : Type} (xs : List α) (is : List Nat) : List α := is.filterMap fun i => xs[i]?

/-- Units of a fetch moved. -/
def State.runFetch (s : State) (q : CopyReq) (ok : Bool) (is : List Nat) : Run :=
  let e := s.engOf q ok
  let h := handleOf q.handle
  let (r, out) := (pick (s.fetchUnits q) is).foldl (fun (r, out) u =>
    let (r, o) := Run.fetchUnit r e h u
    (r, o :: out)) (Run.resume s q, [])
  { r with s := r.place out }

/-- The format whose blocks a request writes whole. -/
def Handle.blk (h : Handle) : Option Nat := if isFertite h.fmt then some h.fmt else none

/-- The checks of one unit written back: its scratchpad bytes, its written bit, its destination (R198, R200). -/
def Run.tryBack (r : Run) (e : Eng) (h : Handle) (b : Buf) (u : List Nat × Nat × Nat) : Run :=
  let (x, n, off) := u
  if r.s.core.scratchSize < b.off + off + n then r.failed (BitVec.ofNat 64 (ownBase + b.off + off)) 0x09
  else
    let (r, va) := r.addrOf e h x
    r.tryWrite e h.blk va n

/-- The units of a write-back: the elements that lie in the tensor. -/
def CopyReq.backUnits (q : CopyReq) : List (List Nat × Nat × Nat) :=
  let h := handleOf q.handle
  (plainUnits h { w0 := q.w0, w1 := q.w1, st := .draining } q.xs).filter fun u => h.inside u.1

/-- A list with the members of one key next to each other, in the order in which the keys come first. -/
def groupBy {α β : Type} [BEq β] (k : α → β) (xs : List α) : List α :=
  ((xs.map k).eraseDups).flatMap fun b => xs.filter fun x => k x == b

/-- Units of a write-back of a buffer (R198); bytes outside the scratchpad part fail as R164 states. The elements of one MS piece are one
operation (R233). -/
def State.runBack (s : State) (q : CopyReq) (ok : Bool) (is : List Nat) : Run :=
  let e := s.engOf q ok
  let h := handleOf q.handle
  let b : Buf := { w0 := q.w0, w1 := q.w1, st := .draining }
  let units := groupBy (fun u => (s.hAddr h u.1).toNat / 64) (pick q.backUnits is)
  let s := s.fixScratch s.core.id b.off q.bytes
  let r := Run.resume s q
  let r := units.foldl (fun r u => r.tryBack e h b u) r
  let f := r.fail.isSome
  units.foldl (fun r (x, n, off) =>
    let (r, va) := r.addrOf e h x
    r.write e h.blk va (s.core.scrRead (b.off + off) n) (f || s.core.scrBad (b.off + off) n)) r

/-- An element converted by `copyx` (R51, R199). -/
def XDesc.conv (x : XDesc) (bits : Nat) : Nat × BitVec 5 := cvt (valOf x.sty bits) x.dty x.rm x.sn x.si x.so

/-- Bytes of the destination that come from the source (R258). -/
def XDesc.body (x : XDesc) : Nat := min x.bytes x.decoded / xBytes x.dty * xBytes x.dty

/-- The destination is whole, block-aligned blocks of a Fertite type copied to itself (R199, R227). DESIGN CHOICE (log 97): only with
DLEN = LEN. -/
def XDesc.blocks (x : XDesc) : Option Nat :=
  let bb := ftBytes x.sty
  let o := x.dst.toNat % 256
  let e := (o + x.len) % 256
  if isFertite x.sty ∧ x.sty = x.dty ∧ x.bytes = x.len ∧ o % bb = 0 ∧ o / bb < ftPer x.sty ∧
      (e = 0 ∨ (e % bb = 0 ∧ e / bb ≤ ftPer x.sty)) then some x.sty
  else none

/-- Bytes of the destination, whatever 32-byte unit they lie in: offset and number, in order; whole blocks where it takes blocks (R282),
`g`-byte units otherwise (R265). -/
def XDesc.units (x : XDesc) (g : Nat) : List (Nat × Nat) :=
  match x.blocks with
  | some f =>
    (cuts 256 x.dst.toNat x.bytes).flatMap fun c =>
      let bb := ftBytes f
      let ks := (List.range (ftPer f)).filter fun k => decide (c.1 % 256 ≤ bb * k) && decide (bb * k < c.1 % 256 + c.2)
      ks.map fun k =>
        let o := 256 * (c.1 / 256) + bb * k
        let e := if k + 1 = ftPer f then c.1 + c.2 else min (o + bb) (c.1 + c.2)
        (o - x.dst.toNat, e - o)
  | none => (cuts g x.dst.toNat x.bytes).map fun c => (c.1 - x.dst.toNat, c.2)

/-- Destination bytes converted from the elements that they lie in, with their poison; zeros beyond the source's (R199). -/
def Run.convert (r : Run) (e : Eng) (x : XDesc) (o n : Nat) : Run × List Byte × Bool :=
  let m := min n (x.body - o)
  let zeros : List Byte := List.replicate (n - m) 0
  if m = 0 then (r, zeros, false)
  else if x.sty = x.dty then
    let (r, bs, bad) := r.read e (x.src + BitVec.ofNat 64 o) m
    (r, bs ++ zeros, bad)
  else
    let ns := xBytes x.sty
    let nd := xBytes x.dty
    let i0 := o / nd
    let (r, bs, bad) := (List.range ((o + m - 1) / nd + 1 - i0)).foldl (fun (r, out, bad) i =>
      let (r, bs, b) := Run.read r e (x.src + BitVec.ofNat 64 (ns * (i0 + i))) ns
      let (y, g) := x.conv (ofLe bs)
      ({ r with flags := r.flags ||| g }, out ++ leBytes nd y, bad || b)) (r, [], false)
    (r, (bs.drop (o - nd * i0)).take m ++ zeros, bad)

/-- Units of a `copyx` moved (R199). -/
def State.runConv (s : State) (q : CopyReq) (ok : Bool) (g : Nat) (is : List Nat) : Run :=
  let e := s.engOf q ok
  let x := xdescOf q.desc
  let (r, out) := (pick (x.units g) is).foldl (fun (r, out) (o, n) =>
    let (r, bs, bad) := Run.convert r e x o n
    (r, out ++ [(o, bs, bad)])) (Run.resume s q, [])
  let r := out.foldl (fun r o => r.tryWrite e x.blocks (x.dst + BitVec.ofNat 64 o.1) o.2.1.length) r
  let bad := r.fail.isSome
  out.foldl (fun r o => r.write e x.blocks (x.dst + BitVec.ofNat 64 o.1) o.2.1 (o.2.2 || bad)) r

/-- LENGTH (R199). -/
def XDesc.lengthFlag (x : XDesc) : BitVec 5 := if x.dlen ≠ 0 ∧ x.dlen ≠ x.decoded then 0x10 else 0

/-! ## Completion (R248, R257, R259) -/

/-- The completion record (R257): the bytes it counts are those written, withheld ones left out (R349, R375). -/
def recordWord (q : CopyReq) (r : Run) (f : BitVec 5) : W64 :=
  BitVec.ofNat 64 (pack [(5, f.toNat), (1, r.held.toNat), (1, 1), (1, r.fail.isSome.toNat), (40, r.wrote), (16, q.tag.toNat)])

/-- The tables' lines that an engine's walks read, from its base time on (R344, R266). -/
def State.engWalks (s : State) (l : Time) (root : Nat) (es : List TlbEntry) : State :=
  let lt := s.core.lt
  let s := es.foldl (fun s e => s.walkLines e.va walkLevels root) { s with core := { s.core with lt := l } }
  { s with core := { s.core with lt } }

/-- The tables read by an engine's walk for one page of an access that is refused, and whether the page has a translation. -/
def State.engMissed (s : State) (x : Xl) (va : Nat) : State × Bool :=
  if regionOf va ≠ .glob ∨ (tlbFind x.tlb x.ctx va).isSome = true then (s, true)
  else (s.walkLines va walkLevels x.root, (s.walk x.ctx x.root va).isOk)

/-- A failed translation's walks have read the tables for the pages of the access, up to the first without a translation (R344). -/
def State.engRefused (s : State) (x : Xl) (l : Time) (fail : Option (W64 × BitVec 8)) (n : Nat := 1) : State :=
  match fail with
  | some (va, c) =>
    if c = 0x08 ∨ c = 0x09 ∨ c = 0x0B then
      let lt := s.core.lt
      let a := va.toNat
      let s := match { s with core := { s.core with lt := l } }.engMissed x a with
        | (s', true) => if a / 65536 = (a + n - 1) / 65536 then s' else (s'.engMissed x (a + n - 1)).1
        | (s', false) => s'
      { s with core := { s.core with lt } }
    else s
  | none => s

/-- The translations that a request used join the engine's TLB of 256 entries (R234). -/
def State.noteTlbY (s : State) (l : Time) (es : List TlbEntry) : State :=
  let new := es.filter fun e => !s.core.tlbY.contains e
  let s := s.engWalks l (s.core.xl s.core.tlbY).root new
  let (n, l) := new.foldl (tlbPut 256) (s.fresh, s.core.tlbY)
  { s with fresh := n, core := { s.core with tlbY := l } }

/-- The first failure recorded for `end` (R200), the withheld poison for the next bundle (R349), the times for the fences. -/
def State.closeRun (s : State) (q : CopyReq) (r : Run) : State :=
  let s := match r.fail with
    | some (a, c) => s.deferFault a c q.bun q.seq
    | none => s
  let s := if r.held then s.modCtl fun c => { c with cterr := c.cterr ++ [q.tag] } else s
  let s := (s.engRefused (s.core.xl s.core.tlbY) q.base r.fail r.span).noteTlbY q.base r.used
  s.modEng fun e => (e.noteTime 1 r.t).noteFar r.far r.t r.peers

/-- A completed copy's subtraction: at once where its barrier can take it, owed otherwise (R205, R329, R355). -/
def State.payOne (s : State) (o : Owed) : Option State :=
  match s.barCore o.bar.1 with
  | none => if optAll o.bar.1 s.memberParked then none else some s
  | some id =>
    if (s.barAt o.bar.1 o.bar.2).pend - o.bytes < -pendMax then none
    else
      match s.logPoint s.issuer (barPoint id) 5 o.tag.toNat with
      | (s', true) => some (s'.updCore id fun c => c.setBar o.bar.2 ((c.bar o.bar.2).credit o.bytes o.t))
      | (_, false) => none

/-- What is owed paid as far as it can be. -/
def State.payOwed (s : State) : State :=
  s.t.eng.owed.foldl (fun s o =>
    match s.payOne o with
    | some s' => s'.modEng fun e => { e with owed := e.owed.filter (· != o) }
    | none => s) s

/-- The cycle in which what completes now is first seen: an event that follows the core's turn counts to the next one (R251; log 1). -/
def State.doneCyc (s : State) : Nat := if s.core.acted then s.cyc + 1 else s.cyc

/-- A checked request that completes after its promise is missed (R253). -/
def State.noteLate (s : State) (q : CopyReq) : State :=
  if q.chk = true ∧ q.missed = false ∧ q.promise < s.doneCyc then s.modCtl fun c => { c with missed := c.missed ++ [q.tag] } else s

/-- A request leaves the queue, its buffer, ring and barrier having changed. -/
def State.leaveCopy (s : State) (q : CopyReq) (r : Run) : State :=
  let s := s.noteLate q
  let s := s.modEng fun e => { e with cpq := e.cpq.filter (·.tag != q.tag) }
  let s := match q.kind with
    | .fetch => s.setBufSt q.buf .full
    | .back => s.setBufSt q.buf .free
    | .ring g _ _ =>
      let x := s.ring g
      s.setRing g (ringWith (s.ringReg g) x.head (x.cnt + 1) x.rpos)
    | .conv => s
  let s := s.closeRun q r
  match q.bar with
  | some b => (s.modEng fun e => { e with owed := e.owed ++ [{ bar := b, bytes := q.bytes, t := r.t, tag := q.tag }] }).payOwed
  | none => s

/-! ### Which request may complete -/

/-- The addresses a request reads and writes in memory. -/
def State.copyAddrs (s : State) (q : CopyReq) : List (W64 × Nat) × List (W64 × Nat) :=
  let h := handleOf q.handle
  let b : Buf := { w0 := q.w0, w1 := q.w1, st := .filling }
  match q.kind with
  | .fetch => (s.unitAddrs h (plainUnits h b q.xs), [])
  | .back => ([], s.unitAddrs h (plainUnits h b q.xs))
  | .ring _ slot reg =>
    let r := ringOf reg
    (s.unitAddrs h (tileUnits r.fmt (s.ringRows r) q.xs) ++ h.scaleAddrs (scaleUnits r slot q.xs), [])
  | .conv =>
    let x := xdescOf q.desc
    ([(x.src, x.len)], [(x.dst, x.bytes)] ++ match q.rcd with
      | some a => [(a, 8)]
      | none => [])

/-- The bytes a request writes, by the place that performs them: a scratchpad or a physical address. -/
def State.copyDst (s : State) (q : CopyReq) : List Piece :=
  (s.fetchRanges q).map (fun r => { at_ := .own r.1, len := r.2 }) ++ (s.engPieces (engAcc .wr) (s.copyAddrs q).2).map fun p => { p with at_ := s.owner p.at_ }

/-- Two pieces share a byte. -/
def Piece.meets (p q : Piece) : Bool :=
  match p.at_, q.at_ with
  | .own a, .own b => overlaps a p.len b q.len
  | .gang m a, .gang n b => m == n && overlaps a p.len b q.len
  | .glob a _ _, .glob b _ _ => overlaps a p.len b q.len
  | _, _ => false

def dstMeet (a b : List Piece) : Bool := a.any fun x => b.any x.meets

/-- Requests ahead of one in the queue. -/
def State.ahead (s : State) (q : CopyReq) : List CopyReq := s.t.eng.cpq.takeWhile (·.tag != q.tag)

/-- An active request may write: nothing ahead of it writes what it writes (R249). -/
def State.mayWrite (s : State) (q : CopyReq) : Bool :=
  q.active && (s.ahead q).all fun p => !dstMeet (s.copyDst p) (s.copyDst q)

/-- It may complete: nothing ahead of it fills an earlier slot of its ring either (R197). -/
def State.mayComplete (s : State) (q : CopyReq) : Bool :=
  s.mayWrite q && (s.ahead q).all fun p => match p.kind, q.kind with
    | .ring g _ _, .ring g' _ _ => g != g'
    | _, _ => true

/-- The 64-byte pieces of MS pages that an engine's addresses reach, each once (R233). -/
def State.msPieces (s : State) (x : Xl) (acc : Acc) (l : List (W64 × Nat)) : List Nat :=
  (l.flatMap fun a =>
    match s.access x (engAcc acc) a.1 a.2 with
    | .ok ps => (bare ps).flatMap fun p => match p.at_ with
      | .glob pa true _ => if isPeer pa then [] else (cuts 64 pa p.len).map fun c => c.1 / 64 * 64
      | _ => []
    | .error _ => []).eraseDups

/-- Memory-side units that an engine's addresses reach, one operation for each 64-byte piece (R233, R352, R354). -/
def State.engUnits (s : State) (x : Xl) (acc : Acc) (l : List (W64 × Nat)) : List Nat :=
  (s.msPieces x acc l).map s.msPoint

/-! ### Moving and completing -/

/-- The bytes that a request writes as one unit outside blocks: an MS piece of 64 bytes is one operation (R233, R265). -/
def State.unitG (s : State) (q : CopyReq) : Nat :=
  if s.msPieces (s.core.xl s.core.tlbY) .wr (s.copyAddrs q).2 = [] then 32 else 64

/-- The unit in which each index of a request is written: a block, or aligned bytes. Blocks share MS pieces within their sector alone, which
is then the unit (R233, R282). -/
def State.unitKeys (s : State) (q : CopyReq) : List (Bool × Nat) :=
  let h := handleOf q.handle
  let g := s.unitG q
  match q.kind with
  | .conv =>
    let x := xdescOf q.desc
    ((List.range (x.units g).length).zip (x.units g)).map fun u =>
      if g = 64 ∧ x.blocks.isSome = true then (false, (x.dst.toNat + u.2.1) / 256) else (true, u.1)
  | .back => (((List.range q.backUnits.length)).zip q.backUnits).map fun u =>
      if isFertite h.fmt then (if g = 64 then (false, (s.hAddr h u.2.1).toNat / 256) else (true, u.1))
      else (false, (s.hAddr h u.2.1).toNat / g)
  | _ => (s.fetchUnits q).map fun u => if isFertite h.fmt ∧ u.n ≠ 1 then (true, u.off) else (false, u.off / 32)

/-- Units of a request moved. -/
def State.moveUnits (s : State) (q : CopyReq) (ok : Bool) (is : List Nat) : Run :=
  match q.kind with
  | .conv => s.runConv q ok (s.unitG q) is
  | .back => s.runBack q ok is
  | _ => s.runFetch q ok is

/-- What a request has not moved yet. -/
def State.unitsLeft (s : State) (q : CopyReq) : List Nat :=
  (List.range (s.unitKeys q).length).filter fun i => !q.moved.done.contains i

/-- A request moves all that is left; after a failure every destination byte is written poisoned (R200). -/
def State.moveRest (s : State) (q : CopyReq) (ok : Bool) : Run :=
  let r := s.moveUnits q ok (s.unitsLeft q)
  if r.fail.isSome && !q.moved.done.isEmpty then
    let q := { q with moved := { q.moved with done := [], wrote := 0 } }
    s.moveUnits q ok (s.unitsLeft q)
  else r

/-- A request does its work. DESIGN CHOICE (log 87): where its completion record's address alone fails, the failure is recorded, the
destination stands as it was written and FAULT, in a record that is not written, says nothing. -/
def State.runCopy (s : State) (q : CopyReq) (ok : Bool) : State :=
  let r := s.moveRest q ok
  match q.kind, q.rcd with
  | .conv, some a =>
    let w := recordWord q r (r.flags ||| (xdescOf q.desc).lengthFlag)
    let e := s.engOf q ok
    let r' := ({ r with s := r.cleared }).write { e with l := tmax e.l r.t } none a (leBytes 8 w.toNat) false
    r'.s.leaveCopy q r'
  | _, _ => r.cleared.leaveCopy q r

/-- The scratchpad ranges of its own core that a request reads or writes. -/
def State.copyRanges (s : State) (q : CopyReq) : List (Nat × Nat) :=
  let (rd, wr) := s.copyAddrs q
  let own := (s.engPieces (engAcc .rd) (rd ++ wr)).filterMap fun p => match s.owner p.at_ with
    | .own off => some (off, p.len)
    | _ => none
  s.fetchRanges q ++ own ++ match q.kind with
    | .back => [(Buf.off { w0 := q.w0, w1 := q.w1, st := .draining }, q.bytes)]
    | _ => []

/-- A request waits: an open tray latch holds a write of several sectors of other modules under an intent not granted before (R395), a
gang window belongs to a PARKED member, a tile command in the midst of its writes holds its scratchpad bytes (R274), no link is up to a
module that it reaches (R385), or a conversion keeps a line of its destination locked (R244). -/
def State.copyWaits (s : State) (q : CopyReq) : Bool :=
  let (rd, wr) := s.copyAddrs q
  (!q.granted && s.quiesced (s.engPieces (engAcc .wr) wr)) || (rd ++ wr).any (fun a => s.awayAt a.1) ||
    s.engLocked (some q.tag) (s.copyRanges q) || s.farWaits (s.engPieces (engAcc .rd) (rd ++ wr)) ||
    (s.engPieces (engAcc .wr) wr).any s.pieceBusy

/-- MS pieces of a request's source that it has still to read. -/
def State.piecesLeft (s : State) (q : CopyReq) : List Nat :=
  (s.msPieces (s.core.xl s.core.tlbY) .rd (s.copyAddrs q).1).filter fun a => q.moved.got.all fun g => g.1 != a / 64

/-- Bitmap bytes that a request's addresses are asked of (R245). -/
def bitAddrs (h : Handle) (xs : List (List Nat)) : List (W64 × Nat) :=
  if h.cv then (xs.map fun x => ((h.bitAt x).1, 1)).eraseDups else []

/-- The coordinates of some units of a request. -/
def State.unitCoords (s : State) (q : CopyReq) (is : List Nat) : List (List Nat) :=
  match q.kind with
  | .conv => []
  | .back => (pick q.backUnits is).map (·.1)
  | _ => (pick (s.fetchUnits q) is).filterMap fun u => match u.src with
      | .elem x => if (handleOf q.handle).inside x then some x else none
      | _ => none

/-- Memory that some units of a request write. -/
def State.unitDsts (s : State) (q : CopyReq) (is : List Nat) : List (W64 × Nat) :=
  match q.kind with
  | .conv => (pick ((xdescOf q.desc).units (s.unitG q)) is).map fun u => ((xdescOf q.desc).dst + BitVec.ofNat 64 u.1, u.2)
  | .back => s.unitAddrs (handleOf q.handle) (pick q.backUnits is)
  | _ => []

/-- Pieces that phase isolation refuses, or that lie at a lost module, are performed at no point (R313, R354, R385). -/
def State.reachedBy (s : State) (who : Option (Nat × Nat)) (ps : List Nat) : List Nat :=
  ps.filter fun pa => !s.breachAs who pa 64 && !s.lostAt pa
def State.unbreached (s : State) (ps : List Nat) : List Nat := s.reachedBy s.phaseTask ps

/-- The logged points that some units of a request reach, the source pieces apart: their bitmap bytes, and their destinations. -/
def State.unitPoints (s : State) (q : CopyReq) (is : List Nat) : List Nat :=
  let x := s.core.xl s.core.tlbY
  let bits := bitAddrs (handleOf q.handle) (s.unitCoords q is)
  (s.unbreached (s.msPieces x .rd bits) ++ s.unbreached (s.msPieces x .wr (s.unitDsts q is))).map s.msPoint

/-- A request as it goes on. -/
def State.setCopy (s : State) (q : CopyReq) : State :=
  s.modEng fun e => { e with cpq := e.cpq.map fun p => if p.tag = q.tag then q else p }

/-- MS pieces of 64 bytes read at their units as one access, where every point lets them: the pieces with those read before. What phase
isolation refuses is left for the request's own check. -/
def State.readMsAt (s : State) (w : Issuer) (who : Option (Nat × Nat)) (l : Time) (got : MsGot) (pas : List Nat) : State × MsGot :=
  if s.reachedBy who pas ≠ pas then (s, got)
  else
    match s.logUnits w 1 (pas.map s.msPoint) with
    | (_, false) => (s, got)
    | (s', true) => pas.foldl (fun (s, got) pa =>
        let (s, t, bs, bad) := (s.fixHome pa 64).engRead l pa 64 true
        (s, (pa / 64, bs, bad, t) :: got)) (s', got)

/-- An MS piece has been read. -/
def gotPiece (got : MsGot) (pa : Nat) : Bool := got.any fun g => g.1 == pa / 64

/-- MS pieces of an engine's reads, each where its point lets it (R233, R355); those of a sector of blocks together, since a block is read as
one access (R282). -/
def State.msAhead (s : State) (w : Issuer) (e : Eng) (blk : Bool) (pas : List Nat) : State × MsGot :=
  pas.foldl (fun (s, got) pa =>
    if gotPiece got pa then (s, got)
    else s.readMsAt w e.who e.l got (if blk then pas.filter fun a => a / 256 == pa / 256 && !gotPiece got a else [pa])) (s, e.got)

/-- The pieces that are read with one: all those of its sector where the source is blocks, each of which is read as one access (R282). -/
def State.readWith (s : State) (q : CopyReq) (pa : Nat) : List Nat :=
  if isFertite (handleOf q.handle).fmt || (q.kind == .conv && isFertite (xdescOf q.desc).sty) then
    (s.piecesLeft q).filter fun a => a / 256 == pa / 256
  else [pa]

/-- One MS piece of a request's source is read at its unit. -/
def State.readAhead (s : State) (q : CopyReq) (pa : Nat) : State :=
  let (s', got) := s.readMsAt s.issuer s.phaseTask q.base q.moved.got (s.readWith q pa)
  if got = q.moved.got then s else s'.setCopy { q with granted := true, moved := { q.moved with got } }

/-- One unit of a request is moved ahead of the request's completion (R265, R355): its checks have passed for all of them, and its MS
sources are read. -/
def State.moveAhead (s : State) (q : CopyReq) (k : Nat) : State :=
  let left := s.unitsLeft q
  let keys := s.unitKeys q
  let is := left.filter fun i => keys[i]? == keys[k]?
  if !s.mayWrite q || s.copyWaits q || is.isEmpty || s.unbreached (s.piecesLeft q) != [] || (s.moveRest q true).fail.isSome then s
  else
    match s.logUnits s.issuer 1 (s.unitPoints q is) with
    | (_, false) => s
    | (s', true) =>
      let r := s'.moveUnits q true is
      (r.s.noteTlbY q.base r.used).setCopy { q with granted := true, moved := { r.toMoved with done := q.moved.done ++ is } }

/-- The request with a tag, where it is active. -/
def State.activeCopy (s : State) (tag : BitVec 16) : Option CopyReq :=
  findFirst? (fun q : CopyReq => q.tag == tag && q.active) s.t.eng.cpq

/-- One unit of the copy with a tag (R265). -/
def State.copyUnit (s : State) (tag : BitVec 16) (k : Nat) : State :=
  match s.activeCopy tag with
  | some q => s.moveAhead q k
  | none => s

/-- One MS piece of the source of the copy with a tag (R233). -/
def State.copyPiece (s : State) (tag : BitVec 16) (k : Nat) : State :=
  match s.activeCopy tag with
  | some q =>
    match (s.piecesLeft q)[k]? with
    | some pa => if s.copyWaits q then s else s.readAhead q pa
    | none => s
  | none => s

/-- In replay a request passes its points one by one (R355). -/
def State.passPoints (s : State) (tag : BitVec 16) : State :=
  let n := match s.activeCopy tag with
    | some q => ((s.piecesLeft q).length, (s.unitKeys q).length)
    | none => (0, 0)
  let s := (List.range n.1).foldl (fun s k => s.copyPiece tag (n.1 - 1 - k)) s
  (List.range n.2).foldl (fun s k => s.copyUnit tag k) s

/-- A request completes once the logged units that it still has to reach let it (R355). -/
def State.completeCopy (s : State) (q : CopyReq) (ok : Bool) : State :=
  if s.copyWaits q then s
  else
    let x := s.core.xl s.core.tlbY
    let rcd := match q.rcd with
      | some a => (s.unbreached (s.msPieces x .wr [(a, 8)])).map s.msPoint
      | none => []
    match s.logUnits s.issuer 1 ((s.unbreached (s.piecesLeft q)).map s.msPoint ++ s.unitPoints q (s.unitsLeft q) ++ rcd) with
    | (s', true) => (s'.sendFar (s.engPieces (engAcc .rd) ((s.copyAddrs q).1 ++ (s.copyAddrs q).2))).runCopy q ok
    | (_, false) => s.passPoints q.tag

/-! ## Meanings -/

/-- The next request starts: its base time is the core's lt (R248, R266); an open tray latch grants it no intent (R395). -/
def State.startCopy (s : State) : State :=
  if (s.t.eng.cpq.filter (·.active)).length < 4 ∧ s.t.ctl.freeze.isNone ∧ s.t.ctl.rho ≤ s.cyc then
    match findFirst? (fun q : CopyReq => !q.active) s.t.eng.cpq with
    | some q => s.modEng fun e => { e with cpq := e.cpq.map fun p =>
        if p.tag = q.tag then 
          { p with active := true, granted := !s.sup.quiesce, base := s.core.lt, moved := { p.moved with t := s.core.lt } } else p }
    | none => s
  else s

/-- COPY_REQUEST_START (R248). -/
def execCopyRequestStart (s : State) : Host.Outcome State Fault Refusal := .next s.startCopy

/-- COPY_COMPLETION (R248): the request with the tag; what completed copies still owe is paid too (R205). -/
def execCopyCompletion (tag : BitVec 16) (peer : PeerReply) (s : State) : Host.Outcome State Fault Refusal :=
  match findFirst? (fun q : CopyReq => q.tag == tag) s.t.eng.cpq with
  | some q => if s.mayComplete q then .next (s.completeCopy q (peer == .done)) else .next s.payOwed
  | none => .next s.payOwed

/-- Requests in the order of their promises. -/
def byPromise (x : CopyReq) : List CopyReq → List CopyReq
  | [] => [x]
  | y :: ys => if y.promise ≤ x.promise then y :: byPromise x ys else x :: y :: ys

/-- A checked request past its promise is missed (R253). -/
def State.noteMiss (s : State) (p : CopyReq → Bool) : State :=
  let due (q : CopyReq) : Bool := q.chk && !q.missed && decide (q.promise + 1 ≤ s.cyc) && p q
  let qs := s.t.eng.cpq.filter due
  let s := s.modEng fun e => { e with cpq := e.cpq.map fun q => if due q then { q with missed := true } else q }
  s.modCtl fun c => { c with missed := c.missed ++ (qs.foldl (fun l q => byPromise q l) []).map (·.tag) }

/-- PROMISE_MISS (R253). -/
def execPromiseMiss (tag : BitVec 16) (s : State) : Host.Outcome State Fault Refusal :=
  .next (s.noteMiss fun q => q.tag == tag)

/-! ## The copy schedule (R255, R256) -/

/-- The cause of a stopped schedule: translation and protection as they are, and 0x1B for what its instruction's checks refuse (R256).
DEDUCED (log 36): a poisoned table's line is a failed translation, a breach of isolation a failed protection. -/
def stopCause (c : BitVec 8) : BitVec 8 :=
  if c = 0x08 ∨ c = 0x0B then 0x08 else if c = 0x09 ∨ c = 0x19 then 0x09 else 0x1B

/-- The schedule stops at its entry, the failure being recorded. -/
def State.stopSchedule (s : State) (va : W64) (c : BitVec 8) : State :=
  (s.modEng fun e => { e with relStop := true }).deferFault va (stopCause c) s.bun.addr s.bun.seq

/-- The engine as it reads a schedule entry. -/
def State.entryEng (s : State) : Eng :=
  { xl := s.core.xl s.core.tlbY, l := s.core.lt, ok := true, who := s.phaseTask, strict := false }

/-- The entry at the release pointer read, wherever it stands. -/
def State.readEntry (s : State) (va : W64) : Run × List Byte × Bool := (Run.start s s.core.lt).read s.entryEng va 32

/-- The words of the entry at the release pointer, or why it cannot be read. -/
def State.entryWords (s : State) (va : W64) : Except (BitVec 8) (List W64) :=
  let (r, bs, bad) := s.readEntry va
  match r.fail with
  | some (_, c) => .error c
  | none => if bad then .error 0x08 else .ok ((List.range 4).map fun i => BitVec.ofNat 64 (ofLe ((bs.drop (8 * i)).take 8)))

/-- The read of an entry takes its times, and its translation joins the TLB; one that a walk refuses has read the tables (R266, R344). -/
def State.noteEntry (s : State) (va : W64) : State :=
  let (r, _, _) := s.readEntry va
  (r.s.engRefused s.entryEng.xl s.core.lt r.fail r.span).noteTlbY s.core.lt r.used

/-- A `bset` of a buffer has issued and not taken effect. -/
def State.bufPending (s : State) (b : BitVec 6) : Bool :=
  (s.t.q.fly ++ s.t.q.placket).any fun f => match f.eff with
    | .buf b' _ _ => b' == b
    | _ => false

/-- The buffer of an entry is in the state that its instruction requires, and its ring has a free slot. DEDUCED (log 36): not while a `bset`
of the buffer is still to take effect. -/
def State.entryReady (s : State) (w : Nat) : Bool :=
  let b := BitVec.ofNat 6 (field w 18 6)
  let x := s.buf b
  let rg := s.ring x.rg
  if s.bufPending b then false
  else if field w 17 1 = 1 then x.st == .full && !x.rl
  else x.st == .free && !(x.rl && decide (rg.nt ≤ rg.cnt + s.reserved x.rg))

/-- An entry with its buffer ready enters the queue, or stops the schedule: its zero fields, its handle and the size of its region
are checked as its instruction checks them. -/
def State.enterEntry (s : State) (va : W64) (ws : List W64) : State :=
  let w := wordAt ws 0
  let b := BitVec.ofNat 6 (field w 18 6)
  let h := BitVec.ofNat 8 (field w 24 8)
  let xs := coords (ws.getD 1 0) (ws.getD 2 0)
  let s' := s.modBun fun b => { b with mret := none }
  let zeros : Option Trap := trapIf (field w 0 17 != 0 || wordAt ws 3 != 0) 0x1B va
  match firstTrap [zeros, if field w 17 1 = 1 then s'.copyoTraps b h xs else s'.copyTraps b h xs] with
  | some t => s.stopSchedule va t.cause
  | none =>
    let s := s.readHandle h.toNat
    let s := if field w 17 1 = 1 then s.enterBack b h xs else s.enterFetch b h xs
    s.modEng fun e => { e with relp := e.relp + 1 }

/-- The entry at the release pointer, if it is due, its buffer ready and its logged point lets it (R352); a record without an address names no schedule (R256, R300). -/
def State.releaseEntry (s : State) : State :=
  match s.t.task with
  | none => s
  | some t =>
    if s.t.eng.relStop ∨ t.sched = 0 ∨ t.schn ≤ s.t.eng.relp ∨ s.copyFull ∨ s.t.ctl.freeze.isSome ∨ s.t.ctl.ending.isSome ∨
        s.cyc < s.t.ctl.rho then s
    else
      let va := t.sched + BitVec.ofNat 64 (32 * s.t.eng.relp)
      let ps := s.engPieces (engAcc .rd) [(va, 32)]
      if s.farWaits ps then s
      else
      match s.entryWords va with
      | .error c => (s.noteEntry va).stopSchedule va c
      | .ok ws =>
        if s.t.sys.stage.toNat < field (wordAt ws 0) 32 32 ∨ s.entryReady (wordAt ws 0) = false then s
        else
          match s.logUnits s.issuer 1 (s.engUnits s.entryEng.xl .rd [(va, 32)]) with
          | (s', true) => ((s'.sendFar ps).noteEntry va).enterEntry va ws
          | (_, false) => s

/-- SCHEDULE_ENTRY_RELEASE (R256). -/
def execScheduleEntryRelease (s : State) : Host.Outcome State Fault Refusal := .next s.releaseEntry

/-- Entries released in one cycle: as many as the queue has room for. -/
def State.releaseAll (s : State) : Nat → State
  | 0 => s
  | n + 1 =>
    let s' := s.releaseEntry
    if s'.t.eng.relp = s.t.eng.relp then s' else s'.releaseAll n

end Sys2Proof.Machine
end

