-- ==== Sys2Proof/Machine/Handles.lean ====
section
/-!
DEFINITION. Writing handles and relayout (spec 10 R213, R214, 13 R236, R239, R242-R247): `hset`, `rlay` and the Topiary engine.
-/
namespace Sys2Proof.Machine
open Sys2Proof

/-! ## HSET (R213, R239) -/

/-- The descriptor at an address, as a load reads it: its words and whether they are poisoned. -/
def State.descWords (s : State) (va : W64) : State × List W64 × Bool :=
  let ps := s.readPieces (vectorAcc .rd) va 64
  let (s, bs, bad) := (s.noteWalks ps).readPs (bare ps)
  (s, (List.range 8).map fun i => BitVec.ofNat 64 (ofLe ((bs.drop (8 * i)).take 8)), bad)

/-- The trap of a load that meets a breach of isolation or poison (R176, R313). -/
def State.descTrap (s : State) (va : W64) : Option Trap :=
  if (bare (s.readPieces (vectorAcc .rd) va 64)).any s.breach then some { cause := 0x19, slot := .c, tval := va, sub := 0 }
  else if (s.descWords va).2.2 then some { cause := 0x0B, slot := .c, tval := va, sub := 0 }
  else none

/-- The context's format windows as they stand now: as its last placement read them (R226, R239). -/
def State.ctxFws (s : State) : List W64 :=
  match s.t.task.bind fun t => spFind s.ctxs t.ctx.toNat with
  | some c => c.fws
  | none => s.fws

/-- A handle number beyond 255 has no reason code in R239: its trap value is free (log 5). DESIGN CHOICE (log 105): the descriptor is read as
a vector access reads, so one on an MS page is refused with 0x09. -/
def State.gateHset (s : State) (b c : BitVec 6) : Gate :=
  let va := s.sGet c
  let h := s.sGet b
  let why := hReason s.ctxFws (s.descWords va).2.1
  { Gate.c (.hset b c) [b, c] [] with
    hold := !s.coreDone || s.awayAt va || (bare (s.readPieces (vectorAcc .rd) va 64)).any s.pieceWaits
    trap := firstTrap [
      trapIf (va.toNat % 64 != 0) 0x06 va,
      s.readTrap (vectorAcc .rd) va 64,
      s.descTrap va,
      trapIf (decide (256 ≤ h.toNat)) 0x1B (Config.freeWord s.fresh),
      trapIf (why != 0) 0x1B (BitVec.ofNat 64 why),
      trapIf (s.handle h.toNat).cv 0x1C h] }

/-- HSET (R213): the handle takes the descriptor in the next cycle. -/
def execHset (b c : BitVec 6) (s : State) : Host.Outcome State Fault Refusal :=
  issue (s.gateHset b c) (fun s =>
    let (s', ws, _) := s.descWords (s.sGet c)
    s'.fly 1 .c (.handle (s.handleAt (s.sGet b).toNat) ws)) s

/-! ## RLAY (R214, R242, R243) -/

/-- Bytes of the bitmap. -/
def Handle.bmBytes (h : Handle) : Nat := cdiv h.nTiles 8

/-- A handle's words as a descriptor with another base and tag. -/
def retag (ws : List W64) (base : W64) (tag : Nat) : List W64 :=
  let w1 := BitVec.ofNat 64 (setField (wordAt ws 1 % 2 ^ 16) 5 3 tag)
  [base, w1, ws.getD 2 0, ws.getD 3 0, ws.getD 4 0, ws.getD 5 0, 0, 0]

/-- The `rlay` resumes a halted conversion (R242). -/
def Handle.resumes (h : Handle) (base : W64) (tag : Nat) : Bool :=
  h.cv && h.halt && h.ttag == tag && h.tbase == base.toNat

/-- The new storage meets the old, or the bitmap meets either (R214, R242). -/
def Handle.clash (h : Handle) (base : W64) (tag : Nat) : Bool :=
  overlaps base.toNat (h.size tag) h.base (h.size h.tag) || overlaps h.cbmp h.bmBytes base.toNat (h.size tag) ||
    overlaps h.cbmp h.bmBytes h.base (h.size h.tag)

/-- The checks of `rlay`. -/
def rlayTraps (fws ws : List W64) (n base : W64) (tag : Nat) : Option Trap :=
  let h := handleOf ws
  firstTrap [
    trapIf (!h.v || decide (5 < tag) || hReason fws (retag ws base tag) != 0 || h.cbmp == 0 ||
      (tag != h.tag && (decide (4 ≤ tag) || decide (4 ≤ h.tag)))) 0x1B n,
    trapIf ((h.cv || h.clash base tag) && !h.resumes base tag) 0x1C n]

def topQueue (s : State) (die : Nat) : List TopReq := spGet [] s.topiary die
def State.setTop (s : State) (die : Nat) (l : List TopReq) : State := { s with topiary := spSet [] s.topiary die l }

/-- A request of the Topiary engine as it works: its context's translation through the engine's TLB, its base time risen to every time it
has assigned (R266). -/
def State.topEng (s : State) (die : Nat) (q : TopReq) : Eng :=
  { xl := { ctx := q.ctx, root := q.ptroot, fws := q.fws, prv := q.prv, tlb := spGet [] s.topTlb die }
    l := tmax q.base q.moved.t, got := q.moved.got, ok := true, who := if s.recF q.rcd 3 16 1 = 1 then some (q.rcd, q.ctx.toNat) else none, strict := false
    core := (findFirst? (fun c : Core => optAll c.t.task (fun t => t.rcd == q.rcd && t.member == q.member) && c.t.task.isSome)
      s.cores).map (·.id) }

/-- The running task's request. -/
def State.topReq (s : State) (img : Nat) : Option TopReq :=
  match s.t.task with
  | none => none
  | some t => some
    { img, ctx := t.ctx, ptroot := t.ptroot, fws := t.fws, rcd := t.rcd, member := t.member, bun := s.bun.addr,
      seq := s.bun.seq, base := s.core.lt, prv := s.t.sys.prv, moved := { t := s.core.lt } }

/-- The engine reaches a window, where a handle's bitmap may lie, as the issuing task has it (R163, R267). DESIGN CHOICE (log 90): once that
task stands on no core the access is refused. -/
def Run.topGo {α : Type} (r : Run) (e : Eng) (va n : Nat) (no : α) (f : Run → Run × α) : Run × α :=
  if touchesWindow va n then
    match e.core with
    | some id =>
      let (r', x) := f { r with s := r.s.focus id }
      ({ r' with s := r'.s.focus r.s.core.id }, x)
    | none => (r.failed (BitVec.ofNat 64 va) 0x09, no)
  else f r

def Run.topRead (r : Run) (e : Eng) (va n : Nat) : Run × List Byte × Bool :=
  r.topGo e va n ([], true) fun r => r.read e (BitVec.ofNat 64 va) n
def Run.topWrite (r : Run) (e : Eng) (blk : Option Nat) (va : Nat) (bs : List Byte) (bad : Bool) : Run :=
  (r.topGo e va bs.length () fun r => (r.write e blk (BitVec.ofNat 64 va) bs bad, ())).1

/-- The checks of a read and of a write, nothing being moved. -/
def Run.tryRead (r : Run) (e : Eng) (va : W64) (n : Nat) : Run :=
  match r.s.access e.xl (engAcc .rd) va n with
  | .error c => r.failed va (subOf c) n
  | .ok ps => if (bare ps).any (e.breach r.s) then r.failed va 0x19 else r
def Run.topPeek (r : Run) (e : Eng) (va n : Nat) : Run := (r.topGo e va n () fun r => (r.tryRead e (BitVec.ofNat 64 va) n, ())).1
def Run.topTry (r : Run) (e : Eng) (blk : Option Nat) (va n : Nat) : Run :=
  (r.topGo e va n () fun r => (r.tryWrite e blk (BitVec.ofNat 64 va) n, ())).1

/-- The parts of a bitmap that an `rlay` has still to zero: its 64-byte MS pieces go one by one where their points make it wait. -/
def Handle.bmRanges (h : Handle) (zeroed : List (Nat × Time)) : List (Nat × Nat) :=
  if zeroed.isEmpty then [(h.cbmp, h.bmBytes)]
  else (cuts 64 h.cbmp h.bmBytes).filter fun c => zeroed.all fun z => z.1 != c.1 / 64

/-- Zeros written over what is left of the bitmap. -/
def State.zeroBitmap (s : State) (die : Nat) (q : TopReq) (h : Handle) : Run :=
  (h.bmRanges s.t.ctl.zeroed).foldl (fun r c => r.topWrite (s.topEng die q) none c.1 (List.replicate c.2 0) false) (Run.start s q.base)

/-- Logged units that zeroing the bitmap still has to reach; none where it fails. -/
def State.bitmapUnits (s : State) (die : Nat) (h : Handle) : List Nat :=
  match s.topReq 0 with
  | some q =>
    if (s.zeroBitmap die q h).fail.isSome then []
    else s.engUnits (s.topEng die q).xl .wr ((h.bmRanges s.t.ctl.zeroed).map fun c => (BitVec.ofNat 64 c.1, c.2))
  | none => []

/-- The pieces of the bitmap. -/
def State.bitmapPieces (s : State) (die : Nat) (h : Handle) : List Piece :=
  match s.topReq 0 with
  | some q =>
    match s.access (s.topEng die q).xl (engAcc .wr) (BitVec.ofNat 64 h.cbmp) h.bmBytes with
    | .ok ps => bare ps
    | .error _ => []
  | none => []

/-- The engine cannot accept the request, or zero the bitmap, yet: its queue is full, or the bitmap's lines wait for a tray latch to close
(R395), for a link (R385) or for a tile's commit (R244). -/
def State.rlayStuck (s : State) (h : Handle) (base : W64) (tag : Nat) : Bool :=
  let die := dieOf s.core.id
  let ps := s.bitmapPieces die h
  decide (16 ≤ (topQueue s die).length) ||
    (!h.resumes base tag && (s.quiesced ps || s.farWaits ps || ps.any s.pieceBusy))

def State.gateRlay (s : State) (b c : BitVec 6) (tag : BitVec 3) : Gate :=
  let n := s.sGet b &&& 0xFF
  let ws := s.handleWords n.toNat
  let h := handleOf ws
  { Gate.c (.rlay b c tag) [b, c] [] with
    hold := s.rlayStuck h (s.sGet c) tag.toNat ||
      (!h.resumes (s.sGet c) tag.toNat && !(s.logUnits s.issuer 1 (s.bitmapUnits (dieOf s.core.id) h)).2)
    trap := rlayTraps s.ctxFws ws n (s.sGet c) tag.toNat }

/-- Word 1 of a handle with HALT, CV and TTAG replaced. -/
def word1With (w : W64) (halt cv : Bool) (ttag : Nat) : W64 :=
  BitVec.ofNat 64 (setField (setField (setField w.toNat 20 1 halt.toNat) 19 1 cv.toNat) 16 3 ttag)

/-- The translations used by the engine of a die join its TLB. -/
def State.noteTopTlb (s : State) (die : Nat) (q : TopReq) (es : List TlbEntry) : State :=
  let old := spGet [] s.topTlb die
  let new := es.filter fun e => !old.contains e
  let s := s.engWalks q.base q.ptroot new
  let (n, l) := new.foldl (tlbPut 256) (s.fresh, old)
  { s with fresh := n, topTlb := spSet [] s.topTlb die l }

/-- One MS piece of the bitmap is zeroed at its unit, where its point lets it (R233, R355). -/
def State.zeroPiece (s : State) (die : Nat) (q : TopReq) (c : Nat × Nat) : State :=
  let e := s.topEng die q
  match s.engUnits e.xl .wr [(BitVec.ofNat 64 c.1, c.2)] with
  | [] => s
  | us =>
    match s.logUnits s.issuer 1 us with
    | (_, false) => s
    | (s', true) =>
      let r := (Run.start s' q.base).topWrite e none c.1 (List.replicate c.2 0) false
      (r.cleared.noteTopTlb die q r.used).modCtl fun k => { k with zeroed := (c.1 / 64, r.t) :: k.zeroed }

/-- An `rlay` that is held by the points of its bitmap alone zeroes the pieces whose points let it (R243, R355). -/
def State.zeroAhead (s : State) (b c : BitVec 6) (tag : BitVec 3) : State :=
  let h := s.handle (s.sGet b &&& 0xFF).toNat
  let die := dieOf s.core.id
  match s.topReq 0 with
  | some q =>
    if s.rlayStuck h (s.sGet c) tag.toNat || h.resumes (s.sGet c) tag.toNat || (s.zeroBitmap die q h).fail.isSome then s
    else ((cuts 64 h.cbmp h.bmBytes).filter fun c => s.t.ctl.zeroed.all fun z => z.1 != c.1 / 64).foldl (·.zeroPiece die q ·) s
  | none => s

/-- The conversion starts or resumes (R243): the request is accepted and the bitmap cleared; where the bitmap faults the
conversion begins halted (R247). -/
def State.startConv (s : State) (b c : BitVec 6) (tag : BitVec 3) : State :=
  let n := s.sGet b &&& 0xFF
  let img := s.handleAt n.toNat
  let ws := s.handleWords n.toNat
  let h := handleOf ws
  let die := dieOf s.core.id
  let s := s.readHandle n.toNat
  match s.topReq img with
  | none => s
  | some q =>
    let join (s : State) : State := s.modEng fun e =>
      { e with conv := { img, die } :: e.conv.filter (·.img != img) }
    let words (halt : Bool) (done : W64) : List W64 :=
      [ws.getD 0 0, word1With (ws.getD 1 0) halt true tag.toNat, ws.getD 2 0, ws.getD 3 0, ws.getD 4 0, ws.getD 5 0,
        s.sGet c, done]
    if h.resumes (s.sGet c) tag.toNat then
      ((join s).setTop die (topQueue s die ++ [q])).fly 1 .c (.handle img (words false (ws.getD 7 0)))
    else
      let r := s.zeroBitmap die q h
      match r.fail with
      | some (a, cause) =>
        let s := s.engRefused (s.topEng die q).xl q.base r.fail r.span
        (((join s).addConv q.ctx 1).deferFault a cause s.bun.addr s.bun.seq).fly 1 .c (.handle img (words true 0))
      | none =>
        let t := s.t.ctl.zeroed.foldl (fun t z => tmax t z.2) q.base
        let r := ((s.logUnits s.issuer 1 (s.bitmapUnits die h)).1.sendFar (s.bitmapPieces die h)).zeroBitmap die q h
        let s := ((r.cleared.noteTopTlb die q r.used).addConv q.ctx 1).modCtl fun k => { k with zeroed := [] }
        ((join s).setTop die (topQueue s die ++ [{ q with base := tmax t r.t, next := some 0 }])).fly 1 .c
          (.handle img (words false 0))

def execRlay (b c : BitVec 6) (tag : BitVec 3) (s : State) : Host.Outcome State Fault Refusal :=
  issue (s.gateRlay b c tag) (fun s => s.startConv b c tag) s

/-! ## The Topiary engine (R244, R246, R247) -/

/-- Coordinates of a tile: its first element. -/
def Handle.tileStart (h : Handle) (τ : Nat) : List Nat :=
  let n0 := cdiv (h.e 0) h.t0
  let n1 := cdiv (h.e 1) 128
  let m := τ / (n0 * n1)
  [τ % n0 * h.t0, τ / n0 % n1 * 128, m % h.e 2, m / h.e 2]

/-- Code width in bits of a packed format. -/
def codeBits (fmt : Nat) : Nat := if fmt = 13 then 4 else if fmt = 14 then 3 else 8

/-- What a tile moves: old offset (none for padding), new offset, bytes, bits kept of a block. DEDUCED (log 57): bytes of a sector behind its
blocks are no padding. -/
def Handle.tileMoves (h : Handle) (τ : Nat) : List (Option Nat × Nat × Nat × Nat) :=
  let x := h.tileStart τ
  match hBlk h.tag h.fmt with
  | some (bl, bb, _) =>
    (List.range 128).flatMap fun j => (List.range (h.t0 / bl)).filterMap fun i =>
      let y := along x (bl * i) j
      if h.inside y then
        let keep := if isFertite h.fmt then 8 * bb else codeBits h.fmt * min bl (h.e 0 - y.getD 0 0)
        some (some (h.base + h.off h.tag y), h.tbase + h.off h.ttag y, bb, keep)
      else none
  | none =>
    let n := elemBytes h.fmt
    (List.range 128).flatMap fun j => (List.range 128).filterMap fun i =>
      let y := along x i j
      if h.inside y then some (some (h.base + h.off h.tag y), h.tbase + h.off h.ttag y, n, 8 * n)
      else if h.ttag = 2 ∨ h.ttag = 3 then some (none, h.tbase + h.off h.ttag y, n, 8 * n)
      else none

/-- Where a handle of a Fertite format is stored, the engine writes whole blocks. -/
def Handle.ft (h : Handle) : Option Nat := if isFertite h.fmt then some h.fmt else none

/-- A handle holds blocks. -/
def Handle.packed (h : Handle) : Bool := (hBlk h.tag h.fmt).isSome

/-- A tile's moves as the units in which they are performed: a block, or the elements of `g` aligned bytes of the new storage. With `g` = 64,
that is on MS pages, blocks share MS pieces within their sector alone, which is then the unit (R233, R265, R282). -/
def Handle.tileUnits (h : Handle) (g τ : Nat) : List (List (Option Nat × Nat × Nat × Nat)) :=
  let ms := h.tileMoves τ
  let key (m : Option Nat × Nat × Nat × Nat) : Nat :=
    if h.packed then (if g = 64 then m.2.1 / 256 else m.2.1) else m.2.1 / g
  ((ms.map key).eraseDups).map fun k => ms.filter fun m => key m == k

/-- Old and new storage of some moves. -/
def moveSrcs (ms : List (Option Nat × Nat × Nat × Nat)) : List (W64 × Nat) :=
  ms.filterMap fun m => m.1.map fun a => (BitVec.ofNat 64 a, m.2.2.1)
def moveDsts (ms : List (Option Nat × Nat × Nat × Nat)) : List (W64 × Nat) := ms.map fun m => (BitVec.ofNat 64 m.2.1, m.2.2.1)

/-- A conversion's base time has risen to every time it has assigned (R266). -/
def Run.risen (r : Run) (e : Eng) : Eng := { e with l := tmax e.l r.t }

/-- One unit moved: read from old storage, then written to new storage at one time (R244, R266). -/
def Run.moveTile (r : Run) (e : Eng) (h : Handle) (ms : List (Option Nat × Nat × Nat × Nat)) : Run :=
  let (r, out) := ms.foldl (fun (r, out) (o, d, n, keep) =>
    match o with
    | none => (r, out ++ [(d, List.replicate n 0, false)])
    | some a =>
      let (r, bs, bad) := Run.topRead r e a n
      (r, out ++ [(d, leBytes n (ofLe bs % 2 ^ keep), bad)])) (r, [])
  out.foldl (fun r' o => r'.topWrite (r.risen e) h.ft o.1 o.2.1 o.2.2) { r with mine := [] }

/-- The checks of some moves. -/
def Run.tryMoves (r : Run) (e : Eng) (h : Handle) (ms : List (Option Nat × Nat × Nat × Nat)) : Run :=
  ms.foldl (fun r m =>
    let r := match m.1 with
      | some a => r.topPeek e a m.2.2.1
      | none => r
    r.topTry e h.ft m.2.1 m.2.2.1) r

/-- The checks of a tile's commit: its byte of the bitmap is read and written. -/
def Run.tryBit (r : Run) (e : Eng) (h : Handle) (τ : Nat) : Run := (r.topPeek e (h.cbmp + τ / 8) 1).topTry e none (h.cbmp + τ / 8) 1

/-- The bit of a tile set (R244). -/
def Run.setBit (r : Run) (e : Eng) (h : Handle) (τ : Nat) : Run :=
  let (r, bs, bad) := { r with mine := [] }.topRead e (h.cbmp + τ / 8) 1
  r.topWrite (r.risen e) none (h.cbmp + τ / 8) (leBytes 1 (ofLe bs ||| 2 ^ (τ % 8))) bad

/-- A handle's image written on path L. -/
def State.putHandle (s : State) (img : Nat) (l : Time) (ws : List W64) : State × Time :=
  s.engWrite l img (ws.flatMap fun w => leBytes 8 w.toNat) false none false

/-- A change at the core on which a task stands; none where it is not placed. -/
def State.atTask (s : State) (r m : Nat) (f : Core → Core) : State :=
  let here (c : Core) : Bool :=
    match c.t.task with
    | some t => t.rcd == r && t.member == m
    | none => false
  let g (c : Core) : Core := if here c then f c else c
  { s with core := g s.core, others := s.others.map g }

def Core.mapT (c : Core) (f : TaskSpan → TaskSpan) : Core := { c with t := f c.t }

/-- The issuing task of a Topiary request as an issuer at logged points. -/
def State.topIssuer (s : State) (q : TopReq) : Issuer := { s.outside q.ctx with m := q.member, rcd := q.rcd / 256 }

/-- HALT := 1, the lock released, the fault recorded for the issuing task unless its `end` has issued, the next request (R247). -/
def State.haltConv (s : State) (die : Nat) (q : TopReq) (a : W64) (cause : BitVec 8) (n : Nat := 1) : State :=
  let ws := s.rdWords q.img 8
  let s := s.engRefused (s.topEng die q).xl q.base (some (a, cause)) n
  let s := (s.putHandle q.img q.base (ws.set 1 (word1With (ws.getD 1 0) true true (field (wordAt ws 1) 16 3)))).1
  let s := s.setTop die (topQueue s die).tail
  s.atTask q.rcd q.member fun c => c.mapT fun t =>
    if t.ctl.ending.isSome then t else { t with ctl := t.ctl.deferFault a cause q.bun q.seq }

/-- The request at the head of a die's queue as it goes on. -/
def State.headTop (s : State) (die : Nat) (q : TopReq) : State := s.setTop die (q :: (topQueue s die).tail)

/-- Every task that started or resumed a conversion takes note of a time of it (R266, R272). -/
def State.noteConv (s : State) (img : Nat) (f : Engines → Engines) : State :=
  s.everySpan fun u => if u.eng.conv.any (·.img == img) then { u with eng := f u.eng } else u

/-- The pieces of some accesses of a die's engine. -/
def State.topPieces (s : State) (e : Eng) (acc : Acc) (l : List (W64 × Nat)) : List Piece :=
  l.flatMap fun m =>
    match s.access e.xl (engAcc acc) m.1 m.2 with
    | .ok ps => bare ps
    | .error _ => []

/-- The byte of a bitmap that holds a tile's bit. -/
def Handle.bitByte (h : Handle) (τ : Nat) : W64 × Nat := (BitVec.ofNat 64 (h.cbmp + τ / 8), 1)

/-- The lowest tile whose bit is 0 is found: the bitmap is read, each of its MS pieces where its point lets it (R243, R247, R355). DEDUCED
(log 80): a conversion sets its bits in ascending order, so the tiles from there on are those that it has still to convert. -/
def State.topFind (s : State) (die : Nat) (q : TopReq) (h : Handle) : State :=
  let e := { s.topEng die q with got := q.bits }
  let ps := s.topPieces e .rd [(BitVec.ofNat 64 h.cbmp, h.bmBytes)]
  match ((Run.start s e.l).topPeek e h.cbmp h.bmBytes).fail with
  | some (a, c) => s.haltConv die q a c h.bmBytes
  | none =>
    if s.farWaits ps then s
    else
      let pas := s.reachedBy e.who (s.msPieces e.xl .rd [(BitVec.ofNat 64 h.cbmp, h.bmBytes)])
      let (s, bits) := s.msAhead (s.topIssuer q) e false pas
      if pas.all (gotPiece bits) then
        let (r, bs, _) := (Run.start (s.sendFar ps) q.moved.t).topRead { e with got := bits } h.cbmp h.bmBytes
        let τ := findFirst? (fun τ => !((bs.getD (τ / 8) 0).toNat.testBit (τ % 8))) (List.range h.nTiles)
        (r.s.noteTopTlb die q r.used).headTop die { q with next := some (τ.getD h.nTiles), bits := [], moved := { t := r.t } }
      else s.headTop die { q with bits }

/-- A tile is locked (R244): all of its accesses pass their checks, an open tray latch holds none of its writes (R395), links are up to where
they go (R385), and no other conversion keeps their lines locked. -/
def State.topLock (s : State) (die : Nat) (q : TopReq) (h : Handle) (τ : Nat) : State :=
  let e := s.topEng die q
  let ms := h.tileMoves τ
  let src := s.topPieces e .rd (moveSrcs ms)
  let dst := s.topPieces e .wr (moveDsts ms)
  let bit := s.topPieces e .wr [h.bitByte τ]
  let r := ((Run.start s e.l).tryMoves e h ms).tryBit e h τ
  match r.fail with
  | some (a, c) => s.haltConv die q a c r.span
  | none =>
    if s.quiesced dst || s.farWaits (src ++ dst ++ bit) || (dst ++ bit).any s.pieceBusy then s
    else
      let line (p : Piece) : List Nat := match p.at_ with
        | .glob pa _ _ => (cuts 1024 pa p.len).map fun c => c.1 / 1024
        | _ => []
      (s.sendFar (src ++ dst ++ bit)).headTop die { q with locked := true, lines := ((src ++ dst).flatMap line).eraseDups }

/-- The request at the head of a die's queue finds its next tile and locks it. -/
def State.topReady (s : State) (die : Nat) : State :=
  match topQueue s die with
  | [] => s
  | q :: _ =>
    let h := handleOf (s.rdWords q.img 8)
    if !h.cv || h.halt || q.locked then s
    else
      match q.next with
      | none => s.topFind die q h
      | some τ => if τ < h.nTiles then s.topLock die q h τ else s

/-- The tile that a die's engine holds locked. -/
def State.topWork (s : State) (die : Nat) : Option (TopReq × Handle × Nat) :=
  match topQueue s die with
  | [] => none
  | q :: _ => if q.locked then q.next.map fun τ => (q, handleOf (s.rdWords q.img 8), τ) else none

/-- MS pieces of old storage that a tile has still to read. -/
def State.topLeft (s : State) (die : Nat) (q : TopReq) (h : Handle) (τ : Nat) : List Nat :=
  let e := s.topEng die q
  (s.reachedBy e.who (s.msPieces e.xl .rd (moveSrcs (h.tileMoves τ)))).filter fun pa => !gotPiece q.moved.got pa

/-- Some of them are read, each where its point lets it. -/
def State.topAhead (s : State) (die : Nat) (q : TopReq) (h : Handle) (pas : List Nat) : State :=
  let (s, got) := s.msAhead (s.topIssuer q) (s.topEng die q) h.packed pas
  s.headTop die { q with moved := { q.moved with got } }

/-- The units of a tile. -/
def State.topUnits (s : State) (die : Nat) (q : TopReq) (h : Handle) (τ : Nat) : List (List (Option Nat × Nat × Nat × Nat)) :=
  h.tileUnits (if s.msPieces (s.topEng die q).xl .wr (moveDsts (h.tileMoves τ)) = [] then 32 else 64) τ

/-- One unit of the tile that a die's engine holds locked is moved, once its MS sources are read and its own points let it. -/
def State.topUnit (s : State) (die : Nat) (us : List (List (Option Nat × Nat × Nat × Nat))) (k : Nat) : State :=
  match s.topWork die, us[k]? with
  | some (q, h, _), some ms =>
    let e := s.topEng die q
    let r := (Run.start s e.l).tryMoves e h ms
    if q.moved.done.contains k || !((s.reachedBy e.who (s.msPieces e.xl .rd (moveSrcs ms))).all (gotPiece q.moved.got)) then s
    else
      match r.fail with
      | some (a, c) => s.haltConv die q a c r.span
      | none =>
        match s.logUnits (s.topIssuer q) 1 (s.engUnits e.xl .wr (moveDsts ms)) with
        | (_, false) => s
        | (s', true) =>
          let r := ({ q.moved with s := s', fail := none, used := [] } : Run).moveTile e h ms
          (r.s.noteTopTlb die q r.used).headTop die { q with moved := { r.toMoved with done := k :: q.moved.done } }
  | _, _ => s

/-- The tile that a die's engine holds locked commits, all of its `n` units being moved: C_τ (R244). DESIGN CHOICE (log 108): at an MS page
the bitmap's byte is read and written as one operation. -/
def State.topCommit (s : State) (die n : Nat) : State :=
  match s.topWork die with
  | none => s
  | some (q, h, τ) =>
    let e := s.topEng die q
    let r := (Run.start s e.l).tryBit e h τ
    if q.moved.done.length < n then s
    else
      match r.fail with
      | some (a, c) => s.haltConv die q a c
      | none =>
        match s.logUnits (s.topIssuer q) 1 (s.engUnits e.xl .wr [h.bitByte τ]) with
        | (_, false) => s
        | (s', true) =>
          let r := ({ q.moved with s := s', fail := none, used := [] } : Run).setBit e h τ
          let s := r.cleared.noteTopTlb die q r.used
          let ws := s.rdWords q.img 8
          let (s, t) := s.putHandle q.img (tmax e.l r.t) (ws.set 7 (BitVec.ofNat 64 (h.cdone + 1)))
          (s.noteConv q.img fun u => u.noteFar r.far r.t r.peers).headTop die
            { q with base := t, next := some (τ + 1), locked := false, lines := [], moved := { t := t } }

/-- The next tile of a die's engine: found, locked, copied and committed (R244), as far as its points and links let it. -/
def State.topTile (s : State) (die : Nat) : State :=
  let s := (s.topReady die).topReady die
  match s.topWork die with
  | none => s
  | some (q, h, τ) =>
    let us := s.topUnits die q h τ
    let s := s.topAhead die q h (s.topLeft die q h τ)
    ((List.range us.length).foldl (fun s k => s.topUnit die us k) s).topCommit die us.length

/-- One piece of it alone (R265, R355): an MS piece of old storage that is still to be read, or else a unit to be moved. -/
def State.tileUnit (s : State) (die k : Nat) : State :=
  let s := (s.topReady die).topReady die
  match s.topWork die with
  | none => s
  | some (q, h, τ) =>
    let left := s.topLeft die q h τ
    match left, left[k]? with
    | [], _ => s.topUnit die (s.topUnits die q h τ) k
    | _, some pa => s.topAhead die q h (if h.packed then left.filter fun a => a / 256 == pa / 256 else [pa])
    | _, none => s

/-- TOPIARY_TILE_CONVERT (R244). -/
def execTopiaryTileConvert (die : BitVec 6) (s : State) : Host.Outcome State Fault Refusal := .next (s.topTile die.toNat)

/-- The conversion leaves the tasks that started or resumed it (R246). -/
def Engines.dropConv (e : Engines) (img : Nat) : Engines := { e with conv := e.conv.filter (·.img != img) }

def State.forgetConv (s : State) (img : Nat) : State :=
  s.everySpan fun t => { t with eng := t.eng.dropConv img }

/-- Point D: every tile being converted, the handle takes its new base and tag (R244), and an access that read it before goes to the
new storage without its bitmap, which may be used anew (R246). Its time is noted for every task that started or resumed the conversion, on
path F too where the conversion wrote lines of another module (R272). -/
def State.topDrop (s : State) (die : Nat) : State :=
  match topQueue s die with
  | [] => s
  | q :: qs =>
    let ws := s.rdWords q.img 8
    let h := handleOf ws
    if !h.cv || h.halt || q.locked || optAll q.next (fun τ => decide (τ < h.nTiles)) then s
    else
      let w1 := setField (word1With (ws.getD 1 0) false false 0).toNat 5 3 h.ttag
      let new := [BitVec.ofNat 64 h.tbase, BitVec.ofNat 64 w1, ws.getD 2 0, ws.getD 3 0, ws.getD 4 0, ws.getD 5 0, 0, 0]
      let far := s.roomFar (s.topEng die q).xl q.img h
      let (s, t) := s.putHandle q.img (tmax q.base q.moved.t) new
      let s := s.everySpan (·.redirect q.img
        (fun k => k.cv && k.sameRoom h && k.tbase == h.tbase && k.ttag == h.ttag) new true)
      let s := s.noteConv q.img fun u => (u.noteTime 4 t).noteFar far t []
      ((s.setTop die qs).forgetConv q.img).addConv q.ctx (-1)

/-- TOPIARY_DROP (R244). -/
def execTopiaryDrop (die : BitVec 6) (s : State) : Host.Outcome State Fault Refusal := .next (s.topDrop die.toNat)

end Sys2Proof.Machine
end

