-- ==== Sys2Proof/Machine/Hash.lean ====
section
/-!
DEFINITION. The page hash tree and its snapshots (spec 24 R356, R357, 10 R218).
-/
namespace Sys2Proof.Machine
open Sys2Proof

/-- A hash range is valid: its V bit, and LIMIT not below BASE. -/
def hrValid (r : Nat × Nat) : Bool := field r.1 0 1 == 1 && decide (field r.1 16 41 ≤ field r.2 16 41)

/-- The granules of the valid ranges, each once, at its first place (R356). -/
def hashPages (rs : List (Nat × Nat)) : List Nat :=
  (rs.filter hrValid).foldl (fun l r =>
    let b := field r.1 16 41
    (List.range (field r.2 16 41 + 1 - b)).foldl (fun l i => if l.contains (b + i) then l else l ++ [b + i]) l) []

/-- The least L with 2^L ≥ n; the fuel is n. -/
def treeDepth (n : Nat) : Nat := if n ≤ 1 then 0 else Nat.log2 (n - 1) + 1

/-- A page's poison bitmap: bit s for sector s. -/
def State.pagePoison (s : State) (pa : Nat) : List Byte :=
  leBytes 32 ((List.range 256).foldl (fun x i => if s.memBad.contains (pa / 256 + i) then x + 2 ^ i else x) 0)

/-- The leaf of a granule (R356). -/
def State.hashLeaf (s : State) (ctx : BitVec 12) (root g : Nat) : List Byte :=
  match s.walk ctx root (65536 * g) with
  | .ok e =>
    let pa := e.pa + (65536 * g) % 2 ^ e.lg
    sha512t256 (s.rd pa 65536 ++ s.pagePoison pa)
  | .error _ => List.replicate 32 0

/-- Nodes one level up. -/
def pairUp : List (List Byte) → List (List Byte)
  | a :: b :: rest => sha512t256 (a ++ b) :: pairUp rest
  | _ => []

/-- The levels of a tree from its leaves up, the root's level last. -/
def levelsUp : Nat → List (List Byte) → List (List (List Byte))
  | 0, l => [l]
  | d + 1, l => l :: levelsUp d (pairUp l)

/-- The tree's levels, the root's first: level i holds nodes 2^i to 2^(i + 1) − 1. -/
def State.hashTree (s : State) (ctx : BitVec 12) (root : Nat) (pages : List Nat) : List (List (List Byte)) :=
  let d := treeDepth pages.length
  let leaves := pages.map (s.hashLeaf ctx root)
  (levelsUp d (leaves ++ List.replicate (2 ^ d - pages.length) (List.replicate 32 0))).reverse

/-- An interval end (R357 steps 2 and 3): the tree rehashed, a snapshot appended, its sequence number. The fields of a
snapshot lie in the order R357 names them (log 16). -/
def State.intervalEnd (s : State) (ctx : BitVec 12) (kind rcd m phase : Nat) : State × W64 :=
  match spFind s.ctxs ctx.toNat with
  | none => (s, 0)
  | some c =>
    let root := c.ptroot
    let tree := s.hashTree ctx root (hashPages c.hr)
    let top := (tree.headD []).headD []
    let s := s.hwWr (c.htbase + 32) (tree.flatMap (·.flatten))
    let d := s.descAt ctx + 8 * 21
    let seq := s.rdField d 32 32 + 1
    let slot := c.htsnap + 64 * (seq % 2 ^ c.hsk)
    let s := s.wrWords slot [BitVec.ofNat 64 seq, BitVec.ofNat 64 (kind + 256 * m), BitVec.ofNat 64 rcd,
      BitVec.ofNat 64 phase]
    let s := s.hwWr (slot + 32) top
    (s.wrField d 32 32 seq, BitVec.ofNat 64 seq)

end Sys2Proof.Machine
end

