-- ==== Sys2Proof/Machine/Sched.lean ====
section
/-!
DEFINITION. The scheduler (spec 20 R302-R312, 10 R194): submission and decrements as steps of their own, launch queues, ageing,
placement, gang reservation, phase commits, `end` and retirement.
-/
namespace Sys2Proof.Machine
open Sys2Proof

/-! ## Submission and decrement at the unit (R302) -/

/-- An operation at a memory-side unit, in log or replay mode at its point. -/
def State.atUnit (s : State) (w : Issuer) (pa : Nat) (f : State → State) : State :=
  match s.logPoint w (s.msPoint pa) 2 0 with
  | (s', true) => f s'
  | (_, false) => s

/-- TASK_SUBMIT (R302). -/
def execTaskSubmit (rcd : W64) (ctx : BitVec 12) (t : Time) (s : State) : Host.Outcome State Fault Refusal :=
  .next (s.atUnit (s.outside ctx) rcd.toNat fun s => (s.submit rcd.toNat ctx t).1)

/-- DEPENDENCY_DECREMENT (R302). -/
def execDependencyDecrement (pa : W64) (die : BitVec 6) (t : Time) (s : State) : Host.Outcome State Fault Refusal :=
  .next (s.atUnit (s.outside (s.recCtx (pa.toNat / 256 * 256))) pa.toNat fun s => (s.decrement pa.toNat die.toNat t).1)

/-! ## Launch queues (R304, R381) -/

/-- Consumption of a queue goes on after an entry taken; it stops at an entry that is not posted. -/
def State.stopQueue (s : State) (ctx : BitVec 12) (q : BitVec 2) : State :=
  s.modSup fun u => { u with doorbells := u.doorbells.filter (· != (ctx, q)) }

/-- The next entry of a launch queue taken: its record submitted, its status written, the read pointer moved. -/
def State.launch (s : State) (ctx : BitVec 12) (q : BitVec 2) : State :=
  match spFind s.ctxs ctx.toNat with
  | none => s.stopQueue ctx q
  | some c =>
    let (base, k) := c.lq.getD q.toNat (0, 0)
    if c.closing ∨ k = 0 ∨ s.sup.level = 0 then s.stopQueue ctx q
    else
      let d := s.descAt ctx + 8 * (11 + 2 * q.toNat)
      let rp := s.rdField d 32 32
      let e := base + 16 * (rp % 2 ^ k)
      if s.rdField e 63 1 = 0 then s.stopQueue ctx q
      else
        let rcd := s.rdField e 0 57
        let t := (spFind s.sup.posted (e / 16)).getD 0
        let finish (s : State) (code : Nat) : State :=
          let s := s.wr64 (e + 8) (BitVec.ofNat 64 (pack [(48, t.toNat), (8, code), (7, 0), (1, 1)]))
          let s := s.wrField e 63 1 0
          let s := s.wrField d 32 32 ((rp + 1) % 2 ^ 32)
          s.modSup fun u => { u with posted := spErase u.posted (e / 16) }
        if rcd % 256 ≠ 0 then finish s 8
        else
          match s.logPoint (s.outside ctx) (s.msPoint rcd) 2 0 with
          | (_, false) => s
          | (s, true) =>
            let (s, code, _) := s.submit rcd ctx t
            finish s code

/-- LAUNCH_ENTRY_CONSUME (R304). -/
def execLaunchEntryConsume (ctx : BitVec 12) (q : BitVec 2) (s : State) : Host.Outcome State Fault Refusal :=
  if s.sup.doorbells.contains (ctx, q) then .next (s.launch ctx q) else .next s

/-! ## Ageing (R306) -/

/-- Entries of a die that have stayed their context's A cycles move to the tail of the next level, in order. -/
def State.ageDie (s : State) (die : Nat) : State :=
  let old (e : RqEntry) : Bool :=
    let a := field (s.descWord e.ctx 2) 32 32
    e.die == die && decide (e.level < 7) && a != 0 && decide (e.since + a ≤ s.cyc)
  { s with ready := s.ready.filter (fun e => !old e) ++
      (s.ready.filter old).map fun e => { e with level := e.level + 1, since := s.cyc } }

/-- READY_AGEING (R306). -/
def execReadyAgeing (die : BitVec 6) (s : State) : Host.Outcome State Fault Refusal := .next (s.ageDie die.toNat)

/-! ## Cores (R305, R307) -/

/-- A core holds a task. -/
def State.busyCore (s : State) (id : Nat) : Bool := s.cores.any fun c => c.id == id && c.t.task.isSome

/-- A record may run on a core. -/
def State.mayUse (s : State) (r id : Nat) : Bool :=
  (s.recW r 4).testBit (dieOf id) && (s.recW r 5).testBit (id % 16) && s.coreUp id

/-- A core that no task holds and no gang but this record's has reserved. -/
def State.freeFor (s : State) (r id : Nat) : Bool :=
  s.mayUse r id && !s.busyCore id &&
    match s.token with
    | some k => k.rcd == r || !k.cores.contains id
    | none => true

def dieCores (die : Nat) : List Nat := (List.range 16).map (16 * die + ·)

/-- The core for a single task on a die: HINT where free and eligible, else the lowest free one (R307). -/
def State.coreFor (s : State) (r die : Nat) : Option Nat :=
  let hint := s.recF r 3 19 10
  if s.recF r 3 18 1 = 1 ∧ dieOf hint = die ∧ s.freeFor r hint = true then some hint
  else findFirst? (s.freeFor r) (dieCores die)

/-! ## Gangs (R309, R335) -/

/-- An entry that stands for several members: a gang not yet placed, or a Yoke gang whose members are all PARKED. -/
def State.wholeGang (s : State) (e : RqEntry) : Bool := e.member.isNone && decide (1 < s.gangSize e.rcd)

/-- The members that an entry places. -/
def State.entryMembers (s : State) (e : RqEntry) : List Nat :=
  match e.member with
  | some m => [m]
  | none => if e.parked then s.imagesOf e.rcd else List.range (s.gangSize e.rcd)

/-- Cores that a gang may reserve: on every die, or for a Yoke gang on its home die. -/
def State.gangCores (s : State) (e : RqEntry) : List Nat :=
  ((if s.yokeGang e.rcd then [e.die] else List.range 64).flatMap dieCores).filter (s.freeFor e.rcd)

/-- A PLACED or PARKED gang other than the record's holds a slot of its mask on the die (R260). -/
def State.slotsHeld (s : State) (r die : Nat) : Bool :=
  let mask := s.recF r 3 35 16
  let clash (t : TaskSpan) : Bool :=
    match t.task with
    | some k => k.rcd != r && decide (1 < k.n) && (k.ymask.toNat &&& mask) != 0 && k.cores.any fun c => dieOf c == die
    | none => false
  let parked (t : TaskSpan) : Bool := optAll t.task fun k => s.recSt k.rcd == stPlaced || s.recSt k.rcd == stParked
  s.cores.any (fun c => clash c.t) || s.images.any fun p => clash p.2 && parked p.2

/-- A Yoke gang waits for the token, and is not placed, while its slots are held on its home die (R260, R309). -/
def State.slotsWait (s : State) (e : RqEntry) : Bool := s.yokeGang e.rcd && s.slotsHeld e.rcd e.die

/-- Entries of a die in the order of R307. -/
def State.queueOf (s : State) (die : Nat) : List RqEntry :=
  let l := s.ready.filter (·.die == die)
  (List.range 8).reverse.flatMap fun p => l.filter (·.level == p)

/-- A gang holds the token and the cores it needs. -/
def State.gangReady (s : State) (e : RqEntry) : Bool :=
  match s.token with
  | some k => k.rcd == e.rcd && decide ((s.entryMembers e).length ≤ k.cores.length)
  | none => false

/-- The first entry of its home die with an eligible free core there is a gang that asks for the token. -/
def State.asksToken (s : State) (die : Nat) : Option RqEntry :=
  match findFirst? (fun e : RqEntry => (s.coreFor e.rcd die).isSome) (s.queueOf die) with
  | some e =>
    if s.wholeGang e && !s.slotsWait e then some e else none
  | none => none

/-- The entry of a gang that holds the token or has asked for it. -/
def State.tokenEntry (s : State) (r : Nat) : Option RqEntry :=
  findFirst? (fun e : RqEntry => e.rcd == r && s.wholeGang e) s.ready

/-- A die asks for the token; a request whose gang has left the queues is gone (R309). -/
def State.askToken (s : State) (die : Nat) : State :=
  let q := s.tokenQ.filter fun x => (s.tokenEntry x.2).isSome
  { s with tokenQ := match s.asksToken die with
      | some e => if q.any (·.2 == e.rcd) then q else q ++ [(die, e.rcd)]
      | none => q }

/-- The token granted to the gang that asked first of those whose Yoke slots are not held (R309): every free core of it is reserved.
DEDUCED (log 88): a gang whose slots another took after it asked keeps its place and holds up no other gang. -/
def State.grantToken (s : State) : State :=
  let due (x : Nat × Nat) : Option RqEntry := (s.tokenEntry x.2).bind fun e => if s.slotsWait e then none else some e
  match s.token, firstOf due s.tokenQ with
  | none, some e =>
    { s with
      token := some { rcd := e.rcd, cores := s.gangCores e }
      tokenQ := s.tokenQ.filter fun x => x.2 != e.rcd && (s.tokenEntry x.2).isSome }
  | _, _ => s

def State.reserve (s : State) (die : Nat) : State := (s.askToken die).grantToken

/-- GANG_RESERVATION (R309). -/
def execGangReservation (die : BitVec 6) (s : State) : Host.Outcome State Fault Refusal := .next (s.reserve die.toNat)

/-- Cores that have become free join the reservation (R309). -/
def State.widenToken (s : State) : State :=
  match s.token with
  | none => s
  | some k =>
    match s.tokenEntry k.rcd with
    | some e => { s with token := some { k with cores := s.gangCores e } }
    | none => { s with token := none }

/-- A core's task is gone from it; a request in progress is done (R328). -/
def State.vacate (s : State) (id : Nat) : State :=
  (s.updCore id fun c =>
    { c with t := .fresh, hold := 0, ctl := if c.ctl.busy then { c.ctl with done := true, busy := false } else c.ctl }).widenToken

/-! ## Placement (R77, R220, R221, R226, R267, R273, R308) -/

/-- A task as its record and its context's descriptor give it. -/
def State.taskOf (s : State) (r m : Nat) (cores : List Nat) : TaskId :=
  let ctx := s.recCtx r
  { rcd := r, ctx, member := m, n := s.gangSize r, cores, ptroot := field (s.descWord ctx 1) 0 57
    troute := BitVec.ofNat 32 (s.descWord ctx 2), fws := s.rdWords (s.descAt ctx + 512) 64
    ymask := BitVec.ofNat 16 (s.recF r 3 35 16), save := s.recF r 13 0 57, level := s.recF r 3 13 3
    tcx := BitVec.ofNat 32 (s.recF r 6 0 32 + m), tcy := BitVec.ofNat 32 (s.recF r 6 32 32)
    tcz := BitVec.ofNat 32 (s.recF r 7 0 32), sched := BitVec.ofNat 64 (s.recF r 11 0 57), schn := s.recF r 12 0 13
    phase := BitVec.ofNat 32 (s.recF r 10 0 32), idem := s.recF r 3 17 1 == 1 }

/-- Privilege, phase mode, `hsnap` permission and log mode of a task (R299, R308, R352). -/
def State.sysOf (s : State) (r : Nat) (y : SysRegs) : SysRegs :=
  let ctx := s.recCtx r
  let w := s.descWord ctx 0
  let m := s.ctxMode ctx
  { y with
    split := BitVec.ofNat 3 (s.recF r 3 10 3), prv := field w 3 1 == 1, hs := field w 2 1 == 1, ph := s.recF r 3 16 1 == 1
    log := m.1, rpl := m.2 }

/-- The system registers at a first placement. -/
def State.sysStart (s : State) (r : Nat) : SysRegs :=
  { s.sysOf r SysRegs.zero with
    stage := BitVec.ofNat 32 (s.recF r 7 32 32), rqkey := BitVec.ofNat 64 (s.recW r 8), rqctr := BitVec.ofNat 64 (s.recW r 9) }

/-- The control-word image (R77): its entries and where they stand, or why it cannot be read. DESIGN CHOICE (log 76): an image that lies
in or touches a scratchpad window cannot be read, cause 0x09; of an image that cannot be read no entry is loaded. -/
def State.loadHcw (s : State) (t : TaskId) (prv : Bool) (tlb : List TlbEntry) : Except (BitVec 8 × W64) (List (Nat × Piece)) :=
  let a := s.recF t.rcd 2 0 57
  let n := s.recF t.rcd 3 0 10
  let va := BitVec.ofNat 64 a
  if 2 ^ 57 < a + 32 * n then .error (0x08, va)
  else if touchesWindow a (32 * n) then .error (0x09, va)
  else
    let x : Xl := { ctx := t.ctx, root := t.ptroot, fws := t.fws, prv, tlb }
    match s.piecesOf x (engAcc .rd) a (cuts 32 a (32 * n)) with
    | .error c => .error (c.1, va)
    | .ok ps => .ok ((List.range n).zip (bare ps))

/-- One row of the image read into its entry. -/
def State.readRow (s : State) (p : Nat × Piece) : State :=
  match p.2.at_ with
  | .glob pa _ _ =>
    let s := s.fixHome pa 32
    s.modT fun t =>
      { t with
        hcw := spSet 0 t.hcw p.1 (BitVec.ofNat 256 (ofLe (s.rd pa 32)))
        hcwBad := if s.badAt pa 32 then setAdd t.hcwBad p.1 else t.hcwBad }
  | _ => s

/-- The 64-byte piece that a row of the image is read with, and whether it is one operation of an MS unit (R233). -/
def State.rowKey (s : State) (p : Piece) : Nat × Bool :=
  match p.at_ with
  | .glob pa ms _ => (pa / 64, ms && !isPeer pa && !s.lostAt pa)
  | _ => (0, false)

/-- The rows of the image that are left are read, those of one MS piece as one operation, where its point lets it; no bundle of the task
issues before (R77, R355). -/
def State.readRows (s : State) : State :=
  ((s.t.hcwLeft.map fun p => s.rowKey p.2).eraseDups).foldl (fun s k =>
    let rows := s.t.hcwLeft.filter fun p => s.rowKey p.2 == k
    let ps := rows.map (·.2)
    if s.farWaits ps then s
    else
      match s.logUnits s.issuer 1 (if k.2 then [s.msPoint (64 * k.1)] else []) with
      | (_, false) => s
      | (s', true) =>
        (rows.foldl State.readRow (s'.sendFar ps)).modT fun t => { t with hcwLeft := t.hcwLeft.filter fun p => s.rowKey p.2 != k }) s

/-- A core of the module in the list of cores. -/
def State.withCore (s : State) (id : Nat) : State :=
  if s.core.id = id ∨ s.others.any (·.id == id) = true then s
  else { s with others := s.others ++ [{ Core.reset id with lt := s.idleLt }] }

/-- A step made for another core. -/
def State.onCore (s : State) (id : Nat) (f : State → State) : State := (f (s.focus id)).focus s.core.id

/-- A core takes a task: L1 and instruction cache emptied, lt acquired, the scratchpad's stamp set to it (R221, R267, R273). -/
def Core.take (c : Core) (t : TaskSpan) (lt : Time) : Core :=
  let lt := tmax c.lt lt
  { c with lt, st := lt, l1 := [], icache := [], hold := 0, t }

/-- The walks of an access to these addresses in their order, up to the first that is refused (R344). -/
def State.notePages (s : State) : List Nat → State
  | [] => s
  | va :: rest =>
    match s.leafOf s.xl va with
    | .error _ => s.noteRefused va
    | .ok e => if e.barred s.t.sys.prv then s.noteRefused va else (s.noteWalk va e).notePages rest

/-- Reading the control-word image has walked the tables for its pages (R77, R344). -/
def State.noteImage (s : State) (r : Nat) : State :=
  let a := s.recF r 2 0 57
  let n := s.recF r 3 0 10
  if 2 ^ 57 < a + 32 * n ∨ n = 0 ∨ touchesWindow a (32 * n) = true then s else s.notePages [a, a + 32 * n - 1]

/-- A member of a task placed for the first time. -/
def State.placeMember (s : State) (r level m id : Nat) (cores : List Nat) : State :=
  let s := (s.withCore id).readDesc (s.recCtx r)
  let t := { s.taskOf r m cores with level }
  let y := s.sysStart r
  let tlb := match s.coreById id with
    | some c => c.tlb
    | none => []
  let image := s.loadHcw t y.prv tlb
  let span : TaskSpan :=
    { TaskSpan.fresh with
      task := some t, sys := y, hcwFault := match image with
        | .ok _ => none
        | .error f => some f
      hcwLeft := image.toOption.getD []
      ctl := { Ctl.start with pc := BitVec.ofNat 64 (s.recF r 1 0 57), eBase := s.cyc + 1, rho := s.cyc + 1 } }
  (s.updCore id fun c => c.take span (BitVec.ofNat 48 (s.recF r 20 0 48))).onCore id (fun s => (s.noteImage r).readRows)

/-- Keys of the images of a record. -/
def State.imageKeys (s : State) (r : Nat) : List Nat :=
  (List.range (s.gangSize r)).map fun m => s.recF r 13 0 57 + m * 0x800000

/-- The posted operations that a record's images still hold are performed, as far as they can be (R275). -/
def State.drainImages (s : State) (r : Nat) : State :=
  (s.imageKeys r).foldl (fun s k =>
    match spFind s.images k with
    | some im => (List.range im.q.cq.length).foldl (fun s _ => s.imageStep k) s
    | none => s) s

/-- Every member of a fresh entry placed, in one cycle. -/
def State.placeFresh (s : State) (e : RqEntry) (cores : List Nat) : State :=
  let s := s.drainImages e.rcd
  let s := { s with
    ready := s.ready.filter (· != e), images := s.images.filter fun p => !(s.imageKeys e.rcd).contains p.1
    token := if s.wholeGang e then none else s.token }
  let s := (s.toSt e.rcd stPlaced).wrField (e.rcd + 8 * 20) 56 8 cores.length
  ((List.range cores.length).zip cores).foldl (fun s p => s.placeMember e.rcd e.level p.1 p.2 cores) s

/-- An entry waits long enough to be taken by another die (R307). -/
def State.mayMove (s : State) (e : RqEntry) : Bool := decide (e.first + 1024 ≤ s.cyc) && !s.wholeGang e

/-- The cores that an entry would take on a die now. -/
def State.coresFor (s : State) (e : RqEntry) (die : Nat) : Option (List Nat) :=
  if s.wholeGang e then
    match s.token with
    | some k => if s.gangReady e && e.die == die && !s.slotsWait e then some (k.cores.take (s.entryMembers e).length) else none
    | none => none
  else (s.coreFor e.rcd die).map fun c => [c]

/-- What a die places next: from its own queue, else the oldest entry of another die that may move, other dies in ascending
order from its own (R307). -/
def State.pick (s : State) (die : Nat) : Option (RqEntry × List Nat) :=
  let try_ (e : RqEntry) : Option (RqEntry × List Nat) := (s.coresFor e die).map fun cs => (e, cs)
  match firstOf try_ (s.queueOf die) with
  | some x => some x
  | none =>
    firstOf try_ (((List.range 64).drop 1).flatMap fun i => (s.queueOf ((die + i) % 64)).filter s.mayMove)

/-- A task whose record is poisoned is lost with it (R368): it is live no more, and its record is neither read nor written. -/
def State.loseRecord (s : State) (r : Nat) (ctx : BitVec 12) : State :=
  let ids := (s.cores.filter fun c => optAll c.t.task (·.rcd == r) && c.t.task.isSome).map (·.id)
  let s := { s with
    ready := s.ready.filter (·.rcd != r), helds := s.helds.filter (·.rcd != r)
    images := s.images.filter fun p => !(optAll p.2.task (·.rcd == r) && p.2.task.isSome)
    subs := spErase s.subs r }
  (ids.foldl State.vacate s).addLive ctx (-1)

/-- What a die places in this cycle: one entry at most (R307), and none before the module has its domain's floor (R231). -/
def State.pickNow (s : State) (die : Nat) : Option (RqEntry × List Nat) :=
  if spFind s.placedAt die = some s.cyc ∨ s.sup.joining = true then none else s.pick die

/-- A die has placed its entry of the cycle. -/
def State.placedNow (s : State) (die : Nat) : State := { s with placedAt := spPut s.placedAt die s.cyc }

/-- TASK_PLACEMENT (R308): the die places the next entry, where that is a first placement. -/
def execTaskPlacement (die : BitVec 6) (s : State) : Host.Outcome State Fault Refusal :=
  match s.pickNow die.toNat with
  | some (e, cs) =>
    if e.parked then .next s
    else if s.badAt e.rcd 256 then .next (s.loseRecord e.rcd e.ctx)
    else .next ((s.placedNow die.toNat).placeFresh e cs)
  | none => .next s

/-! ## The spill queue (R305) -/

/-- Slots of a context's spill queue that entries hold. -/
def State.spillSlots (s : State) (ctx : BitVec 12) : List Nat :=
  s.ready.filterMap fun e => if e.ctx = ctx then e.spill else none

/-- An entry spilled to the lowest free slot of its context's queue; what its 16 bytes hold the spec does not give: free values (log
42). -/
def State.spillOne (s : State) (e : RqEntry) : State :=
  match spFind s.ctxs e.ctx.toNat with
  | none => s
  | some c =>
    match findFirst? (fun i => !(s.spillSlots e.ctx).contains i) (List.range c.mqn) with
    | none => s
    | some i =>
      let s := { s with ready := s.ready.map fun x => if x = e then { x with spill := some i } else x }
      { s with fresh := s.fresh + 2 }.wrWords (c.mqbase + 16 * i) [Config.freeWord s.fresh, Config.freeWord (s.fresh + 1)]

/-- The queue of a die's level: its first 128 entries are in hardware, those behind them in memory. -/
def State.settleQueue (s : State) (die level : Nat) : State :=
  let l := s.ready.filter fun e => e.die == die && e.level == level
  if l.length ≤ 128 ∧ l.all (·.spill.isNone) = true then s
  else
    let front := l.take 128
    let s := { s with ready := s.ready.map fun e => if front.contains e then { e with spill := none } else e }
    ((l.drop 128).filter (·.spill.isNone)).foldl State.spillOne s

def State.settleQueues (s : State) : State :=
  if s.ready.length ≤ 128 ∧ s.ready.all (·.spill.isNone) = true then s
  else (List.range 64).foldl (fun s d => (List.range 8).foldl (fun s p => s.settleQueue d p) s) s

/-! ## Phases (R312) -/

/-- Phases after the current one that hold a submitted task, lowest first. -/
def State.laterPhase (s : State) (ctx : BitVec 12) : Option Nat :=
  match spFind s.ctxs ctx.toNat with
  | none => none
  | some c => findFirst? (fun p => s.phaseCount ctx p != 0) ((List.range (2 ^ c.pck)).drop 1 |>.map (s.cp ctx + ·))

/-- Entries in the order of their submission (R312). -/
def State.bySubmission (s : State) (x : RqEntry) : List RqEntry → List RqEntry
  | [] => [x]
  | y :: ys =>
    let k (e : RqEntry) : Nat := match spFind s.subs e.rcd with
      | some u => u.order
      | none => 0
    if k y ≤ k x then y :: s.bySubmission x ys else x :: y :: ys

/-- A conversion that a phase task of the context began is still writing (R357). -/
def State.phaseWrites (s : State) (ctx : BitVec 12) : Bool :=
  s.topiary.any fun d => d.2.any fun q => q.ctx == ctx && s.recF q.rcd 3 16 1 == 1

/-- The current phase of a context commits, if it may. -/
def State.commit (s : State) (ctx : BitVec 12) : State :=
  match s.laterPhase ctx with
  | none => s
  | some p =>
    if s.phaseCount ctx (s.cp ctx) ≠ 0 ∨ s.liveCtx ctx = false ∨ s.phaseWrites ctx = true then s
    else
      match s.logPoint (s.outside ctx) hashPoint 8 0 with
      | (_, false) => s
      | (s, true) =>
        let (s, _) := s.intervalEnd ctx 2 0 0 (s.cp ctx)
        let s := s.wrField (s.descAt ctx + 8 * 55) 0 32 p
        let due (e : RqEntry) : Bool := e.ctx == ctx && decide (s.recF e.rcd 10 0 32 ≤ p)
        let es := (s.helds.filter due).foldl (fun l e => s.bySubmission e l) []
        let s := es.foldl (fun s e => s.toSt e.rcd stReady) s
        { s with
          helds := s.helds.filter fun e => !due e
          ready := s.ready ++ es.map fun e => { e with die := s.homeDie e.rcd, since := s.cyc, first := s.cyc }
          ptags := s.ptags.filter fun x => x.2.2 != ctx.toNat }

/-- PHASE_COMMIT (R312). -/
def execPhaseCommit (ctx : BitVec 12) (s : State) : Host.Outcome State Fault Refusal := .next (s.commit ctx)

/-! ## END and retirement (R13, R194, R309) -/

/-- The counters that a record names, in order. -/
def State.succs (s : State) (r : Nat) : List W64 :=
  ((List.range 6).map fun i => s.recF r (14 + i) 0 57).filter (· != 0) |>.map (BitVec.ofNat 64)

/-- A counter's translation and protection (R194). -/
def State.succTrap (s : State) (va : W64) : Option Trap :=
  match s.access s.xl (scalarAcc .wr 4) va 4 with
  | .error c => some { cause := 0x11, slot := .c, tval := va, sub := subOf c }
  | .ok (({ at_ := .glob .., .. }, _) :: _) => none
  | .ok _ => some { cause := 0x11, slot := .c, tval := va, sub := 0x09 }

/-- The member whose retirement is the task's last checks the counters, unless the task has failed (R371). -/
def State.endTrap (s : State) : Option Trap :=
  match s.t.task with
  | none => none
  | some t =>
    if 0xF0 ≤ s.fcode t.rcd ∧ 1 < t.n then none
    else if t.n = 1 ∨ s.recF t.rcd 20 56 8 ≤ 1 then firstOf s.succTrap (s.succs t.rcd)
    else none

/-- Every effect of the task's bundles is complete, its copies' subtractions from barriers among them (R205). -/
def State.quiet (s : State) : Bool :=
  let q := s.t.q
  q.fly.isEmpty && q.placket.isEmpty && q.reps.isEmpty && q.cq.isEmpty && q.divs.isEmpty && q.rqPend.isEmpty && q.hq.isEmpty &&
    s.t.eng.cpq.isEmpty && s.t.eng.ten.isEmpty && s.t.eng.owed.isEmpty

/-- Another member of the gang has issued its `end` and has still to count LEFT down. -/
def State.peerEnding (s : State) : Bool :=
  s.others.any fun c => c.t.ctl.ending == some 0 &&
    match c.t.task, s.t.task with
    | some a, some b => a.rcd == b.rcd
    | _, _ => false

/-- `end` waits until every effect of the bundles before it is complete: every posted operation performed, every copy and trellis request
completed (R13, R194, R286), so that its own bundle meets each fault and error that they leave, and has no effect there (R338, R349).
The member whose retirement will find LEFT = 1 is known once no other is on its way (R194). -/
def State.gateEndTask (s : State) : Gate :=
  { Gate.c .endTask [] [] with
    hold := !s.quiet || s.peerEnding
    trap := if s.t.ctl.dpf.isSome then some { cause := 0x11, slot := .c, tval := 0, sub := 0 } else s.endTrap }

/-- END (R13): no bundle issues after it; the task retires once its effects are complete. -/
def execEndTask (s : State) : Host.Outcome State Fault Refusal :=
  issue s.gateEndTask (fun s => s.modCtl fun c => { c with ending := some 0 }) s

/-- A group that the running task is a member of. -/
def State.someGroup (s : State) : Option (BitVec 6) :=
  findFirst? s.inGroup ((List.range 64).map (BitVec.ofNat 6))

/-- The task is done: its last record update, its core free (R309, R371). -/
def State.lastStep (s : State) (t : TaskId) : State :=
  let failed := decide (0xF0 ≤ s.fcode t.rcd) && decide (1 < t.n)
  let s := s.toSt t.rcd (if failed then stFailed else stRetired)
  let s := if s.t.sys.ph ∧ failed = false then s.addPhase t.ctx t.phase.toNat (-1) else s
  let s := if failed then s else { s with subs := spErase s.subs t.rcd }
  s.vacate s.core.id

/-- A counter of a retiring task counted down. -/
def State.countSucc (s : State) (va : W64) : Option State :=
  match s.counterAt va 4 with
  | .error _ => some (s.noteRefused va.toNat 4)
  | .ok (pa, ps) =>
    if s.farWaits (bare ps) then none
    else
    match s.logPoint s.issuer (s.msPoint pa) 2 0 with
    | (_, false) => none
    | (s, true) =>
      let (s, u) := ((s.noteWalks ps).sendFar (bare ps)).decrement pa (dieOf s.core.id) s.core.lt
      some (s.ack u)

/-- One step of a retirement: groups are left, LEFT counts down, then the counters, SUCC0 first; none when it must
wait. -/
def State.retireStep (s : State) : Option State :=
  match s.t.task, s.t.ctl.ending with
  | some t, some 0 =>
    match s.someGroup with
    | some g => if s.groupWaits g then none else some (s.groupOp g Group.leave)
    | none =>
      let left := s.recF t.rcd 20 56 8
      if left ≤ 1 then
        let paid := ((spFind s.subs t.rcd).map (·.paid)).getD 0
        some ((s.wrField (t.rcd + 8 * 20) 56 8 0).modCtl fun c => { c with regions := [], ending := some (paid + 1) })
      else some ((s.wrField (t.rcd + 8 * 20) 56 8 (left - 1)).vacate s.core.id)
  | some t, some k =>
    if 0xF0 ≤ s.fcode t.rcd ∧ 1 < t.n then some (s.lastStep t)
    else
      match (s.succs t.rcd)[k - 1]? with
      | none => some (s.lastStep t)
      | some va => (s.countSucc va).map fun s => s.modCtl fun c => { c with ending := some (k + 1) }
  | _, none => none
  | none, _ => none

/-- A retirement carried on as far as it can go. -/
def State.retireAll (s : State) : Nat → State
  | 0 => s
  | n + 1 =>
    match s.retireStep with
    | some s' => s'.retireAll n
    | none => s

/-- TASK_RETIREMENT (R194): of the task whose `end` has issued. -/
def execTaskRetirement (s : State) : Host.Outcome State Fault Refusal :=
  if s.t.ctl.ending.isSome && s.quiet then .next (s.retireAll 80) else .next s

end Sys2Proof.Machine
end

