-- ==== Sys2Proof/Machine/Context.lean ====
section
/-!
DEFINITION. Containment unwinds (spec 10 R211, 23 R348), pre-emption and resumption (spec 22 R328-R335, 23 R340), contexts (spec 20
R296-R298) and invalidations of translations (spec 23 R344).
-/
namespace Sys2Proof.Machine
open Sys2Proof

/-! ## Containment unwind (R211, R348) -/

def Effect.isFill : Effect → Bool
  | .fill .. => true
  | _ => false

/-- Every long-latency result in flight has landed. -/
def State.longDone (s : State) : Bool :=
  let q := s.t.q
  q.cq.all (·.op.posted) && q.divs.isEmpty && q.rqPend.isEmpty && q.hq.isEmpty && s.t.eng.ten.isEmpty &&
    (q.fly ++ q.placket).all fun f => !f.eff.isFill

/-- Fixed-latency results in flight are discarded; Yoke latches are none of them. -/
def State.discard (s : State) : State :=
  s.modQ fun q => { q with fly := q.fly.filter (·.eff.isLatch), placket := q.placket.filter (·.eff.isLatch) }

/-- A recorded register restored full, its tag and marks cleared. -/
def State.restoreReg (s : State) (p : BitVec 6 × W64) : State :=
  ((s.sPut p.1 p.2).setEmpty (.s p.1) false).modFlags fun f =>
    { f with marks := (f.marks.map fun m => { m with regs := m.regs.filter (· != .s p.1) }).filter (·.regs != []) }

/-- HEAD, CNT and RPOS of a ring restored from its recorded register. -/
def State.restoreRing (s : State) (p : Nat × W64) : State :=
  let g := BitVec.ofNat 3 p.1
  let r := ringOf p.2
  s.setRing g (ringWith (s.ringReg g) r.head r.cnt r.rpos)

/-- The innermost region unwinds: its registers and rings restored, the region popped, the frame of cause 0x12, its handler
next. DESIGN CHOICE (log 98): repetitions of earlier bundles that have not started run on, and a pending transfer is gone, DLY saying so, while
the trap latch stays as it was. -/
def State.unwindNow (s : State) (u : Unwind) : State :=
  match s.t.ctl.regions with
  | [] => s.modCtl fun c => { c with unwind := none }
  | r :: rs =>
    let s := s.discard
    let s := match u.mark with
      | some m => s.clearMark m
      | none => s
    let s := ((block16 r.first).zip r.vals).foldl State.restoreReg s
    let s := ((List.range 8).zip r.rings).foldl State.restoreRing s
    let s := s.modSys fun y =>
      { y with cause := causeWord 0x12 u.slot s.t.ctl.xfer.isSome u.sub false 0, epc := u.bun &&& epcMask, tval := u.tval }
    s.modCtl fun c =>
      { c with regions := rs, unwind := none, xfer := none, pc := r.handler, eBase := s.cyc + 1, gapIn := false }

/-- CONTAINMENT_UNWIND (R211): once every long-latency result in flight has landed. -/
def execContainmentUnwind (s : State) : Host.Outcome State Fault Refusal :=
  match s.t.ctl.unwind with
  | some u => if s.longDone then .next (s.unwindNow u) else .next s
  | none => .next s

/-! ## Pre-emption (R328, R329, R335) -/

/-- The native on a core has not stopped for a pre-empt request. -/
def Core.midNative (c : Core) : Bool :=
  match c.t.ctl.native with
  | some n => n.st != .stopped
  | none => false

/-- The cores that a request to a core freezes: every member of a Yoke gang, else the core alone. -/
def State.freezeSet (s : State) (id : Nat) : List Nat :=
  match (s.coreById id).bind (·.t.task) with
  | none => []
  | some t =>
    if s.yokeGang t.rcd then
      (s.cores.filter fun c => optAll c.t.task (·.rcd == t.rcd) && c.t.task.isSome).map (·.id)
    else [id]

/-- The freeze of a core's task begins in the next cycle; a native has stopped at a mapped point and is over, and the task is the
listing's from there, of which no bundle issues before the freeze (R324, R329). -/
def State.freezeCore (s : State) (id : Nat) (gang : Bool) : State :=
  s.onCore id fun s =>
    match s.t.ctl.freeze with
    | some _ => s
    | none =>
      let u := { s with core := { s.core with acted := s.core.acted || s.t.ctl.native.isSome } }
      u.endNative.modCtl fun c => { c with freeze := some { f := s.cyc + 1, gang, fault := none } }

/-- The task of a core cannot freeze from the next cycle on: its native has not stopped, or its placement is not complete (R308, R328). -/
def Core.unready (c : Core) (cyc : Nat) : Bool := c.midNative || decide (cyc + 1 < c.t.ctl.rho)

/-- The requested freeze of a core and its gang begins, once every native has stopped and every member's placement is complete. -/
def State.startFreeze (s : State) (id : Nat) : State :=
  let ids := s.freezeSet id
  if s.cores.any fun c => ids.contains c.id && c.unready s.cyc then s
  else ids.foldl (fun s i => s.freezeCore i (decide (1 < ids.length))) s

/-- A request reaches a core (R328): absorbed while one is in progress, done at once where no task is placed. -/
def State.preempt (s : State) (id : Nat) : State :=
  let s := s.withCore id
  match s.coreById id with
  | none => s
  | some c =>
    if c.ctl.busy then s
    else if c.t.task.isNone then s.updCore id fun c => { c with ctl := { c.ctl with done := true } }
    else
      let ids := s.freezeSet id
      let s := ids.foldl (fun s i => s.updCore i fun c =>
        { c with ctl := { c.ctl with gang := decide (1 < ids.length) || s.yokeGang ((c.t.task.map (·.rcd)).getD 0), busy := true } }) s
      (ids.foldl (fun s i => s.onCore i State.stopNative) s).startFreeze id

/-- PRE_EMPT_REQUEST (R329). -/
def execPreEmptRequest (core : BitVec 10) (s : State) : Host.Outcome State Fault Refusal := .next (s.preempt core.toNat)

/-! ## The context image (R330-R333) -/

/-- The next bundle's header, of a native's listing where one runs. -/
def State.nextHeader (s : State) : Option Nat :=
  let own (n : Native) : Option Nat := if n.holds s.t.ctl.pc then ((n.wordsAt s.t.ctl.pc).head?).map (·.toNat) else none
  match s.t.ctl.native.bind own with
  | some h => some h
  | none => s.peekHeader s.t.ctl.pc.toNat

/-- The next bundle's gap, as its header gives it. DEDUCED (log 25): 0 where the header is illegal or cannot be fetched (R37). -/
def State.nextGap (s : State) : Nat :=
  if s.t.ctl.gapIn then 0
  else
    match s.nextHeader with
    | some h => if headerOk h then h / 2 ^ 16 % 16 else 0
    | none => 0

/-- A pending transfer or trap latch as words 2 and 34 hold it. -/
def xferWord (x : Option Xfer) : W64 :=
  match x with
  | none => 0
  | some x => BitVec.ofNat 64 (pack [(57, x.target.toNat), (3, 0), (1, x.taken.toNat), (2, x.left), (1, 1)])

/-- The transfer that word 34 of a rewritten image holds. -/
def xferOf (w : W64) : Option Xfer :=
  if field w.toNat 63 1 = 1 then
    some { taken := field w.toNat 60 1 == 1, target := BitVec.ofNat 64 (field w.toNat 0 57), left := field w.toNat 61 2
           callr := none }
  else none

/-- The slot of a repetition's instruction. -/
def Rep.slot (r : Rep) : Slot :=
  match r.i.hcw? with
  | some (_, q) => q.slot
  | none => .c

/-- The record of a slot's repetitions not yet started at F. -/
def repWords (f : Nat) (reps : List Rep) (slot : Slot) : List W64 :=
  match findFirst? (fun r : Rep => r.slot == slot && decide ((f : Int) ≤ r.at_ + r.last)) reps with
  | none => [0, 0]
  | some r =>
    let j := ((f : Int) - r.at_).toNat
    [BitVec.ofNat 64 (pack [(1, 1), (47, 0), (8, j), (8, r.last + 1 - j)]), r.bun.addr]

/-- Tags of pending missed promises, four to a word. -/
def missWords (ms : List (BitVec 16)) : List W64 :=
  (List.range 8).map fun i =>
    BitVec.ofNat 64 (pack ((List.range 4).map fun j => (16, (ms.getD (4 * i + j) 0).toNat)))

/-- The kind of target that a Placket entry names (R330). -/
def Effect.kind : Effect → Nat
  | .nothing => 0
  | .s .. => 1
  | .v .. => 2
  | .k .. => 3
  | .x .. => 4
  | .acc .. => 5
  | .plane .. => 6
  | .swap => 7
  | .cs .. => 8
  | .sys .. => 9
  | .ring .. => 10
  | .buf .. => 11
  | .handle .. => 12
  | .latch .. => 13
  | .tagged .. => 14
  | .fill .. => 15

/-- Placket entries: one for each register group or other target that a slot's repetition writes (R330). -/
def entryCount (fs : List Flight) : Nat :=
  ((fs.filter fun f => f.eff.kind != 0).map fun f => (f.seq, f.slot, f.rep, f.eff.kind)).eraseDups.length

/-- The first words of the control block (R333), of a task about to be saved with F and GREM. -/
def State.controlBlock (s : State) (f grem : Nat) : List W64 :=
  let c := s.t.ctl
  let e := s.t.eng
  let w (fs : List (Nat × Nat)) : W64 := BitVec.ofNat 64 (pack fs)
  [w [(16, 1), (16, 0), (32, 0x43584B4D)], w [(57, c.pc.toNat)], xferWord c.xfer,
    w [(48, s.core.lt.toNat), (4, f % 16), (4, grem), (8, entryCount (s.t.q.fly ++ s.t.q.placket))],
    w [(13, e.relp), (29, 0), (6, e.cpq.length), (16, e.nextTag.toNat)], 0, 0, 0] ++
    (List.range 14).map s.sysGet ++ [0, 0] ++
    [Slot.s, .v0, .v1, .v2].flatMap (repWords f s.t.q.reps) ++
    Dpf.words c.dpf ++ [xferWord c.latch, 0, w [(6, c.missed.length)]] ++ missWords c.missed

/-- Bytes whose layout the spec does not give: free values (log 5). -/
def State.freeBytes (s : State) (n : Nat) : State × List Byte :=
  ({ s with fresh := s.fresh + n }, (List.range n).map fun i => BitVec.ofNat 8 (Config.freeWord (s.fresh + i)).toNat)

/-- The register sections of an image at address a, each with its bytes (R330). -/
def State.imageParts (s : State) (a : Nat) : List (Nat × List Byte) :=
  let r := s.t.regs
  let wide (n k : Nat) (g : Nat → Nat) : List Byte := (List.range n).flatMap fun i => leBytes k (g i)
  [(a + 0x3000, wide 64 32 fun i => (spGet 0 r.v i).toNat),
    (a + 0x4000, wide 256 32 fun i => (spGet 0 r.x i).toNat),
    (a + 0x1A000, wide 512 32 fun i => (spGet 0 s.t.hcw i).toNat),
    (a + 0x40000, wide 256 512 fun i => joinE 32 (colsOf (s.accRow (BitVec.ofNat 8 i)).vals))]

/-- The image's bytes (R332): the control block, the sections whose layout follows from their contents (vector and tile registers,
control words, accumulator memory, scratchpad), and free values in the others. -/
def State.writeImage (s : State) (a f grem : Nat) : State :=
  let ws := s.controlBlock f grem
  let ps := s.imageParts a
  let (s, fb) := s.freeBytes 0x60000
  (ps.foldl (fun u p => u.hwWr p.1 p.2) ((s.hwWr a fb).wrWords a ws)).writeScratch a s.t

/-- The task as its image keeps it: results caught in the Placket at their offsets from F, gap cycles and promises as what remains
of them (R254, R330, R333). -/
def TaskSpan.caught (t : TaskSpan) (cyc f grem : Nat) : TaskSpan :=
  { t with
    ctl := { t.ctl with eBase := grem, gapIn := true, native := none }
    q := { t.q with
      fly := []
      reps := t.q.reps.filter fun r => decide ((f : Int) ≤ r.at_ + r.last)
      placket := (t.q.fly.foldl (fun l x => flyInsert x l) t.q.placket).map fun x => { x with due := x.due - f } }
    eng := { t.eng with cpq := t.eng.cpq.map fun q => { q with promise := q.promise - cyc } } }

/-- Long-latency work has completed into state (R329 step 3); posted operations go on past the snapshot. A latch due before F has written
its bytes (R274), and no row of the control-word image is left to be read. -/
def TaskSpan.settled (t : TaskSpan) : Bool :=
  optAll t.ctl.freeze (fun z => t.q.fly.all fun f => !f.eff.isLatch || decide (z.f ≤ f.due)) && t.hcwLeft.isEmpty &&
  t.q.cq.all (·.op.posted) && t.q.divs.isEmpty && t.q.rqPend.isEmpty && t.eng.cpq.all (!·.active) && t.eng.ten.all (!·.running)

/-- The task of the core may be saved: it has settled, and with it every member of a gang that freezes together, so that what one
member's engines still do at another's scratchpad finds it in place (R335). -/
def State.settled (s : State) : Bool :=
  s.t.settled &&
    match s.t.task, s.t.ctl.freeze with
    | some t, some z => !z.gang || s.others.all fun c => !(optAll c.t.task (·.rcd == t.rcd) && c.t.task.isSome) || c.t.settled
    | _, _ => true

/-- The entry with which a PARKED task re-enters its queue (R308, R335): a member of its own, or a Yoke gang once none of its
members is placed. -/
def State.parkEntry (s : State) (t : TaskId) : State :=
  let add (m : Option Nat) : State := { s with ready := s.ready ++ [s.newEntry t.rcd t.level true m] }
  if s.yokeGang t.rcd then
    if s.cores.any fun c => optAll c.t.task (·.rcd == t.rcd) && c.t.task.isSome then s else add none
  else if t.n = 1 then add none
  else add (some t.member)

/-- What becomes of the record of a task that has been saved (R298, R329, R340); a record that another member has failed stays FAILED
(log 43). -/
def State.afterSave (s : State) (t : TaskId) (fault : Option W64) : State :=
  if s.liveCtx t.ctx = false then (s.toSt t.rcd stFailed).setFcode t.rcd 0xF2
  else
    match fault with
    | some w => ((s.toSt t.rcd stFailed).setFcode t.rcd 0xF0).faultEntry t.ctx t.rcd w
    | none =>
      (if s.recSt t.rcd = stFailed then s else s.toSt t.rcd stParked).parkEntry t

/-- The task of the core saved: the image written, the core free, the record PARKED or FAILED. -/
def State.saveTask (s : State) (t : TaskId) (z : Freeze) : State :=
  let grem := s.t.ctl.eBase + s.nextGap - z.f
  let key := t.imageOf t.member
  let span := s.t.caught s.cyc z.f grem
  let s := s.writeImage key z.f grem
  let s := { s with images := spPut s.images key span }
  (s.vacate s.core.id).afterSave t z.fault

/-- CONTEXT_SAVE (R329): in the first cycle, at F + 12 or later, in which settling is done. -/
def execContextSave (s : State) : Host.Outcome State Fault Refusal :=
  match s.t.task, s.t.ctl.freeze with
  | some t, some z => if z.f + 12 ≤ s.cyc ∧ s.settled = true then .next (s.saveTask t z) else .next s
  | _, _ => .next s

/-! ## Resumption (R331, R333-R335, R340) -/

/-- The control block can be resumed from: MAGIC, VER and every field that R333 and R338 give as zero. -/
def imageOk (ws : List W64) : Bool :=
  let w (i lo len : Nat) : Nat := field (wordAt ws i) lo len
  w 0 32 32 == 0x43584B4D && w 0 0 16 == 1 && w 0 16 16 == 0 && w 1 57 7 == 0 && w 2 57 3 == 0 && w 4 13 29 == 0 &&
    w 32 57 5 == 0 && w 33 55 1 == 0 && w 34 57 3 == 0 && wordAt ws 35 == 0 && w 36 6 58 == 0

/-- The system registers of a faulted-out image as its SYS words now give them: the split, lt, `sys.ctdepth` and the mode bits but
H come from elsewhere. -/
def SysRegs.fromImage (y : SysRegs) (ws : List W64) : SysRegs :=
  let w (i : Nat) : W64 := ws.getD (8 + i) 0
  { y with
    trapvec := w 0 &&& trapvecMask, cause := w 1 &&& causeMask, epc := w 2 &&& epcMask, tval := w 3
    sa := (w 4).setWidth 8, da := (w 4 >>> 8).setWidth 8, rp := (w 5).setWidth 7, kv := (w 5 >>> 8).setWidth 7
    stage := (w 6).setWidth 32, cvs := (w 7).setWidth 5, rqkey := w 8, rqctr := w 9, h := (w 13).getLsbD 0 }

/-- Where a resumed stream stands: a faulted-out task's bundle at EPC issues first, its latch applying from there on (R340). -/
def Ctl.resumeAt (c : Ctl) (fault : Bool) (y : SysRegs) (w34 : W64) (rho : Nat) : Ctl :=
  let c := { c with eBase := rho + c.eBase, gapIn := true, freeze := none, rho }
  if fault then
    { c with pc := y.epc, xfer := if w34 = xferWord c.latch then c.latch else xferOf w34, latch := none }
  else c

/-- The task span with which an image resumes at ρ. -/
def State.resumeSpan (s : State) (im : TaskSpan) (t : TaskId) (ws : List W64) (rho : Nat) : TaskSpan :=
  let fault := match im.ctl.freeze with
    | some z => z.fault.isSome
    | none => false
  let f := match im.ctl.freeze with
    | some z => z.f
    | none => rho
  let y := s.sysOf t.rcd (if fault then im.sys.fromImage ws else im.sys)
  { im with
    task := some t, sys := y, ctl := im.ctl.resumeAt fault y (ws.getD 34 0) rho
    q := { im.q with
      placket := im.q.placket.map fun x => { x with due := x.due + rho }
      reps := im.q.reps.map fun r => { r with at_ := r.at_ + rho - f } }
    eng := { im.eng with cpq := im.eng.cpq.map fun q => { q with promise := q.promise + rho, missed := false } } }

/-- Members of a task know on which cores the others stand. -/
def State.noteCore (s : State) (r m id : Nat) : State :=
  let f (t : TaskSpan) : TaskSpan :=
    { t with task := t.task.map fun k => if k.rcd = r then { k with cores := k.cores.set m id } else k }
  { s with core := s.core.mapT f, others := s.others.map (·.mapT f), images := s.images.map fun p => (p.1, f p.2) }

/-- The V16L tables of a core's rings are loaded again (R146). DESIGN CHOICE (log 92): with the core's lt at the resume as their base time. -/
def State.reloadV16 (s : State) (id : Nat) : State :=
  s.updCore id fun c =>
    let s' := { s with core := c }
    let v (l : Sp V16) (g : Nat) : Sp V16 := spSet V16.none l g (s'.v16Start (spGet 0 c.t.mat.rings g) c.lt)
    c.mapT fun t => { t with mat := { t.mat with v16 := (List.range 8).foldl v [] } }

/-- One member resumed on a core. -/
def State.resumeOne (s : State) (e : RqEntry) (rho : Nat) (p : Nat × Nat) : State :=
  let save := s.recF e.rcd 13 0 57
  let key := save + p.1 * 0x800000
  match spFind s.images key with
  | none => s
  | some im =>
    match im.task with
    | none => s
    | some t =>
      let s := (s.withCore p.2).readDesc t.ctx
      let ws := s.rdWords key 45
      let k := s.taskOf e.rcd p.1 (t.cores.set p.1 p.2)
      let k := { k with level := e.level, phase := t.phase, idem := t.idem, sched := t.sched, schn := t.schn }
      let span := s.resumeSpan im k ws rho
      let lt := tmax (BitVec.ofNat 48 (field (wordAt ws 3) 0 48)) (BitVec.ofNat 48 (s.recF e.rcd 20 0 48))
      let lt := tafter lt (spFind im.eng.pathT 0)
      let s := { s with images := spErase s.images key }
      ((s.updCore p.2 fun c => c.take span lt).noteCore e.rcd p.1 p.2).reloadV16 p.2

/-- The first cycle at which the members resume: for a Yoke gang one with F's residue (R335). -/
def State.resumeCycle (s : State) (e : RqEntry) (ms : List Nat) : Nat :=
  let c := s.cyc + 1
  if s.yokeGang e.rcd then
    let f := match (ms.head?.bind fun m => spFind s.images (s.recF e.rcd 13 0 57 + m * 0x800000)).bind (·.ctl.freeze) with
      | some z => z.f
      | none => c
    c + (f % 16 + 16 - c % 16) % 16
  else c

/-- An entry of a PARKED task placed again; an image that cannot be resumed from fails it (R333). -/
def State.resume (s : State) (e : RqEntry) (cs : List Nat) : State :=
  let ms := s.entryMembers e
  let key (m : Nat) : Nat := s.recF e.rcd 13 0 57 + m * 0x800000
  let s1 := { s with ready := s.ready.filter (· != e), token := if s.wholeGang e then none else s.token }
  if ms.any fun m => !imageOk (s.rdWords (key m) 45) || s.badAt (key m) 360 then
    (s1.toSt e.rcd stFailed).modSup fun u => { u with badImages := u.badImages + 1 }
  else
    let u := (ms.zip cs).foldl (fun x p => x.resumeOne e (s.resumeCycle e ms) p) s1
    if u.recSt e.rcd = stFailed then u else u.toSt e.rcd stPlaced

/-- TASK_RESUME (R334): the die places the next entry, where that is a PARKED task's. -/
def execTaskResume (die : BitVec 6) (s : State) : Host.Outcome State Fault Refusal :=
  match s.pickNow die.toNat with
  | some (e, cs) =>
    if e.parked = false then .next s
    else if s.badAt e.rcd 256 then .next (s.loseRecord e.rcd e.ctx)
    else .next ((s.placedNow die.toNat).resume e cs)
  | none => .next s

/-! ## Invalidations (R344) -/

/-- Translations that a test names leave every TLB of the module. -/
def State.dropTlb (s : State) (p : TlbEntry → Bool) : State :=
  let f (l : List TlbEntry) : List TlbEntry := l.filter fun e => !p e
  let g (c : Core) : Core := { c with tlb := f c.tlb, tlbY := f c.tlbY, tlbT := f c.tlbT }
  { s with core := g s.core, others := s.others.map g, topTlb := s.topTlb.map fun x => (x.1, f x.2) }

def Tlbi.zero : Tlbi := { gran := 0, done := false, busy := false, scope := 0, ctx := 0 }
def State.tlbiOf (s : State) (die : Nat) : Tlbi := spGet Tlbi.zero s.sup.tlbi die
def State.setTlbi (s : State) (die : Nat) (x : Tlbi) : State :=
  s.modSup fun u => { u with tlbi := spSet Tlbi.zero u.tlbi die x }

/-- The entries that an invalidation names. -/
def Tlbi.hits (x : Tlbi) (e : TlbEntry) : Bool :=
  match x.scope.toNat with
  | 0 => e.ctx == x.ctx && decide (e.va ≤ 65536 * x.gran.toNat) && decide (65536 * x.gran.toNat < e.va + 2 ^ e.lg)
  | 1 => e.ctx == x.ctx
  | 2 => true
  | _ => false

/-- GO written in a die's registers. -/
def State.tlbiGo (s : State) (die : Nat) (x : Tlbi) : State :=
  if (s.tlbiOf die).busy then s
  else if x.scope = 3 then (s.setTlbi die { x with done := true, busy := false }).msi 2
  else (s.dropTlb x.hits).setTlbi die { x with busy := true }

/-- GO in the registers of the pilot die, whose other fields stay. -/
def State.tlbiAt (s : State) (scope : BitVec 2) (ctx : Option (BitVec 12)) (gran : Option (BitVec 41)) : State :=
  let x := s.tlbiOf s.pilotDie
  s.tlbiGo s.pilotDie { x with scope, ctx := ctx.getD x.ctx, gran := gran.getD x.gran }

/-- TLBI_GRANULE (R344). -/
def execTlbiGranule (ctx : BitVec 12) (gran : BitVec 41) (s : State) : Host.Outcome State Fault Refusal :=
  .next (s.tlbiAt 0 (some ctx) (some gran))

/-- TLBI_CONTEXT (R344). -/
def execTlbiContext (ctx : BitVec 12) (s : State) : Host.Outcome State Fault Refusal := .next (s.tlbiAt 1 (some ctx) none)

/-- TLBI_ALL (R344). -/
def execTlbiAll (s : State) : Host.Outcome State Fault Refusal := .next (s.tlbiAt 2 none none)

/-- Accesses translated but not yet performed: only loads and atomics are translated before they are performed. -/
def State.translated (s : State) : Bool := s.cores.any fun c => c.t.q.cq.any (!·.op.posted)

/-- DONE in every die's registers that wait for it, once no access with an old translation is outstanding. -/
def State.tlbiDone (s : State) : State :=
  if s.translated || !(s.sup.tlbi.any fun x => x.2.busy) then s
  else (s.modSup fun u => { u with tlbi := u.tlbi.map fun x =>
    (x.1, if x.2.busy then { x.2 with busy := false, done := true } else x.2) }).msi 2

/-- TLBI_COMPLETE (R344). -/
def execTlbiComplete (s : State) : Host.Outcome State Fault Refusal := .next s.tlbiDone

/-! ## Contexts (R296-R298) -/

/-- Alignments and ranges of a descriptor (R297). -/
def State.descOk (s : State) (ctx : BitVec 12) : Bool :=
  let w (n lo len : Nat) : Nat := field (s.descWord ctx n) lo len
  let al (n a : Nat) : Bool := w n 0 57 % a == 0
  let lq (q : Nat) : Bool :=
    let k := w (11 + 2 * q) 0 5
    k == 0 || (decide (4 ≤ k ∧ k ≤ 16) && w (10 + 2 * q) 0 57 % (16 * 2 ^ k) == 0)
  al 1 4096 && al 3 16384 && al 4 4096 && al 5 4096 && decide (4 ≤ w 6 0 5 ∧ w 6 0 5 ≤ 16) && al 8 4096 &&
    (List.range 4).all lq && al 19 64 && al 20 64 && decide (1 ≤ w 21 0 5 ∧ w 21 0 5 ≤ 16) && al 56 4096 &&
    decide (1 ≤ w 57 0 5 ∧ w 57 0 5 ≤ 10)

/-- The descriptor fields that a context takes at its creation. -/
def State.ctxOf (s : State) (ctx : BitVec 12) : Ctx :=
  let w (n lo len : Nat) : Nat := field (s.descWord ctx n) lo len
  { ptroot := w 1 0 57, fws := s.rdWords (s.descAt ctx + 512) 64, htab := w 3 0 57, gtab := w 4 0 57, fqbase := w 5 0 57, fqk := w 6 0 5, mqbase := w 8 0 57, mqn := w 9 0 32
    lq := (List.range 4).map fun q => (w (10 + 2 * q) 0 57, w (11 + 2 * q) 0 5)
    oldir := w 18 0 57, htbase := w 19 0 57, htsnap := w 20 0 57, hsk := w 21 0 5
    hr := (List.range 16).map fun i => (s.descWord ctx (22 + 2 * i), s.descWord ctx (23 + 2 * i))
    pcbase := w 56 0 57, pck := w 57 0 5, closing := false }

/-- CFGE: the format windows and hash ranges that are refused. -/
def State.cfge (s : State) (ctx : BitVec 12) : Nat :=
  let hr := (List.range 16).filter fun n =>
    let a := s.descWord ctx (22 + 2 * n)
    let b := s.descWord ctx (23 + 2 * n)
    field a 0 1 == 1 && decide (field b 16 41 < field a 16 41)
  fwRefused (s.rdWords (s.descAt ctx + 512) 64) + hr.foldl (fun x n => x + 2 ^ (16 + n)) 0

def State.setCmd (s : State) (f : CtxCmd → CtxCmd) : State := s.modSup fun u => { u with cmd := f u.cmd }

/-- Bytes zeroed. -/
def State.zero (s : State) (a n : Nat) : State :=
  { s.hwLines a n with mem := memDrop s.mem a n, memBad := clearBad 256 s.memBad a n }

/-- Nothing of a context's former life is left: groups, phases' tags and counts, submissions, counts at logged points. A record that still
waits is known to be of the former context (R298). -/
def State.forgetCtx (s : State) (ctx : BitVec 12) : State :=
  { s with
    groups := s.groups.filter fun g => g.1 / 64 != ctx.toNat
    ptags := s.ptags.filter fun x => x.2.2 != ctx.toNat
    subs := (s.subs.filter fun x => x.2.ctx != ctx.toNat || s.recSt x.1 == stWaiting).map fun x =>
      if x.2.ctx = ctx.toNat then (x.1, { x.2 with counted := none, gone := true }) else x
    seqs := s.seqs.filter fun e => e.1.1 != ctx.toNat }

/-- The launch queues of a context are consumed from now on (R298, R304). -/
def State.openQueues (s : State) (ctx : BitVec 12) : State :=
  s.modSup fun u => { u with doorbells := u.doorbells ++ (List.range 4).map fun q => (ctx, BitVec.ofNat 2 q) }

/-- The four steps of a creation. -/
def State.openCtx (s : State) (ctx : BitVec 12) : State :=
  let c := s.ctxOf ctx
  let d := s.descAt ctx
  let s := ((s.zero c.htab 16384).zero c.gtab 4096).zero c.pcbase (4 * 2 ^ c.pck)
  let s := (s.wrField (d + 48) 32 32 0).wrField (d + 168) 32 32 0
  let s := (List.range 4).foldl (fun s q => s.wrField (d + 8 * (11 + 2 * q)) 32 32 0) s
  let s := (s.wrField (d + 8 * 55) 0 32 0).wr64 (d + 8 * 58) 0
  let s := s.wr64 (d + 8 * 54) (BitVec.ofNat 64 (s.cfge ctx))
  let s := s.dropTlb fun e => e.ctx == ctx
  let s := { s with ctxs := spPut s.ctxs ctx.toNat c }
  ((s.forgetCtx ctx).openQueues ctx).wrField d 4 2 1

/-- CONTEXT_CREATE (R298). -/
def State.createCtx (s : State) (ctx : BitVec 12) : State :=
  if s.sup.cmd.busy then s
  else
    let fin (s : State) (r : BitVec 8) : State := s.setCmd fun c => { c with result := r, done := true }
    if (spFind s.ctxs ctx.toNat).isSome then fin s 1
    else if s.descOk ctx = false then fin s 2
    else fin (s.openCtx ctx) 0

def execContextCreate (ctx : BitVec 12) (s : State) : Host.Outcome State Fault Refusal :=
  .next ((s.setCmd fun c => { c with op := 1, ctx }).createCtx ctx)

/-- A record fails with its context (R298). -/
def State.closeRec (s : State) (r : Nat) : State := (s.toSt r stFailed).setFcode r 0xF2

/-- The context closes: its queued and PARKED tasks fail, its placed ones are pre-empted. -/
def State.closeCtx (s : State) (ctx : BitVec 12) : State :=
  let s := (s.wrField (s.descAt ctx) 4 2 2).setCmd fun c => { c with busy := true }
  let s := { s with ctxs := match spFind s.ctxs ctx.toNat with
      | some c => spPut s.ctxs ctx.toNat { c with closing := true }
      | none => s.ctxs }
  let mine (e : RqEntry) : Bool := e.ctx == ctx
  let ids := (s.cores.filter fun c => optAll c.t.task (·.ctx == ctx) && c.t.task.isSome).map (·.id)
  let placed (r : Nat) : Bool := s.cores.any fun c => optAll c.t.task (·.rcd == r) && c.t.task.isSome
  let rs := ((s.ready ++ s.helds).filter mine).map (·.rcd) ++
    (s.images.filterMap fun p => p.2.task.bind fun t => if t.ctx = ctx then some t.rcd else none)
  let s := rs.foldl (fun s r => if placed r || !liveSt (s.recSt r) then s else s.closeRec r) s
  let s := { s with ready := s.ready.filter (!mine ·), helds := s.helds.filter (!mine ·) }
  ids.foldl (fun s i => s.preempt i) s.widenToken

/-- CONTEXT_DESTROY (R298). -/
def State.destroyCtx (s : State) (ctx : BitVec 12) : State :=
  if s.sup.cmd.busy then s
  else if s.liveCtx ctx then s.closeCtx ctx
  else s.setCmd fun c => { c with result := 1, done := true }

/-- OP and CTX of CTXCMD. -/
def State.setOp (s : State) (op : BitVec 2) (ctx : BitVec 12) : State := s.setCmd fun c => { c with op, ctx }

def execContextDestroy (ctx : BitVec 12) (s : State) : Host.Outcome State Fault Refusal := .next ((s.setOp 2 ctx).destroyCtx ctx)

/-- A destroy is complete: no live task and no unfinished conversion of the closing context remains. -/
def State.destroyDone (s : State) : State :=
  match findFirst? (fun x : Nat × Ctx => x.2.closing) s.ctxs with
  | none => s
  | some (n, _) =>
    let ctx := BitVec.ofNat 12 n
    let d := s.descAt ctx
    let placed := s.cores.any fun k => optAll k.t.task (·.ctx == ctx) && k.t.task.isSome
    if s.sup.cmd.busy = true ∧ s.rd64 (d + 8 * 58) = 0 ∧ placed = false then
      let s := s.dropTlb fun e => e.ctx == ctx
      let s := (s.wrField d 4 2 0).setCmd fun c => { c with result := 0, done := true, busy := false }
      { s with ctxs := spErase s.ctxs n }.forgetCtx ctx
    else s

/-- CONTEXT_DESTROY_COMPLETE (R298). -/
def execContextDestroyComplete (s : State) : Host.Outcome State Fault Refusal := .next s.destroyDone

end Sys2Proof.Machine
end

