-- ==== Sys2Proof/Machine/Snap.lean ====
section
/-!
DEFINITION. `hsnap` and the end of a hash interval (spec 10 R218, 24 R357), and the release of operations that wait at a logged
point in replay (spec 24 R355).
-/
namespace Sys2Proof.Machine
open Sys2Proof

/-! ## HSNAP (R218, R357) -/

/-- At task level with HS = 0 `hsnap` is a privilege violation; no system register is named. -/
def State.gateHsnap (s : State) (a : BitVec 6) : Gate :=
  { Gate.c (.hsnap a) [] [.s a] with trap := trapIf (!s.t.sys.prv && !s.t.sys.hs) 0x15 0 }

/-- HSNAP (R218): its register empties until the interval has ended. -/
def execHsnap (a : BitVec 6) (s : State) : Host.Outcome State Fault Refusal :=
  issue (s.gateHsnap a) (fun s => (s.setEmpty (.s a) true).modQ fun q => { q with hq := q.hq ++ [a] }) s

/-- Every write of the task has been performed. -/
def State.wroteAll (s : State) : Bool :=
  s.coreDone && s.t.eng.cpq.isEmpty && s.t.eng.ten.isEmpty && s.t.eng.conv.all s.convHalted

/-- The oldest `hsnap`'s interval ends, in replay when it is the hash unit's next. -/
def State.endInterval (s : State) : State :=
  match s.t.q.hq, s.t.task with
  | a :: as, some t =>
    if s.wroteAll then
      match s.logPoint s.issuer hashPoint 8 0 with
      | (_, false) => s
      | (s, true) =>
        let (s, seq) := s.intervalEnd t.ctx 1 (t.rcd / 256) t.member s.phaseNo.toNat
        (s.modQ fun q => { q with hq := as }).fillDst (.s a false) 8 seq.toNat
    else s
  | _, _ => s

/-- HASH_INTERVAL_END (R357). -/
def execHashIntervalEnd (s : State) : Host.Outcome State Fault Refusal := .next s.endInterval

/-! ## The core at work -/

/-! ## REPLAY_RELEASE (R355) -/

/-- The core of the task that the entry at HEAD of a context's point names. -/
def State.headCore (s : State) (ctx : Nat) (point : Nat) : Option Nat :=
  let slot := s.oldir (BitVec.ofNat 12 ctx) + 16 * point
  let e := s.rd64 (s.rdField slot 0 57 + 16 * s.rdField (slot + 8) 0 32)
  let here (c : Core) : Bool :=
    match c.t.task with
    | some t => c.t.sys.rpl && t.ctx.toNat == ctx && t.rcd / 256 == field e.toNat 0 50 && t.member == field e.toNat 50 6
    | none => false
  (findFirst? here s.cores).map (·.id)

/-- What the named task has waiting at points: its oldest core-path access, its copies, what they owe, its hash interval. -/
def State.retryAll (s : State) : State :=
  let s := s.readRows.performHead
  let s := (s.t.eng.cpq.map (·.tag)).foldl (fun s tag =>
    match findFirst? (fun q : CopyReq => q.tag == tag) s.t.eng.cpq with
    | some q => if q.active && s.mayComplete q then s.completeCopy q true else s
    | none => s) s
  s.payOwed.endInterval

/-- REPLAY_RELEASE (R355): the operation that matches the entry at HEAD is performed, where it has arrived; the logged points check
every operation that is tried again. -/
def execReplayRelease (point : BitVec 11) (s : State) : Host.Outcome State Fault Refusal :=
  .next ((s.ctxs.map (·.1)).foldl (fun s ctx =>
    match s.headCore ctx point.toNat with
    | some id => s.onCore id State.retryAll
    | none => s) s)

end Sys2Proof.Machine
end

