-- ==== Sys2Proof/Machine/Upkeep.lean ====
section
/-!
DEFINITION. Logical time and the domain floor (spec 12 R229-R231), late edges, uncorrectable errors and scrubbing, lost dies (spec
27 R365-R372), hold steps, power and temperature (spec 28 R391-R393).
-/
namespace Sys2Proof.Machine
open Sys2Proof

/-- A condition that ALERT reports (R382): vector 0 when ALERT becomes nonzero. -/
def State.alert (s : State) (bit : Nat) : State :=
  let s' := s.modSup fun u => { u with alert := u.alert ||| BitVec.ofNat 5 (2 ^ bit) }
  if s.sup.alert = 0 then s'.msi 0 else s'

/-! ## Logical time (R229-R231) -/

/-- Every core of the module changed. -/
def State.mapCores (s : State) (f : Core → Core) : State := { s with core := f s.core, others := s.others.map f }

/-- Each core's lt rises by 1. -/
def State.ltUp (s : State) : State :=
  { s.mapCores (fun c => { c with lt := c.lt + 1 }) with idleLt := s.idleLt + 1 }

/-- LT_ADVANCE (R229). -/
def execLtAdvance (s : State) : Host.Outcome State Fault Refusal := .next s.ltUp

def tmin (a b : Time) : Time := if tle a b then a else b

/-- The domain floor from the module's own times and its peers': the lowest lt of any core, listed or not (R230). -/
def State.floorOf (s : State) (peers : List Time) : Time :=
  let ls := s.cores.map (·.lt) ++ peers ++ if s.cores.length < 1024 then [s.idleLt] else []
  ls.foldl tmin s.core.lt

/-- The domain floor exchanged: the stamps that would lag it are raised (R230; log 70 for UT). -/
def State.exchangeFloor (s : State) (peers : List Time) : State :=
  let f := s.floorOf peers
  { s with
    floor := f
    sup := { s.sup with floors := peers }
    lines := s.lines.map fun x => (x.1, { x.2 with wts := raiseTo f x.2.wts, rts := raiseTo f x.2.rts })
    mt := ((List.range 32).map (32 * s.modNo.toNat + ·)).foldl (fun l k => spSet 0 l k (raiseTo f (spGet 0 l k))) s.mt
    ut := s.ut.map fun x => (x.1, raiseTo f x.2) }

/-- DOMAIN_FLOOR_EXCHANGE (R230). -/
def execDomainFloorExchange (peers : List Time) (s : State) : Host.Outcome State Fault Refusal := .next (s.exchangeFloor peers)

/-- A module that no Seam link joins to another is its domain, and makes the exchange on its own every 2^20 cycles (R230). -/
def State.ownFloor (s : State) : State :=
  if s.cyc % 2 ^ 20 = 0 then
    s.exchangeFloor (if s.sup.links.any (·.2.up) then (if s.sup.floors.isEmpty then [s.floor] else s.sup.floors) else [])
  else s

/-- DOMAIN_FLOOR_JOIN (R231): a module that joins its domain sets every lt and MT to the floor received, before its first placement
and its first answered request. -/
def execDomainFloorJoin (f : Time) (s : State) : Host.Outcome State Fault Refusal :=
  if s.sup.joining = false then .next s
  else
    let s := (s.mapCores fun c => { c with lt := f }).modSup fun u => { u with joining := false }
    .next { s with
      idleLt := f, floor := f
      mt := ((List.range 32).map (32 * s.modNo.toNat + ·)).foldl (fun l k => spSet 0 l k f) s.mt }

/-! ## Power on and off (R3, R231) -/

/-- POWER_OFF (R3): every state of the module span ends. -/
def execPowerOff (s : State) : Host.Outcome State Fault Refusal :=
  .next { State.reset with power := false, agenda := s.agenda, fresh := s.fresh }

/-- POWER_ON (R231). -/
def execPowerOn (s : State) : Host.Outcome State Fault Refusal :=
  if s.power then .next s else .next { State.reset with agenda := s.agenda, fresh := s.fresh }

/-! ## Hold steps (R389, R391, R393) -/

/-- The least step whose clock does not exceed a clock in MHz. -/
def clockStep (mhz : Nat) : Nat := (findFirst? (fun k => decide (1100 * (16 - k) ≤ 16 * mhz)) (List.range 13)).getD 12

/-- The step that a group's service level and the record's clock ask for (R388, R389). -/
def State.baseStep (s : State) (g : Nat) : Nat :=
  let l := if s.sup.level = 1 then 8 else if s.sup.level = 2 then 4 else 0
  let c := match s.sup.cfg with
    | some c => clockStep ((c.clocks.getD g 1100).toNat)
    | none => 0
  max l c

/-- The hold step of a group of dies: the power steps on top of what its level and clock ask for, one more when hot, 12 at most
(R391, R393; log 61). -/
def State.groupStep (s : State) (g : Nat) : Nat :=
  min 12 (s.baseStep g + spGet 0 s.sup.steps g + if s.sup.thermal.getLsbD g then 1 else 0)

/-- A cycle is held for a core: by a late edge or by its group's step. -/
def State.heldNow (s : State) (c : Core) : Bool :=
  decide (0 < c.hold) || decide ((s.cyc - s.cyc / 16) % 16 < s.groupStep (dieOf c.id / 8))

/-- What a held cycle moves by one cycle: landings, repetitions and the next issue, whose earliest cycle is e. Before a resumed task's ρ it
moves nothing, since its offsets count from ρ on (R331, R334). -/
def TaskSpan.held (t : TaskSpan) (cyc e : Nat) : TaskSpan :=
  let mv (x : Flight) : Flight := if cyc ≤ x.due then { x with due := x.due + 1 } else x
  if cyc < t.ctl.rho then t
  else
  { t with
    q := { t.q with
      fly := t.q.fly.map mv, placket := t.q.placket.map mv, reps := t.q.reps.map fun r => { r with at_ := r.at_ + 1 } }
    ctl := { t.ctl with eBase := if cyc < e then t.ctl.eBase + 1 else t.ctl.eBase, slip := true } }

/-! ## Lost dies and cores (R367, R370-R372) -/

/-- Bits OVF of the points at which a task has logged an entry. -/
def State.overflowLogs (s : State) (r : Nat) : State :=
  let ctx := s.recCtx r
  s.seqs.foldl (fun s k =>
    if k.1.1 = ctx.toNat ∧ k.1.2.2.1 = r / 256 ∧ k.2 ≠ 0 then s.wrField (s.oldir ctx + 16 * k.1.2.1 + 8) 63 1 1 else s) s

/-- A task's memberships end (R311, R371). -/
def State.leaveGroups (s : State) (r m : Nat) : State :=
  { s with groups := s.groups.map fun g => (g.1, g.2.leave r m) }

/-- The record's tasks are placed again from the start at their original level (R370). -/
def State.replay (s : State) (r : Nat) : State :=
  let mine (c : Core) : Bool := optAll c.t.task (·.rcd == r) && c.t.task.isSome
  let cs := s.cores.filter mine
  let paid := cs.foldl (fun n c => max n (c.t.ctl.ending.getD 0 - 1)) 0
  let s := { s with subs := match spFind s.subs r with
      | some u => spPut s.subs r { u with paid := max u.paid paid }
      | none => s.subs }
  let ids := cs.map (·.id)
  let s := (List.range (s.gangSize r)).foldl (fun s m => s.leaveGroups r m) s
  let s := { s with images := s.images.filter fun p => !(s.imageKeys r).contains p.1, ready := s.ready.filter (·.rcd != r) }
  let s := ids.foldl State.vacate s
  let s := (s.toSt r stReady).setFcode r 0
  { s with ready := s.ready ++ [s.newEntry r (s.recF r 3 13 3) false none] }

/-- The record fails: the lost members leave their groups and count LEFT down (R371). -/
def State.failLost (s : State) (r : Nat) (lost : List Core) : State :=
  let s := lost.foldl (fun s c =>
    let s := match c.t.task with
      | some t => s.leaveGroups r t.member
      | none => s
    (s.wrField (r + 8 * 20) 56 8 (s.recF r 20 56 8 - 1)).vacate c.id) s
  ((s.toSt r stFailed).setFcode r 0xF1).faultEntry (s.recCtx r) r 0

/-- What has left a lost core by then: posted operations already passed to a home are performed, a free number of them (R370). -/
def State.drainSome (s : State) : State :=
  let n := (Config.freeWord s.fresh).toNat % (s.t.q.cq.length + 1)
  { s with fresh := s.fresh + 1 }.drain n

/-- A unit of the n-th active copy is moved, or not, as a free value says. -/
def State.moveSome (s : State) (q : CopyReq) : State :=
  let n := (s.unitKeys q).length
  let s := { s with fresh := s.fresh + n }
  (List.range n).foldl (fun s' k => if (Config.freeWord (s.fresh - n + k)).getLsbD 0 then s'.copyUnit q.tag k else s') s

/-- A core is lost with requests in flight: their destinations keep whatever units had been performed, which the spec leaves open for each
of them (R265, R372; free values, log 5), each unit whole (R282). Their records are not written. -/
def State.loseWork (s : State) : State :=
  let s := s.drainSome
  (s.t.eng.cpq.filter (·.active)).foldl State.moveSome s

/-- What becomes of a record whose tasks stood on lost cores. -/
def State.settleLost (s : State) (r : Nat) (lost : List Core) : State :=
  if s.badAt r 256 then
    match lost.filterMap (·.t.task) with
    | t :: _ => s.loseRecord r t.ctx
    | [] => s
  else
  let s := if lost.any fun c => c.t.sys.log then s.overflowLogs r else s
  let ok := lost.all fun c => c.t.sys.ph || optAll c.t.task (·.idem)
  if s.liveCtx (s.recCtx r) = false then (lost.foldl (fun s c => s.vacate c.id) s).closeRec r
  else if ok then s.replay r else s.failLost r lost

/-- Cores have left service: the tasks on them are settled, record by record. -/
def State.loseCores (s : State) (gone : Nat → Bool) : State :=
  let lost := s.cores.filter fun c => gone c.id && c.t.task.isSome
  let rs := (lost.filterMap fun c => c.t.task.map (·.rcd)).eraseDups
  let s := lost.foldl (fun s c => s.onCore c.id State.loseWork) s
  rs.foldl (fun s r => s.settleLost r (lost.filter fun c => optAll c.t.task (·.rcd == r))) s

/-- A record that no core in service may run. -/
def State.placeable (s : State) (r : Nat) : Bool :=
  (List.range 1024).any fun id => s.mayUse r id

/-- READY tasks that have no eligible core in service are counted (R310). -/
def State.countUnplaceable (s : State) : State :=
  s.modSup fun u => { u with unplaceable := (s.ready.filter fun e => !s.placeable e.rcd).length }

/-- Entries of dies out of service join other queues. -/
def State.rehome (s : State) : State :=
  { s with ready := s.ready.map fun e => if s.dieUp e.die then e else { e with die := s.homeDie e.rcd } }

/-- The conversions of a die's Topiary engine halt (R372). -/
def State.haltTopiary (s : State) (die : Nat) : State :=
  let s' := (topQueue s die).foldl (fun s q =>
    let ws := s.rdWords q.img 8
    (s.putHandle q.img q.base (ws.set 1 (word1With (ws.getD 1 0) true true (field (wordAt ws 1) 16 3)))).1) s
  s'.setTop die []

/-- A die leaves service (R370). -/
def State.loseDie (s : State) (die : Nat) : State :=
  let s' := s.modSup fun u => { u with outDies := die :: u.outDies }
  ((s'.loseCores fun id => dieOf id == die).haltTopiary die).rehome.widenToken

/-- DIE_LOSS (R370). -/
def execDieLoss (die : BitVec 6) (s : State) : Host.Outcome State Fault Refusal :=
  if s.sup.outDies.contains die.toNat then .next s else .next (s.loseDie die.toNat)

/-- A core leaves service, and its die with it (R367, R370). -/
def State.loseCore (s : State) (id : Nat) : State :=
  let s := s.modSup fun u => { u with outCores := setAdd u.outCores id }
  if s.sup.outDies.contains (dieOf id) then s else s.loseDie (dieOf id)

/-- LATE_EDGE_REPLAY (R365-R367): the core, and its Yoke gang with it, is held for two cycles; a second late edge on the path during
the replay takes the core, and its die, out of service. -/
def execLateEdgeReplay (second : Bool) (s : State) : Host.Outcome State Fault Refusal :=
  if second then .next (s.loseCore s.core.id)
  else
    let ids := match s.t.task with
      | some t => if s.yokeGang t.rcd then s.freezeSet s.core.id else [s.core.id]
      | none => [s.core.id]
    let s := s.bump (dieCnt (dieOf s.core.id) 0) 1
    .next (ids.foldl (fun s i => s.updCore i fun c => { c with hold := c.hold + 2 }) s)

/-! ## Uncorrectable errors (R368, R369) -/

/-- A register found in error is left empty and marked; one that has no storage or holds nothing yet is not. -/
def State.eccReg (s : State) (r : RegId) : State :=
  let fixed := match r with
    | .s n => n == 0
    | .v _ => false
    | .k n => n == 0
    | .x _ => false
  if fixed || s.emptyAt r then s else (s.setEmpty r true).mark [r] 0x0B 0

def Plane.spoil (p : Plane) (r : Nat) : Plane := { p with rows := spPut p.rows r { p.row r with bad := true } }

/-- What an uncorrectable error leaves. -/
def State.eccAt (s : State) : EccPlace → State
  | .sReg n => s.eccReg (.s n)
  | .vReg n => s.eccReg (.v n)
  | .kReg n => s.eccReg (.k n)
  | .tile n => s.eccReg (.x n)
  | .accRow n => s.setAcc n { s.accRow n with bad := true }
  | .activeRow n => s.modMat fun m => { m with active := m.active.spoil n.toNat }
  | .shadowRow n => s.modMat fun m => { m with shadow := m.shadow.spoil n.toNat }
  | .hcwEntry n => s.modT fun t => { t with hcwBad := setAdd t.hcwBad n.toNat }
  | .scratchUnit n =>
    if 32 * n.toNat < s.core.scratchSize then s.modT fun t => { t with scratchBad := setAdd t.scratchBad n.toNat } else s
  | .l1Sector pa => { s with core := { s.core with l1 := s.core.l1.filter (·.sector != pa.toNat / 256) } }
  | .memSector pa => { s with memBad := setAdd s.memBad (pa.toNat / 256) }

/-- The counter of an uncorrectable error: the die's, or the base die's for memory. -/
def State.eccCnt (s : State) : EccPlace → Nat
  | .memSector pa => baseCnt (s.homeOf pa.toNat) 1
  | _ => dieCnt (dieOf s.core.id) 2

/-- A correctable error arises in stored state (R368): what is stored there still reads as it did. -/
def State.arise (s : State) (id : Nat) (p : EccPlace) : State := { s with soft := (id, p) :: s.soft }

/-- Cores scrub their scratchpad while no task is placed (R368). -/
def State.scrubIdle (s : State) : State :=
  s.correct fun x => match x.2 with
    | .scratchUnit _ => !s.cores.any fun c => c.id == x.1 && c.t.task.isSome
    | _ => false

/-- ECC_UNCORRECTABLE (R369). -/
def execEccUncorrectable (place : EccPlace) (s : State) : Host.Outcome State Fault Refusal :=
  .next ((s.eccAt place).bump (s.eccCnt place) 1)

/-- SCRUB (R368): a home slice's pass over its lines corrects what it finds there. -/
def execScrub (slice : BitVec 5) (s : State) : Host.Outcome State Fault Refusal :=
  .next (s.correct fun x => match x.2 with
    | .memSector pa => s.homeOf pa.toNat == slice.toNat
    | _ => false)

/-! ## Power and temperature (R392, R393) -/

/-- The group that is raised: the first below step 12 in the order of the power they draw, most first. -/
def State.raiseGroup (s : State) (order : List (BitVec 3)) : Option Nat :=
  findFirst? (fun g => decide (s.groupStep g < 12)) (order.map (·.toNat) ++ List.range 8)

/-- The lowest-numbered group at the highest step, among those that a power step holds. -/
def State.lowerGroup (s : State) : Option Nat :=
  let gs := (List.range 8).filter fun g => spGet 0 s.sup.steps g != 0
  let top := (gs.map s.groupStep).foldl max 0
  findFirst? (fun g => s.groupStep g == top) gs

def State.setStep (s : State) (g n : Nat) : State := s.modSup fun u => { u with steps := spSet 0 u.steps g n }

/-- POWER_CAP_TICK (R393). -/
def execPowerCapTick (avg : BitVec 16) (order : List (BitVec 3)) (calm : Bool) (s : State) : Host.Outcome State Fault Refusal :=
  let s := s.modSup fun u => { u with pwr := avg }
  if s.sup.capEn = false then .next s
  else if s.sup.cap.toNat < avg.toNat then
    match s.raiseGroup order with
    | some g => .next (s.setStep g (spGet 0 s.sup.steps g + 1))
    | none => .next (if s.sup.overcap then s else (s.modSup fun u => { u with overcap := true }).alert 0)
  else if calm = true ∧ 100 * avg.toNat < 95 * s.sup.cap.toNat then
    match s.lowerGroup with
    | some g => .next (s.setStep g (spGet 0 s.sup.steps g - 1))
    | none => .next s
  else .next s

/-- THERMAL_THRESHOLD (R393). -/
def execThermalThreshold (group : BitVec 3) (deg115 : Bool) (s : State) : Host.Outcome State Fault Refusal :=
  let s := (s.modSup fun u => { u with thermal := u.thermal ||| BitVec.ofNat 8 (2 ^ group.toNat) }).alert 1
  .next (if deg115 then ((List.range 8).map (8 * group.toNat + ·)).foldl (fun s d =>
    if s.sup.outDies.contains d then s else s.loseDie d) s else s)

end Sys2Proof.Machine
end

