-- ==== Sys2Proof/Machine/Host.lean ====
section
/-!
DEFINITION. The host ports and the Mantle (spec 28 R377-R382, R387-R394): host accesses to memory (15 R268, 16 R281, 27 R374, R375),
the supervisor register space, the configuration record, service levels and attestation.
-/
namespace Sys2Proof.Machine
open Sys2Proof

def State.answer (s : State) (r : Reply) : State := s.modSup fun u => { u with reply := r }

/-! ## Ports (R377) -/

def State.portUp (s : State) (p : Nat) : Bool :=
  match spFind s.sup.ports p with
  | some x => x.up
  | none => false

/-- An error of a port's function is reported (R377). -/
def State.noteAer (s : State) (p : Nat) (e : AerErr) : State :=
  match spFind s.sup.ports p with
  | some x => s.modSup fun u => { u with ports := spPut u.ports p { x with aer := x.aer ++ [e] } }
  | none => s

/-- What a port's function has reported so far. -/
def State.aerOf (s : State) (p : Nat) : List AerErr :=
  match spFind s.sup.ports p with
  | some x => x.aer
  | none => []

/-- HOST_LINK_TRAINING (R377): at S1 or above; port 1 offers no CXL. -/
def execHostLinkTraining (port : BitVec 1) (cxl : Bool) (width : BitVec 5) (s : State) : Host.Outcome State Fault Refusal :=
  if s.sup.level = 0 ∨ ¬(width = 16 ∨ width = 8 ∨ width = 4) then .next s
  else .next (s.modSup fun u => { u with
    ports := spPut u.ports port.toNat { up := true, cxl := cxl && port == 0, width, aer := s.aerOf port.toNat } })

/-- SURPRISE_DOWN (R377). -/
def execSurpriseDown (port : BitVec 1) (s : State) : Host.Outcome State Fault Refusal :=
  match spFind s.sup.ports port.toNat with
  | some x => .next (s.modSup fun u => { u with
      ports := spPut u.ports port.toNat { x with up := false, aer := x.aer ++ [.surpriseDown] } })
  | none => .next s

/-! ## Accesses from outside at the home (R268, R281, R374) -/

/-- A range within a sector touches blocks of a Fertite format only whole; bytes of the unused tail, any of them, may be included
(R281). -/
def wholeBlocks (fmt o n : Nat) : Bool :=
  let b := ftBytes fmt
  let e := o + n
  let tail := b * ftPer fmt
  (decide (tail ≤ o) || o % b == 0) && (decide (tail ≤ e) || e % b == 0)

/-- A write of a piece of a sector in a line with FT = 1 is admitted: it covers whole blocks in the line's own format. -/
def State.ftAdmits (s : State) (pa n : Nat) : Bool :=
  optAll (s.line pa).ft fun f => wholeBlocks f (pa % 256) n

/-- A piece within a sector that the host or the Mantle writes is admitted at its home. -/
def State.outAdmits (s : State) (pa n : Nat) : Bool := isPeer pa || s.ftAdmits pa n

/-- A write from outside, sector by sector, with the largest time it takes; one that covers some block only in part is discarded, and
each home that refuses some of it counts it once (R281, R376). -/
def State.outWrites (s : State) (pa : Nat) (bs : List Byte) (bad : Bool) : State × Time :=
  let cs := cuts 256 pa bs.length
  let hs := (cs.filter fun c => !s.outAdmits c.1 c.2).foldl (fun l c => setAdd l (s.homeOf c.1)) []
  if hs = [] then s.engWrite s.floor pa bs false none bad
  else (hs.foldl (fun s h => s.bump (baseCnt h 2) 1) s, s.floor)

/-- Launch-queue entries whose V bit a write sets: their addresses divided by 16. -/
def postedBy (old new : State) (pa n : Nat) : List Nat :=
  ((List.range (n / 16 + 2)).map (pa / 16 + ·)).filter fun k =>
    old.rdField (16 * k) 63 1 == 0 && new.rdField (16 * k) 63 1 == 1

/-- A write through a port, or by the Mantle as port 2: its time counts for the entries it posts (R268, R304). -/
def State.portWrite (s : State) (port pa : Nat) (bs : List Byte) (bad : Bool) : State :=
  let (s', t) := s.outWrites pa bs bad
  let m := (tjoin (spFind s.sup.portT port) t).getD t
  s'.modSup fun u =>
    { u with
      portT := spPut u.portT port m
      posted := (postedBy s s' pa bs.length).foldl (fun l k => spPut l k m) u.posted }

/-- The address that BAR2 reaches (R378). -/
def State.barAddr (s : State) (pa : BitVec 48) : Nat := 2 ^ 48 * s.modNo.toNat + pa.toNat

/-- A read from outside, with its poison. -/
def State.outRead (s : State) (pa n : Nat) : State × List Byte × Bool :=
  let (s, _, bs, bad) := (s.fixHome pa n).engRead s.floor pa n false
  (s, bs, bad)

/-! ### Writes from outside to lines under conversion (R244) -/

/-- Tiles that keep lines of a range locked go on. -/
def State.freeLines (s : State) (pa n : Nat) : State :=
  (s.topiary.filter fun d => d.2.any fun q => q.lines.any fun l => decide (1024 * l < pa + n) && decide (pa < 1024 * l + 1024)).foldl
    (fun s d => s.topTile d.1) s

/-- An access from outside takes effect, unless one before it waits or it writes a line that a tile keeps locked: it then waits behind them
until the tile commits (R244). -/
def State.orHold (s : State) (i : OutAcc) (pa n : Nat) (f : State → State) : State :=
  let s := if s.lineBusy pa n then s.freeLines pa n else s
  if !s.outHeld.isEmpty || s.lineBusy pa n then { s with outHeld := s.outHeld ++ [i] } else f s

/-! ## Launch doorbells (R381) -/

/-- LAUNCH_DOORBELL (R381). -/
def State.doorbell (s : State) (ctx : BitVec 12) (v : W64) : State :=
  let q : BitVec 2 := v.setWidth 2
  if v >>> 2 ≠ 0 ∨ s.liveCtx ctx = false ∨ s.sup.doorbells.contains (ctx, q) = true then s
  else s.modSup fun u => { u with doorbells := u.doorbells ++ [(ctx, q)] }

def execLaunchDoorbell (ctx : BitVec 12) (v : W64) (s : State) : Host.Outcome State Fault Refusal := .next (s.doorbell ctx v)

/-! ## The register space (R378, R379) -/

/-- A register of the supervisor space. -/
inductive Reg where
  | tlbia (die : Nat)
  | tlbic (die : Nat)
  | corectl (core : Nat)
  | counter (off : Nat)
  | ppen (port n : Nat)
  | svclvl | pcap | pstat | tray | alert | ctxtab | ctxcmd
  | slstat (l : Nat)
  | slcnt (l : Nat)
  | lqdb (ctx : BitVec 12)
  | none
  deriving DecidableEq, Repr

/-- A register of a compute die's block. -/
def dieReg (die r : Nat) : Reg :=
  if r = 0x00 then .tlbia die
  else if r = 0x08 then .tlbic die
  else if r = 0x100 ∨ r = 0x108 ∨ r = 0x110 ∨ r = 0x118 then .counter (die * 0x400000 + r)
  else if 0x100000 ≤ r ∧ r < 0x200000 ∧ r % 0x10000 = 0x40 then .corectl (16 * die + (r - 0x100000) / 0x10000)
  else .none

/-- A register of the Mantle's block. -/
def mantleReg (r : Nat) : Reg :=
  match r with
  | 0x00 => .svclvl
  | 0x10 => .pcap
  | 0x18 => .pstat
  | 0x20 => .tray
  | 0x28 => .alert
  | 0x30 => .ctxtab
  | 0x38 => .ctxcmd
  | _ => .none

/-- The register at an offset, which must be a multiple of 8. -/
def regAt (off : Nat) : Reg :=
  if off % 8 ≠ 0 then .none
  else if off < 0x10000000 then dieReg (off / 0x400000) (off % 0x400000)
  else if off < 0x12000000 then
    let r := off % 0x100000
    if r = 0x100 ∨ r = 0x108 ∨ r = 0x110 ∨ r = 0x118 then .counter off else .none
  else if off < 0x12020000 then
    let r := off % 0x10000
    if 0x200 ≤ r ∧ r < 0x300 then .ppen ((off - 0x12000000) / 0x10000) ((r - 0x200) / 8) else .none
  else if 0x13000000 ≤ off ∧ off < 0x13010000 then mantleReg (off - 0x13000000)
  else if 0x14000000 ≤ off ∧ off < 0x14030000 then
    let l := (off - 0x14000000) / 0x1000
    if off % 0x1000 = 0 then .slstat l else if off % 0x1000 = 8 then .slcnt l else .none
  else if 0x18000000 ≤ off ∧ off < 0x19000000 ∧ off % 0x1000 = 0 then .lqdb (BitVec.ofNat 12 ((off - 0x18000000) / 0x1000))
  else .none

def word (fs : List (Nat × Nat)) : W64 := BitVec.ofNat 64 (pack fs)

/-- Step of R329 in progress. -/
def State.preemptStep (s : State) (c : Core) : Nat :=
  if c.ctl.busy = false then 0
  else
    match c.t.ctl.freeze with
    | none => 1
    | some z => if s.cyc < z.f then 1 else if s.cyc < z.f + 12 then 2 else 3

/-- What a register reads as. -/
def State.regRead (s : State) (r : Reg) : W64 :=
  let u := s.sup
  match r with
  | .tlbia d => word [(16, 0), (41, (s.tlbiOf d).gran.toNat)]
  | .tlbic d =>
    let x := s.tlbiOf d
    word [(12, x.ctx.toNat), (2, x.scope.toNat), (1, x.busy.toNat), (1, x.done.toNat)]
  | .corectl id =>
    match s.coreById id with
    | some c => word [(1, 0), (1, c.ctl.busy.toNat), (1, c.ctl.done.toNat), (1, c.ctl.gang.toNat), (4, s.preemptStep c)]
    | none => 0
  | .counter off => (spGet 0 u.cnt off).setWidth 64
  | .ppen p n => (spGet 0 u.ppen (32 * p + n)).setWidth 64
  | .svclvl => word [(2, u.level.toNat), (1, u.chg.toNat), (1, 0), (2, u.tgt.toNat), (2, 0), (8, u.cfgerr.toNat)]
  | .pcap => word [(16, u.cap.toNat), (15, 0), (1, u.capEn.toNat), (8, u.win.toNat)]
  | .pstat =>
    let st := (List.range 8).map s.groupStep
    word [(8, pack (st.map fun x => (1, if 0 < x then 1 else 0))), (1, u.overcap.toNat), (3, 0), (4, st.foldl max 0), (16, 0),
      (16, u.pwr.toNat)]
  | .tray => word [(1, u.arm.toNat), (1, u.pres.toNat), (1, u.latch.toNat), (1, u.loss.toNat)]
  | .alert => u.alert.setWidth 64
  | .ctxtab => word [(16, 0), (41, u.ctxtab.toNat)]
  | .ctxcmd =>
    word [(12, u.cmd.ctx.toNat), (4, 0), (2, u.cmd.op.toNat), (3, 0), (1, u.cmd.busy.toNat), (1, u.cmd.done.toNat), (1, 0),
      (8, u.cmd.result.toNat)]
  | .slstat l =>
    let x := s.link1 l
    word [(1, x.up.toNat), (12, 0), (2, x.width.toNat), (1, x.spu.toNat), (5, x.splane.toNat), (5, 0), (6, x.plink.toNat),
      (8, x.peer.toNat)]
  | .slcnt l => word [(32, (s.link1 l).crcerr.toNat), (32, (s.link1 l).retry.toNat)]
  | .lqdb _ => 0
  | .none => 0

/-- A write of TLBIC: DONE clears, the fields are taken, GO starts. -/
def State.writeTlbic (s : State) (d : Nat) (v : W64) : State :=
  let x := s.tlbiOf d
  let y : Tlbi := { x with done := x.done && !v.getLsbD 15, scope := (v >>> 12).setWidth 2, ctx := v.setWidth 12 }
  let s := s.setTlbi d y
  if v.getLsbD 16 then s.tlbiGo d y else s

/-- A write of CORECTL. -/
def State.writeCorectl (s : State) (id : Nat) (v : W64) : State :=
  let s := s.withCore id
  let s := if v.getLsbD 2 then s.updCore id fun c => { c with ctl := { c.ctl with done := false } } else s
  if v.getLsbD 0 then s.preempt id else s

/-- A write of CTXCMD: GO is ignored while a command is in progress. -/
def State.writeCtxcmd (s : State) (v : W64) : State :=
  let s := if v.getLsbD 22 then s.setCmd fun c => { c with done := false } else s
  let op : BitVec 2 := (v >>> 16).setWidth 2
  let ctx : BitVec 12 := v.setWidth 12
  let s := s.setOp op ctx
  if s.sup.cmd.busy then s
  else
    if v.getLsbD 23 = false then s
    else if op = 1 then s.createCtx ctx
    else if op = 2 then s.destroyCtx ctx
    else s.setCmd fun c => { c with done := true }

def clampCap (x : Nat) : BitVec 16 := BitVec.ofNat 16 (max 3000 (min x 14000))

/-- A write of a register, whatever follows from it. -/
def State.regWrite (s : State) (r : Reg) (v : W64) : State :=
  match r with
  | .tlbia d => s.setTlbi d { s.tlbiOf d with gran := (v >>> 16).setWidth 41 }
  | .tlbic d => s.writeTlbic d v
  | .corectl id => s.writeCorectl id v
  | .counter off => s.modSup fun u => { u with cnt := spSet 0 u.cnt off (v.setWidth 32) }
  | .ppen p n => s.modSup fun u => { u with ppen := spSet 0 u.ppen (32 * p + n) (v.setWidth 17) }
  | .svclvl => s.modSup fun u => { u with tgt := (v >>> 4).setWidth 2 }
  | .pcap => s.modSup fun u =>
      { u with win := (v >>> 32).setWidth 8, capEn := v.getLsbD 31, cap := clampCap (v.toNat % 65536) }
  | .pstat => if v.getLsbD 8 then s.modSup fun u => { u with overcap := false } else s
  | .tray => s.modSup fun u => { u with arm := v.getLsbD 0, loss := u.loss && !v.getLsbD 3 }
  | .alert => s.modSup fun u => { u with alert := u.alert &&& ~~~v.setWidth 5 }
  | .ctxtab => if s.ctxs.all (·.2.closing) then s.modSup fun u => { u with ctxtab := (v >>> 16).setWidth 41 } else s
  | .ctxcmd => s.writeCtxcmd v
  | .slstat _ => s
  | .slcnt l =>
    let x : Link := { s.link1 l with crcerr := v.setWidth 32, retry := (v >>> 32).setWidth 32 }
    s.modSup fun u => { u with links := spSet Link.down u.links l x }
  | .lqdb ctx => s.doorbell ctx v
  | .none => s

/-! ## What the host reads and writes (R268, R319, R374, R375, R377, R378) -/

/-- The 8 KiB of a substitution table (R319). -/
def tableBytes (es : List SubstEntry) : List Byte :=
  (es.flatMap fun e => leBytes 16 e.digest.toNat ++
    leBytes 8 (pack [(32, e.prog.toNat), (29, 0), (2, e.grade.toNat), (1, e.valid.toNat)]) ++
    List.replicate 8 0) ++ List.replicate (8192 - 32 * es.length) 0

/-- Eight bytes of a die's substitution table as it is read back, and behind its 8 KiB of its counters of lookups, hits, rewinds and
fallbacks (R319). -/
def State.tableWord (s : State) (die off : Nat) : W64 :=
  let t := s.substOf die
  if off < 8192 then BitVec.ofNat 64 (ofLe (((tableBytes t.entries).drop off).take 8))
  else BitVec.ofNat 64 ([t.lookups, t.hits, t.rewinds, t.fallbacks].getD ((off - 8192) / 8) 0)

/-- The port is up and the module at S1 or above, so that the host's accesses reach it (log 50). -/
def State.hostUp (s : State) (port : Nat) : Bool := s.portUp port && s.sup.level != 0

/-- A register written by the host; a Mantle write of the register that comes behind it in the cycle waits for the next one. -/
def State.hostReg (s : State) (off : Nat) (v : W64) : State :=
  if regAt off = .none then s
  else (s.regWrite (regAt off) v).modSup fun u => { u with hostWrote := setAdd u.hostWrote off }

/-- The Mantle's writes that waited for a new cycle (R378). -/
def State.lateWrites (s : State) : State :=
  if s.sup.late = [] ∧ s.sup.hostWrote = [] then s
  else s.sup.late.foldl (fun s x => s.regWrite (regAt x.1) x.2) (s.modSup fun u => { u with late := [], hostWrote := [] })

/-- REGISTER_WRITE (R378): by the host, in BAR0's 512 MiB. -/
def execRegisterWrite (a : RegAddr) (v : W64) (s : State) : Host.Outcome State Fault Refusal :=
  if s.hostUp a.port.toNat = false ∨ 2 ^ 29 ≤ a.off.toNat then .next s
  else .next (s.orHold (.register a v) 0 0 fun s => s.hostReg a.off.toNat v)

/-- An access to memory through a port is offered: BAR2 is 4 TiB, and CXL.mem what the port has trained for (R377, R378). -/
def State.offers (s : State) (port : Nat) (sp : HostSpace) (pa : Nat) : Bool :=
  match sp with
  | .bar0 => false
  | .table => false
  | .bar2 => decide (pa < 2 ^ 42)
  | .cxl => optAll (spFind s.sup.ports port) (·.cxl)

/-- HOST_MEMORY_WRITE (R268, R374, R377, R378): no payload exceeds 512 bytes. A register of BAR0 is written in 8 aligned bytes, any
other write there is discarded, as one at or beyond installed memory is; a CXL.mem write receives its completion. -/
def State.hostWrite (s : State) (port : BitVec 1) (a : HostAddr) (bytes : List Byte) (bad : Bool) : State :=
  let sp := a.space
  let pa := a.pa
  let a := s.barAddr pa
  let p := port.toNat
  if bytes = [] ∨ 512 < bytes.length then s.noteAer p .malformed
  else if sp = .bar0 then
    if bytes.length ≠ 8 ∨ 2 ^ 29 ≤ pa.toNat ∨ bad = true then s
    else s.hostReg pa.toNat (BitVec.ofNat 64 (ofLe bytes))
  else if s.offers p sp pa.toNat = false then s
  else
    let s := if bad then s.noteAer p .poisoned else s
    let s := if s.beyond a || s.beyond (a + (bytes.length - 1)) then s else s.portWrite p a bytes bad
    if sp = .cxl then s.answer (.bytes [] false) else s

def execHostMemoryWrite (port : BitVec 1) (a : HostAddr) (bytes : List Byte) (bad : Bool) (s : State) :
    Host.Outcome State Fault Refusal :=
  if s.hostUp port.toNat = false then .next s
  else
    .next (s.orHold (.write port a bytes bad) (s.barAddr a.pa)
      (if s.offers port.toNat a.space a.pa.toNat then bytes.length else 0) fun s => s.hostWrite port a bytes bad)

/-- A completion that reports an error is reported by the function too (R377). -/
def State.denied (s : State) (p : Nat) (r : Reply) (e : AerErr) : State := (s.noteAer p e).answer r

/-- HOST_MEMORY_READ (R268, R375, R377, R378): of 4,096 bytes at most. A register is read in 8 aligned bytes, any other read of BAR0
gets Completer Abort; a read at or beyond installed memory is unsupported. -/
def State.hostRead (s : State) (port : BitVec 1) (a : HostAddr) (len : BitVec 13) (rid : BitVec 16) : State :=
  let sp := a.space
  let pa := a.pa
  let a := s.barAddr pa
  let p := port.toNat
  if len = 0 ∨ 4096 < len.toNat then s.noteAer p .malformed
  else if sp = .bar0 then
    if len.toNat ≠ 8 ∨ pa.toNat % 8 ≠ 0 ∨ 2 ^ 29 ≤ pa.toNat then s.denied p .abort .aborted
    else s.answer (.value (s.regRead (regAt pa.toNat)))
  else if sp = .table then
    if len.toNat ≠ 8 ∨ pa.toNat % 8 ≠ 0 ∨ 64 ≤ pa.toNat / 65536 ∨ 8224 ≤ pa.toNat % 65536 then s.denied p .abort .aborted
    else s.answer (.value (s.tableWord (pa.toNat / 65536) (pa.toNat % 65536)))
  else if s.offers p sp pa.toNat = false ∨ s.beyond a = true ∨ s.beyond (a + (len.toNat - 1)) = true then
    s.denied p .unsupported .unsupported
  else
    let (s, bs, bad) := s.outRead a len.toNat
    if bad && !s.peerOk p rid then s.denied p .abort .aborted else s.answer (.bytes bs bad)

def execHostMemoryRead (port : BitVec 1) (a : HostAddr) (len : BitVec 13) (rid : BitVec 16) (s : State) :
    Host.Outcome State Fault Refusal :=
  if s.hostUp port.toNat = false then .next s
  else .next (s.orHold (.read port a len rid) 0 0 fun s => s.hostRead port a len rid)

/-! ## The Mantle (R387, R390) -/

/-- MANTLE_MESSAGE (R387). -/
def State.mantle (s : State) (m : MantleMsg) : State :=
  match m with
  | .readReg off => s.answer (if off.toNat % 8 ≠ 0 then .abort else .value (s.regRead (regAt off.toNat)))
  | .writeReg off v => ((if s.sup.hostWrote.contains off.toNat then
      s.modSup fun u => { u with late := u.late ++ [(off.toNat, v)] } else s.regWrite (regAt off.toNat) v)).answer .none
  | .readMem pa len =>
    if s.beyond pa.toNat ∨ s.beyond (pa.toNat + (len.toNat - 1)) then s.answer .unsupported
    else
      let (s, bs, bad) := s.outRead pa.toNat len.toNat
      s.answer (.bytes bs bad)
  | .writeMem pa bytes =>
    if s.beyond pa.toNat ∨ s.beyond (pa.toNat + (bytes.length - 1)) then s.answer .unsupported
    else (s.portWrite 2 pa.toNat bytes false).answer .none
  | .readTable die off => s.answer (if off.toNat % 8 ≠ 0 then .abort else .value (s.tableWord die.toNat off.toNat))

/-- What a message writes to memory. -/
def mantleWrites (m : MantleMsg) : Nat × Nat :=
  match m with
  | .writeMem pa bytes => (pa.toNat, bytes.length)
  | _ => (0, 0)

def execMantleMessage (m : MantleMsg) (s : State) : Host.Outcome State Fault Refusal :=
  .next (s.orHold (.mantle m) (mantleWrites m).1 (mantleWrites m).2 fun s => s.mantle m)

/-- SHA-512 of a table and the program store that came with it (R319). -/
def tableDigest (es : List SubstEntry) : BitVec 512 := BitVec.ofNat 512 (ofLe (sha512 (tableBytes es ++ Config.progStore es)))

/-- The measurements 1 to 3 (R390): the firmware's digest, the record's, and that of the table and its store, as the pilot die holds
them (log 74). -/
def State.measures (s : State) : List (BitVec 512) :=
  [Config.firmwareDigest, Config.recordDigest s.sup.cfg, tableDigest (s.substOf s.pilotDie).entries]

/-- ATTESTATION_REQUEST (R390): what is signed are the nonce, the measurements, the service level and the module number. -/
def execAttestationRequest (nonce : W256) (s : State) : Host.Outcome State Fault Refusal :=
  .next (s.answer (.signature (Config.signature nonce s.measures s.sup.level s.modNo) s.measures s.sup.level s.modNo))

/-! ## Configuration and service levels (R388, R389) -/

/-- The fields of a record are in range: some die and stack in service, a clock for each group that a hold step can give. -/
def recordOk (c : ConfigCopy) : Bool :=
  c.dies != 0 && c.hbm != 0 && decide (c.clocks.length = 8) &&
    c.clocks.all (fun x => decide (275 ≤ x.toNat ∧ x.toNat ≤ 1100)) && c.links.all fun l => l.1 != c.modNo

/-- The copy that the Mantle uses. -/
def pickCopy (a b : ConfigCopy) : Option ConfigCopy :=
  if a.verifies && b.verifies then some (if a.version.toNat < b.version.toNat then b else a)
  else if a.verifies then some a
  else if b.verifies then some b
  else none

/-- A link that no set of a record gives to its peer is not in service under it (R2, R385). -/
def linkKept (c : ConfigCopy) (l : Nat × Link) : Nat × Link :=
  if c.links.any (fun x => x.1 == l.2.peer && x.2.getLsbD l.1) then l else (l.1, { l.2 with up := false, width := 0 })

/-- CONFIG_RECORD_LOAD (R388): at S0. -/
def execConfigRecordLoad (copyA copyB : ConfigCopy) (s : State) : Host.Outcome State Fault Refusal :=
  let refuse (n : BitVec 8) : State := (s.modSup fun u => { u with cfgerr := n, cfg := none }).alert 4
  if s.sup.level ≠ 0 then .next s
  else
    match pickCopy copyA copyB with
    | none => .next (refuse 1)
    | some c => if recordOk c then .next (s.modSup fun u => { u with cfgerr := 0, cfg := some c, links := u.links.map (linkKept c) })
      else .next (refuse 2)

/-- Tasks stand on dies that have left service. -/
def State.leaving (s : State) : List Nat :=
  (s.cores.filter fun c => c.t.task.isSome && !s.dieUp (dieOf c.id)).map (·.id)

/-- The substitution tables go with S3 and come back with it. -/
def State.hideTables (s : State) : State :=
  { s with subst := s.subst.map fun t =>
      (t.1, { t.2 with entries := [], wait := match t.2.wait with
        | some w => some w
        | none => some t.2.entries }) }

/-- A level is entered; entries queued at a die that is not in service join another's queue where one now can take them (R305, R310). -/
def State.toLevel (s : State) (l : BitVec 2) : State :=
  let s := s.modSup fun u => { u with level := l, ports := if l = 0 then [] else u.ports }
  (if l = 3 then (s.subst.map (·.1)).foldl State.settleTable s else s.hideTables).rehome

/-- The module climbs one level, where what that level asks for has succeeded. At S1 it joins its domain, where a module of it is already
in service, whether or not a link to that module is up yet (R231; log 75). -/
def State.climb (s : State) (news : LevelNews) : State :=
  if news.ok = false ∨ (s.sup.level = 0 ∧ s.sup.cfg.isNone = true) then s
  else
    let joins := s.sup.level == 0 && (news.domain || s.sup.links.any fun l => l.2.up && l.2.serving)
    (s.toLevel (s.sup.level + 1)).modSup fun u => { u with joining := u.joining || joins }

/-- The module drops to TGT: dies that leave service have their tasks pre-empted. -/
def State.drop (s : State) : State :=
  let s := s.toLevel s.sup.tgt
  let ids := s.leaving
  (ids.foldl (fun s i => s.preempt i) s).modSup fun u => { u with chg := !ids.isEmpty }

/-- A drop is over once the dies that left service are empty. -/
def State.dropDone (s : State) : State :=
  if s.sup.chg && s.leaving.isEmpty then s.modSup fun u => { u with chg := false } else s

/-- SERVICE_LEVEL_CHANGE (R389). -/
def execServiceLevelChange (news : LevelNews) (s : State) : Host.Outcome State Fault Refusal :=
  if s.sup.chg then .next s.dropDone
  else if s.sup.level.toNat < s.sup.tgt.toNat then .next (s.climb news)
  else if s.sup.tgt.toNat < s.sup.level.toNat then .next s.drop
  else .next s

end Sys2Proof.Machine
end

