-- ==== Sys2Proof/Machine/Fabric.lean ====
section
/-!
DEFINITION. The Seam links, what other modules ask of the homes here (12 R228, R233, R235), lost modules, write intents and the tray
(spec 27 R373, 28 R383-R386, R394, R395).
-/
namespace Sys2Proof.Machine
open Sys2Proof

/-! ## Links (R383-R386) -/

/-- A counter of flits plus n, saturating. -/
def satAdd (x : W32) (n : Nat) : W32 := BitVec.ofNat 32 (min (x.toNat + n) (2 ^ 32 - 1))

/-- Acknowledged flits, up to a number, leave the retry buffer, and those that wait take their room. -/
def Link.acked (x : Link) (num : BitVec 12) : Link :=
  let sent := x.sent.filter fun f => !decide ((num - f.1).toNat < 2048)
  let stays := optAll x.nakAt fun n => sent.any (·.1 == n)
  Link.refill { x with sent, nakAt := if stays then x.nakAt else none, fails := if stays then x.fails else 0 }

/-- The flits from one on are sent again; a replay of the flit refused before has failed once more. -/
def Link.replay (x : Link) (num : BitVec 12) : Link :=
  let again := x.sent.filter fun f => decide ((f.1 - num).toNat < 2048)
  if x.up = false ∨ x.sent.all (·.1 != num) = true then x
  else { x with
    retry := satAdd x.retry again.length, nakAt := some num, fails := if x.nakAt = some num then x.fails + 1 else 0 }

/-- Flits that no link of their set could take go out once one can. -/
def State.resend (s : State) : State :=
  (List.range 48).foldl (fun s i =>
    let ws := (s.link1 i).wait
    if (s.link1 i).up then s
    else
      let s := s.modLink (BitVec.ofNat 6 i) fun x => { x with wait := ws.filter fun pa => (s.linkFor pa).isNone }
      ws.foldl State.seamSend s) s

/-- A link that goes down: the flits in its retry buffer are sent again over the other links of their sets, or wait for one (R385). -/
def State.linkDown (s : State) (l : BitVec 6) : State :=
  ((s.modLink l fun x => { x with
    up := false, width := 0, sent := [], wait := x.sent.map (·.2) ++ x.wait, nakAt := none, fails := 0 }).alert 3).resend

/-- A lane lies in the upper half, the spare where the lane that it replaces does. -/
def upperLane (lane spared : BitVec 5) : Bool := decide (8 ≤ (if lane = 16 then spared else lane).toNat)

/-- A receive lane fails, of the sixteen and the spare: the spare takes it; a second failure leaves ×8 on the half that it is not in; a
failure there takes the link down; a lane out of use has no further failure (R384). The flits in flight are replayed by the peer. -/
def State.laneFails (s : State) (l : BitVec 6) (lane : BitVec 5) : State :=
  let x := s.link1 l.toNat
  if x.up = false ∨ 48 ≤ l.toNat ∨ 16 < lane.toNat ∨ (if x.spu then x.splane = lane else lane = 16) then s
  else if x.spu = false then
    s.modLink l fun x => { x with spu := true, splane := lane, laneErr := spErase x.laneErr lane.toNat }
  else if x.width = 2 then
    s.modLink l fun x => { x with width := 1, fails := 0, laneErr := [], high := !upperLane lane x.splane }
  else if upperLane lane x.splane = x.high then s.linkDown l
  else s

/-- A transmit lane fails, as the peer has found: the same steps, and the flits in flight are replayed (R384). -/
def State.txFails (s : State) (l : BitVec 6) (lane : BitVec 5) : State :=
  let x := s.link1 l.toNat
  let again (x : Link) : Link := { x with retry := satAdd x.retry x.sent.length }
  if x.up = false ∨ 48 ≤ l.toNat ∨ 16 < lane.toNat ∨ (if x.txSpare then x.txLane = lane else lane = 16) then s
  else if x.txSpare = false then s.modLink l fun x => again { x with txSpare := true, txLane := lane }
  else if x.txHalf = false then
    s.modLink l fun x => again { x with txHalf := true, fails := 0, txHigh := !upperLane lane x.txLane }
  else if upperLane lane x.txLane = x.txHigh then s.linkDown l
  else s

/-- LANE_SPARE (R384): a lane has lost lock. -/
def execLaneSpare (link : BitVec 6) (lane : SeamLane) (s : State) : Host.Outcome State Fault Refusal :=
  .next (if lane.tx then s.txFails link lane.lane else s.laneFails link lane.lane)

/-- FLIT_REPLAY (R383): the peer has refused a flit. -/
def execFlitReplay (link : BitVec 6) (num : BitVec 12) (s : State) : Host.Outcome State Fault Refusal :=
  .next (s.modLink link fun x => x.replay num)

/-- LINK_RETRAIN (R383): after sixteen failed replays of a flit; the retry buffer is kept. -/
def execLinkRetrain (link : BitVec 6) (ok : Bool) (s : State) : Host.Outcome State Fault Refusal :=
  let x := s.link1 link.toNat
  if x.up = false ∨ 48 ≤ link.toNat ∨ x.fails < 16 then .next s
  else if ok then .next (s.modLink link fun x => { x with fails := 0 })
  else .next (s.linkDown link)

/-! ## What another module asks of a home here (R228, R233, R235) -/

/-- The homes answer for an address: it is this module's, installed, and the module has its domain's floor (R231). -/
def State.serves (s : State) (pa n : Nat) : Bool :=
  s.isLocal pa && !s.beyond pa && !s.beyond (pa + (n - 1)) && !s.sup.joining

/-- A write from another module is admitted: where its window or the line is Fertite, it is whole blocks of that one format (R228,
R281). -/
def State.farAdmits (s : State) (pa n : Nat) (ft : Option Nat) : Bool :=
  optAll (s.line pa).ft (fun f => wholeBlocks f (pa % 256) n && optAll ft (· == f)) &&
    optAll ft fun f => wholeBlocks f (pa % 256) n

/-- A write within a sector from another module, with its writer's time: performed under R229 or R233, or refused (R228). -/
def State.farWrite (s : State) (pa : Nat) (bs : List Byte) (t : Time) (ms : Bool) (ft : Option Nat) : State :=
  if !ms && !s.farAdmits pa bs.length ft then s.answer (.refused 0x0A)
  else
    let (s, u) := s.engWrite t pa bs ms ft false
    s.answer (.written u)

/-- What a home here answers to a request that a flit brought. -/
def State.serve (s : State) (r : Reply) : State := s.modSup fun u => { u with served := r }

/-- A read within a sector from another module: a lease at its home (R229), or the unit's time (R233). -/
def State.farRead (s : State) (pa n : Nat) (t : Time) (ms : Bool) (ft : Option Nat) : State :=
  if ms then
    let (s, u, bs, bad) := (s.fixHome pa n).engRead t pa n true
    s.serve (.lease u u bs bad)
  else
    let h := s.line pa
    let h := { h with rts := tmax h.rts (tmax (h.wts + lease) (t + lease)), ft := ftJoin h.ft ft }
    let s := (s.setLine pa (h.touch (pa / 1024) pa n false)).fixHome pa n
    s.serve (.lease h.wts h.rts (s.rd pa n) (s.badAt pa n))

/-- An atomic operation from another module, performed where atomics are (R188, R228, R233). -/
def State.farAtomic (s : State) (op : Nat) (n pa : Nat) (v v2 : W64) (t : Time) (ms : Bool) : State :=
  if !ms && (s.line pa).ft.isSome then s.serve (.refused 0x0A)
  else
    let s := s.fixHome pa n
    let old := ofLe (s.rd pa n)
    if s.badAt pa n then s.serve (.lease t t (s.rd pa n) true)
    else
      let bs := leBytes n ((amoNew op n old v.toNat v2.toNat).getD old)
      let (s, u) := s.engWrite t pa bs ms none false
      s.serve (.lease u u (leBytes n (amoOld op n old v2.toNat)) false)

/-- What a flit brings is delivered. -/
def State.deliverFlit (s : State) (l : BitVec 6) (m : SeamMsg) : State :=
  match m with
  | .none => s
  | .ack n => s.modLink l fun x => x.acked n
  | .read pa len t ms ft =>
    if s.serves pa.toNat len.toNat = false ∨ 256 < pa.toNat % 256 + len.toNat then s
    else s.farRead pa.toNat len.toNat t ms (ft.map (·.toNat))
  | .atomic op sz pa v v2 t ms =>
    let n := amoBytes sz
    if s.serves pa.toNat n = false ∨ pa.toNat % n ≠ 0 ∨ 13 ≤ op.toNat then s
    else s.farAtomic op.toNat n pa.toNat v v2 t ms

/-- What a message writes to memory. -/
def seamWrites (m : SeamMsg) : Nat × Nat :=
  match m with
  | .atomic _ sz pa _ _ _ _ => (pa.toNat, amoBytes sz)
  | _ => (0, 0)

/-- The flits of the present window counted; after 2^20 a new one begins. -/
def Link.countFlit (x : Link) : Link :=
  if x.flits + 1 < 2 ^ 20 then { x with flits := x.flits + 1 } else { x with flits := 0, laneErr := [] }

/-- A flit that fails its CRC: counted, by lane too, and refused; a lane that passes 64 such errors in 2^20 flits has failed (R384). -/
def State.flitBad (s : State) (l : BitVec 6) (lane : BitVec 5) : State :=
  let s := s.modLink l fun x => { x.countFlit with
    crcerr := satAdd x.crcerr 1, laneErr := spSet 0 x.countFlit.laneErr lane.toNat (spGet 0 x.countFlit.laneErr lane.toNat + 1) }
  let x := s.link1 l.toNat
  let s := if 64 < spGet 0 x.laneErr lane.toNat then s.laneFails l lane else s
  s.answer (.nak x.num)

/-- FLIT_RECEIVE (R383): each flit is delivered once, in sequence order, and acknowledged; one that fails its CRC or shows that another
is missing is refused by the number expected. -/
def execFlitReceive (link : BitVec 6) (num : BitVec 12) (crcOk : Bool) (flit : SeamFlit) (s : State) :
    Host.Outcome State Fault Refusal :=
  let x := s.link1 link.toNat
  if x.up = false ∨ 48 ≤ link.toNat then .next s
  else if crcOk = false then .next (s.flitBad link flit.lane)
  else if num = x.num then
    .next (s.orHold (.flit link num flit) (seamWrites flit.msg).1 (seamWrites flit.msg).2 fun s =>
      ((s.modLink link fun x => { x.countFlit with num := x.num + 1, ackd := some num }).deliverFlit link flit.msg).answer
        (.accepted num))
  else
    let s := s.modLink link Link.countFlit
    .next (s.answer (if (x.num - num).toNat < 2048 then .accepted num else .nak x.num))

/-! ## Write intents (R373) -/

/-- The unfinished intents of a module. -/
def State.openIntents (s : State) (m : BitVec 8) : List Intent := s.sup.intents.filter (·.m == m)

/-- WRITE_INTENT (R373): granted where every sector is this module's, the writer is not lost and the log has an entry left. -/
def execWriteIntent (m : BitVec 8) (sectors : List W64) (s : State) : Host.Outcome State Fault Refusal :=
  let bad := m == s.modNo || s.sup.lost.contains m || sectors.isEmpty || sectors.any fun a => !s.serves a.toNat 1
  if bad = true ∨ 64 ≤ (s.openIntents m).length then .next s
  else .next (s.modSup fun u => { u with
    intents := u.intents ++ [{ m, sectors := sectors.map fun a => (a.toNat / 256, false) }] })

/-- A sector committed under an intent. -/
def Intent.commit (i : Intent) (k : Nat) : Intent := { i with sectors := i.sectors.map fun x => if x.1 = k then (k, true) else x }

/-- A sector committed under the oldest intent of its module that still waits for it; an intent is over once all its sectors are. -/
def commitIn (m : BitVec 8) (k : Nat) : List Intent → List Intent
  | [] => []
  | i :: is =>
    if i.m = m ∧ i.sectors.contains (k, false) = true then
      if (i.commit k).sectors.all (·.2) then is else i.commit k :: is
    else i :: commitIn m k is

/-- SECTOR_COMMIT (R373): a sector's bytes, arrived intact, written in one cycle at its home with the writer's time, or refused there; a
write of one sector needs no intent. -/
def execSectorCommit (m : BitVec 8) (sector : W64) (w : SeamWrite) (s : State) :
    Host.Outcome State Fault Refusal :=
  let a := sector.toNat
  if s.serves a w.bytes.length = false ∨ m = s.modNo ∨ s.sup.lost.contains m = true ∨ 256 < a % 256 + w.bytes.length then .next s
  else .next (s.orHold (.sector m sector w) a w.bytes.length fun s =>
    (s.farWrite a w.bytes w.t w.ms (w.ft.map (·.toNat))).modSup fun u => { u with intents := commitIn m (a / 256) u.intents })

/-- A sector poisoned with its old bytes, and counted. -/
def State.spoilSector (s : State) (k : Nat) : State :=
  { s with memBad := setAdd s.memBad k }.bump (baseCnt (s.homeOf (256 * k)) 3) 1

/-- INTENT_SETTLE (R373): every sector not committed is poisoned. -/
def State.settleIntents (s : State) (m : BitVec 8) : State :=
  let ks := ((s.openIntents m).flatMap fun i => (i.sectors.filter fun x => !x.2).map (·.1)).eraseDups
  (ks.foldl State.spoilSector s).modSup fun u => { u with intents := u.intents.filter (·.m != m) }

def execIntentSettle (m : BitVec 8) (s : State) : Host.Outcome State Fault Refusal := .next (s.settleIntents m)

/-! ## Lost modules and the tray (R385, R394, R395) -/

/-- Some link of a module's set is up. -/
def State.reaches (s : State) (m : BitVec 8) : Bool := s.linksTo m.toNat != []

/-- MODULE_LOST (R385): of a module that no up link reaches. -/
def execModuleLost (m : BitVec 8) (s : State) : Host.Outcome State Fault Refusal :=
  if s.reaches m = true ∨ m = s.modNo ∨ s.sup.lost.contains m = true then .next s
  else
    let drop (x : Link) : Link := { x with wait := x.wait.filter fun pa => paModule pa != m.toNat }
    .next (((s.modSup fun u => { u with
      lost := m :: u.lost, loss := true, links := u.links.map fun l => (l.1, drop l.2) }).alert 3).settleIntents m)

/-- A module has booted: its memory is lost, and nothing of it stands in a cache here; its slices start at the floor (R231, R395). -/
def State.forgetModule (s : State) (m : Nat) : State :=
  let its (pa : Nat) : Bool := !isPeer pa && paModule pa == m
  let s := s.mapCores fun c => { c with l1 := c.l1.filter fun x => !its (256 * x.sector) }
  { s with
    mem := s.mem.filter fun c => !its c.1
    memBad := s.memBad.filter fun k => !its (256 * k)
    lines := s.lines.filter fun l => !its (1024 * l.1)
    mt := ((List.range 32).map (32 * m + ·)).foldl (fun l k => spSet 0 l k s.floor) s.mt
    ut := s.ut.filter fun x => x.1 / 512 != m }

/-- The record in force gives the link to a module (R2, R385). -/
def State.linkGiven (s : State) (l : BitVec 6) (m : BitVec 8) : Bool :=
  match s.sup.cfg with
  | some c => c.links.any fun x => x.1 == m && x.2.getLsbD l.toNat
  | none => false

/-- SEAM_LINK_UP (R386): a link that the record in force gives to its peer is up at full width; its peer is no longer lost, and where it
has booted its memory is (R395). Any other link is not in service (R2). -/
def execSeamLinkUp (link : BitVec 6) (peer : SeamPeer) (plink : BitVec 6) (s : State) :
    Host.Outcome State Fault Refusal :=
  if 48 ≤ link.toNat ∨ s.linkGiven link peer.m = false then .next s
  else
    let s := s.modLink link fun x =>
      { Link.down with
        peer := peer.m, plink, up := true, width := 2, retry := x.retry, crcerr := x.crcerr, serving := peer.serving, wait := x.wait }
    let s := s.modSup fun u => { u with lost := u.lost.filter (· != peer.m) }
    let s := (s.modLink link Link.refill).resend
    .next (if peer.booted then s.forgetModule peer.m.toNat else s)

/-- TRAY_LATCH_OPEN (R394, R395). -/
def execTrayLatchOpen (s : State) : Host.Outcome State Fault Refusal :=
  .next ((s.modSup fun u => { u with latch := true, quiesce := u.quiesce || u.arm }).alert 2)

end Sys2Proof.Machine
end

