-- ==== Sys2Proof/Machine/RingSet.lean ====
section
/-!
DEFINITION. Writing a ring register (spec 10 R216) and the load of a Fertite ring's V16L table (08 R146).
-/
namespace Sys2Proof.Machine
open Sys2Proof

def State.gateRset (s : State) (g : BitVec 3) (b : BitVec 6) : Gate :=
  { Gate.c (.rset g b) [b] [] with
    trap := firstTrap [
      trapIf (!s.ringOk (s.sGet b)) 0x02 (g.setWidth 64),
      trapIf (s.reserved g != 0) 0x0E (g.setWidth 64)] }

/-- RSET (R216): the ring takes its value in the next cycle; a Fertite ring's table load then starts, with base time the
present lt (R146). -/
def execRset (g : BitVec 3) (b : BitVec 6) (s : State) : Host.Outcome State Fault Refusal :=
  issue (s.gateRset g b) (fun s => s.fly 1 .c (.ring g (s.sGet b) s.core.lt)) s

/-- A table of 256 bytes read by an engine of the core: what it holds, the read's times and translations. A poisoned line of the page
table is a failed translation (R343). -/
def Eng.table (e : Eng) (s : State) (va : W64) : Run × V16 :=
  let r := Run.start s e.l
  match s.access e.xl (engAcc .rd) va 256 with
  | .error c => (r.failed va (subOf c) 256, .failed c.1 va c.2)
  | .ok _ =>
    let (r, bs, bad) := r.read e va 256
    match r.fail with
    | some (_, c) => (r, .failed c va)
    | none => (r, if bad then .failed 0x0B va else .ready bs)

/-- The MS pieces of a table read by an engine of the core, each where its point lets it (R233, R355), and whether all of them have
been; a table on another module is asked for over a link (R385). -/
def State.tableAhead (s : State) (e : Eng) (va : W64) : State × MsGot × Bool :=
  let ps := match s.access e.xl (engAcc .rd) va 256 with
    | .ok ps => bare ps
    | .error _ => []
  if s.farWaits ps then (s, e.got, false)
  else
    let pas := s.reachedBy e.who (s.msPieces e.xl .rd [(va, 256)])
    let (s, got) := s.msAhead s.issuer e false pas
    if pas.all (gotPiece got) then (s.sendFar ps, got, true)
    else (s, got, false)

/-- The load of a ring's table goes on, and ends (R146). -/
def State.loadV16 (s : State) (g : BitVec 3) : State :=
  let put (s : State) (v : V16) : State := s.modMat fun m => { m with v16 := spSet V16.none m.v16 g.toNat v }
  match spGet V16.none s.t.mat.v16 g.toNat with
  | .loading va l got =>
    let e : Eng := { xl := s.core.xl s.core.tlbY, l, ok := true, who := s.phaseTask, strict := false, got }
    match s.tableAhead e va with
    | (s, got, false) => put s (.loading va l got)
    | (s, got, true) =>
      let (r, v) := Eng.table { e with got } s va
      let s := ((r.s.engRefused e.xl l r.fail r.span).noteTlbY l r.used).modEng fun e => e.noteTime 1 r.t
      put s v
  | _ => s

/-- V16L_TABLE_LOAD (R146). -/
def execV16lTableLoad (g : BitVec 3) (s : State) : Host.Outcome State Fault Refusal := .next (s.loadV16 g)

end Sys2Proof.Machine
end

