-- ==== Sys2Proof/Machine/Scalar.lean ====
section
/-!
DEFINITION. The scalar instructions (spec 05).
-/
namespace Sys2Proof

/-! ## Operands and results by element type (R69, R81) -/

/-- An integer operand's value after the modifiers of its source (R69, R81). -/
def intArg (t : Nat) (x : Src) (e : Nat) : Int :=
  let v : Int := if tySigned t then signed (tyWidth t) e else (e % 2 ^ tyWidth t : Nat)
  let v := if x.abs = 1 then (v.natAbs : Int) else v
  if x.neg = 1 then -v else v

/-- Type, and the values of the three operands by type. -/
def SlotOp.t (q : SlotOp) : Nat := q.h.ty.toNat
def SlotOp.iA (q : SlotOp) (e : Nat) : Int := intArg q.t q.h.a e
def SlotOp.iB (q : SlotOp) (e : Nat) : Int := intArg q.t q.h.b e
def SlotOp.iC (q : SlotOp) (e : Nat) : Int := intArg q.t q.h.c e
def SlotOp.fA (q : SlotOp) (e : Nat) : Val := Machine.modVal q.h.a (valOf q.t e)
def SlotOp.fB (q : SlotOp) (e : Nat) : Val := Machine.modVal q.h.b (valOf q.t e)
def SlotOp.fC (q : SlotOp) (e : Nat) : Val := Machine.modVal q.h.c (valOf q.t e)

/-- An exact integer result, saturated or wrapped, as `put` writes it (R86). -/
def SlotOp.putInt (q : SlotOp) (x : Int) : W64 := Machine.putVal q.t (narrow q.t (q.h.sat == 1) x)
/-- An encoding as `put` writes it (R81). -/
def SlotOp.putEnc (q : SlotOp) (e : Nat) : W64 := Machine.putVal q.t e
/-- A float result rounded once (R93). -/
def SlotOp.putFlt (q : SlotOp) (x : Val) : W64 := Machine.putVal q.t (fltRes q.t q.h.rm.toNat x)
/-- Width of the operation's element type. -/
def SlotOp.w (q : SlotOp) : Nat := tyWidth q.t

/-- A conversion of one element with the substitutes of aux (R95, R107). -/
def SlotOp.convert (q : SlotOp) (e : Nat) : Nat × BitVec 5 :=
  let aux := q.h.aux.toNat
  let u := q.h.ty2.toNat
  cvt (Machine.modVal q.h.a (valOf u e)) q.t q.h.rm.toNat (aux % 4) (aux / 4 % 4) (aux / 16 % 4)

end Sys2Proof

namespace Sys2Proof.Machine
open Sys2Proof

/-! ## Shared operations -/

/-- A relation's result (R81). -/
def putBool (b : Bool) : W64 := if b then 1 else 0

/-- A float addition: the terms of its operands, rounded once as the listing does, or, under a FREE native, as R325 lets it. -/
def scalarSum (f : SlotOp → Nat → Nat → Nat → Nat) (op : Nat) (q : SlotOp) (s : State) : State :=
  let (s, a, b, c) := s.operands op q
  let (s, xs) := s.chained op q (fun n _ => s.sumParts n op q 0 a b c) [f q a b c]
  s.scalarResult op q (q.putEnc (xs.headD 0))

/-- A scalar operation whose result is a function of its operands. -/
def scalarOp (f : SlotOp → Nat → Nat → Nat → W64) (op : Nat) (q : SlotOp) (s : State) : State :=
  let (s, a, b, c) := s.operands op q
  s.scalarResult op q (f q a b c)

/-- A divide or remainder takes a station; its destination is empty until it completes (R89), and until a random source's bits
have come (R68). -/
def divideOp (f : SlotOp → Nat → Nat → W64) (op : Nat) (q : SlotOp) (s : State) : State :=
  let (s, a, b, _) := s.operands op q
  let r := q.dst s.bun.rep
  let ready := if hcwPops op q && s.rqShort then s.t.q.rqUsed else 0
  (s.setEmpty (.s r) true).modQ fun t => { t with divs := t.divs ++ [{ start := s.cyc, reg := r, val := f q a b, ready }] }

/-- The quotient and the remainder of R88. -/
def quotient (t : Nat) (sat : Bool) (a b : Int) : Int :=
  if b = 0 then (if tySigned t then -1 else intMax t)
  else if tySigned t ∧ a = intMin t ∧ b = -1 then (if sat then intMax t else intMin t)
  else a.tdiv b

def remainder (t : Nat) (a b : Int) : Int :=
  if b = 0 then a
  else if tySigned t ∧ a = intMin t ∧ b = -1 then 0
  else a.tmod b

/-- Leading zero bits among the low `w`. -/
def leadZeros (w e : Nat) : Nat := if e = 0 then w else w - 1 - e.log2

/-- Trailing zero bits among the low `w`. -/
def trailZeros : Nat → Nat → Nat
  | 0, _ => 0
  | w + 1, e => if e % 2 = 1 then 0 else 1 + trailZeros w (e / 2)

/-- An arithmetic shift of an encoding of width w (R90). -/
def sarEnc (w e c : Nat) : Nat := wrapN w (signed w e / 2 ^ min c w)

/-- A left rotation (R90). -/
def rolEnc (w e c : Nat) : Nat :=
  let k := c % w
  (e * 2 ^ k + e / 2 ^ (w - k)) % 2 ^ w

/-- A saturating left shift: past 127 places every nonzero value is out of range (R90). -/
def shlSat (t : Nat) (a : Int) (c : Nat) : Nat := narrow t true (a * 2 ^ min c 127)

/-! ## Moves (R84, R85) -/

def execMov (q : SlotOp) (s : State) : Host.Outcome State Fault Refusal :=
  runHcw (.mov q) (scalarOp fun q a _ _ => q.putEnc a) s

def execMovl (q : SlotOp) (s : State) : Host.Outcome State Fault Refusal :=
  runHcw (.movl q) (scalarOp fun q a b _ =>
    if q.h.b.isZero then BitVec.ofNat 64 (litElem q.t (BitVec.ofNat 32 a)) else BitVec.ofNat 64 (b * 2 ^ 32 + a)) s

/-! ## Integer arithmetic (R86-R89) -/

def execAdd (q : SlotOp) (s : State) : Host.Outcome State Fault Refusal :=
  runHcw (.add q) (scalarOp fun q a b _ => q.putInt (q.iA a + q.iB b)) s

def execSub (q : SlotOp) (s : State) : Host.Outcome State Fault Refusal :=
  runHcw (.sub q) (scalarOp fun q a b _ => q.putInt (q.iA a - q.iB b)) s

def execMul (q : SlotOp) (s : State) : Host.Outcome State Fault Refusal :=
  runHcw (.mul q) (scalarOp fun q a b _ => q.putInt (q.iA a * q.iB b)) s

def execMulh (q : SlotOp) (s : State) : Host.Outcome State Fault Refusal :=
  runHcw (.mulh q) (scalarOp fun q a b _ => q.putEnc (wrapN q.w (q.iA a * q.iB b / 2 ^ q.w))) s

def execMulhn (q : SlotOp) (s : State) : Host.Outcome State Fault Refusal :=
  runHcw (.mulhn q) (scalarOp fun q a b _ => q.putEnc (wrapN q.w (q.iA a * q.iB b / 2 ^ q.w))) s

/-- R88. DEDUCED (log 79): a modified operand can make the quotient 2^(N-1), which no rule names; it wraps, under `sat` too. -/
def execDiv (q : SlotOp) (s : State) : Host.Outcome State Fault Refusal :=
  runHcw (.div q) (divideOp fun q a b => q.putEnc (wrapN q.w (quotient q.t (q.h.sat == 1) (q.iA a) (q.iB b)))) s

def execDivn (q : SlotOp) (s : State) : Host.Outcome State Fault Refusal :=
  runHcw (.divn q) (divideOp fun q a b => q.putEnc (wrapN q.w (quotient q.t false (q.iA a) (q.iB b)))) s

def execRem (q : SlotOp) (s : State) : Host.Outcome State Fault Refusal :=
  runHcw (.rem q) (divideOp fun q a b => q.putEnc (wrapN q.w (remainder q.t (q.iA a) (q.iB b)))) s

def execRemn (q : SlotOp) (s : State) : Host.Outcome State Fault Refusal :=
  runHcw (.remn q) (divideOp fun q a b => q.putEnc (wrapN q.w (remainder q.t (q.iA a) (q.iB b)))) s

def execMadd (q : SlotOp) (s : State) : Host.Outcome State Fault Refusal :=
  runHcw (.madd q) (scalarOp fun q a b c => q.putInt (q.iA a * q.iB b + q.iC c)) s

def execAbs (q : SlotOp) (s : State) : Host.Outcome State Fault Refusal :=
  runHcw (.abs q) (scalarOp fun q a _ _ => q.putInt (q.iA a).natAbs) s

def execNeg (q : SlotOp) (s : State) : Host.Outcome State Fault Refusal :=
  runHcw (.neg q) (scalarOp fun q a _ _ => q.putInt (-q.iA a)) s

/-! ## Bitwise operations, shifts, bit fields (R90, R91) -/

def execAnd (q : SlotOp) (s : State) : Host.Outcome State Fault Refusal :=
  runHcw (.and q) (scalarOp fun q a b _ => q.putEnc (a &&& b)) s

def execOr (q : SlotOp) (s : State) : Host.Outcome State Fault Refusal :=
  runHcw (.or q) (scalarOp fun q a b _ => q.putEnc (a ||| b)) s

def execXor (q : SlotOp) (s : State) : Host.Outcome State Fault Refusal :=
  runHcw (.xor q) (scalarOp fun q a b _ => q.putEnc (a ^^^ b)) s

def execAndn (q : SlotOp) (s : State) : Host.Outcome State Fault Refusal :=
  runHcw (.andn q) (scalarOp fun q a b _ => q.putEnc (a &&& (2 ^ q.w - 1 - b % 2 ^ q.w))) s

def execShl (q : SlotOp) (s : State) : Host.Outcome State Fault Refusal :=
  runHcw (.shl q) (scalarOp fun q a b _ =>
    q.putEnc (if q.h.sat = 1 then shlSat q.t (q.iA a) b else if b ≥ q.w then 0 else a * 2 ^ b)) s

def execShr (q : SlotOp) (s : State) : Host.Outcome State Fault Refusal :=
  runHcw (.shr q) (scalarOp fun q a b _ => q.putEnc (if b ≥ q.w then 0 else a % 2 ^ q.w / 2 ^ b)) s

def execSar (q : SlotOp) (s : State) : Host.Outcome State Fault Refusal :=
  runHcw (.sar q) (scalarOp fun q a b _ => q.putEnc (sarEnc q.w a b)) s

def execRol (q : SlotOp) (s : State) : Host.Outcome State Fault Refusal :=
  runHcw (.rol q) (scalarOp fun q a b _ => q.putEnc (rolEnc q.w (a % 2 ^ q.w) b)) s

def execClz (q : SlotOp) (s : State) : Host.Outcome State Fault Refusal :=
  runHcw (.clz q) (scalarOp fun q a _ _ => BitVec.ofNat 64 (leadZeros q.w (a % 2 ^ q.w))) s

def execCtz (q : SlotOp) (s : State) : Host.Outcome State Fault Refusal :=
  runHcw (.ctz q) (scalarOp fun q a _ _ => BitVec.ofNat 64 (trailZeros q.w a)) s

def execPopc (q : SlotOp) (s : State) : Host.Outcome State Fault Refusal :=
  runHcw (.popc q) (scalarOp fun q a _ _ => BitVec.ofNat 64 (popcount q.w a)) s

def execBext (q : SlotOp) (s : State) : Host.Outcome State Fault Refusal :=
  runHcw (.bext q) (scalarOp fun q a _ _ =>
    let p := q.h.aux.toNat % 64
    let n := q.h.aux.toNat / 64 % 64 + 1
    if tySigned q.t then BitVec.ofInt 64 (signed n (a / 2 ^ p)) else BitVec.ofNat 64 (field a p n)) s

def execBins (q : SlotOp) (s : State) : Host.Outcome State Fault Refusal :=
  runHcw (.bins q) (scalarOp fun q a b _ =>
    BitVec.ofNat 64 (setField a (q.h.aux.toNat % 64) (q.h.aux.toNat / 64 % 64 + 1) b)) s

/-! ## Comparisons, minimum, maximum, selection (R92) -/

def execMin (q : SlotOp) (s : State) : Host.Outcome State Fault Refusal :=
  runHcw (.min q) (scalarOp fun q a b _ => q.putInt (min (q.iA a) (q.iB b))) s

def execMax (q : SlotOp) (s : State) : Host.Outcome State Fault Refusal :=
  runHcw (.max q) (scalarOp fun q a b _ => q.putInt (max (q.iA a) (q.iB b))) s

def execMinn (q : SlotOp) (s : State) : Host.Outcome State Fault Refusal :=
  runHcw (.minn q) (scalarOp fun q a b _ => q.putInt (min (q.iA a) (q.iB b))) s

def execMaxn (q : SlotOp) (s : State) : Host.Outcome State Fault Refusal :=
  runHcw (.maxn q) (scalarOp fun q a b _ => q.putInt (max (q.iA a) (q.iB b))) s

def execCmpeq (q : SlotOp) (s : State) : Host.Outcome State Fault Refusal :=
  runHcw (.cmpeq q) (scalarOp fun q a b _ => putBool (decide (q.iA a = q.iB b))) s

def execCmpne (q : SlotOp) (s : State) : Host.Outcome State Fault Refusal :=
  runHcw (.cmpne q) (scalarOp fun q a b _ => putBool (decide (q.iA a ≠ q.iB b))) s

def execCmplt (q : SlotOp) (s : State) : Host.Outcome State Fault Refusal :=
  runHcw (.cmplt q) (scalarOp fun q a b _ => putBool (decide (q.iA a < q.iB b))) s

def execCmple (q : SlotOp) (s : State) : Host.Outcome State Fault Refusal :=
  runHcw (.cmple q) (scalarOp fun q a b _ => putBool (decide (q.iA a ≤ q.iB b))) s

def execCmpltn (q : SlotOp) (s : State) : Host.Outcome State Fault Refusal :=
  runHcw (.cmpltn q) (scalarOp fun q a b _ => putBool (decide (q.iA a < q.iB b))) s

def execCmplen (q : SlotOp) (s : State) : Host.Outcome State Fault Refusal :=
  runHcw (.cmplen q) (scalarOp fun q a b _ => putBool (decide (q.iA a ≤ q.iB b))) s

def execSel (q : SlotOp) (s : State) : Host.Outcome State Fault Refusal :=
  runHcw (.sel q) (scalarOp fun q a b c => q.putEnc (if c ≠ 0 then a else b)) s

/-! ## Floating point (R93-R95) -/

def execFadd (q : SlotOp) (s : State) : Host.Outcome State Fault Refusal :=
  runHcw (.fadd q) (scalarSum fun q a b _ => fltRes q.t q.h.rm.toNat ((q.fA a).add q.h.rm.toNat (q.fB b))) s

def execFsub (q : SlotOp) (s : State) : Host.Outcome State Fault Refusal :=
  runHcw (.fsub q) (scalarSum fun q a b _ => fltRes q.t q.h.rm.toNat ((q.fA a).add q.h.rm.toNat (q.fB b).negate)) s

def execFmul (q : SlotOp) (s : State) : Host.Outcome State Fault Refusal :=
  runHcw (.fmul q) (scalarOp fun q a b _ => q.putFlt ((q.fA a).mul (q.fB b))) s

def execFma (q : SlotOp) (s : State) : Host.Outcome State Fault Refusal :=
  runHcw (.fma q) (scalarSum fun q a b c => fltRes q.t q.h.rm.toNat (((q.fA a).mul (q.fB b)).add q.h.rm.toNat (q.fC c))) s

def execFmin (q : SlotOp) (s : State) : Host.Outcome State Fault Refusal :=
  runHcw (.fmin q) (scalarOp fun q a b _ => q.putEnc (fltEnc q.t ((q.fA a).fmin (q.fB b)))) s

def execFmax (q : SlotOp) (s : State) : Host.Outcome State Fault Refusal :=
  runHcw (.fmax q) (scalarOp fun q a b _ => q.putEnc (fltEnc q.t ((q.fA a).fmax (q.fB b)))) s

def execFcmp (q : SlotOp) (s : State) : Host.Outcome State Fault Refusal :=
  runHcw (.fcmp q) (scalarOp fun q a b _ => putBool (fltPred (q.h.aux.toNat % 16) ((q.fA a).cmp (q.fB b)))) s

def execFcvt (q : SlotOp) (s : State) : Host.Outcome State Fault Refusal :=
  runHcw (.fcvt q) (fun op q s =>
    let (s, a, _, _) := s.operands op q
    let (e, f) := q.convert a
    let s := s.passChains op q [a] [e]
    s.scalarResult op q (q.putEnc e) f) s

/-! ## Counters, coordinates, random bits, vector elements (R96, R97) -/

def execRdcyc (q : SlotOp) (s : State) : Host.Outcome State Fault Refusal :=
  runHcw (.rdcyc q) (fun op q s => s.scalarResult op q (BitVec.ofNat 64 s.cyc)) s

def execRdtc (q : SlotOp) (s : State) : Host.Outcome State Fault Refusal :=
  runHcw (.rdtc q) (fun op q s => s.scalarResult op q (BitVec.ofNat 64 (s.specialInt (q.h.aux.toNat % 4 + 1)))) s

def execRqpop (q : SlotOp) (s : State) : Host.Outcome State Fault Refusal :=
  runHcw (.rqpop q) (fun op q s =>
    let (s, x) := s.pop 64
    s.scalarResult op q (BitVec.ofNat 64 x)) s

def execVget (q : SlotOp) (s : State) : Host.Outcome State Fault Refusal :=
  runHcw (.vget q) (scalarOp fun q a b _ => q.putEnc (field a (q.w * (b % (256 / q.w))) q.w)) s

end Sys2Proof.Machine
end

