-- ==== Sys2Proof/Machine/Trellis.lean ====
section
/-!
DEFINITION. The trellis engine (spec 10 R215, 16 R279, R281-R288): `tenc`, the encoding of a block and its error, and the
request's start and completion.
-/
namespace Sys2Proof.Machine
open Sys2Proof

/-! ## The encoder (R285, R286), in f32 encodings -/

def f32NaN : Nat := 0x7FC00000

/-- A value function: V16H, or the entries of a V16L table (R279). -/
def trelF (table : Option (List Byte)) (x : Nat) : Int :=
  match table with
  | none => v16h x
  | some t => v16l t x

/-- W of R285. -/
def trelW (table : Option (List Byte)) : Nat :=
  match table with
  | none => 30
  | some t => t.foldl (fun w b => max w (signed 8 b.toNat).natAbs) 0

/-- The magnitude of a target does not exceed W × 2^(e − 32). -/
def trelFits (w e : Nat) (t : W32) : Bool :=
  match ((fltVal 8 t.toNat).abs).cmp ((Val.ofInt w).shift ((e : Int) - 32)) with
  | some .gt => false
  | _ => true

/-- The scale exponent chosen under AUTO. -/
def trelAuto (w : Nat) (ts : List W32) : Nat :=
  if w = 0 ∨ ts.all (fun t => (fltVal 8 t.toNat).isZero) = true then 0
  else (findFirst? (fun e => ts.all (trelFits w e)) (List.range 64)).getD 63

/-- err(i, x) for the value f(x): one rounding of the difference, one of its square. -/
def trelErr (e : Nat) (t : W32) (f : Int) : Nat :=
  let d := roundVal 8 0 (((Val.ofInt f).shift ((e : Int) - 32)).add 0 (fltVal 8 t.toNat).negate)
  fltRes 8 0 (d.mul d)

/-- A sum of two f32 encodings. -/
def f32Add (a b : Nat) : Nat := fltRes 8 0 ((fltVal 8 a).add 0 (fltVal 8 b))

/-- Errors are never negative, so their encodings compare as numbers; the first of the least wins. -/
def leastOf : List (Nat × Nat) → Nat × Nat
  | [] => (0, 0)
  | x :: xs => xs.foldl (fun b y => if y.1 < b.1 then y else b) x

/-- a(i), with indices mod 256. -/
def trelStep (fmt i : Nat) : Nat := ftStep fmt (i % 256)
/-- Bits of the state that enters step i. -/
def trelQ (fmt i : Nat) : Nat := 16 - trelStep fmt (i + 255)

/-- One step of add, compare and select: for each state the metric and the decision. -/
def trelAcs (fmt i : Nat) (err : Nat → Nat) (m : Array Nat) : Array (Nat × Nat) :=
  let a := trelStep fmt i
  let q := trelQ fmt i
  (Array.range (2 ^ (16 - a))).map fun st =>
    leastOf ((List.range (2 ^ a)).map fun l =>
      let x := st * 2 ^ a + l
      (f32Add (m.getD (x % 2 ^ q) 0) (err x), l))

/-- One lap: the metrics at its end and the decisions of its steps, the last step first. -/
def trelLap (fmt : Nat) (err : W32 → Nat → Nat) (ts : List W32) (m : Array Nat) : Array Nat × List (Array Nat) :=
  ((List.range 256).zip ts).foldl (fun (m, ds) (i, t) =>
    let r := trelAcs fmt i (err t) m
    (r.map (·.1), r.map (·.2) :: ds)) (m, [])

/-- Traceback from a state through the decisions, steps from i − 1 down to 0: the block's bits gathered. -/
def trelBack (fmt : Nat) : Nat → List (Array Nat) → Nat → Nat → Nat
  | 0, _, _, v => v
  | _, [], _, v => v
  | i + 1, d :: ds, st, v =>
    let x := st * 2 ^ trelStep fmt i + d.getD st 0
    let q := trelQ fmt i
    let lb := 8 * ftBytes fmt
    let v := (List.range (16 - q)).foldl (fun v k =>
      if x.testBit (q + k) then v ||| 2 ^ ((ftStart fmt i + q + k) % lb) else v) v
    trelBack fmt i ds (x % 2 ^ q) v

/-- The encoding of a block: its bits, its scale exponent and the error E over the block as written. -/
def trelEncode (fmt : Nat) (auto : Bool) (e0 : Nat) (table : Option (List Byte)) (ts : List W32) : Nat × Nat × Nat :=
  let e := if auto then trelAuto (trelW table) ts else e0
  let err (t : W32) (x : Nat) : Nat := trelErr e t (trelF table x)
  let m0 := (trelLap fmt err ts (Array.replicate (2 ^ (16 - trelStep fmt 255)) 0)).1
  let (m, ds) := trelLap fmt err ts m0
  let st := (leastOf (m.toList.zip (List.range m.size))).2
  let v := trelBack fmt 256 ds st 0
  (v, e, ((List.range 256).zip ts).foldl (fun s p => f32Add s (err p.2 (ftWin fmt v p.1))) 0)

/-! ## TENC (R283, R284) -/

/-- The type code of a `tenc` format. -/
def tencFmt (fmt : BitVec 3) : Nat := 0x0F + fmt.toNat

/-- The engine of a request: the trellis TLB of the core and the request's base time. -/
def State.tenEng (s : State) (l : Time) : Eng := { xl := s.core.xl s.core.tlbT, l, ok := true, who := s.phaseTask, strict := true }

/-- The address checks of a part of a request, in any order: the targets lie in the own window, the block and its scale byte in none
(R163-R165, R215). -/
def State.tenPart (s : State) (va : W64) (n : Nat) (r : Region3) : List Trap :=
  (s.windowTrap va n).toList ++ (trapIf (regionOf va.toNat != r) 0x09 va).toList
/-- The cause with which an address of the result is refused: translation before protection. -/
def State.tenPage (s : State) (va : W64) (n : Nat) : Option (BitVec 8) :=
  match s.piecesOf (s.core.xl s.core.tlbT) (engAcc .wr) va.toNat (cuts 256 va.toNat n) with
  | .error c => some c.1
  | .ok _ => none

/-- A check of the block's address and the scale byte's, in that order. -/
def causeAt (c : Option (BitVec 8)) (va : W64) : Option Trap := c.map fun c => { cause := c, slot := .c, tval := va, sub := 0 }
def onlyCause (k : BitVec 8) (c : Option (BitVec 8)) : Option (BitVec 8) := if c = some k then c else none

/-- The destination lies at a block slot of a region of the format. -/
def State.tenSlotOk (s : State) (fmt : Nat) (va : W64) : Bool :=
  (match fwMatch s.fws va.toNat with
    | some n => fwFmt s.fws n == fmt
    | none => false) &&
    va.toNat % 256 % ftBytes fmt == 0 && decide (va.toNat % 256 / ftBytes fmt < ftPer fmt)

def State.tenTraps (s : State) (a b c : BitVec 6) (fmt : BitVec 3) (v16l auto : BitVec 1) : Option Trap :=
  let src := s.sGet b
  let e := s.sGet (b + 1)
  let blk := s.sGet c
  let sc := s.sGet (c + 1)
  let off := src.toNat - ownBase
  let bb := ftBytes (tencFmt fmt)
  let p := s.tenPage blk bb
  let q := s.tenPage sc 1
  firstTrap [
    trapIf (e >>> 6 != 0 || (auto == 1 && e != 0)) 0x02 (slotEnc (.tenc a b c fmt v16l auto)),
    trapIf (src.toNat % 1024 != 0) 0x06 src,
    byCause [0x08, 0x07, 0x09]
      (s.tenPart src 1024 .own ++ s.tenPart blk bb .glob ++ s.tenPart sc 1 .glob),
    causeAt (onlyCause 0x08 p) blk, causeAt (onlyCause 0x08 q) sc, causeAt p blk, causeAt q sc,
    trapIf (!s.tenSlotOk (tencFmt fmt) blk) 0x0A blk,
    trapIf (inFertite s.fws sc.toNat) 0x0A sc,
    trapIf (s.core.scrBad off 1024) 0x0B src]

def State.gateTenc (s : State) (a b c : BitVec 6) (fmt : BitVec 3) (v16l auto : BitVec 1) : Gate :=
  { Gate.c (.tenc a b c fmt v16l auto) [b, b + 1, c, c + 1] [.s a] with
    bad := b.toNat % 2 == 1 || c.toNat % 2 == 1 || decide (3 ≤ fmt.toNat) || decide (s.sup.level.toNat < 3)
    hold := decide (2 ≤ s.t.eng.ten.length) || s.engLocked none [((s.sGet b).toNat - ownBase, 1024)]
    trap := s.tenTraps a b c fmt v16l auto }

/-- TENC (R284): the targets are read into the request, which waits for the engine. -/
def execTenc (a b c : BitVec 6) (fmt : BitVec 3) (v16l auto : BitVec 1) (s : State) : Host.Outcome State Fault Refusal :=
  issue (s.gateTenc a b c fmt v16l auto) (fun s =>
    let off := (s.sGet b).toNat - ownBase
    let q : TenReq :=
      { dst := a, fmt := tencFmt fmt, v16l := v16l == 1, auto := auto == 1, e := (s.sGet (b + 1)).toNat
        targets := (elems 32 256 (s.scr off 1024)).map (BitVec.ofNat 32), block := s.sGet c, scale := s.sGet (c + 1)
        base := s.core.lt, bun := s.bun.addr, seq := s.bun.seq, running := false, table := none, bad := 0 }
    ((s.fixScratch s.core.id off 1024).setEmpty (.s a) true).modEng fun e => { e with ten := e.ten ++ [q] }) s

/-! ## Start and completion (R284, R286, R287) -/

/-- The table of a request: TABLE of the window that governs its block (R279). -/
def State.tenTable (s : State) (q : TenReq) : W64 :=
  match fwMatch s.fws q.block.toNat with
  | some n => BitVec.ofNat 64 (fwTable s.fws n)
  | none => 0

/-- The translations that a request used join the trellis TLB (R234). -/
def State.noteTlbT (s : State) (l : Time) (es : List TlbEntry) : State :=
  let new := es.filter fun e => !s.core.tlbT.contains e
  let s := s.engWalks l (s.core.xl s.core.tlbT).root new
  let (n, l) := new.foldl (tlbPut 256) (s.fresh, s.core.tlbT)
  { s with fresh := n, core := { s.core with tlbT := l } }

/-- The oldest request starts running; a V16L request reads its table. -/
def State.startTen (s : State) : State :=
  match s.t.eng.ten with
  | [] => s
  | q :: qs =>
    if q.running ∨ s.t.ctl.freeze.isSome then s
    else
      let put (s : State) (q : TenReq) : State := s.modEng fun e => { e with ten := q :: qs }
      if q.v16l then
        let e := { s.tenEng q.base with got := q.got }
        match s.tableAhead e (s.tenTable q) with
        | (s, got, false) => put s { q with got }
        | (s, got, true) =>
          let (r, v) := Eng.table { e with got } s (s.tenTable q)
          let s := ((r.s.engRefused e.xl q.base r.fail r.span).noteTlbT q.base r.used).modEng fun e => e.noteTime 5 r.t
          match v with
          | .ready bs => put s { q with running := true, table := some bs, got }
          | .failed c _ sub => put s { q with running := true, bad := c, sub, got }
          | _ => s
      else put s { q with running := true }

/-- TRELLIS_REQUEST_START (R284). -/
def execTrellisRequestStart (s : State) : Host.Outcome State Fault Refusal := .next s.startTen

def TenReq.finite (q : TenReq) : Bool := q.targets.all fun t => !(fltVal 8 t.toNat).isNan && !(fltVal 8 t.toNat).isInf

/-- The request leaves the engine, its register filled. -/
def State.endTen (s : State) (q : TenReq) (x : Nat) : State :=
  (s.modEng fun e => { e with ten := e.ten.tail }).fillDst (.s q.dst false) 8 x

/-- What a request writes: its block, of its format, and its scale byte (R286). -/
def TenReq.parts (q : TenReq) (block sb : Nat) : List (Option Nat × W64 × List Byte) :=
  [(some q.fmt, q.block, leBytes (ftBytes q.fmt) block), (none, q.scale, leBytes 1 sb)]

/-- The checks of both writes, found before either is made (R287). -/
def State.tryTen (s : State) (q : TenReq) : Run :=
  let e := s.tenEng q.base
  (q.parts 0 0).foldl (fun r p => r.tryWrite e p.1 p.2.1 p.2.2.length) (Run.start s q.base)

/-- One of a request's writes made, where its points let it: a block at once (R282), the scale byte a separate location. -/
def State.writePart (s : State) (q : TenReq) (i : Nat) (p : Option Nat × W64 × List Byte) : State :=
  let e := s.tenEng q.base
  let dst := [(p.2.1, p.2.2.length)]
  match s.logUnits s.issuer 1 ((s.unbreached (s.msPieces e.xl .wr dst)).map s.msPoint) with
  | (_, false) => s
  | (s', true) =>
    let r := (Run.start (s'.sendFar (s.engPieces (engAcc .wr) dst)) q.base).write e p.1 p.2.1 p.2.2 false
    let s := (r.cleared.noteTlbT q.base r.used).modEng fun e => (e.noteTime 5 r.t).noteFar r.far r.t r.peers
    s.modEng fun e => { e with ten := match e.ten with
      | x :: xs => { x with done := x.done ++ [i] } :: xs
      | [] => [] }

/-- The request's writes that are still to come, made as far as their points let them, and whether all have been. -/
def State.writeTen (s : State) (q : TenReq) (block sb : Nat) : State × Bool :=
  let s := ((List.range 2).zip (q.parts block sb)).foldl (fun s p => if q.done.contains p.1 then s else s.writePart q p.1 p.2) s
  (s, match s.t.eng.ten with
    | x :: _ => decide (2 ≤ x.done.length)
    | [] => true)

/-- The request's writes wait: for a link (R385), or for a conversion that keeps a line locked (R244). -/
def State.tenWaits (s : State) (q : TenReq) : Bool :=
  let ps := s.engPieces (engAcc .wr) [(q.block, ftBytes q.fmt), (q.scale, 1)]
  s.farWaits ps || ps.any s.pieceBusy

/-- A request completes. -/
def State.finishTen (s : State) (q : TenReq) : State :=
  if q.bad = 0x0B then
    (s.modEng fun e => { e with ten := e.ten.tail }).markDst (.s q.dst false) 0x0B (s.tenTable q)
  else if q.bad ≠ 0 then (s.deferFault (s.tenTable q) (subOf (q.bad, q.sub)) q.bun q.seq).endTen q f32NaN
  else if !q.finite then s.endTen q f32NaN
  else
    let (block, e, err) := trelEncode q.fmt q.auto q.e q.table q.targets
    let r := s.tryTen q
    match r.fail with
    | some (a, c) => ((s.engRefused (s.tenEng q.base).xl q.base r.fail r.span).deferFault a c q.bun q.seq).endTen q err
    | none =>
      if s.tenWaits q then s
      else
        match s.writeTen q block ((if q.v16l then 0x40 else 0) + e) with
        | (s, true) => s.endTen q err
        | (s, false) => s

/-- TRELLIS_COMPLETE (R286): the running request. -/
def execTrellisComplete (s : State) : Host.Outcome State Fault Refusal :=
  match s.t.eng.ten with
  | q :: _ => if q.running then .next (s.finishTen q) else .next s
  | [] => .next s

end Sys2Proof.Machine
end

