-- ==== Sys2Proof/Machine/Special.lean ====
section
/-!
DEFINITION. The correctly rounded special functions (spec 06 R108, R115). Roots and reciprocals are exact with a sticky
bit; 2^x, log2 x and tanh x are enclosed between integers at a rising precision until both ends round alike (log 10).
-/
namespace Sys2Proof

/-- The greatest r with r * r ≤ n, by bits of r from 2^k down. -/
def isqrtAux : Nat → Nat → Nat → Nat
  | 0, _, r => r
  | k + 1, n, r =>
    let r' := r + 2 ^ k
    isqrtAux k n (if r' * r' ≤ n then r' else r)

def isqrt (n : Nat) : Nat := isqrtAux (n.log2 / 2 + 1) n 0

/-- 1/x, with the low bits below the precision replaced by the sticky bit. -/
def rcpVal (t rm : Nat) : Val → Val
  | .nan _ => .nan false
  | .inf s => .fin s 0 0
  | .fin s m e =>
    if m = 0 then .inf s
    else
      let k := m.log2 + 60
      roundFlt t rm s (2 ^ k / m) (-e - k) (2 ^ k % m != 0)

/-- The root of n/d * 2^e for positive n and d, rounded. -/
def rootVal (t rm : Nat) (n d : Nat) (e : Int) : Val :=
  let k : Nat := 2 * (d.log2 + 70) + (if e % 2 = 0 then 0 else 1)
  let r := isqrt (n * 2 ^ k / d)
  roundFlt t rm false r ((e - k) / 2) (r * r * d != n * 2 ^ k)

/-- √x (R108). -/
def sqrtVal (t rm : Nat) : Val → Val
  | .nan _ => .nan false
  | .inf s => if s then .nan false else .inf false
  | .fin s m e => if m = 0 then .fin s 0 0 else if s then .nan false else rootVal t rm m 1 e

/-- 1/√x (R108). -/
def rsqVal (t rm : Nat) : Val → Val
  | .nan _ => .nan false
  | .inf s => if s then .nan false else .fin false 0 0
  | .fin s m e => if m = 0 then .inf s else if s then .nan false else rootVal t rm 1 m (-e)

/-- The smoothing factor √(q/p) (R115); 1.0 where a statistic is zero, infinite or a NaN. -/
def smthVal (t rm : Nat) (a b : Val) : Val :=
  match a, b with
  | .fin _ m e, .fin _ m' e' => if m = 0 ∨ m' = 0 then .fin false 1 0 else rootVal t rm m' m (e' - e)
  | _, _ => .fin false 1 0

/-! ## Enclosures, scaled by 2^P -/

/-- Σ z^(2k+1)/(2k+1) in units of 2^-P, each term rounded down; `zz` is z² in units of 2^-P. -/
def atanhLo (p : Nat) : Nat → Nat → Nat → Nat → Nat
  | 0, _, _, _ => 0
  | k + 1, i, term, zz => term / (2 * i + 1) + atanhLo p k (i + 1) (term * zz / 2 ^ p) zz

def atanhHi (p : Nat) : Nat → Nat → Nat → Nat → Nat
  | 0, _, _, _ => 2
  | k + 1, i, term, zz => term / (2 * i + 1) + 1 + atanhHi p k (i + 1) (term * zz / 2 ^ p + 1) zz

/-- Bounds of ln((1 + z)/(1 − z)) for z = n/d at most 1/3. -/
def lnBounds (p n d : Nat) : Nat × Nat :=
  let zl := n * 2 ^ p / d
  let zh := zl + 1
  (2 * atanhLo p p 0 zl (zl * zl / 2 ^ p), 2 * atanhHi p p 0 zh (zh * zh / 2 ^ p + 1))

/-- The exponential series for a scaled argument below 1, each term rounded down or up. -/
def expLo (p : Nat) : Nat → Nat → Nat → Nat → Nat
  | 0, _, _, _ => 0
  | k + 1, i, term, y => term + expLo p k (i + 1) (term * y / ((i + 1) * 2 ^ p)) y

def expHi (p : Nat) : Nat → Nat → Nat → Nat → Nat
  | 0, _, term, _ => 2 * term + 2
  | k + 1, i, term, y => term + expHi p k (i + 1) (term * y / ((i + 1) * 2 ^ p) + 1) y

/-- Terms enough for precision p. -/
def expTerms (p : Nat) : Nat := p / 2 + 8

/-- Bounds of exp of an argument between two scaled bounds below 1. -/
def expBounds (p yl yh : Nat) : Nat × Nat :=
  (expLo p (expTerms p) 0 (2 ^ p) yl, expHi p (expTerms p) 0 (2 ^ p) yh)

/-- Both bounds squared k times. -/
def squareBounds (p : Nat) : Nat → Nat × Nat → Nat × Nat
  | 0, b => b
  | k + 1, (l, h) => squareBounds p k (l * l / 2 ^ p, h * h / 2 ^ p + 1)

/-- The rounding that both ends of an enclosure agree on. -/
def agree (t rm : Nat) (neg : Bool) (e : Int) (b : Nat × Nat) : Option Val :=
  let x := roundFlt t rm neg b.1 e true
  let y := roundFlt t rm neg (b.2 - 1) e true
  if fltEnc t x = fltEnc t y ∧ b.1 < b.2 ∧ b.1.log2 > 2 * fltP t then some x else none

/-- The first precision at which the ends agree; the last precision's lower end otherwise (log 10). -/
def settle (t rm : Nat) (neg : Bool) (encl : Nat → Int × Nat × Nat) : List Nat → Val
  | [] => .nan false
  | p :: ps =>
    let (e, b) := encl p
    match agree t rm neg e b with
    | some x => x
    | none => if ps = [] then roundFlt t rm neg b.1 e true else settle t rm neg encl ps

/-- The precisions tried. -/
def precisions : List Nat := [80, 160, 320, 640]

/-- 2^x (R108). -/
def exp2Val (t rm : Nat) : Val → Val
  | .nan _ => .nan false
  | .inf s => if s then .fin false 0 0 else .inf false
  | .fin s m e =>
    if m = 0 then .fin false 1 0
    else if (m.log2 : Int) + e ≥ 10 then
      -- |x| ≥ 1024 lies beyond every format's range
      if s then roundFlt t rm false 1 (-1024) true else roundFlt t rm false 1 1024 false
    else if e ≥ 0 then
      let n : Int := (m * 2 ^ e.toNat : Nat)
      roundFlt t rm false 1 (if s then -n else n) false
    else
      let d := 2 ^ (-e).toNat
      let i : Int := if s then -((m / d : Nat) : Int) - (if m % d = 0 then 0 else 1) else (m / d : Nat)
      let f := if s then (d - m % d) % d else m % d
      if f = 0 then roundFlt t rm false 1 i false
      else settle t rm false (fun p =>
        let (l, h) := lnBounds p 1 3
        let b := expBounds p (l * f / d) (h * f / d + 1)
        (i - p, b)) precisions

/-- log2 x (R108). -/
def log2Val (t rm : Nat) : Val → Val
  | .nan _ => .nan false
  | .inf s => if s then .nan false else .inf false
  | .fin s m e =>
    if m = 0 then .inf true
    else if s then .nan false
    else
      let b := m.log2
      let i : Int := b + e
      if m = 2 ^ b then roundFlt t rm (decide (i < 0)) i.natAbs 0 false
      else settle t rm (decide (i < 0)) (fun p =>
        let (gl, gh) := lnBounds p (m - 2 ^ b) (m + 2 ^ b)
        let (l2, h2) := lnBounds p 1 3
        let lo : Int := i * 2 ^ p + (gl * 2 ^ p / h2 : Nat)
        let hi : Int := i * 2 ^ p + (gh * 2 ^ p / l2 : Nat) + 1
        if i < 0 then (-(p : Int), (-hi).toNat, (-lo).toNat) else (-(p : Int), lo.toNat, hi.toNat)) precisions

/-- tanh x (R108). -/
def tanhVal (t rm : Nat) : Val → Val
  | .nan _ => .nan false
  | .inf s => .fin s 1 0
  | .fin s m e =>
    if m = 0 then .fin s 0 0
    else if (m.log2 : Int) + e ≥ 5 then roundFlt t rm s (2 ^ 60 - 1) (-60) true
    else if (m.log2 : Int) + e < -40 then roundFlt t rm s (m * 2 ^ 70 - 1) (e - 70) true
    else settle t rm s (fun p =>
      -- exp(2|x|) from exp(2|x| / 128) by seven squarings
      let y := if e ≥ 6 then m * 2 ^ p * 2 ^ (e - 6).toNat else m * 2 ^ p / 2 ^ (6 - e).toNat
      let (l, h) := squareBounds p 7 (expBounds p y (y + 1))
      (-(p : Int), (l - 2 ^ p) * 2 ^ p / (l + 2 ^ p), (h - 2 ^ p) * 2 ^ p / (h + 2 ^ p) + 1)) precisions

end Sys2Proof
end

