-- ==== Sys2Proof/Machine/VecArith.lean ====
section
/-!
DEFINITION. Vector arithmetic, conversion and quantisation (spec 06).
-/
namespace Sys2Proof

/-! ## Element results (R100) -/

/-- An exact integer narrowed once. -/
def SlotOp.int (q : SlotOp) (x : Int) : Nat := narrow q.t (q.h.sat == 1) x
/-- A float rounded once. -/
def SlotOp.flt (q : SlotOp) (x : Val) : Nat := fltRes q.t q.h.rm.toNat x
/-- Integer or float form by element type. -/
def SlotOp.byType (q : SlotOp) (i : Int) (f : Val) : Nat := if tyInt q.t then q.int i else q.flt f
/-- A selected or sign-changed element, unrounded. -/
def SlotOp.exact (q : SlotOp) (i : Int) (f : Val) : Nat := if tyInt q.t then q.int i else fltEnc q.t f

end Sys2Proof

namespace Sys2Proof.Machine
open Sys2Proof

/-! ## Shared operations -/

/-- A function of three lists, element by element, as far as the first goes. -/
def map3 (f : Nat → Nat → Nat → Nat) : List Nat → List Nat → List Nat → List Nat
  | [], _, _ => []
  | a :: as, bs, cs => f a (bs.headD 0) (cs.headD 0) :: map3 f as bs.tail cs.tail

/-- The old destination group as elements of width w. -/
def State.oldElems (s : State) (q : SlotOp) (w n : Nat) : List Nat := elems w n (s.vGroup (q.dst s.bun.rep) q.group)

/-- Result elements of width w merged under the mask and sent to the destination group (R73, R100). -/
def State.vecResult (s : State) (op : Nat) (q : SlotOp) (w : Nat) (xs : List Nat) (flags : BitVec 5 := 0) : State :=
  let old := s.oldElems q w xs.length
  let r := merge (s.maskBits q) w (q.h.z == 1) 0 xs old
  (s.keepChains q w old).vectorResult op q (joinE w r) q.group flags

/-- The loop of R100. -/
def vecOp (f : SlotOp → Nat → Nat → Nat → Nat) (op : Nat) (q : SlotOp) (s : State) : State :=
  let (s, a, b, c) := s.operands op q
  let n := q.bits / q.w
  s.vecResult op q q.w (map3 (f q) (elems q.w n a) (elems q.w n b) (elems q.w n c))

/-- Float additions element by element (R103), rounded once as the listing does, or, under a FREE native, as R325 lets it. -/
def vecSum (f : SlotOp → Nat → Nat → Nat → Nat) (op : Nat) (q : SlotOp) (s : State) : State :=
  let (s, a, b, c) := s.operands op q
  let n := q.bits / q.w
  let (as, bs, cs) := (elems q.w n a, elems q.w n b, elems q.w n c)
  let (s, xs) := s.chained op q (fun k e => s.sumParts k op q e (as.getD e 0) (bs.getD e 0) (cs.getD e 0)) (map3 (f q) as bs cs)
  s.vecResult op q q.w xs

/-- A special function (R108). -/
def specialOp (f : Nat → Nat → Val → Val) : Nat → SlotOp → State → State :=
  vecOp fun q a _ _ => q.flt (f q.t q.h.rm.toNat (q.fA a))

/-- Sums over each four 8-bit elements added to an i32 element (R109). -/
def fold4 (f : Int → Int → Int) (t u : Nat) : List Nat → List Nat → List Nat → List Int
  | c :: cs, a, b =>
    let xs := (a.take 4).map fun e => (valOf t e).toInt
    let ys := (b.take 4).map fun e => (valOf u e).toInt
    ((valOf 4 c).toInt + ((xs.zip ys).map fun p => f p.1 p.2).sum) :: fold4 f t u cs (a.drop 4) (b.drop 4)
  | [], _, _ => []

def dotOp (f : Int → Int → Int) (op : Nat) (q : SlotOp) (s : State) : State :=
  let (s, a, b, c) := s.operands op q
  let r := fold4 f q.t q.h.ty2.toNat (elems 32 (q.bits / 32) c) (elems 8 (q.bits / 8) a) (elems 8 (q.bits / 8) b)
  s.vecResult op q 32 (r.map (narrow 4 (q.h.sat == 1)))

/-- What an element of `vdp2` adds: the part that its C stands for, A₀B₀ and A₁B₁ (R110). -/
def dotParts (q : SlotOp) (c : Part) (a b : List Nat) : List Part :=
  let p (i : Nat) : Val := (modVal q.h.a (valOf 9 (a.getD i 0))).mul (modVal q.h.b (valOf 9 (b.getD i 0)))
  [c, Part.one (p 0), Part.one (p 1)]

/-- The results of `vdp2` for each element of C. -/
def dot2 (q : SlotOp) : List Nat → List Nat → List Nat → List Nat
  | c :: cs, a, b =>
    let rm := q.h.rm.toNat
    let p (i : Nat) : Val := (modVal q.h.a (valOf 9 (a.getD i 0))).mul (modVal q.h.b (valOf 9 (b.getD i 0)))
    fltRes 8 rm (((modVal q.h.c (valOf 8 c)).add rm (p 0)).add rm (p 1)) :: dot2 q cs (a.drop 2) (b.drop 2)
  | [], _, _ => []

/-! ## Element-wise operations (R103) -/

def execVadd (q : SlotOp) (s : State) : Host.Outcome State Fault Refusal :=
  runHcw (.vadd q) (vecSum fun q a b _ => q.byType (q.iA a + q.iB b) ((q.fA a).add q.h.rm.toNat (q.fB b))) s

def execVsub (q : SlotOp) (s : State) : Host.Outcome State Fault Refusal :=
  runHcw (.vsub q) (vecSum fun q a b _ => q.byType (q.iA a - q.iB b) ((q.fA a).add q.h.rm.toNat (q.fB b).negate)) s

def execVmul (q : SlotOp) (s : State) : Host.Outcome State Fault Refusal :=
  runHcw (.vmul q) (vecOp fun q a b _ => q.byType (q.iA a * q.iB b) ((q.fA a).mul (q.fB b))) s

def execVmulh (q : SlotOp) (s : State) : Host.Outcome State Fault Refusal :=
  runHcw (.vmulh q) (vecOp fun q a b _ => wrapN q.w (q.iA a * q.iB b / 2 ^ q.w)) s

def execVfma (q : SlotOp) (s : State) : Host.Outcome State Fault Refusal :=
  runHcw (.vfma q) (vecSum fun q a b c => q.flt (((q.fA a).mul (q.fB b)).add q.h.rm.toNat (q.fC c))) s

def execVfms (q : SlotOp) (s : State) : Host.Outcome State Fault Refusal :=
  runHcw (.vfms q) (vecSum fun q a b c => q.flt (((q.fA a).mul (q.fB b)).add q.h.rm.toNat (q.fC c).negate)) s

def execVfnma (q : SlotOp) (s : State) : Host.Outcome State Fault Refusal :=
  runHcw (.vfnma q) (vecSum fun q a b c => q.flt (((q.fA a).mul (q.fB b)).negate.add q.h.rm.toNat (q.fC c))) s

def execVmin (q : SlotOp) (s : State) : Host.Outcome State Fault Refusal :=
  runHcw (.vmin q) (vecOp fun q a b _ => q.exact (min (q.iA a) (q.iB b)) ((q.fA a).fmin (q.fB b))) s

def execVmax (q : SlotOp) (s : State) : Host.Outcome State Fault Refusal :=
  runHcw (.vmax q) (vecOp fun q a b _ => q.exact (max (q.iA a) (q.iB b)) ((q.fA a).fmax (q.fB b))) s

def execVabs (q : SlotOp) (s : State) : Host.Outcome State Fault Refusal :=
  runHcw (.vabs q) (vecOp fun q a _ _ => q.exact (q.iA a).natAbs (q.fA a).abs) s

def execVneg (q : SlotOp) (s : State) : Host.Outcome State Fault Refusal :=
  runHcw (.vneg q) (vecOp fun q a _ _ => q.exact (-q.iA a) (q.fA a).negate) s

def execVabd (q : SlotOp) (s : State) : Host.Outcome State Fault Refusal :=
  runHcw (.vabd q) (vecOp fun q a b _ =>
    q.byType (q.iA a - q.iB b).natAbs ((q.fA a).add q.h.rm.toNat (q.fB b).negate).abs) s

def execVclamp (q : SlotOp) (s : State) : Host.Outcome State Fault Refusal :=
  runHcw (.vclamp q) (vecOp fun q a b c =>
    q.exact (min (max (q.iA a) (q.iB b)) (q.iC c)) (((q.fA a).fmax (q.fB b)).fmin (q.fC c))) s

def execVimad (q : SlotOp) (s : State) : Host.Outcome State Fault Refusal :=
  runHcw (.vimad q) (vecOp fun q a b c => q.int (q.iA a * q.iB b + q.iC c)) s

/-! ## Bitwise operations and shifts (R104) -/

def execVand (q : SlotOp) (s : State) : Host.Outcome State Fault Refusal :=
  runHcw (.vand q) (vecOp fun _ a b _ => a &&& b) s

def execVor (q : SlotOp) (s : State) : Host.Outcome State Fault Refusal :=
  runHcw (.vor q) (vecOp fun _ a b _ => a ||| b) s

def execVxor (q : SlotOp) (s : State) : Host.Outcome State Fault Refusal :=
  runHcw (.vxor q) (vecOp fun _ a b _ => a ^^^ b) s

def execVnot (q : SlotOp) (s : State) : Host.Outcome State Fault Refusal :=
  runHcw (.vnot q) (vecOp fun q a _ _ => 2 ^ q.w - 1 - a) s

def execVshl (q : SlotOp) (s : State) : Host.Outcome State Fault Refusal :=
  runHcw (.vshl q) (vecOp fun q a b _ =>
    if q.h.sat = 1 then shlSat q.t (q.iA a) b else if b ≥ q.w then 0 else a * 2 ^ b) s

def execVshr (q : SlotOp) (s : State) : Host.Outcome State Fault Refusal :=
  runHcw (.vshr q) (vecOp fun q a b _ => if b ≥ q.w then 0 else a / 2 ^ b) s

def execVsar (q : SlotOp) (s : State) : Host.Outcome State Fault Refusal :=
  runHcw (.vsar q) (vecOp fun q a b _ => sarEnc q.w a b) s

/-! ## Comparison and selection (R105, R106) -/

/-- A predicate on two elements, integer or float (R105). -/
def vecPred (q : SlotOp) (a b : Nat) : Bool :=
  let o := if tyInt q.t then some (compare (q.iA a) (q.iB b)) else (q.fA a).cmp (q.fB b)
  fltPred (q.h.aux.toNat % 16) o

def execVcmp (q : SlotOp) (s : State) : Host.Outcome State Fault Refusal :=
  runHcw (.vcmp q) (fun op q s =>
    let (s, a, b, _) := s.operands op q
    let n := q.bits / q.w
    let ps := ((elems q.w n a).zip (elems q.w n b)).map fun p => vecPred q p.1 p.2
    if q.h.dk = 1 then s.vecResult op q q.w (ps.map fun p => if p then 2 ^ q.w - 1 else 0)
    else
      let g := q.w / 8
      let old := (s.kGet ((q.dst s.bun.rep).setWidth 3)).toNat
      let r := merge (s.maskBits q) q.w (q.h.z == 1) 0 (ps.map fun p => if p then 2 ^ g - 1 else 0) (elems g n old)
      s.maskResult op q (setField old 0 (n * g) (joinE g r))) s

def execVsel (q : SlotOp) (s : State) : Host.Outcome State Fault Refusal :=
  runHcw (.vsel q) (vecOp fun _ a b c => if c ≠ 0 then a else b) s

/-! ## Conversion (R107) -/

def execVcvt (q : SlotOp) (s : State) : Host.Outcome State Fault Refusal :=
  runHcw (.vcvt q) (fun op q s =>
    let (s, a, _, _) := s.operands op q
    let es := elems (tyWidth q.h.ty2.toNat) (q.bits / q.w) a
    let (xs, f) := convAll (s.maskBits q) q.w q.convert 0 es
    let s := s.passChains op q es xs
    s.vecResult op q q.w xs f) s

/-! ## Special functions (R108, R115) -/

def execVrcp (q : SlotOp) (s : State) : Host.Outcome State Fault Refusal := runHcw (.vrcp q) (specialOp rcpVal) s
def execVrsq (q : SlotOp) (s : State) : Host.Outcome State Fault Refusal := runHcw (.vrsq q) (specialOp rsqVal) s
def execVsqrt (q : SlotOp) (s : State) : Host.Outcome State Fault Refusal := runHcw (.vsqrt q) (specialOp sqrtVal) s
def execVexp2 (q : SlotOp) (s : State) : Host.Outcome State Fault Refusal := runHcw (.vexp2 q) (specialOp exp2Val) s
def execVlog2 (q : SlotOp) (s : State) : Host.Outcome State Fault Refusal := runHcw (.vlog2 q) (specialOp log2Val) s
def execVtanh (q : SlotOp) (s : State) : Host.Outcome State Fault Refusal := runHcw (.vtanh q) (specialOp tanhVal) s

def execVsmth (q : SlotOp) (s : State) : Host.Outcome State Fault Refusal :=
  runHcw (.vsmth q) (vecOp fun q a b _ => fltRes q.t 0 (smthVal q.t q.h.rm.toNat (valOf q.t a) (valOf q.t b))) s

/-! ## Dot products (R109, R110) -/

def execVdp4 (q : SlotOp) (s : State) : Host.Outcome State Fault Refusal :=
  runHcw (.vdp4 q) (dotOp fun x y => x * y) s

def execVsad (q : SlotOp) (s : State) : Host.Outcome State Fault Refusal :=
  runHcw (.vsad q) (dotOp fun x y => ((x - y).natAbs : Int)) s

def execVdp2 (q : SlotOp) (s : State) : Host.Outcome State Fault Refusal :=
  runHcw (.vdp2 q) (fun op q s =>
    let (s, a, b, c) := s.operands op q
    let (as, bs, cs) := (elems 16 (q.bits / 16) a, elems 16 (q.bits / 16) b, elems 32 (q.bits / 32) c)
    let parts (k : Native) (e : Nat) : List Part :=
      dotParts q (s.argPart k op q q.h.c 8 e (cs.getD e 0)) (as.drop (2 * e)) (bs.drop (2 * e))
    let (s, xs) := s.chained op q parts (dot2 q cs as bs)
    s.vecResult op q 32 xs) s

/-! ## Quantisation (R111-R114) -/

/-- The greatest code magnitude of a code set (R112). -/
def qMax (u code : Nat) : Nat := if u = 0 then 127 else if u = 11 then 448 else if u = 12 then 57344 else [7, 6, 64, 12].getD code 7

/-- The magnitudes of a q4 code type in halves, by code (R54). -/
def q4Mags (code : Nat) : List Nat :=
  match code with
  | 0 => [0, 2, 4, 6, 8, 10, 12, 14]
  | 1 => [0, 1, 2, 3, 4, 6, 8, 12]
  | 2 => [0, 2, 4, 8, 16, 32, 64, 128]
  | _ => [0, 2, 4, 6, 8, 12, 16, 24]

/-- The index of the magnitude to which m * 2^e halves round, from the index of the lower neighbour on. -/
def q4Index (rm : Nat) (neg : Bool) (m : Nat) (e : Int) : Nat → List Nat → Nat
  | k, lo :: hi :: rest =>
    if magLe hi 0 m e then q4Index rm neg m e (k + 1) (hi :: rest)
    else if magLe m e lo 0 then k
    else
      let c : Ordering := if magLe (lo + hi) 0 m (e + 1) then (if magLe m (e + 1) (lo + hi) 0 then .eq else .gt) else .lt
      if roundUp rm neg (k % 2 == 1) c then k + 1 else k
  | k, _ => k

/-- A q4 code of sign and magnitude index; a zero has the code 0. -/
def q4Code (code : Nat) (neg : Bool) (k : Nat) : Nat :=
  if k = 0 then 0 else if neg then (if code = 0 then 16 - k else 8 + k) else k

/-- `qenc(qround(z, u, rm))` for |z| at most Qmax (R112). -/
def qCode (u code rm : Nat) (z : Val) : Nat :=
  if u = 13 then
    match z with
    | .fin s m e => q4Code code s (q4Index rm s m (e + 1) 0 (q4Mags code))
    | _ => 0
  else if u = 0 then wrapN 8 (roundInt rm z)
  else
    let y := roundVal u rm z
    if y.isZero then 0 else fltEnc u y

/-- `qsub`: the substitute's code (R112). -/
def qSub (u code sub : Nat) (neg : Bool) : Nat :=
  match sub with
  | 0 => qCode u code 0 (.fin neg (qMax u code) 0)
  | 1 => 0
  | _ => canonNan u

/-- The scale exponent of a block from the magnitudes of its valid elements, searched upward (R112). -/
def scaleExp (qmax : Nat) (ms : List (Nat × Int)) : Nat → Nat → Nat
  | 0, e => e
  | f + 1, e => if ms.all fun m => magLe m.1 m.2 qmax ((e : Int) - 32) then e else scaleExp qmax ms f (e + 1)

/-- The code of one element of a block under scale exponent e, with its flag (R112). -/
def qElem (u code rm sn si e : Nat) (y : Val) : Nat × BitVec 5 :=
  match y with
  | .nan s => (qSub u code sn s, flagNan)
  | .inf s => (qSub u code si s, flagInf)
  | .fin s m x =>
    let z : Val := .fin s m (x + 32 - e)
    if magLe m (x + 32 - e) (qMax u code) 0 then (qCode u code rm z, 0)
    else (qCode u code rm (.fin s (qMax u code) 0), flagOvf)

/-- One block of 32 elements: its codes, its exponent and its flags. `act` says which elements are active. -/
def qBlock (u code rm sn si : Nat) (act : List Bool) (ys : List Val) : List Nat × Nat × BitVec 5 :=
  let valid := (act.zip ys).filterMap fun
    | (true, .fin _ m x) => some (m, x)
    | _ => none
  let e := scaleExp (qMax u code) valid 63 0
  let rs := (act.zip ys).map fun p => if p.1 then qElem u code rm sn si e p.2 else (0, 0)
  (rs.map (·.1), e, rs.foldl (fun f r => f ||| r.2) 0)

/-- The blocks of a list of elements, each with its activity. -/
def qBlocks (u code rm sn si : Nat) : Nat → List Bool → List Val → List Nat × List Nat × BitVec 5
  | 0, _, _ => ([], [], 0)
  | n + 1, act, ys =>
    let (cs, e, f) := qBlock u code rm sn si (act.take 32) (ys.take 32)
    let (cs', es, f') := qBlocks u code rm sn si n (act.drop 32) (ys.drop 32)
    (cs ++ cs', e :: es, f ||| f')

def execVqnt (q : SlotOp) (s : State) : Host.Outcome State Fault Refusal :=
  runHcw (.vqnt q) (fun op q s =>
    let (s, a, b, _) := s.operands op q
    let aux := q.h.aux.toNat
    let u := q.h.ty2.toNat
    let n := q.bits / q.w
    let m := s.maskBits q
    let ys := ((elems q.w n a).zip (elems q.w n b)).map fun p =>
      if aux / 4 % 2 = 1 then (valOf q.t p.1).mul (valOf q.t p.2) else valOf q.t p.1
    let (cs, es, f) := qBlocks u (aux % 4) q.h.rm.toNat (aux / 8 % 4) (aux / 32 % 4) (n / 32)
      ((List.range n).map (active m q.w)) ys
    let codes := joinE (tyWidth u) cs % 2 ^ 256
    s.vectorResult op q (codes + 2 ^ 256 * joinE 8 (es.map fun e => e + 64 * (aux % 4))) 2 f) s

def execVdqnt (q : SlotOp) (s : State) : Host.Outcome State Fault Refusal :=
  runHcw (.vdqnt q) (fun op q s =>
    let (s, a, _, _) := s.operands op q
    let u := q.h.ty2.toNat
    let n := q.bits / q.w
    let sbs := elems 8 (n / 32) (a / 2 ^ 256)
    let conv (x : Nat) : Nat × BitVec 5 :=
      let sb := x / 2 ^ 8
      let v := if u = 13 then q4val (sb / 64) (x % 16) else valOf u (x % 2 ^ 8)
      cvt (v.shift ((sb % 64 : Nat) - 32)) q.t q.h.rm.toNat 2 2 0
    -- each code with its block's scale byte above it
    let xs := ((elems (tyWidth u) n a).zip (List.range n)).map fun p => p.1 + 2 ^ 8 * sbs.getD (p.2 / 32) 0
    let (rs, f) := convAll (s.maskBits q) q.w conv 0 xs
    s.vecResult op q q.w rs f) s

end Sys2Proof.Machine
end

