-- ==== Sys2Proof/Machine/VecData.lean ====
section
/-!
DEFINITION. Vector data movement, reductions, sparse support, tile registers and masks (spec 07).
-/
namespace Sys2Proof.Machine
open Sys2Proof

/-! ## Reading through a source mask (R118) -/

/-- What `fetch` returns for each element inside the operand: the nearest readable element at or below it, or `last` where
there is none. -/
def fillDown (m w : Nat) : Nat → Nat → List Nat → List Nat
  | _, _, [] => []
  | e, last, x :: xs =>
    let y := if active m w e then x else last
    y :: fillDown m w (e + 1) y xs

/-- `fetch(S, j)` from the filled operand. -/
def fetchAt (id : Nat) (filled : List Nat) (j : Int) : Nat :=
  match j with
  | .ofNat k => filled.getD k id
  | .negSucc _ => id

/-- An operand's elements filled under the slot's source mask. -/
def State.filled (s : State) (q : SlotOp) (id x : Nat) : List Nat :=
  fillDown (s.kGet (kSOf q)).toNat q.w 0 id (elems q.w (q.bits / q.w) x)

/-- A permute: element e of the result is `fetch(A, j)`, j from the number of elements, e and B. -/
def permuteOp (j : SlotOp → Nat → Nat → Nat → Int) (op : Nat) (q : SlotOp) (s : State) : State :=
  let (s, a, b, id) := s.operands op q
  let n := q.bits / q.w
  let src := s.filled q id a
  s.vecResult op q q.w ((List.range n).map fun e => fetchAt id src (j q n b e))

/-! ## Moves and permutes (R120, R121) -/

def execVmov (q : SlotOp) (s : State) : Host.Outcome State Fault Refusal :=
  runHcw (.vmov q) (vecOp fun _ a _ _ => a) s

def execVbcast (q : SlotOp) (s : State) : Host.Outcome State Fault Refusal :=
  runHcw (.vbcast q) (fun op q s =>
    if q.h.aux.toNat / 8 % 2 = 1 then
      let (s, a, _, _) := s.operands op q
      s.vecResult op q q.w (List.replicate (q.bits / q.w) (a % 2 ^ q.w))
    else permuteOp (fun _ _ c _ => c) op q s) s

def execViota (q : SlotOp) (s : State) : Host.Outcome State Fault Refusal :=
  runHcw (.viota q) (fun op q s =>
    let (s, a, b, _) := s.operands op q
    s.vecResult op q q.w ((List.range (q.bits / q.w)).map fun (e : Nat) => q.int (q.iA a + e * q.iB b))) s

def execVperm (q : SlotOp) (s : State) : Host.Outcome State Fault Refusal :=
  runHcw (.vperm q) (permuteOp fun q _ b e => (b / 2 ^ (q.w * e) % 2 ^ q.w : Nat)) s

def execVrotl (q : SlotOp) (s : State) : Host.Outcome State Fault Refusal :=
  runHcw (.vrotl q) (permuteOp fun _ n c e => ((e + c) % n : Nat)) s

def execVslide (q : SlotOp) (s : State) : Host.Outcome State Fault Refusal :=
  runHcw (.vslide q) (permuteOp fun q _ c e => if q.h.aux.toNat / 8 % 2 = 1 then (e : Int) - c else e + c) s

def execVxlane (q : SlotOp) (s : State) : Host.Outcome State Fault Refusal :=
  runHcw (.vxlane q) (permuteOp fun _ n c e => (e ^^^ (c % n) : Nat)) s

/-! ## Zip, compress, expand (R122, R123) -/

def execVzip (q : SlotOp) (s : State) : Host.Outcome State Fault Refusal :=
  runHcw (.vzip q) (fun op q s =>
    let (s, a, b, id) := s.operands op q
    let n := q.bits / q.w
    let h := q.h.aux.toNat / 8 % 2 * (n / 2)
    let xs := s.filled q id a
    let ys := s.filled q id b
    s.vecResult op q q.w ((List.range n).map fun e => (if e % 2 = 0 then xs else ys).getD (e / 2 + h) id)) s

def execVunzip (q : SlotOp) (s : State) : Host.Outcome State Fault Refusal :=
  runHcw (.vunzip q) (fun op q s =>
    let (s, a, b, id) := s.operands op q
    let n := q.bits / q.w
    let h := q.h.aux.toNat / 8 % 2
    let xs := s.filled q id a ++ s.filled q id b
    s.vecResult op q q.w ((List.range n).map fun e => xs.getD (2 * e + h) id)) s

/-- The active elements of a list, from element e on. -/
def actives (m w : Nat) : Nat → List Nat → List Nat
  | _, [] => []
  | e, x :: xs => if active m w e then x :: actives m w (e + 1) xs else actives m w (e + 1) xs

def execVcmprs (q : SlotOp) (s : State) : Host.Outcome State Fault Refusal :=
  runHcw (.vcmprs q) (fun op q s =>
    let (s, a, _, id) := s.operands op q
    let n := q.bits / q.w
    let xs := actives (s.maskBits q) q.w 0 (elems q.w n a)
    s.vectorResult op q (joinE q.w (xs ++ List.replicate (n - xs.length) id)) q.group) s

/-- Elements spread over the active positions from e on. -/
def expand (m w : Nat) : Nat → Nat → List Nat → List Nat
  | 0, _, _ => []
  | k + 1, e, xs => if active m w e then xs.headD 0 :: expand m w k (e + 1) xs.tail else 0 :: expand m w k (e + 1) xs

def execVexpnd (q : SlotOp) (s : State) : Host.Outcome State Fault Refusal :=
  runHcw (.vexpnd q) (fun op q s =>
    let (s, a, _, _) := s.operands op q
    let n := q.bits / q.w
    s.vecResult op q q.w (expand (s.maskBits q) q.w n 0 (elems q.w n a))) s

/-! ## Reductions and scans (R124, R125) -/

/-- An element as a reduction holds it: an exact integer, or a float's encoding with its NaN canonical. -/
def redElem (t e : Nat) : Int := if tyInt t then (valOf t e).toInt else (fltEnc t (fltVal t e) : Nat)

/-- `comb` of two elements (R124). -/
def comb (t rm op : Nat) (x y : Int) : Int :=
  if tyInt t then
    let bits (f : Nat → Nat → Nat) : Int := (valOf t (f (wrapN (tyWidth t) x) (wrapN (tyWidth t) y))).toInt
    match op with
    | 0 => x + y
    | 1 => min x y
    | 2 => max x y
    | 3 => bits (· &&& ·)
    | 4 => bits (· ||| ·)
    | _ => bits (· ^^^ ·)
  else
    let a := fltVal t x.toNat
    let b := fltVal t y.toNat
    match op with
    | 0 => (fltRes t rm (a.add rm b) : Nat)
    | 1 => (fltEnc t (a.fmin b) : Nat)
    | _ => (fltEnc t (a.fmax b) : Nat)

/-- One level of the tree: `none` is an identity lane. -/
def treeStep (f : Int → Int → Int) : List (Option Int) → List (Option Int)
  | x :: y :: rest =>
    (match x, y with
      | none, y => y
      | x, none => x
      | some u, some w => some (f u w)) :: treeStep f rest
  | xs => xs

/-- The tree down to one lane; seven levels join 128 lanes. -/
def tree (f : Int → Int → Int) : Nat → List (Option Int) → Option Int
  | 0, xs => xs.headD none
  | k + 1, xs => tree f k (treeStep f xs)

/-- A reduction's or scan's result as an encoding; nothing active gives +0 (R58). -/
def redResult (q : SlotOp) (x : Option Int) : Nat :=
  match x with
  | none => 0
  | some v => if tyInt q.t then q.int v else v.toNat

def execVred (q : SlotOp) (s : State) : Host.Outcome State Fault Refusal :=
  runHcw (.vred q) (fun op q s =>
    let (s, a, _, _) := s.operands op q
    let m := s.maskBits q
    let n := q.bits / q.w
    let xs := ((elems q.w n a).zip (List.range n)).map fun p => if active m q.w p.2 then some (redElem q.t p.1) else none
    let r := redResult q (tree (comb q.t q.h.rm.toNat (q.h.aux.toNat % 8)) 7 xs)
    let (s, rs) := s.chained op q (fun k _ => s.activeParts k op q (elems q.w n a) (List.range n)) [r]
    if q.h.dk = 0 then s.scalarResult op q (q.putEnc (rs.headD 0))
    else s.vectorResult op q (rs.headD 0) 1) s

/-- The prefix combinations from element e on; `starts` holds the segment starts, `acc` the segment's combination so far. -/
def scan (f : Int → Int → Int) (m starts w : Nat) (excl : Bool) : Nat → Option Int → List Int → List (Option Int)
  | _, _, [] => []
  | e, acc, x :: xs =>
    let acc := if e = 0 ∨ active starts w e = true then none else acc
    let acc' := if active m w e then some (match acc with
      | none => x
      | some y => f y x) else acc
    (if excl then acc else acc') :: scan f m starts w excl (e + 1) acc' xs

/-- The elements whose active ones a scan combines for element e: from its segment's start up to e, or up to e − 1 (R125). -/
def prefixOf (starts w : Nat) (excl : Bool) (e : Nat) : List Nat :=
  let b := (List.range (e + 1)).foldl (fun b k => if active starts w k then k else b) 0
  (List.range (if excl then e else e + 1)).drop b

/-- `vscan` and `vsscan`: the segment starts given as a mask. -/
def scanOp (starts : Nat → Nat) (op : Nat) (q : SlotOp) (s : State) : State :=
  let (s, a, b, _) := s.operands op q
  let n := q.bits / q.w
  let aux := q.h.aux.toNat
  let rs := scan (comb q.t q.h.rm.toNat (aux % 8)) (s.maskBits q) (starts b) q.w (aux / 8 % 2 == 1) 0 none
    ((elems q.w n a).map (redElem q.t))
  let (s, xs) := s.chained op q (fun k e => s.activeParts k op q (elems q.w n a) (prefixOf (starts b) q.w (aux / 8 % 2 == 1) e))
    (rs.map (redResult q))
  s.vecResult op q q.w xs

def execVscan (q : SlotOp) (s : State) : Host.Outcome State Fault Refusal := runHcw (.vscan q) (scanOp fun _ => 0) s
def execVsscan (q : SlotOp) (s : State) : Host.Outcome State Fault Refusal := runHcw (.vsscan q) (scanOp fun b => b) s

/-! ## Sparse support (R126, R127) -/

def execVpopc (q : SlotOp) (s : State) : Host.Outcome State Fault Refusal :=
  runHcw (.vpopc q) (vecOp fun q a _ _ => q.int (popcount q.w a : Nat)) s

/-- Running sums of the active elements' popcounts, exclusive. -/
def offsets (m w : Nat) : Nat → Int → List Nat → List Int
  | _, _, [] => []
  | e, acc, x :: xs => acc :: offsets m w (e + 1) (if active m w e then acc + popcount w x else acc) xs

def execVpfx (q : SlotOp) (s : State) : Host.Outcome State Fault Refusal :=
  runHcw (.vpfx q) (fun op q s =>
    let (s, a, b, _) := s.operands op q
    s.vecResult op q q.w ((offsets (s.maskBits q) q.w 0 (q.iB b) (elems q.w (q.bits / q.w) a)).map q.int)) s

/-- The ranks of the common bits of two words, ascending (R127). -/
def ranks (a b : Nat) : List (Nat × Nat) :=
  ((List.range 32).filter fun j => a.testBit j && b.testBit j).map fun j => (popcount j a, popcount j b)

def execVinter (q : SlotOp) (s : State) : Host.Outcome State Fault Refusal :=
  runHcw (.vinter q) (fun op q s =>
    let (s, a, b, c) := s.operands op q
    let w := c % (q.bits / 32)
    let r := ranks (field a (32 * w) 32) (field b (32 * w) 32)
    let pad (xs : List Nat) : Nat := joinE 8 (xs ++ List.replicate (32 - xs.length) 0xFF)
    s.vectorResult op q (pad (r.map (·.1)) + 2 ^ 256 * pad (r.map (·.2))) 2) s

/-! ## Random values (R130) -/

def execVrnd (q : SlotOp) (s : State) : Host.Outcome State Fault Refusal :=
  runHcw (.vrnd q) (vecOp fun q a b _ =>
    if tyInt q.t then a * b / 2 ^ q.w
    else fltEnc q.t (.fin false (a / 2 ^ (q.w - fltP q.t)) (-(fltP q.t : Int)))) s

/-! ## Tile registers (R131, R132) -/

/-- Elements of type u converted to t, the same type unchanged (R131). -/
def tileConv (q : SlotOp) (e : Nat) : Nat × BitVec 5 := if q.h.ty2 = q.h.ty then (e, 0) else q.convert e

def execVtrow (q : SlotOp) (s : State) : Host.Outcome State Fault Refusal :=
  runHcw (.vtrow q) (fun op q s =>
    let (s, a, c, _) := s.operands op q
    let n := 256 / q.w
    let key := 32 * ((q.dst s.bun.rep).toNat / 8) + c % 32
    let m := s.maskBits q
    let (xs, f) := convAll m q.w (tileConv q) 0 (elems (tyWidth q.h.ty2.toNat) n a)
    let r := merge m q.w (q.h.z == 1) 0 xs (elems q.w n (spGet 0 s.t.regs.x key).toNat)
    s.results (hcwLat op q) q.slot (hcwPops op q) [.x key (BitVec.ofNat 256 (joinE q.w r))] f) s

def execVtcol (q : SlotOp) (s : State) : Host.Outcome State Fault Refusal :=
  runHcw (.vtcol q) (fun op q s =>
    let (s, _, c, _) := s.operands op q
    let nu := tyWidth q.h.ty2.toNat
    let col := c % (256 / nu)
    let tile := q.h.aux.toNat / 64 % 8
    let xs := (List.range 32).map fun r => field (spGet 0 s.t.regs.x (32 * tile + r)).toNat (nu * col) nu
    let (ys, f) := convAll (s.maskBits q) q.w (tileConv q) 0 xs
    s.vecResult op q q.w ys f) s

/-! ## Masks (R134) -/

/-- A mask operation on 128 bits. -/
def maskOp (f : Nat → Nat → Nat) (op : Nat) (q : SlotOp) (s : State) : State :=
  let (s, a, b, _) := s.operands op q
  s.maskResult op q (f a b)

def execKand (q : SlotOp) (s : State) : Host.Outcome State Fault Refusal := runHcw (.kand q) (maskOp fun a b => a &&& b) s
def execKor (q : SlotOp) (s : State) : Host.Outcome State Fault Refusal := runHcw (.kor q) (maskOp fun a b => a ||| b) s
def execKxor (q : SlotOp) (s : State) : Host.Outcome State Fault Refusal := runHcw (.kxor q) (maskOp fun a b => a ^^^ b) s

def execKnot (q : SlotOp) (s : State) : Host.Outcome State Fault Refusal :=
  runHcw (.knot q) (maskOp fun a _ => 2 ^ 128 - 1 - a % 2 ^ 128) s

def execKmov (q : SlotOp) (s : State) : Host.Outcome State Fault Refusal :=
  runHcw (.kmov q) (fun op q s =>
    let (s, a, _, _) := s.operands op q
    if q.h.dk = 0 then s.scalarResult op q (BitVec.ofNat 64 (if q.h.aux.toNat / 4 % 2 = 1 then a / 2 ^ 64 else a))
    else s.maskResult op q (a % 2 ^ 128)) s

end Sys2Proof.Machine
end

