-- ==== Sys2Proof/Machine/Wait.lean ====
section
/-!
DEFINITION. The wait conditions of the W slot (spec 02 R35, 10 R204-R206, R215, 14 R251, 15 R273): what holds a bundle, and what
a wait acquires when its bundle issues.
-/
namespace Sys2Proof.Machine
open Sys2Proof

/-- The gate of a wait: it holds its bundle while its condition does not hold. -/
def Gate.wait (i : Instr) (holds : Bool) : Gate := { Gate.plain .w i with hold := !holds }

/-! ## Buffers -/

def State.gateWaitFull (s : State) (b : BitVec 6) : Gate := Gate.wait (.waitFull b) ((s.buf b).st == .full)

def execWaitFull (b : BitVec 6) (s : State) : Host.Outcome State Fault Refusal :=
  issue (s.gateWaitFull b) (fun s => s) s

def State.gateWaitFree (s : State) (b : BitVec 6) : Gate := Gate.wait (.waitFree b) ((s.buf b).st == .free)

def execWaitFree (b : BitVec 6) (s : State) : Host.Outcome State Fault Refusal :=
  issue (s.gateWaitFree b) (fun s => s) s

/-! ## Cycles -/

/-- The cycle has been reached; s0 always holds. -/
def State.gateWaitCyc (s : State) (a : BitVec 6) : Gate :=
  { Gate.wait (.waitCyc a) (decide ((s.sGet a).toNat ≤ s.cyc)) with reads := [(.s a, false)] }

def execWaitCyc (a : BitVec 6) (s : State) : Host.Outcome State Fault Refusal :=
  issue (s.gateWaitCyc a) (fun s => s) s

/-- The low half of the cycle count lies within 2^31 cycles after the literal. -/
def State.gateWaitCycLiteral (s : State) (l : BitVec 2) : Gate :=
  let d : W32 := BitVec.ofNat 32 s.cyc - s.lit (l.setWidth 6)
  Gate.wait (.waitCycLiteral l) (decide (d.toNat < 2 ^ 31))

def execWaitCycLiteral (l : BitVec 2) (s : State) : Host.Outcome State Fault Refusal :=
  issue (s.gateWaitCycLiteral l) (fun s => s) s

/-! ## Registers -/

/-- The register that a wait of kind 0x5 names. -/
def waitRegId (k : BitVec 2) (n : BitVec 6) : RegId :=
  if k = 0 then .s n else if k = 1 then .v n else .k (n.setWidth 3)

/-- Kind 11 names no register, and neither does a k number beyond k7. -/
def State.gateWaitReg (s : State) (k : BitVec 2) (n : BitVec 6) : Gate :=
  { Gate.wait (.waitReg k n) (!s.emptyAt (waitRegId k n)) with bad := k == 3 || (k == 2 && decide (8 ≤ n.toNat)) }

def execWaitReg (k : BitVec 2) (n : BitVec 6) (s : State) : Host.Outcome State Fault Refusal :=
  issue (s.gateWaitReg k n) (fun s => s) s

/-! ## Barriers and groups -/

/-- lt raised to the times carried into a completed phase or generation (R273). -/
def State.acquire (s : State) (t : Option Time) : State := { s with core := { s.core with lt := tafter s.core.lt t } }

def State.gateWaitBar (s : State) (p : BitVec 1) (b : BitVec 6) : Gate :=
  Gate.wait (.waitBar p b) ((s.barAt none b).par != (p == 1))

def execWaitBar (p : BitVec 1) (b : BitVec 6) (s : State) : Host.Outcome State Fault Refusal :=
  issue (s.gateWaitBar p b) (fun s => s.acquire (s.barAt none b).tDone) s

/-- The gang member and the barrier of the literal. -/
def State.gangBar (s : State) (l : BitVec 2) : Nat × BitVec 6 :=
  let w := (s.lit (l.setWidth 6)).toNat
  (field w 6 6, BitVec.ofNat 6 w)

/-- A member that the gang does not have traps at cycle E; the barrier of a PARKED member cannot be watched (R329). -/
def State.gateWaitBarGang (s : State) (p : BitVec 1) (l : BitVec 2) : Gate :=
  let (m, b) := s.gangBar l
  { Gate.wait (.waitBarGang p l) (!s.memberParked m && (s.barAt (some m) b).par != (p == 1)) with
    bad := (s.lit (l.setWidth 6)).toNat / 2 ^ 12 != 0
    early := trapIf (!s.hasMember m) 0x18 (BitVec.ofNat 64 m) }

def execWaitBarGang (p : BitVec 1) (l : BitVec 2) (s : State) : Host.Outcome State Fault Refusal :=
  issue (s.gateWaitBarGang p l) (fun s =>
    let (m, b) := s.gangBar l
    s.acquire (s.barAt (some m) b).tDone) s

def State.gateWaitGroup (s : State) (g : BitVec 6) : Gate := Gate.wait (.waitGroup g) (s.groupDone g)

/-- What the wait acquires: nothing before any `gbar` (R206). -/
def State.groupTime (s : State) (g : BitVec 6) : Option Time :=
  match (spGet { await := none } s.t.eng.groups g.toNat).await with
  | none => none
  | some _ => (s.group (s.myGroup g).1).tDone

def execWaitGroup (g : BitVec 6) (s : State) : Host.Outcome State Fault Refusal :=
  issue (s.gateWaitGroup g) (fun s => s.acquire (s.groupTime g)) s

/-! ## Rings -/

def State.gateWaitRing (s : State) (g : BitVec 3) (n : BitVec 9) : Gate :=
  Gate.wait (.waitRing g n) (decide (n.toNat ≤ (s.ring g).cnt))

def execWaitRing (g : BitVec 3) (n : BitVec 9) (s : State) : Host.Outcome State Fault Refusal :=
  issue (s.gateWaitRing g n) (fun s => s) s

/-- Slots reserved by copies in flight are not free. -/
def State.gateWaitSpace (s : State) (g : BitVec 3) : Gate :=
  let n := (s.t.eng.cpq.filter fun q => match q.kind with
    | .ring g' _ _ => g' == g
    | _ => false).length
  Gate.wait (.waitSpace g) (decide ((s.ring g).cnt + n < (s.ring g).nt))

def execWaitSpace (g : BitVec 3) (s : State) : Host.Outcome State Fault Refusal :=
  issue (s.gateWaitSpace g) (fun s => s) s

/-! ## Engines and the Yoke -/

def State.gateWaitTrellis (s : State) : Gate := Gate.wait .waitTrellis s.t.eng.ten.isEmpty

def execWaitTrellis (s : State) : Host.Outcome State Fault Refusal := issue s.gateWaitTrellis (fun s => s) s

def State.gateWaitYslot (s : State) (slot : BitVec 4) : Gate :=
  Gate.wait (.waitYslot slot) (s.cyc % 16 == slot.toNat)

def execWaitYslot (slot : BitVec 4) (s : State) : Host.Outcome State Fault Refusal :=
  issue (s.gateWaitYslot slot) (fun s => s.onSlot) s

end Sys2Proof.Machine
end

