-- ==== Sys2Proof/Machine/Dispatch.lean ====
section
/-!
DEFINITION. One arm per constructor of Instr, each the direct call of its meaning.
-/
namespace Sys2Proof.Machine
open Sys2Proof

def exec (i : Instr) (s : State) : Host.Outcome State Fault Refusal :=
  match i with
  | .nop => Sys2Proof.Machine.execNop s
  | .br cond a off => Sys2Proof.Machine.execBr cond a off s
  | .jmp off => Sys2Proof.Machine.execJmp off s
  | .jmpr b imm => Sys2Proof.Machine.execJmpr b imm s
  | .call off => Sys2Proof.Machine.execCall off s
  | .callr off => Sys2Proof.Machine.execCallr off s
  | .ret b => Sys2Proof.Machine.execRet b s
  | .loop a off => Sys2Proof.Machine.execLoop a off s
  | .ld a b imm => Sys2Proof.Machine.execLd a b imm s
  | .ldx a b c sz sh => Sys2Proof.Machine.execLdx a b c sz sh s
  | .lds a b imm => Sys2Proof.Machine.execLds a b imm s
  | .chkp a b => Sys2Proof.Machine.execChkp a b s
  | .st a b imm => Sys2Proof.Machine.execSt a b imm s
  | .stx a b c sz sh => Sys2Proof.Machine.execStx a b c sz sh s
  | .pref lvl b imm => Sys2Proof.Machine.execPref lvl b imm s
  | .ipref off => Sys2Proof.Machine.execIpref off s
  | .vld a b w buf off => Sys2Proof.Machine.execVld a b w buf off s
  | .vst a b w buf off => Sys2Proof.Machine.execVst a b w buf off s
  | .vldh a b c w => Sys2Proof.Machine.execVldh a b c w s
  | .vsth a b c w => Sys2Proof.Machine.execVsth a b c w s
  | .vgath a b c k w sc e => Sys2Proof.Machine.execVgath a b c k w sc e s
  | .vscat a b c k w sc e => Sys2Proof.Machine.execVscat a b c k w sc e s
  | .vlds a b w buf off => Sys2Proof.Machine.execVlds a b w buf off s
  | .vchkp a b w => Sys2Proof.Machine.execVchkp a b w s
  | .amoAdd a b c sz => Sys2Proof.Machine.execAmoAdd a b c sz s
  | .amoAnd a b c sz => Sys2Proof.Machine.execAmoAnd a b c sz s
  | .amoOr a b c sz => Sys2Proof.Machine.execAmoOr a b c sz s
  | .amoXor a b c sz => Sys2Proof.Machine.execAmoXor a b c sz s
  | .amoMin a b c sz => Sys2Proof.Machine.execAmoMin a b c sz s
  | .amoMax a b c sz => Sys2Proof.Machine.execAmoMax a b c sz s
  | .amoMinn a b c sz => Sys2Proof.Machine.execAmoMinn a b c sz s
  | .amoMaxn a b c sz => Sys2Proof.Machine.execAmoMaxn a b c sz s
  | .amoSwap a b c sz => Sys2Proof.Machine.execAmoSwap a b c sz s
  | .amoCas a b c sz => Sys2Proof.Machine.execAmoCas a b c sz s
  | .amoIncw a b c sz => Sys2Proof.Machine.execAmoIncw a b c sz s
  | .amoFaddb a b c sz => Sys2Proof.Machine.execAmoFaddb a b c sz s
  | .amoFadd a b c sz => Sys2Proof.Machine.execAmoFadd a b c sz s
  | .redAdd b c sz => Sys2Proof.Machine.execRedAdd b c sz s
  | .redAnd b c sz => Sys2Proof.Machine.execRedAnd b c sz s
  | .redOr b c sz => Sys2Proof.Machine.execRedOr b c sz s
  | .redXor b c sz => Sys2Proof.Machine.execRedXor b c sz s
  | .redMin b c sz => Sys2Proof.Machine.execRedMin b c sz s
  | .redMax b c sz => Sys2Proof.Machine.execRedMax b c sz s
  | .redMinn b c sz => Sys2Proof.Machine.execRedMinn b c sz s
  | .redMaxn b c sz => Sys2Proof.Machine.execRedMaxn b c sz s
  | .redIncw b c sz => Sys2Proof.Machine.execRedIncw b c sz s
  | .redFaddb b c sz => Sys2Proof.Machine.execRedFaddb b c sz s
  | .redFadd b c sz => Sys2Proof.Machine.execRedFadd b c sz s
  | .amov b c sz => Sys2Proof.Machine.execAmov b c sz s
  | .depdec b imm => Sys2Proof.Machine.execDepdec b imm s
  | .copy a b c h => Sys2Proof.Machine.execCopy a b c h s
  | .copyx a b c => Sys2Proof.Machine.execCopyx a b c s
  | .copyo a b c h => Sys2Proof.Machine.execCopyo a b c h s
  | .brel a => Sys2Proof.Machine.execBrel a s
  | .bset a b c => Sys2Proof.Machine.execBset a b c s
  | .stage b imm => Sys2Proof.Machine.execStage b imm s
  | .expect a b m g => Sys2Proof.Machine.execExpect a b m g s
  | .arrive a m g => Sys2Proof.Machine.execArrive a m g s
  | .arriveInit a b m g => Sys2Proof.Machine.execArriveInit a b m g s
  | .join a => Sys2Proof.Machine.execJoin a s
  | .leave a => Sys2Proof.Machine.execLeave a s
  | .gbar a => Sys2Proof.Machine.execGbar a s
  | .ysend a slot => Sys2Proof.Machine.execYsend a slot s
  | .yrecv b slot => Sys2Proof.Machine.execYrecv b slot s
  | .yokeLatchWrite => Sys2Proof.Machine.execYokeLatchWrite s
  | .fence scope t => Sys2Proof.Machine.execFence scope t s
  | .fencep scope p q => Sys2Proof.Machine.execFencep scope p q s
  | .prmx a b imm => Sys2Proof.Machine.execPrmx a b imm s
  | .spawn b => Sys2Proof.Machine.execSpawn b s
  | .endTask => Sys2Proof.Machine.execEndTask s
  | .phase a => Sys2Proof.Machine.execPhase a s
  | .ctopen a off => Sys2Proof.Machine.execCtopen a off s
  | .ctclose => Sys2Proof.Machine.execCtclose s
  | .trap b imm => Sys2Proof.Machine.execTrap b imm s
  | .eret => Sys2Proof.Machine.execEret s
  | .hset b c => Sys2Proof.Machine.execHset b c s
  | .rlay b c tag => Sys2Proof.Machine.execRlay b c tag s
  | .tenc a b c fmt v16l auto => Sys2Proof.Machine.execTenc a b c fmt v16l auto s
  | .rset g b => Sys2Proof.Machine.execRset g b s
  | .mfs a n => Sys2Proof.Machine.execMfs a n s
  | .mts a n => Sys2Proof.Machine.execMts a n s
  | .hsnap a => Sys2Proof.Machine.execHsnap a s
  | .mzero op hold i32 => Sys2Proof.Machine.execMzero op hold i32 s
  | .mpush g => Sys2Proof.Machine.execMpush g s
  | .mflip => Sys2Proof.Machine.execMflip s
  | .mstrm g op hold => Sys2Proof.Machine.execMstrm g op hold s
  | .mdrain adv scl fmt clr quad part => Sys2Proof.Machine.execMdrain adv scl fmt clr quad part s
  | .mret g => Sys2Proof.Machine.execMret g s
  | .mskip g n => Sys2Proof.Machine.execMskip g n s
  | .mpad kv => Sys2Proof.Machine.execMpad kv s
  | .mscl g => Sys2Proof.Machine.execMscl g s
  | .waitFull b => Sys2Proof.Machine.execWaitFull b s
  | .waitFree b => Sys2Proof.Machine.execWaitFree b s
  | .waitCyc a => Sys2Proof.Machine.execWaitCyc a s
  | .waitCycLiteral l => Sys2Proof.Machine.execWaitCycLiteral l s
  | .waitReg k n => Sys2Proof.Machine.execWaitReg k n s
  | .waitBar p b => Sys2Proof.Machine.execWaitBar p b s
  | .waitBarGang p l => Sys2Proof.Machine.execWaitBarGang p l s
  | .waitRing g n => Sys2Proof.Machine.execWaitRing g n s
  | .waitSpace g => Sys2Proof.Machine.execWaitSpace g s
  | .waitGroup g => Sys2Proof.Machine.execWaitGroup g s
  | .waitTrellis => Sys2Proof.Machine.execWaitTrellis s
  | .waitYslot slot => Sys2Proof.Machine.execWaitYslot slot s
  | .mov q => Sys2Proof.Machine.execMov q s
  | .movl q => Sys2Proof.Machine.execMovl q s
  | .add q => Sys2Proof.Machine.execAdd q s
  | .sub q => Sys2Proof.Machine.execSub q s
  | .mul q => Sys2Proof.Machine.execMul q s
  | .mulh q => Sys2Proof.Machine.execMulh q s
  | .mulhn q => Sys2Proof.Machine.execMulhn q s
  | .div q => Sys2Proof.Machine.execDiv q s
  | .divn q => Sys2Proof.Machine.execDivn q s
  | .rem q => Sys2Proof.Machine.execRem q s
  | .remn q => Sys2Proof.Machine.execRemn q s
  | .and q => Sys2Proof.Machine.execAnd q s
  | .or q => Sys2Proof.Machine.execOr q s
  | .xor q => Sys2Proof.Machine.execXor q s
  | .andn q => Sys2Proof.Machine.execAndn q s
  | .shl q => Sys2Proof.Machine.execShl q s
  | .shr q => Sys2Proof.Machine.execShr q s
  | .sar q => Sys2Proof.Machine.execSar q s
  | .rol q => Sys2Proof.Machine.execRol q s
  | .min q => Sys2Proof.Machine.execMin q s
  | .max q => Sys2Proof.Machine.execMax q s
  | .minn q => Sys2Proof.Machine.execMinn q s
  | .maxn q => Sys2Proof.Machine.execMaxn q s
  | .abs q => Sys2Proof.Machine.execAbs q s
  | .neg q => Sys2Proof.Machine.execNeg q s
  | .cmpeq q => Sys2Proof.Machine.execCmpeq q s
  | .cmpne q => Sys2Proof.Machine.execCmpne q s
  | .cmplt q => Sys2Proof.Machine.execCmplt q s
  | .cmple q => Sys2Proof.Machine.execCmple q s
  | .cmpltn q => Sys2Proof.Machine.execCmpltn q s
  | .cmplen q => Sys2Proof.Machine.execCmplen q s
  | .sel q => Sys2Proof.Machine.execSel q s
  | .clz q => Sys2Proof.Machine.execClz q s
  | .ctz q => Sys2Proof.Machine.execCtz q s
  | .popc q => Sys2Proof.Machine.execPopc q s
  | .bext q => Sys2Proof.Machine.execBext q s
  | .bins q => Sys2Proof.Machine.execBins q s
  | .madd q => Sys2Proof.Machine.execMadd q s
  | .fadd q => Sys2Proof.Machine.execFadd q s
  | .fsub q => Sys2Proof.Machine.execFsub q s
  | .fmul q => Sys2Proof.Machine.execFmul q s
  | .fma q => Sys2Proof.Machine.execFma q s
  | .fmin q => Sys2Proof.Machine.execFmin q s
  | .fmax q => Sys2Proof.Machine.execFmax q s
  | .fcmp q => Sys2Proof.Machine.execFcmp q s
  | .fcvt q => Sys2Proof.Machine.execFcvt q s
  | .rdcyc q => Sys2Proof.Machine.execRdcyc q s
  | .rdtc q => Sys2Proof.Machine.execRdtc q s
  | .rqpop q => Sys2Proof.Machine.execRqpop q s
  | .vget q => Sys2Proof.Machine.execVget q s
  | .vadd q => Sys2Proof.Machine.execVadd q s
  | .vsub q => Sys2Proof.Machine.execVsub q s
  | .vmul q => Sys2Proof.Machine.execVmul q s
  | .vmulh q => Sys2Proof.Machine.execVmulh q s
  | .vfma q => Sys2Proof.Machine.execVfma q s
  | .vfms q => Sys2Proof.Machine.execVfms q s
  | .vfnma q => Sys2Proof.Machine.execVfnma q s
  | .vmin q => Sys2Proof.Machine.execVmin q s
  | .vmax q => Sys2Proof.Machine.execVmax q s
  | .vabs q => Sys2Proof.Machine.execVabs q s
  | .vneg q => Sys2Proof.Machine.execVneg q s
  | .vabd q => Sys2Proof.Machine.execVabd q s
  | .vclamp q => Sys2Proof.Machine.execVclamp q s
  | .vand q => Sys2Proof.Machine.execVand q s
  | .vor q => Sys2Proof.Machine.execVor q s
  | .vxor q => Sys2Proof.Machine.execVxor q s
  | .vnot q => Sys2Proof.Machine.execVnot q s
  | .vshl q => Sys2Proof.Machine.execVshl q s
  | .vshr q => Sys2Proof.Machine.execVshr q s
  | .vsar q => Sys2Proof.Machine.execVsar q s
  | .vcmp q => Sys2Proof.Machine.execVcmp q s
  | .vsel q => Sys2Proof.Machine.execVsel q s
  | .vcvt q => Sys2Proof.Machine.execVcvt q s
  | .vrcp q => Sys2Proof.Machine.execVrcp q s
  | .vrsq q => Sys2Proof.Machine.execVrsq q s
  | .vsqrt q => Sys2Proof.Machine.execVsqrt q s
  | .vexp2 q => Sys2Proof.Machine.execVexp2 q s
  | .vlog2 q => Sys2Proof.Machine.execVlog2 q s
  | .vtanh q => Sys2Proof.Machine.execVtanh q s
  | .vdp4 q => Sys2Proof.Machine.execVdp4 q s
  | .vdp2 q => Sys2Proof.Machine.execVdp2 q s
  | .vqnt q => Sys2Proof.Machine.execVqnt q s
  | .vdqnt q => Sys2Proof.Machine.execVdqnt q s
  | .vsmth q => Sys2Proof.Machine.execVsmth q s
  | .vimad q => Sys2Proof.Machine.execVimad q s
  | .vsad q => Sys2Proof.Machine.execVsad q s
  | .vmov q => Sys2Proof.Machine.execVmov q s
  | .vbcast q => Sys2Proof.Machine.execVbcast q s
  | .viota q => Sys2Proof.Machine.execViota q s
  | .vperm q => Sys2Proof.Machine.execVperm q s
  | .vrotl q => Sys2Proof.Machine.execVrotl q s
  | .vslide q => Sys2Proof.Machine.execVslide q s
  | .vxlane q => Sys2Proof.Machine.execVxlane q s
  | .vzip q => Sys2Proof.Machine.execVzip q s
  | .vunzip q => Sys2Proof.Machine.execVunzip q s
  | .vred q => Sys2Proof.Machine.execVred q s
  | .vscan q => Sys2Proof.Machine.execVscan q s
  | .vsscan q => Sys2Proof.Machine.execVsscan q s
  | .vcmprs q => Sys2Proof.Machine.execVcmprs q s
  | .vexpnd q => Sys2Proof.Machine.execVexpnd q s
  | .vpopc q => Sys2Proof.Machine.execVpopc q s
  | .vpfx q => Sys2Proof.Machine.execVpfx q s
  | .vinter q => Sys2Proof.Machine.execVinter q s
  | .vrnd q => Sys2Proof.Machine.execVrnd q s
  | .vtrow q => Sys2Proof.Machine.execVtrow q s
  | .vtcol q => Sys2Proof.Machine.execVtcol q s
  | .kand q => Sys2Proof.Machine.execKand q s
  | .kor q => Sys2Proof.Machine.execKor q s
  | .kxor q => Sys2Proof.Machine.execKxor q s
  | .knot q => Sys2Proof.Machine.execKnot q s
  | .kmov q => Sys2Proof.Machine.execKmov q s
  | .resultLanding => Sys2Proof.Machine.execResultLanding s
  | .accumulatorRowLanding => Sys2Proof.Machine.execAccumulatorRowLanding s
  | .planeSwap => Sys2Proof.Machine.execPlaneSwap s
  | .loadReturn => Sys2Proof.Machine.execLoadReturn s
  | .divideComplete => Sys2Proof.Machine.execDivideComplete s
  | .amoReturn a b c sz => Sys2Proof.Machine.execAmoReturn a b c sz s
  | .randomQueueFill => Sys2Proof.Machine.execRandomQueueFill s
  | .postedOperationPerform => Sys2Proof.Machine.execPostedOperationPerform s
  | .pageWalk va => Sys2Proof.Machine.execPageWalk va s
  | .copyRequestStart => Sys2Proof.Machine.execCopyRequestStart s
  | .copyCompletion tag peer => Sys2Proof.Machine.execCopyCompletion tag peer s
  | .promiseMiss tag => Sys2Proof.Machine.execPromiseMiss tag s
  | .scheduleEntryRelease => Sys2Proof.Machine.execScheduleEntryRelease s
  | .v16lTableLoad g => Sys2Proof.Machine.execV16lTableLoad g s
  | .trellisRequestStart => Sys2Proof.Machine.execTrellisRequestStart s
  | .trellisComplete => Sys2Proof.Machine.execTrellisComplete s
  | .topiaryTileConvert die => Sys2Proof.Machine.execTopiaryTileConvert die s
  | .topiaryDrop die => Sys2Proof.Machine.execTopiaryDrop die s
  | .substitutionLookup => Sys2Proof.Machine.execSubstitutionLookup s
  | .nativeReturn => Sys2Proof.Machine.execNativeReturn s
  | .containmentUnwind => Sys2Proof.Machine.execContainmentUnwind s
  | .taskRetirement => Sys2Proof.Machine.execTaskRetirement s
  | .taskSubmit rcd ctx t => Sys2Proof.Machine.execTaskSubmit rcd ctx t s
  | .dependencyDecrement pa die t => Sys2Proof.Machine.execDependencyDecrement pa die t s
  | .launchEntryConsume ctx q => Sys2Proof.Machine.execLaunchEntryConsume ctx q s
  | .readyAgeing die => Sys2Proof.Machine.execReadyAgeing die s
  | .taskPlacement die => Sys2Proof.Machine.execTaskPlacement die s
  | .gangReservation die => Sys2Proof.Machine.execGangReservation die s
  | .phaseCommit ctx => Sys2Proof.Machine.execPhaseCommit ctx s
  | .preEmptRequest core => Sys2Proof.Machine.execPreEmptRequest core s
  | .contextSave => Sys2Proof.Machine.execContextSave s
  | .taskResume die => Sys2Proof.Machine.execTaskResume die s
  | .placketReplay => Sys2Proof.Machine.execPlacketReplay s
  | .tlbiGranule ctx gran => Sys2Proof.Machine.execTlbiGranule ctx gran s
  | .tlbiContext ctx => Sys2Proof.Machine.execTlbiContext ctx s
  | .tlbiAll => Sys2Proof.Machine.execTlbiAll s
  | .tlbiComplete => Sys2Proof.Machine.execTlbiComplete s
  | .contextCreate ctx => Sys2Proof.Machine.execContextCreate ctx s
  | .contextDestroy ctx => Sys2Proof.Machine.execContextDestroy ctx s
  | .contextDestroyComplete => Sys2Proof.Machine.execContextDestroyComplete s
  | .launchDoorbell ctx v => Sys2Proof.Machine.execLaunchDoorbell ctx v s
  | .registerWrite a v => Sys2Proof.Machine.execRegisterWrite a v s
  | .hostMemoryWrite port a bytes bad => Sys2Proof.Machine.execHostMemoryWrite port a bytes bad s
  | .hostMemoryRead port a len rid => Sys2Proof.Machine.execHostMemoryRead port a len rid s
  | .ltAdvance => Sys2Proof.Machine.execLtAdvance s
  | .domainFloorExchange peers => Sys2Proof.Machine.execDomainFloorExchange peers s
  | .domainFloorJoin f => Sys2Proof.Machine.execDomainFloorJoin f s
  | .powerOn => Sys2Proof.Machine.execPowerOn s
  | .configRecordLoad copyA copyB => Sys2Proof.Machine.execConfigRecordLoad copyA copyB s
  | .serviceLevelChange news => Sys2Proof.Machine.execServiceLevelChange news s
  | .substTableLoad die image signed => Sys2Proof.Machine.execSubstTableLoad die image signed s
  | .mantleMessage m => Sys2Proof.Machine.execMantleMessage m s
  | .attestationRequest nonce => Sys2Proof.Machine.execAttestationRequest nonce s
  | .lateEdgeReplay second => Sys2Proof.Machine.execLateEdgeReplay second s
  | .eccUncorrectable place => Sys2Proof.Machine.execEccUncorrectable place s
  | .scrub slice => Sys2Proof.Machine.execScrub slice s
  | .dieLoss die => Sys2Proof.Machine.execDieLoss die s
  | .writeIntent m sectors => Sys2Proof.Machine.execWriteIntent m sectors s
  | .sectorCommit m sector w => Sys2Proof.Machine.execSectorCommit m sector w s
  | .intentSettle m => Sys2Proof.Machine.execIntentSettle m s
  | .flitReceive link num crcOk flit => Sys2Proof.Machine.execFlitReceive link num crcOk flit s
  | .flitReplay link num => Sys2Proof.Machine.execFlitReplay link num s
  | .linkRetrain link ok => Sys2Proof.Machine.execLinkRetrain link ok s
  | .laneSpare link lane => Sys2Proof.Machine.execLaneSpare link lane s
  | .moduleLost m => Sys2Proof.Machine.execModuleLost m s
  | .powerCapTick avg order calm => Sys2Proof.Machine.execPowerCapTick avg order calm s
  | .thermalThreshold group deg115 => Sys2Proof.Machine.execThermalThreshold group deg115 s
  | .trayLatchOpen => Sys2Proof.Machine.execTrayLatchOpen s
  | .replayRelease point => Sys2Proof.Machine.execReplayRelease point s
  | .hashIntervalEnd => Sys2Proof.Machine.execHashIntervalEnd s
  | .powerOff => Sys2Proof.Machine.execPowerOff s
  | .surpriseDown port => Sys2Proof.Machine.execSurpriseDown port s
  | .hostLinkTraining port cxl width => Sys2Proof.Machine.execHostLinkTraining port cxl width s
  | .seamLinkUp link peer plink => Sys2Proof.Machine.execSeamLinkUp link peer plink s
  | .mappedPoint => Sys2Proof.Machine.execMappedPoint s

end Sys2Proof.Machine
end

