-- ==== Sys2Proof/Machine/Gates.lean ====
section
/-!
DEFINITION. The gate of every slot instruction: what its meaning asks of the bundle's issue, for the judgement over a whole bundle
(spec 02 R21, R37). Each arm is the gate that the instruction's meaning gives to `issue`; a control-word operation's is the one of
its operands, a step of an engine has none.
-/
namespace Sys2Proof.Machine
open Sys2Proof

def gateOf (i : Instr) (s : State) : Gate :=
  match i with
  | .nop => Gate.plain .whole .nop
  | .br cond a off => Gate.c (.br cond a off) [a] []
  | .jmp off => Gate.c (.jmp off) [] []
  | .jmpr b imm => s.gateJmpr b imm
  | .call off => Gate.c (.call off) [] [.s 63]
  | .callr off => s.gateCallr off
  | .ret b => Gate.c (.ret b) [b] []
  | .loop a off => Gate.c (.loop a off) [a] [.s a]
  | .ld a b imm => s.gateLoad (.ld a b imm) [b] a (s.addrImm b imm) 8
  | .ldx a b c sz sh => s.gateLdx a b c sz sh
  | .lds a b imm => Gate.c (.lds a b imm) [b] [.s a]
  | .chkp a b => { Gate.c (.chkp a b) [b] [.s a] with tags := false }
  | .st a b imm => s.gateStore (.st a b imm) [a, b] (s.addrImm b imm) 8
  | .stx a b c sz sh => s.gateStx a b c sz sh
  | .pref lvl b imm => { Gate.c (.pref lvl b imm) [b] [] with bad := decide (2 ≤ lvl.toNat) }
  | .ipref off => Gate.c (.ipref off) [] []
  | .vld a b w buf off => s.gateVld a b w buf off
  | .vst a b w buf off => s.gateVst a b w buf off
  | .vldh a b c w => s.gateVldh a b c w
  | .vsth a b c w => s.gateVsth a b c w
  | .vgath a b c k w sc e => s.gateVgath a b c k w sc e
  | .vscat a b c k w sc e => s.gateVscat a b c k w sc e
  | .vlds a b w buf off => gateVlds a b w buf off
  | .vchkp a b w => gateVchkp a b w
  | .amoAdd a b c sz => s.gateAmo (.amoAdd a b c sz) 0 a b c sz
  | .amoAnd a b c sz => s.gateAmo (.amoAnd a b c sz) 1 a b c sz
  | .amoOr a b c sz => s.gateAmo (.amoOr a b c sz) 2 a b c sz
  | .amoXor a b c sz => s.gateAmo (.amoXor a b c sz) 3 a b c sz
  | .amoMin a b c sz => s.gateAmo (.amoMin a b c sz) 4 a b c sz
  | .amoMax a b c sz => s.gateAmo (.amoMax a b c sz) 5 a b c sz
  | .amoMinn a b c sz => s.gateAmo (.amoMinn a b c sz) 6 a b c sz
  | .amoMaxn a b c sz => s.gateAmo (.amoMaxn a b c sz) 7 a b c sz
  | .amoSwap a b c sz => s.gateAmo (.amoSwap a b c sz) 8 a b c sz
  | .amoCas a b c sz => s.gateAmo (.amoCas a b c sz) 9 a b c sz
  | .amoIncw a b c sz => s.gateAmo (.amoIncw a b c sz) 10 a b c sz
  | .amoFaddb a b c sz => s.gateAmo (.amoFaddb a b c sz) 11 a b c sz
  | .amoFadd a b c sz => s.gateAmo (.amoFadd a b c sz) 12 a b c sz
  | .redAdd b c sz => s.gateRed (.redAdd b c sz) 0 b c sz
  | .redAnd b c sz => s.gateRed (.redAnd b c sz) 1 b c sz
  | .redOr b c sz => s.gateRed (.redOr b c sz) 2 b c sz
  | .redXor b c sz => s.gateRed (.redXor b c sz) 3 b c sz
  | .redMin b c sz => s.gateRed (.redMin b c sz) 4 b c sz
  | .redMax b c sz => s.gateRed (.redMax b c sz) 5 b c sz
  | .redMinn b c sz => s.gateRed (.redMinn b c sz) 6 b c sz
  | .redMaxn b c sz => s.gateRed (.redMaxn b c sz) 7 b c sz
  | .redIncw b c sz => s.gateRed (.redIncw b c sz) 10 b c sz
  | .redFaddb b c sz => s.gateRed (.redFaddb b c sz) 11 b c sz
  | .redFadd b c sz => s.gateRed (.redFadd b c sz) 12 b c sz
  | .amov b c sz => s.gateRed (.amov b c sz) 8 b c sz
  | .depdec b imm => s.gateDepdec b imm
  | .copy a b c h => s.gateCopy a b c h
  | .copyx a b c => s.gateCopyx a b c
  | .copyo a b c h => s.gateCopyo a b c h
  | .brel a => s.gateBrel a
  | .bset a b c => s.gateBset a b c
  | .stage b imm => s.gateStage b imm
  | .expect a b m g => s.gateExpect a b m g
  | .arrive a m g => s.gateArrive a m g
  | .arriveInit a b m g => s.gateArriveInit a b m g
  | .join g => s.gateJoin g
  | .leave g => s.gateLeave g
  | .gbar g => s.gateGbar g
  | .ysend a slot => s.gateYsend a slot
  | .yrecv b slot => s.gateYrecv b slot
  | .fence scope t => s.gateFence scope t
  | .fencep scope p q => s.gateFencep scope p q
  | .prmx a b imm => s.gatePrmx a b imm
  | .spawn b => s.gateSpawn b
  | .endTask => s.gateEndTask
  | .phase a => Gate.c (.phase a) [] [.s a]
  | .ctopen a off => s.gateCtopen a off
  | .ctclose => s.gateCtclose
  | .trap b imm => s.gateTrap b imm
  | .eret => s.gateEret
  | .hset b c => s.gateHset b c
  | .rlay b c tag => s.gateRlay b c tag
  | .tenc a b c fmt v16l auto => s.gateTenc a b c fmt v16l auto
  | .rset g b => s.gateRset g b
  | .mfs a n => gateMfs a n
  | .mts a n => s.gateMts a n
  | .hsnap a => s.gateHsnap a
  | .mzero op hold i32 => Gate.plain .m (.mzero op hold i32)
  | .mpush g => s.gateMpush g
  | .mflip => Gate.plain .m .mflip
  | .mstrm g op hold => s.gateMstrm g op hold
  | .mdrain adv scl fmt clr quad part => s.gateMdrain adv scl fmt clr quad part
  | .mret g => s.gateMret g
  | .mskip g n => s.gateMskip g n
  | .mpad kv => Gate.plain .m (.mpad kv)
  | .mscl g => s.gateMscl g
  | .waitFull b => s.gateWaitFull b
  | .waitFree b => s.gateWaitFree b
  | .waitCyc a => s.gateWaitCyc a
  | .waitCycLiteral l => s.gateWaitCycLiteral l
  | .waitReg k n => s.gateWaitReg k n
  | .waitBar p b => s.gateWaitBar p b
  | .waitBarGang p l => s.gateWaitBarGang p l
  | .waitRing g n => s.gateWaitRing g n
  | .waitSpace g => s.gateWaitSpace g
  | .waitGroup g => s.gateWaitGroup g
  | .waitTrellis => s.gateWaitTrellis
  | .waitYslot slot => s.gateWaitYslot slot
  | i =>
    match i.hcw? with
    | some (op, q) => s.gateHcw i op q
    | none => Gate.plain .whole i

end Sys2Proof.Machine
end

