-- ==== Sys2Proof/Machine/Turn.lean ====
section
/-!
DEFINITION. How the machine moves: the turn of a core in a cycle (spec 02 R21, R22, R31, R36, R37), the cycle's end, the engines'
own progress, natives (21 R320-R324), and the agenda (log 1). Step.lean calls `State.advance` alone.
-/
namespace Sys2Proof.Machine
open Sys2Proof

/-! ## The bundle at the program counter -/

/-- E of the next bundle: its own gap counts from the previous issue (R21, R36). -/
def State.eAt (s : State) : Nat := s.t.ctl.eBase + s.nextGap

/-- Lane groups that repetitions hold in this cycle, and whether they hold the S slot (R75). -/
def State.lanesHeld (s : State) : Nat :=
  s.t.q.reps.foldl (fun m r =>
    match r.i.hcw? with
    | some (op, q) => if (s.cyc : Int) ≤ r.at_ + r.last then m ||| lanes op q else m
    | none => m) 0

def State.sHeld (s : State) : Bool :=
  s.t.q.reps.any fun r => r.slot == .s && decide ((s.cyc : Int) ≤ r.at_ + r.last)

/-- The line of the next bundle, fetched where the instruction cache does not hold it (R19, R37 step 1). -/
def State.withLine (s : State) : Except Trap (State × Sp Byte) :=
  let pc := s.t.ctl.pc
  match s.iline pc.toNat with
  | some l => .ok (s, l)
  | none =>
    match s.fetchLine pc.toNat with
    | .ok (l, e) => .ok (s.addLine pc.toNat l e, l)
    | .error sub => .error { cause := 0x17, slot := .whole, tval := pc, sub }

/-- The decoded bundle (R37 step 2); an address that is no word boundary holds none, and what its header would be is a free value
(log 5). -/
def State.bundleAt (s : State) (line : Sp Byte) : State × Decoded :=
  let pc := s.t.ctl.pc.toNat
  if pc % 4 ≠ 0 then
    let (s, x) := s.free
    (s, .illegal (x.setWidth 32))
  else
    (s, decodeBundle pc (lineWords line (pc % 256)) (fun n => spGet 0 s.t.hcw n) s.lanesHeld s.sHeld)

/-- The ring that a bundle's M slot pops (R274). -/
def mretOf (b : Bundle) : Option (BitVec 3) :=
  firstOf (fun o : BundleOp => match o.i with
    | some (.mret g) => some g
    | _ => none) b.ops

/-- The bundle at hand (R3). -/
def State.startBundle (s : State) (b : Bundle) : State :=
  let pc := s.t.ctl.pc
  s.modCtl fun c => { c with
    zeroed := if c.bun.addr = pc ∧ c.bun.seq = c.seq then c.zeroed else []
    bun :=
    { addr := pc, next := pc + BitVec.ofNat 64 (4 * b.words), lits := b.lits, gap := b.gap, y := b.y, mret := mretOf b
      issuing := false, st := .held, rep := 0, seq := c.seq } }

/-- The gate of a slot of a bundle: an illegal slot asks for nothing but its trap. -/
def State.gateSlot (s : State) (o : BundleOp) : Gate :=
  match o.i with
  | some i => gateOf i s
  | none => { Gate.plain o.slot .nop with enc := o.enc.setWidth 64, bad := true }

/-! ## Issue (R21, R22) -/

/-- A next state of an instruction's meaning; a meaning never stops. -/
def afterExec (i : Instr) (s : State) : State :=
  match exec i s with
  | .next s' => s'
  | _ => s

/-- A slot reads a place of the core's stored state as it issues. -/
def State.slotReads (s : State) (o : BundleOp) (p : EccPlace) : Bool :=
  let reads (r : RegId) : Bool := (s.gateSlot o).reads.any (·.1 == r)
  match p with
  | .sReg n => reads (.s n)
  | .vReg n => reads (.v n)
  | .kReg n => reads (.k n)
  | .tile n => reads (.x n)
  | .hcwEntry n => o.hcwIdx == some n.toNat
  | .activeRow _ =>
    match o.i with
    | some (.mstrm ..) => true
    | _ => false
  | .accRow n =>
    match o.i with
    | some (.mdrain ..) => n == s.t.sys.da
    | _ => false
  | _ => false

/-- A bundle that issues reads its operands: correctable errors found in them are corrected (R368). -/
def State.fixReads (s : State) (ops : List BundleOp) : State :=
  if s.soft.isEmpty then s else s.correct fun x => x.1 == s.core.id && ops.any fun o => s.slotReads o x.2

/-- The slots of a bundle take effect: the wait acquires first, then the order of R10. A bundle without slots is a no-op. -/
def State.runOps (s : State) (ops : List BundleOp) : State :=
  let s := (s.fixReads ops).modBun fun b => { b with issuing := true, st := .issued }
  if ops.isEmpty then afterExec .nop s
  else
    let go (s : State) (o : BundleOp) : State :=
      match o.i with
      | some i => afterExec i s
      | none => s
    let s := (ops.filter fun o => o.slot == .w).foldl go s
    (ops.filter fun o => o.slot != .w).foldl go s

/-- The stream moves on behind an issued bundle: the transfer that was pending counts its delay bundles (R28, R31), a `callr`
looks up in the second one (R318). -/
def State.finish (s : State) (x : Option Xfer) : State :=
  let s := match x with
    | none => s.modCtl fun c => { c with pc := c.bun.next }
    | some x =>
      let s := s.settleLink (decide (x.left ≤ 1))
      if x.left ≤ 1 then
        let s := afterExec .substitutionLookup s
        s.modCtl fun c =>
          { c with
            pc := match c.xfer with
              | some y => if y.taken then y.target else c.bun.next
              | none => c.bun.next
            xfer := none }
      else s.modCtl fun c => { c with pc := c.bun.next, xfer := some { x with left := x.left - 1 } }
  s.modCtl fun c => { c with eBase := s.cyc + 1, gapIn := false, seq := c.seq + 1, bun := { c.bun with issuing := false } }

/-- What came of a try to issue: the bundle issued, or trapped, or is held, or waits in this cycle for Yoke beats that other
cores are still to drive (1, a sender's own turn) or to take (2). -/
inductive Issued where
  | done (s : State)
  | trapped (s : State)
  | held (s : State)
  | later (s : State) (d : Nat)
  deriving DecidableEq, Repr

/-- A bundle's place among the turns of its cycle: after the others a sender's, then a receiver's (R261). -/
def yokeTurn (ops : List BundleOp) : Nat :=
  ops.foldl (fun n o => match o.i with
    | some (.ysend ..) => max n 1
    | some (.yrecv ..) => max n 2
    | _ => n) 0

/-- A bundle whose beat a replayed Yoke point holds back issues in the beat's slot cycle (R355). -/
def State.noteSlip (s : State) (ops : List BundleOp) : State :=
  let waits (o : BundleOp) : Bool := match o.i with
    | some (.ysend ..) => s.yokeWaits 6
    | some (.yrecv ..) => s.yokeWaits 7
    | _ => false
  if ops.any waits then s.modCtl fun c => { c with slip := true } else s

/-- An `rlay` of a bundle that is held for it alone zeroes what it may of its bitmap (R243, R355). -/
def State.zeroBits (s : State) (ops : List BundleOp) (gs : List Gate) : State :=
  let other (p : BundleOp × Gate) : Bool := match p.1.i with
    | some (.rlay ..) => false
    | _ => p.2.hold
  if (ops.zip gs).any other || gs.any (fun g => g.trap.isSome || g.reads.any fun r => s.emptyAt r.1) then s
  else
    match firstOf (fun o : BundleOp => match o.i with
        | some (.rlay b c tag) => some (b, c, tag)
        | _ => none) ops with
    | some (b, c, tag) => s.zeroAhead b c tag
    | none => s

/-- A bundle at the program counter judged and, where it may, issued. -/
def State.tryBundle (s : State) (b : Bundle) : Issued :=
  if s.core.defer < yokeTurn b.ops then .later s (yokeTurn b.ops)
  else
    let s := s.startBundle b
    match s.judge (b.ops.map s.gateSlot) with
    | .hold => .held ((s.zeroBits b.ops (b.ops.map s.gateSlot)).noteSlip b.ops)
    | .trap t m => .trapped (s.raise t m)
    | .go =>
      let x := s.t.ctl.xfer
      .done ((s.runOps b.ops).finish x)

/-- The bundle at the program counter fetched, decoded and tried. -/
def State.tryIssue (s : State) : Issued :=
  match s.withLine with
  | .error t => .trapped ((s.noteTrap t).deliver t s.t.ctl.pc)
  | .ok (s, line) =>
    match s.bundleAt line with
    | (s, .illegal h) => .trapped (s.deliver { cause := 0x01, slot := .whole, tval := h.setWidth 64, sub := 0 } s.t.ctl.pc)
    | (s, .bundle b) => s.tryBundle b

/-! ## What is due before a bundle (R77, R253, R349) -/

/-- A trap that stands before every cause of the next bundle: a missed promise, then a containment error, then the fault of the
control-word load, which is delivered once (log 76); it is taken at the listing's bundle where a native stands (R323). DESIGN CHOICE (log 76): SLOT of each is 7, the
bundle as a whole (R77, R337). -/
def State.preTrap (s : State) : Option State :=
  let c := s.t.ctl
  let whole (cause : BitVec 8) (tval : W64) : Trap := { cause, slot := .whole, tval, sub := 0 }
  match c.missed, c.cterr, s.t.hcwFault with
  | tag :: rest, _, _ =>
    let s := s.endNative.modCtl fun c => { c with missed := rest }
    some (s.deliver (whole 0x0C (tag.setWidth 64)) c.pc)
  | [], tag :: rest, _ =>
    let s := s.endNative.modCtl fun c => { c with cterr := rest }
    if c.regions ≠ [] ∧ s.t.sys.h = false then
      some (s.modCtl fun c => { c with
        unwind := some { bun := c.pc, sub := 0x13, slot := .whole, tval := tag.setWidth 64, mark := none } })
    else some (s.deliver (whole 0x13 (tag.setWidth 64)) c.pc)
  | [], [], some (cause, va) =>
    let s := s.endNative.modT fun t => { t with hcwFault := none }
    some (s.deliver (whole cause va) c.pc)
  | [], [], none => none

/-! ## The engines of a core -/

/-- The oldest access of the core path is performed, eight cycles after its issue (log 1). -/
def State.performDue (s : State) : State :=
  match s.t.q.cq with
  | e :: _ => if e.start + 8 ≤ s.cyc then s.performHead else s
  | [] => s

/-- Each request of the copy queue that may complete does, at its promise (log 1): what waits on it sees that from this cycle on (R251). -/
def State.endCopies (s : State) : State :=
  (s.t.eng.cpq.map (·.tag)).foldl (fun s tag =>
    match s.activeCopy tag with
    | some q => if s.mayComplete q && decide (q.promise ≤ s.cyc) then s.completeCopy q true else s
    | none => s) s

/-- The running trellis request completes. -/
def State.endTenc (s : State) : State :=
  match s.t.eng.ten with
  | q :: _ => if q.running then s.finishTen q else s
  | [] => s

/-- What a core's engines do on their own in a cycle (log 1). -/
def State.engines (s : State) : State :=
  let s := s.performDue.startCopy.payOwed.endTenc.startTen
  let s := (List.range 8).foldl (fun s g => s.loadV16 (BitVec.ofNat 3 g)) s
  let s := s.endInterval
  if s.divideDue 6 then s.finishDivide else s

/-! ## The turn of a core -/

/-- The save of a frozen task, once it may be made (R329). -/
def State.saveIf (s : State) : State :=
  match s.t.task, s.t.ctl.freeze with
  | some t, some z => if z.f + 12 ≤ s.cyc ∧ s.settled = true then s.saveTask t z else s
  | _, _ => s

/-- The unwind of a containment region, once it may be made (R211). -/
def State.unwindIf (s : State) : State :=
  match s.t.ctl.unwind with
  | some u => if s.longDone then s.unwindNow u else s
  | none => s

/-- A task that issues no bundle: it is frozen, unwinds, or its `end` has issued. -/
def Ctl.stopped (c : Ctl) (cyc : Nat) : Bool :=
  optAll c.freeze (fun z => decide (z.f ≤ cyc)) && c.freeze.isSome || c.unwind.isSome || c.ending.isSome

/-- What a stopped task does on its own. -/
def State.stoppedTurn (s : State) : State :=
  if s.frozen then s.saveIf
  else if s.t.ctl.unwind.isSome then s.unwindIf
  else if s.quiet then s.retireAll 80
  else s

/-- Repetitions due in this cycle run, not before a resumed task's ρ (R334); those that are over leave (R74, R75). DESIGN CHOICE (log 78):
they run, and pop the random queue, in the order their bundles issued and before a bundle that issues in this cycle (R68). -/
def State.runReps (s : State) : State :=
  let b := s.bun
  let due (r : Rep) : Bool := decide (s.t.ctl.rho ≤ s.cyc) && decide (r.at_ < s.cyc) && decide ((s.cyc : Int) ≤ r.at_ + r.last)
  let s := (s.t.q.reps.filter due).foldl (fun s r =>
    afterExec r.i (s.modBun fun _ => { r.bun with rep := ((s.cyc : Int) - r.at_).toNat, issuing := true })) s
  let s := s.modBun fun _ => b
  s.modQ fun q => { q with reps := q.reps.filter fun r => decide ((s.cyc : Int) ≤ r.at_ + r.last) }

/-! ## The runs of a native between mapped points (R320-R324; log 12) -/

/-- A cycle that passes for a native alone: what its bundles wait for comes one cycle nearer. -/
def State.skim (s : State) : State :=
  let e := s.eAt
  let near (x : Flight) : Flight := { x with due := x.due - 1 }
  let s := s.modQ fun q =>
    { q with
      fly := q.fly.map near, placket := q.placket.map near, reps := q.reps.map fun r => { r with at_ := r.at_ - 1 }
      divs := q.divs.map fun d => { d with start := d.start - 1 } }
  let s := ((s.modCtl fun c => { c with eBase := e - 1, gapIn := true }).replayPlacket).rqFill
  let s := (s.noteWriters (s.t.q.fly.filter fun f => decide (f.due ≤ s.cyc))).land
  (if s.divideDue 6 then s.finishDivide else s).runReps

/-- The oldest piece of work that a native has before it, on the core path or of its copies: its writes take place in the listing's issue
order (R322). A copy that may not complete yet has made none. -/
def State.oldestWork (s : State) : State :=
  let older (q p : CopyReq) : CopyReq := if p.seq < q.seq then p else q
  match s.t.q.cq, s.t.eng.cpq.filter s.mayComplete with
  | _ :: _, [] => s.performHead
  | e :: _, q :: qs =>
    let q := qs.foldl older q
    if e.seq < q.seq then s.performHead else s.completeCopy q true
  | [], q :: qs => s.completeCopy (qs.foldl older q) true
  | [], [] => s

/-- The units that a native drives do what its bundles wait for. -/
def State.nativeUnits (s : State) : State :=
  let s := s.startCopy.payOwed.endTenc.startTen
  ((List.range 8).foldl (fun s g => s.loadV16 (BitVec.ofNat 3 g)) s).oldestWork.releaseAll 32

def State.driveUnits (s : State) (n : Nat) : State := (List.range n).foldl (fun s _ => s.nativeUnits) s

/-- What comes of a native's run from a mapped point: it reaches the next, meets a fault condition, must wait for what lies outside the
core, or has further to go than it was tried for. -/
inductive Segment where
  | reached (s : State)
  | fault
  | wait
  /-- the way is longer than was tried -/
  | more
  deriving DecidableEq, Repr

/-- The control words of a native's bundle whose entries in the task's own table hold poison: those that the slots of the listing's
bundle there index (R315, R369). -/
def State.listingBad (s : State) (line : Sp Byte) (b : Bundle) : List Nat :=
  let pc := s.t.ctl.pc.toNat
  match decodeBundle pc (lineWords line (pc % 256)) (fun n => spGet 0 s.t.hcw n) s.lanesHeld s.sHeld with
  | .illegal _ => []
  | .bundle own => b.ops.filterMap fun o =>
      match o.hcwIdx, findFirst? (fun p : BundleOp => p.slot == o.slot) own.ops with
      | some k, some p => if optAll p.hcwIdx s.t.hcwBad.contains then some k else none
      | _, _ => none

/-- The bundle of the native's routine at the program counter, tried: what stops the listing's own bundle from being fetched or its
control words from being read stops it too (R321, R323). -/
def State.tryNative (s : State) (n : Native) : Issued :=
  let pc := s.t.ctl.pc
  let ws := (n.wordsAt pc).take (min 11 ((256 - pc.toNat % 256) / 4))
  match pc.toNat % 4, s.withLine with
  | 0, .ok (_, line) =>
    match decodeBundle pc.toNat ws (fun k => n.routine.hcws.getD k 0) s.lanesHeld s.sHeld with
    | .illegal _ => .trapped s
    | .bundle b =>
      match (s.modT fun t => { t with hcwBad := s.listingBad line b }).tryBundle b with
      | .done u => .done (u.modT fun t => { t with hcwBad := s.t.hcwBad })
      | r => r
  | _, _ => .trapped s

/-- A register that is empty until work outside its pipe is done: no result with a fixed latency fills it, and no poison stands in it. -/
def State.outstanding (s : State) (r : RegId) : Bool :=
  let fills (e : Effect) : Bool := match e with
    | .fill n _ => r == .s n
    | _ => false
  s.emptyAt r && !(s.t.q.fly.any fun f => fills f.eff) && !(s.t.flags.marks.any fun m => m.regs.contains r)

/-- The bundles up to the next mapped point have run: once nothing outstanding is left of the core path or in the result registers, the
writes are performed there. -/
def State.atNext (s : State) (n : Native) : Segment :=
  let s := s.driveUnits (64 + s.t.q.cq.length + s.t.eng.cpq.length)
  let s := s.setNative { n with st := .ran, tries := 0, chains := [], writers := [], empty := n.results.filter s.emptyAt }
  if s.t.q.cq ≠ [] ∨ n.results.any s.outstanding = true then .wait
  else if n.holds s.t.ctl.pc then .reached (afterExec .mappedPoint s)
  else .reached (afterExec .nativeReturn s)

/-- The bundles of a native up to its next mapped point; a bundle that is held for as many cycles as given, in which the native's units
do what they can, waits for what lies outside the core. -/
def State.runSegment : Nat → Nat → State → Segment
  | 0, _, _ => .more
  | k + 1, patience, s =>
    match s.t.ctl.native with
    | none => .fault
    | some n =>
      if s.cyc < s.eAt then State.runSegment k patience s.skim
      else
        match s.tryNative n, patience with
        | .done s, _ =>
          let s := s.dropWriters
          let n := (s.t.ctl.native).getD n
          if n.holds s.t.ctl.pc = false ∨ (n.grade = 0 ∧ n.yAt s.t.ctl.pc = true) then s.atNext n
          else State.runSegment k 256 s
        | .held _, p + 1 => State.runSegment k p (s.skim.driveUnits (64 + s.t.q.cq.length + s.t.eng.cpq.length))
        | .held _, 0 => .wait
        | _, _ => .fault

/-- What a run leaves of faults that no bundle raises: a deferred one, a containment error, a missed promise; for a VALUE or FREE native
also poison that a load has met (R323). -/
def TaskSpan.newFault (grade : BitVec 2) (t u : TaskSpan) : Bool :=
  u.ctl.dpf != t.ctl.dpf || u.ctl.cterr != t.ctl.cterr || u.ctl.missed != t.ctl.missed ||
    (grade != 0 && u.flags.marks.any fun m => !t.flags.marks.contains m)

/-- A native's run from its mapped point to the next, whole or not at all: its writes are held until it is there. -/
def State.segment (s : State) (n : Native) : Segment :=
  match State.runSegment (2 ^ (20 + n.tries)) 256 (s.ownResults n) with
  | .reached u => if s.t.newFault n.grade u.t then .fault else .reached u
  | r => r

/-- A native makes its way to its next mapped point, or back to the one where it stands (R323, R324). -/
def State.nativeGo (s : State) (n : Native) : State :=
  match s.segment n with
  | .reached u =>
    match u.t.ctl.native with
    | some m => if n.st = .last then u.setNative { m with st := .stopped } else u
    | none => u
  | .fault => s.dropNative
  | .wait => if n.st = .last then s.dropNative else s
  | .more => s.setNative { n with tries := n.tries + 1 }

/-- The turn of a native: at a mapped point a missed promise is delivered first (R323); how long the way to the next one is is a free
value. -/
def State.nativeTurn (s : State) (n : Native) : State :=
  match n.st with
  | .point =>
    match s.preTrap with
    | some s => s
    | none =>
      if s.core.ctl.busy then s.stopNative
      else
        let (s, x) := s.free
        s.setNative { n with st := .running, due := s.cyc + x.toNat }
  | .running | .last => if s.cyc < n.due then s else s.nativeGo n
  | _ => s

/-- The core's turn, and whether it is over in this cycle. While a native runs, no bundle of the task issues (R320). -/
def State.takeTurn (s : State) (auto : Bool) : State × Bool :=
  let s := if s.t.hcwLeft.isEmpty then s else s.readRows
  if s.t.task.isNone || !s.t.hcwLeft.isEmpty then (s, true)
  else if s.t.ctl.stopped s.cyc then (if auto then s.stoppedTurn else s, true)
  else
    match s.t.ctl.native with
    | some n => (s.nativeTurn n, true)
    | none =>
      if s.cyc < s.eAt then (s, true)
      else
        match s.preTrap with
        | some s => (s, true)
        | none =>
          match s.tryIssue with
          | .done s => (s, true)
          | .trapped s => (s, true)
          | .held s => (s, true)
          | .later s d => ({ s with core := { s.core with defer := d } }, false)

/-! ## The end of a cycle -/

/-- The results in flight and the repetitions of a task whose native stands at a mapped point keep their distance from the bundles
that follow (R320, R321). -/
def State.pipeHeld (s : State) : State :=
  let e := s.eAt
  (s.modT fun t =>
    let u := t.held s.cyc e
    { u with ctl := { u.ctl with slip := t.ctl.slip } }).rqFillAlone

/-- No core has had its turn in the cycle that begins. -/
def State.newCycle (s : State) : State :=
  let f (c : Core) : Core := { c with acted := false, defer := 0 }
  { s with core := f s.core, others := s.others.map f }

/-- A core at the start of a cycle: what is due lands and repetitions run, unless the cycle is held, a native runs or the task is
frozen. The random generator, the divide stations and the copy engine run on in every cycle (R365, R366). -/
def State.coreCycle (s : State) : State :=
  if s.frozen then
    let s := { s with core := { s.core with hold := s.core.hold - 1 } }
    (s.landLatch.rqFill.overdueDivides s.t.q.divs.length).noteMiss fun _ => true
  else if s.heldNow s.core then
    let e := s.eAt
    let s := s.modT fun t => t.held s.cyc e
    let s := { s with core := { s.core with acted := true, hold := s.core.hold - 1 } }
    (((s.rqFillAlone.overdueDivides s.t.q.divs.length).noteMiss fun _ => true)).releaseAll 32
  else if s.t.ctl.native.isSome then
    ((s.pipeHeld.overdueDivides s.t.q.divs.length).noteMiss fun _ => true).releaseAll 32
  else
    let s := s.rqFill.land.overdueDivides s.t.q.divs.length
    (s.runReps.noteMiss fun _ => true).releaseAll 32

/-- A die places what it may in this cycle (R307-R309, R334). -/
def State.placeNext (s : State) (die : Nat) : State :=
  let s := s.reserve die
  match s.pickNow die with
  | some (e, cs) =>
    if s.badAt e.rcd 256 then s.loseRecord e.rcd e.ctx
    else if e.parked then (s.placedNow die).resume e cs
    else (s.placedNow die).placeFresh e cs
  | none => s

/-- The oldest posted operation of every task off its core is performed, eight cycles after its issue (R275; log 1). -/
def State.imageSteps (s : State) : State :=
  (s.images.filter fun p => p.2.q.cq.any fun e => decide (e.start + 8 ≤ s.cyc)).foldl (fun s p => s.imageStep p.1) s

/-- What the module's units do on their own in a cycle (log 1). -/
def State.units (s : State) : State :=
  let s := s.imageSteps
  let s := s.sup.doorbells.foldl (fun s d => s.launch d.1 d.2) s
  let s := (s.ctxs.map (·.1)).foldl (fun s c => s.commit (BitVec.ofNat 12 c)) s
  let s := if s.cyc % 32 = 0 then (s.topiary.map (·.1)).foldl (fun s d => (s.topTile d).topDrop d) s else s
  let s := s.destroyDone.tlbiDone.dropDone
  let s := s.settleQueues
  if s.ready.isEmpty then s else (List.range 64).foldl State.placeNext ((List.range 64).foldl State.askToken s)

/-- An access from outside that has waited. -/
def State.outAcc (s : State) (x : OutAcc) : State :=
  let r := match x with
    | .register a v => execRegisterWrite a v s
    | .write port a bytes bad => execHostMemoryWrite port a bytes bad s
    | .read port a len rid => execHostMemoryRead port a len rid s
    | .mantle m => execMantleMessage m s
    | .flit link num flit => execFlitReceive link num true flit s
    | .sector m sector w => execSectorCommit m sector w s
  match r with
  | .next s' => s'
  | _ => s

/-- The accesses from outside that wait for a tile's commit are tried again, in their order (R244). -/
def State.retryOut (s : State) : State :=
  if s.outHeld.isEmpty then s else s.outHeld.foldl State.outAcc { s with outHeld := [] }

/-- A cycle ends, with what the cores' engines do in it and the freezes that begin with the next, and the next begins. -/
def State.tick (s : State) (auto : Bool) : State :=
  let s := ((s.cores.filter fun c => c.ctl.busy && c.t.ctl.freeze.isNone).map (·.id)).foldl State.startFreeze s
  let s := if auto then (s.cores.map (·.id)).foldl (fun s i => s.onCore i State.engines) s else s
  let s := (State.lateWrites { s with cyc := s.cyc + 1, yoke := [] }).retryOut
  let s := if s.cyc % 256 = 0 then s.ltUp else s
  let s := s.ownFloor.scrubIdle.countUnplaceable
  let s := ((s.ready.map (·.die)).eraseDups).foldl State.ageDie s
  let ids := s.cores.map (·.id)
  let s := s.newCycle
  let s := if auto then ids.foldl (fun s i => s.onCore i State.endCopies) s else s
  let s := ids.foldl (fun s i => s.onCore i State.coreCycle) s
  let s := if auto then s.units else s
  (s.subst.map (·.1)).foldl State.settleTable s

/-- A core's place among the turns of a cycle. -/
def Core.turnKey (c : Core) : Nat :=
  2 ^ 20 * c.defer + c.id + match c.t.task with
    | some t => if c.defer = 0 then 0 else 1024 * t.member
    | none => 0

/-- The core that moves next in this cycle. -/
def leastTurn : List Core → Option Core
  | [] => none
  | c :: cs =>
    match leastTurn cs with
    | some d => if c.acted = false ∧ c.turnKey ≤ d.turnKey then some c else some d
    | none => if c.acted then none else some c

/-- The turn passes on: to the next core of the cycle, or to the next cycle. -/
def State.pass (s : State) (auto : Bool) : State :=
  match leastTurn s.cores with
  | some c => s.focus c.id
  | none =>
    let s := s.tick auto
    match leastTurn s.cores with
    | some c => s.focus c.id
    | none => s

def State.acted (s : State) : State := { s with core := { s.core with acted := true } }

/-- A turn. -/
def State.turn (s : State) (auto : Bool) : State :=
  if s.core.acted then s.pass auto
  else
    match s.takeTurn auto with
    | (s, true) => s.acted.pass auto
    | (s, false) => s.pass auto

/-! ## The agenda (log 1) -/

/-- An event of the table takes place; an instruction of a slot issues with its bundle alone, and without power only power-on
happens. -/
def State.event (s : State) (i : Instr) : State :=
  if (encode i).isSome then s
  else if s.power then afterExec i s
  else if i = .powerOn then afterExec i s
  else s

def State.act (s : State) (a : Act) : State :=
  match a with
  | .turn => if s.power then s.turn false else s
  | .step i => s.event i
  | .stepAt id i => s.onCore id fun s => s.event i
  | .evictLine l => s.evictLine l
  | .dropL1 id k => s.onCore id fun s => { s with core := { s.core with l1 := s.core.l1.filter (·.sector != k) } }
  | .dropIline id k => s.onCore id fun s => { s with core := { s.core with icache := s.core.icache.filter (·.1 != k) } }
  | .dropTlb id => s.onCore id fun s => { s with core := { s.core with tlb := [], tlbY := [], tlbT := [] } }
  | .soft id p => s.arise id p
  | .found id p => s.correct fun x => x == (id, p)
  | .completer port deny => s.modSup fun u => { u with deny := if deny then setAdd u.deny port else u.deny.filter (· != port) }
  | .seamSend pa => s.seamSend pa
  | .vecUnit id k => s.onCore id fun s => s.vecUnit k
  | .copyUnit id tag k => s.onCore id fun s => s.copyUnit tag k
  | .copyPiece id tag k => s.onCore id fun s => s.copyPiece tag k
  | .tileUnit die k => s.tileUnit die k

/-- One step of the machine. -/
def State.advance (s : State) : Host.Outcome State Fault Refusal :=
  match s.agenda with
  | a :: as => .next ({ s with agenda := as }.act a)
  | [] => if s.power then .next (s.turn true) else .fault .noPower

/-! ## A task with one instruction before it -/

/-- The task that stands for a load of a program (log 2). -/
def TaskId.minimal : TaskId :=
  { rcd := 0, ctx := 0, member := 0, n := 1, cores := [0], ptroot := 0, troute := 0, fws := [], ymask := 0, save := 0, level := 0
    tcx := 0, tcy := 0, tcz := 0, sched := 0, schn := 0, phase := 0, idem := false }

/-- The words of a bundle that holds one instruction of the table's numbering alone (R14-R16). -/
def soloWords (nbits w : Nat) : List W32 :=
  if nbits = 32 then
    if w % 2 ^ 32 = 0x40000000 then [0x40000000] else [0x60000000, BitVec.ofNat 32 w]
  else
    let h := BitVec.ofNat 32 (w % 65536)
    match decodeM (BitVec.ofNat 16 w) with
    | some _ => [0x41000000, h]
    | none => [0x40800000, h]

/-- The bytes of words by offset, zero bytes left out. -/
def lineOf (ws : List W32) : Sp Byte :=
  ((List.range (4 * ws.length)).zip (ws.flatMap fun w => leBytes 4 w.toNat)).filter fun p => p.2 != 0

/-- A task about to issue the bundle of one instruction: in power, placed, at a line that the instruction cache holds. -/
def State.soloBundle (s : State) (nbits w : Nat) : State :=
  let t := { s.t with
    task := match s.t.task with
      | some t => some t
      | none => some TaskId.minimal
    hcwFault := none, hcwLeft := []
    ctl := { s.t.ctl with
      pc := 0, eBase := 0, gapIn := true, xfer := none, missed := [], cterr := [], unwind := none, native := none
      freeze := none, ending := none } }
  { s with
    power := true, agenda := []
    sup := { s.sup with level := 3 }
    core := { s.core with
      icache := (0, lineOf (soloWords nbits w)) :: s.core.icache, acted := false, defer := 2, hold := 0, t } }

end Sys2Proof.Machine
end

