-- ==== Sys2Proof/Machine/Step.lean ====
section
/-!
DEFINITION. One step of the machine, and the placing of one instruction before it for the host (log 1, log 2).
-/
namespace Sys2Proof.Machine

/-- One step: a turn of a core, an event of the agenda, or a bundle of a native (log 1). -/
def step (s : State) : Host.Outcome State Fault Refusal := s.advance

/-- The state with one instruction, numbered as the opcode table numbers it, as the next bundle to issue (log 2). -/
def State.withFetchWord (s : State) (nbits w : Nat) : State := s.soloBundle nbits w

end Sys2Proof.Machine
end

