-- ==== Sys2Proof/Safety.lean ====
section
/-!
DEFINITION. What counts as a safe run, in the terms the statements use: which states a machine reaches, when a step goes on, and
the forms of the state's data that every step is to keep.
-/
namespace Sys2Proof.Machine
open Sys2Proof

/-- A step answers a next state. -/
def State.goesOn (s : State) : Prop := ∃ t, step s = .next t

/-- The states that steps lead to from a state. -/
inductive Reaches (s : State) : State → Prop where
  | here : Reaches s s
  | next {t u : State} : Reaches s t → step t = .next u → Reaches s u

/-- Memory is in its canonical form (R5): equal memories are equal lists. -/
abbrev State.MemOk (s : State) : Prop := Memory.wf s.mem = true

/-- A property that every step keeps, whatever state it starts from. -/
def Kept (p : State → Prop) : Prop := ∀ s t, p s → step s = .next t → p t

end Sys2Proof.Machine
end

