-- ==== Sys2Proof/Certificates/Slice0/Obligations.lean ====
section
/-!
DEFINITION. The statements for the provers. Each docstring names the rules of spec/ its statement formalises; what rests on a choice
of the model says so, with its log entry.
-/
open Sys2Proof Sys2Proof.Machine

/-! ## Transfers, traps and the ends of streams (C slot) -/

/-- R28, R168-R171: a delayed transfer of an issuing bundle latches its decision and its target, with two delay bundles to
come, and changes nothing else; `call` and `loop` also send their result to s63 and s_a with latency 1. -/
def Obligations.TransfersLatch : Prop :=
  ∀ s : State, s.bun.issuing = true →
    let go (u : State) (taken : Bool) (target : W64) : State :=
      u.modCtl fun c => { c with xfer := some { taken, target, left := 2, callr := none } }
    let near (off : BitVec 16) : W64 := s.bun.addr + off.signExtend 64 * 4
    (∀ (cond : BitVec 4) (a : BitVec 6) (off : BitVec 16), cond.toNat < 8 →
      let x : Int := (s.sGet a).toInt
      exec (.br cond a off) s = .next (go s
        ([true, decide (x = 0), decide (x ≠ 0), decide (x < 0), decide (0 ≤ x), decide (x ≤ 0), decide (0 < x),
          decide (x % 2 = 1)].getD cond.toNat true) (near off))) ∧
    (∀ off : BitVec 16, exec (.jmp off) s =
      .next (go s true (BitVec.ofNat 64 (s.bun.addr.toNat / 2 ^ 18 * 2 ^ 18 + 4 * off.toNat)))) ∧
    (∀ (b : BitVec 6) (imm : CImm), exec (.jmpr b imm) s = .next (go s true (s.sGet b + s.immOf imm))) ∧
    (∀ b : BitVec 6, exec (.ret b) s = .next (go s true (s.sGet b))) ∧
    (∀ off : BitVec 16, exec (.call off) s = .next (go (s.link.1.fly 1 .c (.s 63 s.link.2)) true (near off))) ∧
    (∀ (a : BitVec 6) (off : BitVec 16), exec (.loop a off) s =
      .next (go (s.fly 1 .c (.s a (s.sGet a - 1))) (decide (s.sGet a ≠ 1)) (near off)))

/-- R169, R212, R337: a `jmpr` whose target is no word address takes cause 0x06 at its own bundle, with the target as trap value and
no transfer latched; `trap` takes cause 0x16 there with value s_b plus the immediate. -/
def Obligations.SlotTraps : Prop :=
  ∀ (s : State) (b : BitVec 6) (imm : CImm),
    s.bun.issuing = false → s.markOf (.s b) = none → s.tagOf (.s b) = 0 → s.emptyAt (.s b) = false →
    (s.inDelay = false → (s.sGet b + s.immOf imm).toNat % 4 ≠ 0 → exec (.jmpr b imm) s =
      .next (s.deliver { cause := 0x06, slot := .c, tval := s.sGet b + s.immOf imm, sub := 0 } s.bun.addr)) ∧
    exec (.trap b imm) s =
      .next (s.deliver { cause := 0x16, slot := .c, tval := s.sGet b + s.immOf imm, sub := 0 } s.bun.addr)

/-- R10, R13, R173, R179, R339: a bundle without slots changes nothing, and a hint no register, no queue, no logical time and no byte of
memory; `end` begins the task's retirement; `eret` clears H, takes back the latched transfer and goes on at EPC. -/
def Obligations.NopsHintsStreamEnds : Prop :=
  ∀ s : State, s.bun.issuing = true →
    exec .nop s = .next s ∧
    (∀ (lvl : BitVec 2) (b : BitVec 6) (imm : CImm), lvl.toNat < 2 →
      ∃ t, exec (.pref lvl b imm) s = .next t ∧ t.t = s.t ∧ t.core.lt = s.core.lt ∧ t.mem = s.mem) ∧
    (∀ off : BitVec 16, ∃ t, exec (.ipref off) s = .next t ∧ t.t = s.t ∧ t.core.lt = s.core.lt ∧ t.mem = s.mem) ∧
    exec .endTask s = .next (s.modCtl fun c => { c with ending := some 0 }) ∧
    exec .eret s = .next ((s.modSys fun y => { y with h := false }).modCtl fun c =>
      { c with xfer := c.latch, latch := none, bun := { c.bun with next := s.t.sys.epc } })

/-- R170, R316, R317: `callr` whose descriptor is readable sends the link to s63, as a `call` does, empties the descriptor's result
registers and latches a taken transfer to its target, with the lookup to come in the second delay bundle; no register, system register or
byte of memory changes. -/
def Obligations.CallrLatches : Prop :=
  ∀ (s : State) (off : BitVec 16) (c : CallrWait) (l : Option (Sp Byte × TlbEntry)) (d : W64),
    s.bun.issuing = true → s.callOf off = some (c, l, d) →
    ∃ t, exec (.callr off) s = .next t ∧
      t.t.ctl.xfer = some { taken := true, target := s.bun.addr + off.signExtend 64 * 4, left := 2, callr := some c } ∧
      (∃ f ∈ t.t.q.fly, f.eff = .s 63 s.link.2 ∧ f.due = s.cyc + 1) ∧
      (∀ n : BitVec 6, n ≠ 0 → c.outs.getLsbD n.toNat = true → t.emptyAt (.s n) = true) ∧
      (∀ n : BitVec 6, c.outv.getLsbD n.toNat = true → t.emptyAt (.v n) = true) ∧
      t.t.regs = s.t.regs ∧ t.t.sys = s.t.sys ∧ t.t.mat = s.t.mat ∧ t.t.eng = s.t.eng ∧ t.mem = s.mem

/-! ## System registers, tags, phases, stages, containment -/

/-- R182, R195, R203, R217: `mfs` sends the register's value as it stands to s_a with latency 1; `mts` sends s_a to the register with
effect in the next cycle; a write at task level of a register that is read-only there takes cause 0x15 with its number, and an unassigned
number is no register: cause 0x02. `chkp` and `vchkp` send a tag, `phase` the phase number, with latency 1; `stage` adds to `sys.stage`,
saturating at 2^32 - 1, with effect in the next cycle. -/
def Obligations.SystemRegistersTagsPhases : Prop :=
  (∀ s : State, s.bun.issuing = true →
    (∀ a b : BitVec 6, exec (.chkp a b) s = .next (s.fly 1 .c (.s a ((spGet 0 s.t.flags.tagS b.toNat).setWidth 64)))) ∧
    (∀ (a b : BitVec 6) (w : BitVec 2), exec (.vchkp a b w) s =
      .next (s.fly 1 .c (.s a ((s.groupTag (vRegs b (2 ^ w.toNat))).setWidth 64)))) ∧
    (∀ a : BitVec 6, exec (.phase a) s = .next (s.fly 1 .c (.s a s.phaseNo))) ∧
    (∀ (b : BitVec 6) (imm : CImm), exec (.stage b imm) s = .next (s.fly 1 .c (.sys 6
      (BitVec.ofNat 64 (min (s.t.sys.stage.toNat + (s.sGet b + s.immOf imm).toNat) (2 ^ 32 - 1))))))) ∧
  ∀ (s : State) (a : BitVec 6) (n : BitVec 13),
    (s.bun.issuing = true → n.toNat ≤ 13 →
      let y := s.t.sys
      let b (x : Bool) (k : Nat) : Nat := if x then 2 ^ k else 0
      exec (.mfs a n) s = .next (s.fly 1 .c (.s a
        ([y.trapvec, y.cause, y.epc, y.tval, BitVec.ofNat 64 (y.sa.toNat + 2 ^ 8 * y.da.toNat),
          BitVec.ofNat 64 (y.rp.toNat + 2 ^ 8 * y.kv.toNat), y.stage.setWidth 64, y.cvs.setWidth 64, y.rqkey, y.rqctr,
          s.core.lt.setWidth 64, y.split.setWidth 64, BitVec.ofNat 64 s.t.ctl.regions.length,
          BitVec.ofNat 64 (b y.h 0 + b y.prv 1 + b y.ph 2 + b y.log 3 + b y.rpl 4 + b y.hs 5)].getD n.toNat 0))) ∧
      exec (.mts a n) s = .next (s.fly 1 .c (.sys n.toNat (s.sGet a)))) ∧
    (s.bun.issuing = false → s.markOf (.s a) = none → s.tagOf (.s a) = 0 → s.emptyAt (.s a) = false → s.t.sys.prv = false →
      n = 6 ∨ (10 ≤ n.toNat ∧ n.toNat ≤ 13) →
      exec (.mts a n) s = .next (s.deliver { cause := 0x15, slot := .c, tval := n.setWidth 64, sub := 0 } s.bun.addr)) ∧
    (s.bun.issuing = false → 14 ≤ n.toNat →
      exec (.mfs a n) s = .next (s.deliver { cause := 0x02, slot := .c, tval := slotEnc (.mfs a n), sub := 0 } s.bun.addr) ∧
      exec (.mts a n) s = .next (s.deliver { cause := 0x02, slot := .c, tval := slotEnc (.mts a n), sub := 0 } s.bun.addr))

/-- R210, R348: `ctopen` records its handler, the sixteen registers from s_a on and the eight ring registers in a region of its own;
`ctclose` drops the innermost region. With four regions open `ctopen` is illegal (cause 0x02), with none `ctclose` is; so are both
while H = 1 (R348). -/
def Obligations.Regions : Prop :=
  (∀ s : State, s.bun.issuing = true →
      (∀ (a : BitVec 6) (off : BitVec 16), exec (.ctopen a off) s = .next (s.modCtl fun c =>
        { c with regions :=
          { handler := s.bun.addr + off.signExtend 64 * 4, first := a
            vals := (List.range 16).map fun i => s.sGet (a + BitVec.ofNat 6 i)
            rings := (List.range 8).map fun g => s.ringReg (BitVec.ofNat 3 g) } :: c.regions })) ∧
      exec .ctclose s = .next (s.modCtl fun c => { c with regions := c.regions.tail })) ∧
  (∀ s : State, s.bun.issuing = false →
      (∀ (a : BitVec 6) (off : BitVec 16), s.t.sys.h = true ∨ 4 ≤ s.t.ctl.regions.length →
        exec (.ctopen a off) s =
          .next (s.deliver { cause := 0x02, slot := .c, tval := slotEnc (.ctopen a off), sub := 0 } s.bun.addr)) ∧
      (s.t.sys.h = true ∨ s.t.ctl.regions = [] →
        exec .ctclose s =
          .next (s.deliver { cause := 0x02, slot := .c, tval := slotEnc .ctclose, sub := 0 } s.bun.addr)))

/-! ## Loads, stores and atomics join the core path -/

/-- R174, R175, R177, R181, R183, R186: a checked load, and a speculative one whose checks pass, empties its destination and joins the
core path behind everything before it with its address, its size and how its value is extended; no other register, no logical time
and no byte of memory changes. -/
def Obligations.LoadsJoinCorePath : Prop :=
  ∀ s : State, s.bun.issuing = true →
    let joins (i : Instr) (dst : LoadDst) (k : AccKind) (va : W64) (n : Nat) (spec : Bool) : Prop :=
      ∃ t, exec i s = .next t ∧
        t.t = ((s.setEmpties dst.regs true).modQ fun q => { q with cq := q.cq ++
          [{ op := .load dst va n false [{ off := 0, addr := va, pieces := bare (s.readPieces k va n), alt := none }] spec
             bun := s.bun.addr, seq := s.bun.seq, lt := s.core.lt, start := s.cyc }] }).t ∧
        t.core.lt = s.core.lt ∧ t.mem = s.mem
    (∀ (a b : BitVec 6) (imm : CImm),
      joins (.ld a b imm) (.s a false) (scalarAcc .rd 8) (s.sGet b + s.immOf imm) 8 false) ∧
    (∀ (a b c : BitVec 6) (sz : BitVec 3) (sh : BitVec 2), sz ≠ 7 →
      joins (.ldx a b c sz sh) (.s a (sz.toNat % 2 == 1)) (scalarAcc .rd (2 ^ (sz.toNat / 2)))
        (s.sGet b + s.sGet c <<< sh.toNat) (2 ^ (sz.toNat / 2)) false) ∧
    (∀ (a b : BitVec 6) (w : BitVec 2) (buf : BitVec 1) (off : BitVec 10), w ≠ 3 →
      joins (.vld a b w buf off) (.v a (2 ^ w.toNat)) (vectorAcc .rd) (s.vAddr b buf off) (32 * 2 ^ w.toNat) false) ∧
    (∀ (a b : BitVec 6) (imm : CImm), s.readTrap (scalarAcc .rd 8) (s.sGet b + s.immOf imm) 8 = none →
      joins (.lds a b imm) (.s a false) (scalarAcc .rd 8) (s.sGet b + s.immOf imm) 8 true) ∧
    (∀ (a b : BitVec 6) (w : BitVec 2) (off : BitVec 10), w ≠ 3 → (s.sGet b + off32 off).toNat % 32 = 0 →
      s.readTrap (vectorAcc .rd) (s.sGet b + off32 off) (32 * 2 ^ w.toNat) = none →
      joins (.vlds a b w 0 off) (.v a (2 ^ w.toNat)) (vectorAcc .rd) (s.sGet b + off32 off) (32 * 2 ^ w.toNat) true)

/-- R181: a speculative load whose checks fail takes no trap: its destination empties and a tagged zero comes to each of its
registers one cycle later; nothing else of the task, no logical time and no byte of memory changes. -/
def Obligations.SpeculativeLoadsTag : Prop :=
  ∀ (s : State) (c : BitVec 8), s.bun.issuing = true →
    let tags (i : Instr) (dst : LoadDst) : Prop :=
      ∃ t, exec i s = .next t ∧
        t.t = (dst.regs.foldl (fun u r => u.fly 1 .c (.tagged r
          (if c = 0x08 then 2 else if c = 0x09 then 3 else if c = 0x06 then 4 else if c = 0x07 then 5 else 1)))
          (s.setEmpties dst.regs true)).t ∧
        t.core.lt = s.core.lt ∧ t.mem = s.mem
    (∀ (a b : BitVec 6) (imm : CImm),
      (s.readTrap (scalarAcc .rd 8) (s.sGet b + s.immOf imm) 8).map (·.cause) = some c →
      tags (.lds a b imm) (.s a false)) ∧
    (∀ (a b : BitVec 6) (w : BitVec 2) (off : BitVec 10), w ≠ 3 →
      ((s.sGet b + off32 off).toNat % 32 ≠ 0 ∧ c = 0x06 ∨
        (s.sGet b + off32 off).toNat % 32 = 0 ∧
          (s.readTrap (vectorAcc .rd) (s.sGet b + off32 off) (32 * 2 ^ w.toNat)).map (·.cause) = some c) →
      tags (.vlds a b w 0 off) (.v a (2 ^ w.toNat)))

/-- R184, R185: a gather, and a load through a handle, empty their group and join the core path with one element for each active
lane, or each element inside the tensor. -/
def Obligations.ElementLoadsJoinCorePath : Prop :=
  ∀ s : State, s.bun.issuing = true →
    let joins (i : Instr) (a : BitVec 6) (w : BitVec 2) (n : Nat) (keep : Bool) (xs : List (Nat × W64)) : Prop :=
      ∃ t e es lt, exec i s = .next t ∧
        t.t.q.cq = s.t.q.cq ++ [{ op := .load (.v a (2 ^ w.toNat)) e n keep es false
                                  bun := s.bun.addr, seq := s.bun.seq, lt, start := s.cyc }] ∧
        es.map (fun y => (y.off, y.addr)) = xs ∧ t.t.flags = (s.setEmpties (vRegs a (2 ^ w.toNat)) true).t.flags ∧
        t.t.regs = s.t.regs ∧ t.t.sys = s.t.sys ∧ t.t.mat = s.t.mat ∧ t.t.ctl = s.t.ctl ∧ t.mem = s.mem
    (∀ (a b c : BitVec 6) (k : BitVec 3) (w : BitVec 2) (sc : BitVec 1) (e : BitVec 2), w ≠ 3 →
      joins (.vgath a b c k w sc e) a w (2 ^ e.toNat) true
        ((s.gElems b c k w sc e).map fun x => (x.1 * 2 ^ e.toNat, x.2))) ∧
    (∀ (a b c : BitVec 6) (w : BitVec 2), w ≠ 3 →
      let h := s.handle (s.sGet b).toNat
      joins (.vldh a b c w) a w (elemBytes h.fmt) false
        ((hRun h (s.coordsOf c) w).map fun x => (x.1 * elemBytes h.fmt, s.hAddr h x.2)))

/-- R177, R183-R185, R191-R193, R236: a store, `depdec` and `spawn` are posted: each joins the core path with its addresses and bytes, and
nothing else changes, but that a store through a handle reads the handle's image in its issue cycle, which raises the task's logical
time as a read of global memory does (the reading of log 35). -/
def Obligations.StoresArePosted : Prop :=
  ∀ s : State, s.bun.issuing = true →
    let post (u : State) (op : CoreOp) : State := u.modQ fun q => { q with cq := q.cq ++
      [{ op, bun := s.bun.addr, seq := s.bun.seq, lt := u.core.lt, start := s.cyc }] }
    (∀ (a b : BitVec 6) (imm : CImm), exec (.st a b imm) s =
      .next (post s (.store [{ addr := s.sGet b + s.immOf imm, bytes := leBytes 8 (s.sGet a).toNat }] true))) ∧
    (∀ (a b c : BitVec 6) (sz : BitVec 3) (sh : BitVec 2), sz.toNat % 2 = 0 → exec (.stx a b c sz sh) s =
      .next (post s (.store [{ addr := s.sGet b + s.sGet c <<< sh.toNat
                               bytes := leBytes (2 ^ (sz.toNat / 2)) (s.sGet a).toNat }] true))) ∧
    (∀ (a b : BitVec 6) (w : BitVec 2) (buf : BitVec 1) (off : BitVec 10), w ≠ 3 → exec (.vst a b w buf off) s =
      .next (post s (.store [{ addr := s.vAddr b buf off
                               bytes := leBytes (32 * 2 ^ w.toNat) (s.vGroup a (2 ^ w.toNat)) }] false))) ∧
    (∀ (a b c : BitVec 6) (k : BitVec 3) (w : BitVec 2) (sc : BitVec 1) (e : BitVec 2), w ≠ 3 →
      exec (.vscat a b c k w sc e) s =
      .next (post s (.store ((s.gElems b c k w sc e).map fun p =>
        { addr := p.2, bytes := leBytes (2 ^ e.toNat) (s.vGroup a (2 ^ w.toNat) / 2 ^ (8 * 2 ^ e.toNat * p.1)) }) false))) ∧
    (∀ (a b c : BitVec 6) (w : BitVec 2), w ≠ 3 →
      let h := s.handle (s.sGet b).toNat
      let n := elemBytes h.fmt
      exec (.vsth a b c w) s = .next (post (s.readHandle (s.sGet b).toNat)
        (.hstore (s.handleAt (s.sGet b).toNat) (s.handleWords (s.sGet b).toNat) ((hRun h (s.coordsOf c) w).map fun p =>
          (p.2, leBytes n (s.vGroup a (2 ^ w.toNat) / 2 ^ (8 * n * p.1))))))) ∧
    (∀ (b : BitVec 6) (imm : CImm), exec (.depdec b imm) s = .next (post s (.depdec (s.sGet b + s.immOf imm)))) ∧
    (∀ b : BitVec 6, exec (.spawn b) s = .next (post s (.spawn (s.sGet b))))

/-- R188, R190: an atomic of the core path joins it with its operation, address, size and operands: an `amo` empties its
destination and changes no other register, a `red` or `amov` changes nothing else. -/
def Obligations.AtomicsJoinCorePath : Prop :=
  ∀ (s : State) (a b c : BitVec 6) (sz : BitVec 1), s.bun.issuing = true →
    let n := if sz = 1 then 8 else 4
    let pair (op : Nat) : W64 := if op = 9 ∨ op = 11 then s.sGet (c + 1) else 0
    let entry (op : CoreOp) : CqEntry := { op, bun := s.bun.addr, seq := s.bun.seq, lt := s.core.lt, start := s.cyc }
    (∀ x ∈ [(Instr.amoAdd a b c sz, 0), (.amoAnd a b c sz, 1), (.amoOr a b c sz, 2), (.amoXor a b c sz, 3),
        (.amoMin a b c sz, 4), (.amoMax a b c sz, 5), (.amoMinn a b c sz, 6), (.amoMaxn a b c sz, 7),
        (.amoSwap a b c sz, 8), (.amoCas a b c sz, 9), (.amoIncw a b c sz, 10), (.amoFaddb a b c sz, 11),
        (.amoFadd a b c sz, 12)],
      ∀ p ps, s.readPieces (scalarAcc .amo n) (s.sGet b) n = p :: ps →
      ∃ t, exec x.1 s = .next t ∧
        t.t = ((s.setEmpties (LoadDst.s a false).regs true).modQ fun q => { q with cq := q.cq ++
          [entry (.amo x.2 a (s.sGet b) p.1.at_ n (s.sGet c) (pair x.2))] }).t ∧
        t.core.lt = s.core.lt ∧ t.mem = s.mem) ∧
    (∀ x ∈ [(Instr.redAdd b c sz, 0), (.redAnd b c sz, 1), (.redOr b c sz, 2), (.redXor b c sz, 3), (.redMin b c sz, 4),
        (.redMax b c sz, 5), (.redMinn b c sz, 6), (.redMaxn b c sz, 7), (.amov b c sz, 8), (.redIncw b c sz, 10),
        (.redFaddb b c sz, 11), (.redFadd b c sz, 12)],
      exec x.1 s = .next (s.modQ fun q => { q with cq := q.cq ++
        [entry (.red x.2 (s.sGet b) n (s.sGet c) (pair x.2))] }))

/-! ## Copies and buffers -/

/-- R197-R199, R248, R252: a copy enters the queue behind those before it with the next tag, its promise comes to s_a two cycles
later, which is empty until then, and a plain buffer is FILLING or DRAINING from now on; no register and no byte of memory
changes. -/
def Obligations.CopiesEnterQueue : Prop :=
  ∀ s : State, s.bun.issuing = true →
    let enters (i : Instr) (a : BitVec 6) (p : State → CopyReq → Prop) : Prop :=
      ∃ t q, exec i s = .next t ∧ t.t.eng.cpq = s.t.eng.cpq ++ [q] ∧ q.tag = s.t.eng.nextTag ∧
        t.t.eng.nextTag = s.t.eng.nextTag + 1 ∧ q.active = false ∧ q.bun = s.bun.addr ∧ p t q ∧
        (a ≠ 0 → t.emptyAt (.s a) = true) ∧
        (∃ f ∈ t.t.q.fly, f.eff = .fill a (BitVec.ofNat 64 q.promise) ∧ f.due = s.cyc + 2) ∧
        t.t.regs = s.t.regs ∧ t.t.sys = s.t.sys ∧ t.t.mat = s.t.mat ∧ t.t.ctl = s.t.ctl ∧ t.mem = s.mem
    (∀ (a b c : BitVec 6) (h : BitVec 8), enters (.copy a b c h) a fun t q =>
      q.buf = b ∧ q.handle = s.handleWords h.toNat ∧ q.xs = s.coordsOf c ∧
        ((s.buf b).rl = false → q.kind = .fetch ∧ (t.buf b).st = .filling) ∧
        ((s.buf b).rl = true → ∃ n, q.kind = .ring (s.buf b).rg n (s.ringReg (s.buf b).rg))) ∧
    (∀ (a b c : BitVec 6) (h : BitVec 8), enters (.copyo a b c h) a fun t q =>
      q.buf = b ∧ q.handle = s.handleWords h.toNat ∧ q.xs = s.coordsOf c ∧ q.kind = .back ∧ (t.buf b).st = .draining) ∧
    (∀ a b c : BitVec 6, enters (.copyx a b c) a fun _ q =>
      q.kind = .conv ∧ q.desc = [s.sGet b, s.sGet (b + 1), s.sGet (b + 2), s.sGet (b + 3)] ∧
        q.rcd = if c = 0 then none else some (s.sGet c))

/-- R196, R201, R202, R252: `brel` frees its buffer at once, `bset` sends the two words of its entry with effect in the next cycle,
`prmx` moves the promise of the copy with its tag, or answers 0 where there is none. A promise is at least 2 + λ + the transfer
cycles after its entry cycle, and not before the promise of the request four tags earlier, while that is outstanding. -/
def Obligations.BuffersAndPromises : Prop :=
  (∀ s : State, s.bun.issuing = true →
      (∀ a : BitVec 6, exec (.brel a) s = .next (s.setBuf a { s.buf a with st := .free })) ∧
      (∀ a b c : BitVec 6, exec (.bset a b c) s = .next (s.fly 1 .c (.buf a (s.sGet b) (s.sGet c)))) ∧
      (∀ (a b : BitVec 6) (imm : CImm), (∀ q ∈ s.t.eng.cpq, q.tag ≠ (s.sGet b).setWidth 16) →
        exec (.prmx a b imm) s = .next ((s.setEmpty (.s a) true).fly 2 .c (.fill a 0))) ∧
      (∀ (a b : BitVec 6) (imm : CImm) (q : CopyReq) (l r : List CopyReq), s.t.eng.cpq = l ++ q :: r →
        q.tag = (s.sGet b).setWidth 16 → (∀ y ∈ l ++ r, y.tag ≠ q.tag) →
        let p := q.promise + (s.immOf imm).toNat
        exec (.prmx a b imm) s = .next (((s.modEng fun e =>
          { e with cpq := l ++ { q with promise := p, missed := false } :: r }).setEmpty (.s a) true).fly 2 .c
            (.fill a (BitVec.ofNat 64 p))))) ∧
  (∀ (s : State) (lam bytes : Nat),
      s.cyc + 2 + lam + (bytes + 63) / 64 ≤ s.promise lam bytes ∧
      (∀ q ∈ s.t.eng.cpq, (∀ p ∈ s.t.eng.cpq, p.tag = q.tag → p = q) → q.tag = s.t.eng.nextTag - 4 →
        q.promise + lam + (bytes + 63) / 64 ≤ s.promise lam bytes))

/-! ## Barriers, groups, fences, the Yoke -/

/-- R205, R206, R259, R273, R311: `expect`, `arrive` and `arrive.init` act on the barrier at its core, an `arrive` carrying the arriver's
time; `join`, `leave` and `gbar` act on the group at its table's unit, as `PhasesAndGenerations` says. Which unit that is, and the number that
a `gbar` awaits, are log 18's choices. -/
def Obligations.BarriersAndGroups : Prop :=
  ∀ s : State, s.bun.issuing = true →
    (∀ (a b m : BitVec 6) (g : BitVec 1), exec (.expect a b m g) s =
      .next (s.barOp (if g = 1 then some m.toNat else none) a fun x => Bar.settle { x with pend := x.pend + (s.sGet b).toNat })) ∧
    (∀ (a m : BitVec 6) (g : BitVec 1), exec (.arrive a m g) s =
      .next (s.barOp (if g = 1 then some m.toNat else none) a fun x =>
        Bar.settle { x with arr := x.arr + 1, tNow := tjoin x.tNow s.core.lt })) ∧
    (∀ (a b m : BitVec 6) (g : BitVec 1), exec (.arriveInit a b m g) s =
      .next (s.barOp (if g = 1 then some m.toNat else none) a fun x =>
        Bar.settle { x with exp := (s.sGet b).setWidth 16, arr := 0 })) ∧
    (∀ g : BitVec 6, exec (.join g) s = .next (s.groupOp g Group.join)) ∧
    (∀ g : BitVec 6, exec (.leave g) s = .next (s.groupOp g Group.leave)) ∧
    (∀ g : BitVec 6, ∃ n, exec (.gbar g) s = .next ((s.groupOp g fun x r m => (x.gbar r m s.core.lt).1).modEng fun e =>
      { e with groups := spPut e.groups g.toNat { await := some n } }))

/-- R204, R205, R206, R273, R311: an operation completes a barrier's phase exactly when every arrival and every byte has come: PAR flips, ARR
starts again at zero, and the largest time carried in goes to the completed phase. Of a group, a `join` adds a member to NEWM, which is
counted from the next generation; a `leave` takes it, and its arrival, out of NEWM and NARR or out of ELIG and ARR; a `gbar` arrives in NARR
or in ARR. After each, where nobody is counted the new members count at once, and then, where every counted member has arrived, the
generation completes: GEN rises, the new members are counted, their arrivals are the next generation's, and the largest time carried in goes
to the completed one. The number that a `gbar` awaits is log 18's choice. -/
def Obligations.PhasesAndGenerations : Prop :=
  (∀ x : Bar,
    (x.arr = x.exp → x.pend = 0 →
      x.settle.par = !x.par ∧ x.settle.arr = 0 ∧ x.settle.pend = 0 ∧ x.settle.exp = x.exp ∧ x.settle.tDone = x.tNow ∧
        x.settle.tNow = none) ∧
    (¬(x.arr = x.exp ∧ x.pend = 0) → x.settle = x)) ∧
  (∀ (g : Group) (r m : Nat) (t : Time),
    let after (y z : Group) : Prop :=
      let nobody := y.elig = 0
      let elig := if nobody then y.newm else y.elig
      let arr := if nobody then y.narr else y.arr
      let newm := if nobody then 0 else y.newm
      let narr := if nobody then 0 else y.narr
      (0 < elig ∧ arr = elig → z.gen = y.gen + 1 ∧ z.elig = elig + newm ∧ z.arr = narr ∧ z.newm = 0 ∧ z.narr = 0 ∧
        (¬nobody → z.tDone = y.tNow)) ∧
      (¬(0 < elig ∧ arr = elig) → z.gen = y.gen ∧ z.elig = elig ∧ z.arr = arr ∧ z.newm = newm ∧ z.narr = narr ∧ z.tDone = y.tDone)
    after { g with newm := g.newm + 1 } (g.join r m) ∧
    (g.find r m = none → ∃ y, (g.join r m).find r m = some y ∧ y.arrived = false ∧ (g.elig = 0 → y.later = false) ∧
      (0 < g.elig → g.arr ≠ g.elig → y.later = true)) ∧
    (∀ x, g.find r m = some x →
      let n := if x.arrived then 1 else 0
      (x.later = true → after { g with newm := g.newm - 1, narr := g.narr - n } (g.leave r m)) ∧
      (x.later = false → after { g with elig := g.elig - 1, arr := g.arr - n } (g.leave r m)) ∧
      (∀ y ∈ (g.leave r m).mem, ∃ z ∈ g.mem, z ≠ x ∧ y.rcd = z.rcd ∧ y.m = z.m) ∧
      (x.later = true → after { g with narr := g.narr + 1 } (g.gbar r m t).1 ∧ (g.gbar r m t).2 = g.gen + g.skip + 1) ∧
      (x.later = false → (∃ u, after { g with arr := g.arr + 1, tNow := some u } (g.gbar r m t).1 ∧
        u = (match g.tNow with
          | some w => tmax w t
          | none => t)) ∧ (g.gbar r m t).2 = g.gen + g.skip)))

/-- R209, R270, R272: once it issues a `fence` changes nothing but that at SYSTEM scope the ports posted to are clear; a `fencep` raises lt
to the largest time its paths P were assigned and forgets those times, and changes nothing else. A `fence` waits while an
earlier posted operation of the core path is unperformed, and a `fence.t` that finds a deferred fault then takes cause 0x11 for
it, clearing it. -/
def Obligations.Fences : Prop :=
  (∀ s : State, s.bun.issuing = true →
      let ports (scope : BitVec 3) : List Nat := if scope = 5 then [] else s.t.eng.portW
      (∀ (scope : BitVec 3) (x : BitVec 1), scope.toNat < 6 →
        exec (.fence scope x) s = .next (s.modEng fun e => { e with portW := ports scope })) ∧
      (∀ (scope : BitVec 3) (p q : BitVec 7), scope.toNat < 6 → p ≠ 0 → q ≠ 0 →
        ∃ t, exec (.fencep scope p q) s = .next t ∧
          (∀ i : Nat, i < 7 → p.getLsbD i = true → spFind t.t.eng.pathT i = none) ∧
          (∀ i : Nat, i < 7 → p.getLsbD i = false → spFind t.t.eng.pathT i = spFind s.t.eng.pathT i) ∧
          t.core.lt = ((List.range 7).filter p.getLsbD).foldl (fun u i => match spFind s.t.eng.pathT i with
            | some x => tmax u x
            | none => u) s.core.lt ∧
          t.t = { s.t with eng := { s.t.eng with pathT := t.t.eng.pathT, portW := ports scope } } ∧ t.mem = s.mem)) ∧
  (∀ (s : State) (scope : BitVec 3) (x : BitVec 1), s.bun.issuing = false → scope.toNat < 6 →
      (s.t.q.cq.any (·.op.posted) = true → exec (.fence scope x) s = .next (s.modBun fun b => { b with st := .held })) ∧
      (∀ d, s.t.q.cq.any (·.op.posted) = false → x = 1 → s.t.ctl.dpf = some d →
        exec (.fence scope x) s = .next (s.deliverDeferred d) ∧ (s.deliverDeferred d).t.ctl.dpf = none))

/-- R207, R208, R261: `ysend` drives its quad, with its time and whether it is poisoned, on the die's Yoke in this cycle;
`yrecv` latches the beat for a write at s_b of its own scratchpad two cycles later; the next Yoke bundle has its slot's first
occurrence before it again. -/
def Obligations.YokeBeats : Prop :=
  ∀ (s : State) (k : TaskId), s.bun.issuing = true → s.t.task = some k → k.n ≠ 0 → s.t.sys.log = false → s.t.sys.rpl = false →
    let onSlot : State := s.modCtl fun c => { c with slip := false }
    (∀ (a : BitVec 6) (slot : BitVec 4), exec (.ysend a slot) s = .next { onSlot with yoke := s.yoke ++
      [{ die := s.core.id / 16, rcd := k.rcd, member := k.member, slot := slot.toNat, x := BitVec.ofNat 1024 (s.vGroup a 4)
         bad := (vRegs a 4).any fun r => (s.markOf r).isSome, lt := s.core.lt }] }) ∧
    (∀ (b : BitVec 6) (slot : BitVec 4) (y : YBeat), s.beatOn slot = some y →
      exec (.yrecv b slot) s = .next (onSlot.fly 2 .c (.latch (s.sGet b).toNat y.x y.bad y.lt)))

/-! ## Handles, engines, rings -/

/-- R213, R216, R218, R284: `hset` sends the descriptor's eight words to the handle's image with effect in the next cycle, `rset` a value
to a ring register; `hsnap` and `tenc` empty their destination and queue their request, `tenc` with the 256 targets that it reads from the
scratchpad, whose correctable errors are corrected. -/
def Obligations.HandlesAndRequests : Prop :=
  ∀ s : State, s.bun.issuing = true →
    (∀ b c : BitVec 6, ∃ t ws, exec (.hset b c) s = .next t ∧ ws = (s.descWords (s.sGet c)).2.1 ∧
      (∃ f ∈ t.t.q.fly, f.eff = .handle (s.handleAt (s.sGet b).toNat) ws ∧ f.due = s.cyc + 1) ∧
      t.t.regs = s.t.regs ∧ t.t.sys = s.t.sys ∧ t.t.flags = s.t.flags ∧ t.t.ctl = s.t.ctl ∧ t.mem = s.mem) ∧
    (∀ (g : BitVec 3) (b : BitVec 6), exec (.rset g b) s = .next (s.fly 1 .c (.ring g (s.sGet b) s.core.lt))) ∧
    (∀ a : BitVec 6, exec (.hsnap a) s =
      .next ((s.setEmpty (.s a) true).modQ fun q => { q with hq := q.hq ++ [a] })) ∧
    (∀ (a b c : BitVec 6) (fmt : BitVec 3) (v16l auto : BitVec 1), ∃ q : TenReq,
      exec (.tenc a b c fmt v16l auto) s =
        .next (((s.fixScratch s.core.id ((s.sGet b).toNat - ownBase) 1024).setEmpty (.s a) true).modEng fun e =>
          { e with ten := e.ten ++ [q] }) ∧
      q.targets = (elems 32 256 (s.scr ((s.sGet b).toNat - ownBase) 1024)).map (BitVec.ofNat 32) ∧
      q.dst = a ∧ q.block = s.sGet c ∧ q.scale = s.sGet (c + 1) ∧ q.e = (s.sGet (b + 1)).toNat ∧
      q.v16l = (v16l == 1) ∧ q.auto = (auto == 1) ∧ q.base = s.core.lt ∧ q.running = false)

/-- R214, R242, R243, R246, R247: an `rlay` that resumes a halted conversion queues it again at its die's engine, with HALT clear in the
handle image that lands in the next cycle and CV, TTAG, TBASE and CDONE as they stand, and leaves every byte of memory alone until then.
One that starts a conversion has its bitmap written as zeros and then queues its request; where the bitmap cannot be written no request is
queued, the conversion begins halted and its fault is recorded. The tile that a new conversion converts first is tile 0. In the next cycle
the handle has CV = 1, its new tag and base in TTAG and TBASE and CDONE = 0. Of memory only the bitmap and the context's count of
conversions change; no register does. -/
def Obligations.RelayoutStartsOrResumes : Prop :=
  ∀ (s : State) (b c : BitVec 6) (tag : BitVec 3) (k : TaskId), s.bun.issuing = true → s.t.task = some k →
    let n := (s.sGet b).toNat % 256
    let h := s.handle n
    let die := dieOf s.core.id
    let u := s.readHandle n
    let count := s.descAt k.ctx + 8 * 58
    ∃ t ws, exec (.rlay b c tag) s = .next t ∧ (∃ f ∈ t.t.q.fly, f.eff = .handle (s.handleAt n) ws ∧ f.due = s.cyc + 1) ∧
      (handleOf ws).cv = true ∧ (handleOf ws).ttag = tag.toNat ∧ (handleOf ws).tbase = (s.sGet c).toNat % 2 ^ 57 ∧
      (handleOf ws).base = h.base ∧ (handleOf ws).tag = h.tag ∧ (handleOf ws).cbmp = h.cbmp ∧
      t.t.regs = s.t.regs ∧ t.t.sys = s.t.sys ∧
      (h.resumes (s.sGet c) tag.toNat = true → (handleOf ws).halt = false ∧ (handleOf ws).cdone = h.cdone ∧ t.mem = s.mem ∧
        ∃ q, topQueue t die = topQueue s die ++ [q] ∧ q.img = s.handleAt n ∧ q.rcd = k.rcd) ∧
      (h.resumes (s.sGet c) tag.toNat = false → s.t.sys.log = false → s.t.sys.rpl = false → s.t.ctl.zeroed = [] →
        (handleOf ws).cdone = 0 ∧
        ∀ q, u.topReq (s.handleAt n) = some q →
        let ps := u.bitmapPieces die h
        let r := u.zeroBitmap die q h
        (handleOf ws).halt = r.fail.isSome ∧
        (r.fail = none → topQueue t die = topQueue s die ++
            [{ q with base := tmax q.base ((u.sendFar ps).zeroBitmap die q h).t, next := some 0 }] ∧
          ∀ p ∈ ps, ∀ pa ms ft, p.at_ = .glob pa ms ft → ∀ a, pa ≤ a → a < pa + p.len → a < count ∨ count + 8 ≤ a →
            memGet t.mem a = 0) ∧
        (∀ a cause, r.fail = some (a, cause) → topQueue t die = topQueue s die ∧
          t.t.ctl = s.t.ctl.deferFault a cause s.bun.addr s.bun.seq) ∧
        (∀ a, (∀ p ∈ ps, ∀ pa ms ft, p.at_ = .glob pa ms ft → a < pa ∨ pa + p.len ≤ a) → a < count ∨ count + 8 ≤ a →
          memGet t.mem a = memGet s.mem a))

/-! ## Matrix beats -/

/-- R151, R153, R158: `mzero` sends the initial row to accumulator row SA, twelve cycles on, and advances SA unless held; `mflip`
swaps the planes two cycles on and sets RP to 0; `mpad` sets KV. -/
def Obligations.MatrixControl : Prop :=
  ∀ s : State, s.bun.issuing = true →
    (∀ (op : BitVec 2) (hold i32 : BitVec 1),
      let v : Nat := if i32 = 1 then [0, 0, 0x80000000, 0x7FFFFFFF].getD op.toNat 0
        else [0x80000000, 0x80000000, 0xFF800000, 0x7F800000].getD op.toNat 0
      exec (.mzero op hold i32) s = .next ((s.fly 12 .m (.acc s.t.sys.sa (.init (i32 == 1)
        (rowOf (List.replicate 128 v))))).modSys fun y => { y with sa := if hold = 1 then y.sa else y.sa + 1 })) ∧
    exec .mflip s = .next (((s.fly 2 .m .swap).modSys fun y => { y with rp := 0 }).modMat fun m => { m with clsSet := false }) ∧
    (∀ kv : BitVec 7, exec (.mpad kv) s = .next (s.modSys fun y => { y with kv }))

/-- R142-R145, R147, R152, R154, R155, R157, R159, R267: the beats on a ring read row RPOS of its head tile. `mpush` sends the plane row
decoded from it, with latency 1 (of an 8-bit, a 16-bit and a q4 ring's row every column is said here), clearing the plane first where the
first push since a flip changes its class, and moves RP; `mstrm` sends one beat with latency 12: of each column the terms that the row's
elements and the active plane's weights give for k below the limit, joined as its operation says; `mscl` sends the 128 column scales with
latency 1. Each of these reads raises lt to the time of the scratchpad and moves the ring's row; `mskip` moves the row, `mret` drops the
head tile. -/
def Obligations.RingBeats : Prop :=
  ∀ (s : State) (g : BitVec 3), s.bun.issuing = true →
    let rg := s.ring g
    let read (o n : Nat) : Nat := ofLe (s.core.scrRead o n)
    let tile := rg.base * 256 + rg.head * s.tileBytes rg
    let aux := rg.aux * 256
    let shift (v : Val) (byte : Nat) : Val := v.shift ((byte % 64 : Nat) - 32)
    let keeps (t : State) : Prop := t.mem = s.mem ∧ t.t.regs.s = s.t.regs.s ∧ t.t.regs.v = s.t.regs.v ∧
      t.t.regs.k = s.t.regs.k ∧ t.t.regs.x = s.t.regs.x ∧ t.t.mat.acc = s.t.mat.acc ∧ t.t.flags = s.t.flags ∧
      t.t.scratch = s.t.scratch ∧ t.t.ctl = s.t.ctl ∧ ∀ g', g' ≠ g → t.ringReg g' = s.ringReg g'
    (let cls := (s.ringClass rg).getD .b8
     let rows := classRows cls
     let table := match spGet V16.none s.t.mat.v16 g.toNat with
      | .ready bs => bs
      | _ => []
     let r := s.pushRow rg table rg.rpos
     ∃ t, exec (.mpush g) s = .next t ∧
      (∃ f ∈ t.t.q.fly, f.eff = .plane (s.t.sys.rp.toNat % rows) r
        (if s.t.mat.clsSet = false ∧ cls ≠ s.pushPlane.cls then some cls else none) ∧ f.due = s.cyc + 1) ∧
      r.int = ((rg.fmt == 0 && rg.sc == 0) || (rg.fmt == 14 && s.ringEnt rg == 0)) ∧
      (∀ j < 128, is8bit rg.fmt = true →
        let w := valOf rg.fmt (read (tile + 128 * j + rg.rpos) 1)
        r.w0.getD j vZero = if rg.sc = 1 then shift w (read (aux + rg.head * 512 + 4 * j + rg.rpos / 32) 1)
          else if rg.sm = 1 then smoothed rg.fmt w (read (aux + (128 * rg.head + rg.rpos) * 4) 4) else w) ∧
      (∀ j < 128, is8bit rg.fmt = false → is16bit rg.fmt = true → rg.sc = 0 →
        let w := valOf rg.fmt (read (tile + 128 * j + 2 * rg.rpos) 2)
        r.w0.getD j vZero = if rg.sm = 1 then smoothed rg.fmt w (read (aux + (64 * rg.head + rg.rpos) * 4) 4) else w) ∧
      (∀ j < 128, rg.fmt = 13 →
        let x := read (tile + 128 * j + rg.rpos) 1
        let y := read (aux + rg.head * 1024 + 8 * j + rg.rpos / 16) 1
        r.w0.getD j vZero = shift (q4val (y / 64) (x % 16)) y ∧ r.w1.getD j vZero = shift (q4val (y / 64) (x / 16)) y) ∧
      t.t.sys = { s.t.sys with rp := BitVec.ofNat 7 ((s.t.sys.rp.toNat % rows + 1) % rows) } ∧
      t.ringReg g = ringWith (s.ringReg g) rg.head rg.cnt (rg.rpos + 1) ∧ t.t.mat.clsSet = true ∧
        t.core.lt = tmax s.core.lt s.core.st ∧ keeps t) ∧
    (∀ (op : BitVec 2) (hold : BitVec 1),
      let i32 := s.pendingTag s.t.sys.sa
      let xi := s.streamRow rg rg.rpos
      let terms (j : Nat) : List Val := (List.range (min s.kLimit xi.length)).map fun k =>
        let x := xi.getD k vZero
        let w := s.t.mat.active.weight k j
        if op = 0 then x.mul w else if op = 1 then (x.add 0 w.negate).abs else x.add 0 w
      ∃ t x y, exec (.mstrm g op hold) s = .next t ∧
        (∃ f ∈ t.t.q.fly, f.eff = .acc s.t.sys.sa (.beat op i32 x y) ∧ f.due = s.cyc + 12) ∧
        (∀ j < 128, x.toNat / 2 ^ (32 * j) % 2 ^ 32 = beatCol op i32 (terms j) % 2 ^ 32) ∧
        (s.t.ctl.native = none → y = []) ∧
        (∀ k < 128, is8bit rg.fmt = true →
          let v := valOf rg.fmt (read (tile + 128 * rg.rpos + k) 1)
          xi.getD k vZero = if rg.sc = 1 then shift v (read (aux + (128 * rg.head + rg.rpos) * 8 + k / 32) 1) else v) ∧
        (∀ k < 64, is16bit rg.fmt = true → xi.getD k vZero = valOf rg.fmt (read (tile + 128 * rg.rpos + 2 * k) 2)) ∧
        (∀ k < 256, rg.fmt = 13 →
          let b := read (aux + (128 * rg.head + rg.rpos) * 8 + k / 32) 1
          xi.getD k vZero = shift (q4val (b / 64) (read (tile + 128 * rg.rpos + k / 2) 1 / 16 ^ (k % 2) % 16)) b) ∧
        t.core.lt = tmax s.core.lt s.core.st ∧
        t.ringReg g = ringWith (s.ringReg g) rg.head rg.cnt (rg.rpos + 1) ∧
        t.t.sys = { s.t.sys with sa := if hold = 1 then s.t.sys.sa else s.t.sys.sa + 1 } ∧ keeps t) ∧
    (∃ t x, exec (.mscl g) s = .next t ∧ (∃ f ∈ t.t.q.fly, f.eff = .cs x ∧ f.due = s.cyc + 1) ∧
      (∀ j < 128, x.toNat / 2 ^ (32 * j) % 2 ^ 32 = read (tile + 512 * rg.rpos + 4 * j) 4) ∧ t.core.lt = tmax s.core.lt s.core.st ∧
      t.ringReg g = ringWith (s.ringReg g) rg.head rg.cnt (rg.rpos + 1) ∧ t.t.sys = s.t.sys ∧ keeps t) ∧
    (∀ n : BitVec 7, ∃ t, exec (.mskip g n) s = .next t ∧
      t.ringReg g = ringWith (s.ringReg g) rg.head rg.cnt (rg.rpos + n.toNat + 1) ∧ t.t.sys = s.t.sys ∧ t.t.q = s.t.q ∧ keeps t) ∧
    (∃ t, exec (.mret g) s = .next t ∧
      t.ringReg g = ringWith (s.ringReg g) ((rg.head + 1) % rg.nt) (rg.cnt - 1) 0 ∧ t.t.sys = s.t.sys ∧ t.t.q = s.t.q ∧ keeps t)

/-- R156: `mdrain` sends four v registers with latency 4 from row DA as it stands: the columns of its part, each scaled where SCL
says so and converted to the drained format, in their order; it advances DA only with ADV and resets the row, keeping its tag,
only with CLR; no other row and no byte of memory changes. -/
def Obligations.MdrainDrains : Prop :=
  ∀ (s : State) (adv scl : BitVec 1) (fmt : BitVec 2) (clr : BitVec 1) (quad : BitVec 4) (part : BitVec 2),
    s.bun.issuing = true →
    let da := s.t.sys.da
    let row := s.accRow da
    let n := 32 * 2 ^ fmt.toNat
    let col (e : Nat) : Nat := (drainElem row.i32 fmt scl ((colsOf row.vals).getD (part.toNat * n + e) 0)
      (s.csCols.getD (part.toNat * n + e) 0)).1
    let w := 1024 / n
    part.toNat * n + n ≤ 128 →
    ∃ t x, exec (.mdrain adv scl fmt clr quad part) s = .next t ∧
      (∀ e < n, x / 2 ^ (w * e) % 2 ^ w = col e % 2 ^ w) ∧
      (∀ i : Nat, i < 4 → ∃ f ∈ t.t.q.fly, f.eff = .v (4 * quad.setWidth 6 + BitVec.ofNat 6 i) (BitVec.ofNat 256 (x / 2 ^ (256 * i))) ∧
        f.due = s.cyc + 4) ∧
      t.t.sys = { s.t.sys with da := if adv = 1 then da + 1 else da } ∧
      t.accRow da = (if clr = 1 then
        { i32 := row.i32, satf := false, bad := false
          vals := rowOf (List.replicate 128 (if row.i32 then 0 else 0x80000000)) } else row) ∧
      (∀ r, r ≠ da → t.accRow r = s.accRow r) ∧
      t.t.regs = s.t.regs ∧ t.t.flags = s.t.flags ∧ t.t.ctl = s.t.ctl ∧ t.mem = s.mem

/-! ## Waits -/

/-- R35, R204-R206, R251, R273: a wait whose bundle issues changes nothing, but that a wait on a barrier or a group raises lt to
the times carried into the completed phase or generation, where any have been, and a wait for a slot stands on it. -/
def Obligations.WaitsAcquire : Prop :=
  ∀ s : State, s.bun.issuing = true →
    let up (x : Option Time) : Time := match x with
      | some y => tmax s.core.lt y
      | none => s.core.lt
    exec .waitTrellis s = .next s ∧
    (∀ b : BitVec 6, exec (.waitFull b) s = .next s ∧ exec (.waitFree b) s = .next s ∧ exec (.waitCyc b) s = .next s) ∧
    (∀ l : BitVec 2, exec (.waitCycLiteral l) s = .next s) ∧
    (∀ (k : BitVec 2) (n : BitVec 6), k ≠ 3 → exec (.waitReg k n) s = .next s) ∧
    (∀ (g : BitVec 3) (n : BitVec 9), exec (.waitRing g n) s = .next s ∧ exec (.waitSpace g) s = .next s) ∧
    (∀ slot : BitVec 4, exec (.waitYslot slot) s = .next (s.modCtl fun c => { c with slip := false })) ∧
    (∀ (p : BitVec 1) (b : BitVec 6), exec (.waitBar p b) s =
      .next { s with core := { s.core with lt := up (s.barAt none b).tDone } }) ∧
    (∀ (p : BitVec 1) (l : BitVec 2),
      let w := (s.bun.lits.getD l.toNat 0).toNat
      exec (.waitBarGang p l) s = .next { s with core :=
        { s.core with lt := up (s.barAt (some (w / 64 % 64)) (BitVec.ofNat 6 w)).tDone } }) ∧
    (∀ g : BitVec 6, exec (.waitGroup g) s =
      .next { s with core := { s.core with lt := up (s.groupTime g) } })

/-- R21, R35, R204-R206, R251, R273, R329: a wait holds its bundle while its condition does not hold, and no register, queue or byte of
memory changes: a buffer in another state, a cycle not yet reached, an empty register, a barrier's phase or a group's generation
not complete, too few tiles, no ring slot free beside those that copies in flight have reserved, a busy encoder, another Yoke slot.
A wait on the barrier of a gang member holds its bundle too while that member is PARKED. -/
def Obligations.WaitsHold : Prop :=
  ∀ s : State, s.bun.issuing = false →
    let held : State := s.modBun fun b => { b with st := .held }
    (∀ b : BitVec 6, (s.buf b).st ≠ .full → exec (.waitFull b) s = .next held) ∧
    (∀ b : BitVec 6, (s.buf b).st ≠ .free → exec (.waitFree b) s = .next held) ∧
    (∀ b : BitVec 6, s.markOf (.s b) = none → s.tagOf (.s b) = 0 → s.emptyAt (.s b) = false → s.cyc < (s.sGet b).toNat →
      exec (.waitCyc b) s = .next held) ∧
    (∀ l : BitVec 2, 2 ^ 31 ≤ (BitVec.ofNat 32 s.cyc - s.bun.lits.getD l.toNat 0).toNat → exec (.waitCycLiteral l) s = .next held) ∧
    (∀ n : BitVec 6,
      (s.emptyAt (.s n) = true → exec (.waitReg 0 n) s = .next held) ∧
      (s.emptyAt (.v n) = true → exec (.waitReg 1 n) s = .next held) ∧
      (n.toNat < 8 → s.emptyAt (.k (n.setWidth 3)) = true → exec (.waitReg 2 n) s = .next held)) ∧
    (∀ (g : BitVec 3) (n : BitVec 9), (s.ring g).cnt < n.toNat → exec (.waitRing g n) s = .next held) ∧
    (s.t.eng.ten ≠ [] → exec .waitTrellis s = .next held) ∧
    (∀ slot : BitVec 4, s.cyc % 16 ≠ slot.toNat → exec (.waitYslot slot) s = .next held) ∧
    (∀ g : BitVec 3, (s.ring g).nt ≤ (s.ring g).cnt + (s.t.eng.cpq.filter fun q => match q.kind with
        | .ring g' _ _ => g' == g
        | _ => false).length → exec (.waitSpace g) s = .next held) ∧
    (∀ (p : BitVec 1) (b : BitVec 6), (s.barAt none b).par = (p == 1) → exec (.waitBar p b) s = .next held) ∧
    (∀ (p : BitVec 1) (l : BitVec 2),
      let w := (s.bun.lits.getD l.toNat 0).toNat
      w < 2 ^ 12 → s.hasMember (w / 64) = true →
      s.memberParked (w / 64) = true ∨ (s.barAt (some (w / 64)) (BitVec.ofNat 6 w)).par = (p == 1) →
      exec (.waitBarGang p l) s = .next held) ∧
    (∀ (g : BitVec 6) (n : Nat), (spGet { await := none } s.t.eng.groups g.toNat).await = some n →
      (s.group (s.myGroup g).1).gen + (s.group (s.myGroup g).1).skip ≤ n → exec (.waitGroup g) s = .next held)


/-! ## Registers and memory -/

/-- R6: s0 and k0 read as zero and all ones and discard writes; a write of any other register is what is read back, and no
other register changes. -/
def Obligations.HardWiredRegisters : Prop :=
  ∀ s : State,
    s.sGet 0 = 0 ∧ s.kGet 0 = BitVec.allOnes 128 ∧ (∀ x, s.sPut 0 x = s) ∧ (∀ x, s.kPut 0 x = s) ∧
    (∀ (n m : BitVec 6) (x : W64), n ≠ 0 → (s.sPut n x).sGet m = if m = n then x else s.sGet m) ∧
    (∀ (n m : BitVec 3) (x : W128), n ≠ 0 → (s.kPut n x).kGet m = if m = n then x else s.kGet m) ∧
    (∀ (n m : BitVec 6) (x : W256), (s.vPut n x).vGet m = if m = n then x else s.vGet m) ∧
    (∀ (n : BitVec 6) (x : W64), (s.sPut n x).t.regs.v = s.t.regs.v ∧ (s.sPut n x).t.regs.k = s.t.regs.k ∧
      (s.sPut n x).t.regs.x = s.t.regs.x ∧ (s.sPut n x).mem = s.mem)

/-- R5: bytes written to memory are the bytes read back at their addresses, every other byte reads as before, and a memory in
canonical form stays in it. -/
def Obligations.MemoryReadsWhatWasWritten : Prop :=
  ∀ (m : Sp Byte) (a : Nat) (bs : List Byte),
    memRead (memWrite m a bs) a bs.length = bs ∧
    (∀ b, b < a ∨ a + bs.length ≤ b → memGet (memWrite m a bs) b = memGet m b) ∧
    (Memory.wf m = true → Memory.wf (memWrite m a bs) = true)

/-- R177, R183, R186: when the store at the head of the core path is performed, each piece of its access, found by the checks of its
own address, gets its bytes in their order: memory, the core's own scratchpad, or the scratchpad of the gang member that its window
names; every byte of memory outside the pieces is as before, and the store leaves the path. -/
def Obligations.StorePerforms : Prop :=
  ∀ (s : State) (e : CqEntry) (rest : List CqEntry) (x : StElem) (scalar : Bool) (ps : List (Piece × TlbEntry)),
    s.t.q.cq = e :: rest → e.op = .store [x] scalar →
    let n := x.bytes.length
    let k : AccKind := { acc := .wr, align := if scalar then some n else none, eng := false }
    s.access s.xl k x.addr n = .ok ps → (bare ps).any s.breach = false →
    (∀ p ∈ bare ps, s.pieceWaits p = false ∧ s.pieceBusy p = false) → s.quiesced (bare ps) = false →
    (∀ p ∈ bare ps, s.writeFails p.at_ = none) → s.t.sys.log = false → s.t.sys.rpl = false →
    ∃ t, exec .postedOperationPerform s = .next t ∧ t.t.q.cq = rest ∧ t.t.regs = s.t.regs ∧ t.t.sys = s.t.sys ∧
      t.t.mat = s.t.mat ∧ t.t.flags = s.t.flags ∧
      t.mem = ((bare ps).foldl (fun (m, bs) p => (match p.at_ with
        | .glob pa _ _ => memWrite m pa (bs.take p.len)
        | _ => m, bs.drop p.len)) (s.mem, x.bytes)).1 ∧
      (∀ a, (∀ p ∈ bare ps, ∀ pa ms ft, p.at_ = .glob pa ms ft → a < pa ∨ pa + p.len ≤ a) → memGet t.mem a = memGet s.mem a) ∧
      (∀ pa ms ft, bare ps = [{ at_ := .glob pa ms ft, len := n }] → memRead t.mem pa n = x.bytes) ∧
      (∀ off, bare ps = [{ at_ := .own off, len := n }] → t.core.scrRead off n = x.bytes ∧ t.mem = s.mem) ∧
      (∀ m off id, bare ps = [{ at_ := .gang m off, len := n }] → s.memberId m = some id →
        t.mem = s.mem ∧ ∃ c, t.coreById id = some c ∧ c.scrRead off n = x.bytes)

/-! ## Reset, decoding, the step -/

/-- R231, R389: after reset every core's logical time, every home slice's time and the domain floor are 0, the home cache holds no line and
the service level is 0. The rest is the model's choice: nothing is listed in memory, whose bytes then read as zero (log 3), no core
runs a task and no context exists (log 4), and the machine has power with an empty agenda (log 1). -/
def Obligations.ResetState : Prop :=
  let s := State.reset
  (∀ c ∈ s.cores, c.lt = 0 ∧ c.t.task = none) ∧ s.mt = [] ∧ s.floor = 0 ∧ s.lines = [] ∧ s.mem = [] ∧ s.power = true ∧
    s.ctxs = [] ∧ s.sup.level = 0 ∧ s.agenda = []

/-- The words that the spec writes out for an instruction decode to that instruction: the one-word no-op of R10's example, the wait of
R12's, the beats of R150, the C slots of R167, R187, R311 and R339, and those in the listings of R219, R340 and R363. -/
def Obligations.WorkedWordsDecode : Prop :=
  decodeC 0x20508040 = some (.ld 5 2 { l := 0, imm := 64 }) ∧
  decodeC 0x314040E0 = some (.st 20 1 { l := 0, imm := 224 }) ∧
  decodeC 0x4180C400 = some (.vld 24 3 0 1 0) ∧
  decodeC 0x0484FFFA = some (.br 2 4 0xFFFA) ∧
  decodeC 0x1C020000 = some (.loop 2 0) ∧
  decodeC 0x6040860A = some (.amoIncw 4 2 6 0) ∧
  decodeC 0xD8000000 = some .eret ∧
  decodeC 0xF1400002 = some (.mfs 20 2) ∧
  decodeC 0xA0500000 = some (.join 5) ∧
  decodeM 0x54CD = some (.mdrain 1 0 1 1 3 1) ∧
  decodeM 0x1141 = some (.mzero 2 1 1) ∧
  decodeW 0x1003 = some (.waitFull 3) ∧
  decodeW 0x7201 = some (.waitRing 1 1) ∧
  decodeTableWord 32 0x40000000 = some .nop

/-- R14-R36, R60-R72: encoding and decoding agree on every instruction that has words: its code decodes to it, with every operand at
every value the encoding admits. -/
def Obligations.DecodeEncode : Prop :=
  ∀ (i : Instr) (c : Code), i.wf = true → encode i = some c → decodeCode c = some i

/-- R38: a word that decodes is the code of its instruction, so a set bit in an unused field, or an encoding without a meaning, is
refused; so are the C majors, M beats, W kinds and header forms that R38 lists. -/
def Obligations.UnassignedRefused : Prop :=
  (∀ w i, decodeC w = some i → encode i = some (.c w)) ∧
  (∀ w i, decodeM w = some i → encode i = some (.m w)) ∧
  (∀ w i, decodeW w = some i → encode i = some (.w w)) ∧
  (∀ w : W32, w.toNat / 2 ^ 26 = 0 ∨ (0x1C ≤ w.toNat / 2 ^ 26 ∧ w.toNat / 2 ^ 26 ≤ 0x1F) ∨ w.toNat / 2 ^ 26 = 0x37 ∨
    w.toNat / 2 ^ 26 = 0x3F → decodeC w = none) ∧
  (∀ w : BitVec 16, w.toNat / 2 ^ 12 = 0 ∨ 10 ≤ w.toNat / 2 ^ 12 → decodeM w = none) ∧
  (∀ w : BitVec 16, w.toNat / 2 ^ 12 = 0 ∨ 12 ≤ w.toNat / 2 ^ 12 → decodeW w = none) ∧
  (∀ (addr : Nat) (h : W32) (ws : List W32) (table : Nat → W256) (held : Nat) (heldS : Bool),
    h.toNat / 2 ^ 30 ≠ 1 ∨ 4 < h.toNat / 2 ^ 20 % 8 ∨ h.toNat % 2 ^ 15 ≠ 0 ∨ 256 < addr % 256 + 4 * bundleWords h.toNat →
    decodeBundle addr (h :: ws) table held heldS = .illegal h)

/-- R10, R14, R21: when the words at a running task's pc decode to a bundle of one well-formed instruction whose cycle E has come and
whose judgement lets it issue, a step is `exec` of that instruction at the bundle, and around it correctable errors found in its operands
are corrected (R368), the pc moves past the bundle's words or takes a transfer that is due, the next bundle's earliest cycle is set, and
the core has had its turn of the cycle. That a step is one core's turn while the agenda is empty, and that the turn then passes on, is the
model's choice (log 1). A held bundle changes nothing but its own state and, where a replayed Yoke point holds it back, that it waits for
its slot; but an `rlay` that is held by the points of its bitmap alone zeroes what of it they let it (R355). A trapped
one takes its trap. -/
def Obligations.StepRunsInstruction : Prop :=
  ∀ (s : State) (l : Sp Byte) (b : Bundle) (o : BundleOp) (i : Instr),
    s.power = true → s.agenda = [] → s.core.acted = false → s.t.task.isSome = true → s.t.hcwLeft = [] →
    s.t.ctl.stopped s.cyc = false → s.eAt ≤ s.cyc → s.preTrap = none → s.t.ctl.native = none → s.core.defer = 2 →
    s.iline s.t.ctl.pc.toNat = some l → s.bundleAt l = (s, .bundle b) → b.ops = [o] → o.i = some i →
    let u := s.startBundle b
    let v := (u.fixReads b.ops).modBun fun x => { x with issuing := true, st := .issued }
    (u.judge [gateOf i u] = .go → ∀ t, exec i v = .next t → step s = .next ((t.finish s.t.ctl.xfer).acted.pass true)) ∧
    (u.judge [gateOf i u] = .hold → step s = .next (((u.zeroBits b.ops [gateOf i u]).noteSlip b.ops).acted.pass true) ∧
      ((∀ x y tag, i ≠ .rlay x y tag) → u.zeroBits b.ops [gateOf i u] = u)) ∧
    (∀ tr m, u.judge [gateOf i u] = .trap tr m → step s = .next ((u.raise tr m).acted.pass true))

/-- R21, R28: what a bundle leaves for the next: without a transfer in hand the pc stands at the bundle's end, after the second delay bundle
of a taken transfer at its target, and the task's next bundle has its earliest cycle counted from here. No register changes, but that
s63 takes a link which could not be found while the delay bundles' words could not be fetched (log 5), once the second one issues. -/
def Obligations.FinishMovesPc : Prop :=
  ∀ s : State,
    (s.finish none).t.ctl.pc = s.bun.next ∧ (s.finish none).t.ctl.eBase = s.cyc + 1 ∧
    (s.finish none).t.ctl.seq = s.t.ctl.seq + 1 ∧
    (∀ x : Xfer, 1 < x.left → (s.finish (some x)).t.ctl.pc = s.bun.next ∧
      (s.finish (some x)).t.ctl.xfer = some { x with left := x.left - 1 }) ∧
    (∀ x : Xfer, x.left ≤ 1 → x.callr = none → s.t.ctl.xfer = some x →
      (s.finish (some x)).t.ctl.pc = (if x.taken then x.target else s.bun.next) ∧ (s.finish (some x)).t.ctl.xfer = none) ∧
    (∀ x : Option Xfer, (s.t.ctl.owed63 = none → (s.finish x).t.regs = s.t.regs) ∧ (s.finish x).mem = s.mem) ∧
    (∀ (x : Xfer) (y : W64), s.t.ctl.owed63 = some (y, s.bun.addr) → x.left ≤ 1 → s.sGet 63 = y →
      (s.finish (some x)).sGet 63 = s.bun.next)

/-- The model's own stops (log 1): a step answers a next state, but for a machine without power and with nothing on its agenda,
which faults. No step refuses. -/
def Obligations.StepStopsWithoutPower : Prop :=
  ∀ s : State,
    (s.power = false ∧ s.agenda = [] → step s = .fault .noPower) ∧
    (s.power = true ∨ s.agenda ≠ [] → s.goesOn)

/-- Whatever a step does, it keeps memory in its canonical form. -/
def Obligations.StepKeepsMemory : Prop := Kept State.MemOk

/-- Memory is in its canonical form after reset. -/
def Obligations.ResetMemory : Prop := State.reset.MemOk

/-! ## Judgement and traps -/

/-- R21, R37, R175, R176, R180, R369: of the causes found before a bundle issues only the first is delivered, and of the slots that have
it the first in the order in which they stand: an illegal slot or the trap its decoding found, the delay rule, uncorrectable errors, empty
sources that may not stall, pending destinations, the checks of cycle E; then the bundle waits for its conditions and its sources; then
come the checks of its entries. A bundle that is held is judged anew in each cycle (log 73), and the cause 0x18 of a wait at cycle E
stands behind 0x04 and 0x05 of the whole bundle (log 91): both are the model's choice. -/
def Obligations.JudgeOrder : Prop :=
  ∀ (s : State) (l : List Gate) (g : Gate) (r : List Gate),
    let gs := l ++ g :: r
    let legal (h : Gate) : Prop := h.bad = false ∧ h.badTrap = none
    let dry (h : Gate) : Prop := ∀ x ∈ h.reads, ((x.2 || s.resultReg x.1) && s.emptyAt x.1) = false
    let free (h : Gate) : Prop := ∀ x ∈ h.writes, s.emptyAt x = false
    ((∀ h ∈ l, legal h) →
      (g.bad = true → s.judge gs = .trap (g.trapOf 0x02 g.enc) none) ∧
      (∀ t, g.bad = false → g.badTrap = some t → s.judge gs = .trap t none)) ∧
    ((∀ h ∈ gs, legal h) → s.inDelay = true → g.xfer = true →
      s.judge gs = .trap { cause := 0x03, slot := .c, tval := 0, sub := 0 } none) ∧
    ((∀ h ∈ gs, legal h) → (s.inDelay = false ∨ ∀ h ∈ gs, h.xfer = false) →
      (∀ t m, (∀ h ∈ l, s.poisonTrap h = none) → s.poisonTrap g = some (t, m) → s.judge gs = .trap t m) ∧
      ((∀ h ∈ gs, s.poisonTrap h = none) →
        (∀ x rs ys, (∀ h ∈ l, dry h) → g.reads = rs ++ x :: ys →
          (∀ y ∈ rs, ((y.2 || s.resultReg y.1) && s.emptyAt y.1) = false) → (x.2 || s.resultReg x.1) = true → s.emptyAt x.1 = true →
          s.judge gs = .trap (g.trapOf 0x04 x.1.code) none) ∧
        ((∀ h ∈ gs, dry h) →
          (∀ x rs ys, (∀ h ∈ l, free h) → g.writes = rs ++ x :: ys → (∀ y ∈ rs, s.emptyAt y = false) → s.emptyAt x = true →
            s.judge gs = .trap (g.trapOf 0x05 x.code) none) ∧
          ((∀ h ∈ gs, free h) →
            (∀ t, (∀ h ∈ l, h.early = none) → g.early = some t → s.judge gs = .trap t none) ∧
            ((∀ h ∈ gs, h.early = none) →
              ((∃ h ∈ gs, h.hold = true ∨ ∃ x ∈ h.reads, s.emptyAt x.1 = true) → s.judge gs = .hold) ∧
              ((∀ h ∈ gs, h.hold = false ∧ ∀ x ∈ h.reads, s.emptyAt x.1 = false) →
                (∀ t, (∀ h ∈ l, h.trap = none) → g.trap = some t → s.judge gs = .trap t none) ∧
                ((∀ h ∈ gs, h.trap = none) → s.judge gs = .go)))))))

/-- R338, R340: a delivered trap saves its cause word, the bundle's address and the trap value, sets H, latches a transfer in hand and
sets the pc to VEC; one that is faulted out saves the same with H as it stood and freezes the task from the next cycle. Either
way every other system register, the task's registers and memory are as before. -/
def Obligations.TrapDelivery : Prop :=
  ∀ (s : State) (tr : Trap) (epc : W64),
    let t := s.deliver tr epc
    let dly := s.t.ctl.xfer.isSome
    let word := BitVec.ofNat 64 (tr.cause.toNat + 2 ^ 8 * tr.slot.code + 2 ^ 11 * dly.toNat + 2 ^ 16 * tr.sub.toNat)
    t.t.sys = { s.t.sys with cause := word, epc := epc &&& epcMask, tval := tr.tval, h := s.t.sys.h || !s.faultsOut tr.cause } ∧
    t.t.ctl.latch = s.t.ctl.xfer ∧ t.t.ctl.xfer = none ∧
    (s.faultsOut tr.cause = false → t.t.ctl.pc = s.t.sys.trapvec ∧ t.t.ctl.freeze = s.t.ctl.freeze) ∧
    (s.faultsOut tr.cause = true → t.t.ctl.pc = s.t.ctl.pc ∧
      t.t.ctl.freeze = some { f := s.cyc + 1, gang := false, fault := some word }) ∧
    (s.faultsOut tr.cause = true ↔ s.t.sys.h = true ∨ s.t.sys.trapvec = 0 ∨
      ∃ k, s.t.task = some k ∧ k.troute.getLsbD tr.cause.toNat = true) ∧
    t.t.regs = s.t.regs ∧ t.t.q = s.t.q ∧ t.t.mat = s.t.mat ∧ t.t.eng = s.t.eng ∧ t.mem = s.mem

/-! ## Control-word instructions -/

/-- R60, R73, R74, R68, R96: every control-word instruction of an issuing bundle completes. Each destination register of its first
run but s0 and k0 is then in flight with the operation's latency or empty, a divide or a short pop filling it later; its
repetitions are left to the cycles to come; nothing in flight is lost; and of the task and of memory nothing else changes but the
random position, the empty bits, the queues of results and what a native keeps of its sums. -/
def Obligations.ControlWordsComplete : Prop :=
  ∀ (i : Instr) (op : Nat) (q : SlotOp) (s : State), i.hcw? = some (op, q) → i.wf = true → s.bun.issuing = true →
    ∃ t, exec i s = .next t ∧
      (∀ r ∈ hcwDst op q s.bun.rep, r ≠ .s 0 → r ≠ .k 0 →
        (∃ f ∈ t.t.q.fly, f.eff.reg? = some r ∧ f.due = s.cyc + hcwLat op q) ∨ t.emptyAt r = true) ∧
      (∀ r, r ∉ hcwDst op q s.bun.rep → t.emptyAt r = s.emptyAt r) ∧
      (∀ f ∈ s.t.q.fly, f ∈ t.t.q.fly) ∧
      (s.bun.rep = 0 → q.h.rep ≠ 0 → t.t.q.reps = s.t.q.reps ++
        [{ i, bun := { s.bun with issuing := true, rep := 0 }, at_ := s.cyc, last := q.h.rep.toNat }]) ∧
      (s.bun.rep ≠ 0 ∨ q.h.rep = 0 → t.t.q.reps = s.t.q.reps) ∧
      t.t.q.cq = s.t.q.cq ∧ t.t.q.placket = s.t.q.placket ∧ t.t.q.hq = s.t.q.hq ∧
      t.t = { s.t with
        flags := { s.t.flags with sE := t.t.flags.sE, vE := t.t.flags.vE, kE := t.t.flags.kE }
        sys := { s.t.sys with rqctr := t.t.sys.rqctr }
        ctl := { s.t.ctl with native := t.t.ctl.native }
        q := t.t.q } ∧
      t.core.lt = s.core.lt ∧ t.cyc = s.cyc ∧ t.mem = s.mem

/-- R81, R86, R87, R92: integer results are computed exactly and narrowed once. Operands are read in the element type, absolute
value before negation; the result wraps modulo 2^w, or with SAT lies in the type's range, and is extended to 64 bits by its
type. -/
def Obligations.IntegerResults : Prop :=
  ∀ (s : State) (q : SlotOp), s.bun.issuing = true →
    let w := tyWidth q.t
    let val (x : Src) (e : Nat) : Int :=
      let v : Int := if tySigned q.t then (e : Int).bmod (2 ^ w) else (e : Int) % 2 ^ w
      let v := if x.abs = 1 then (v.natAbs : Int) else v
      if x.neg = 1 then -v else v
    let lo : Int := if tySigned q.t then -2 ^ (w - 1) else 0
    let hi : Int := if tySigned q.t then 2 ^ (w - 1) - 1 else 2 ^ w - 1
    let put (z : Int) : W64 := BitVec.ofInt 64 (if tySigned q.t then z.bmod (2 ^ w) else z % 2 ^ w)
    let sends (i : Instr) (v : Int → Int → Int → W64) : Prop :=
      ∀ op, i.hcw? = some (op, q) → i.wf = true →
        exec i s = .next (s.repeated i q fun u =>
          let (u, a, b, c) := u.operands op q
          u.results (hcwLat op q) q.slot (hcwPops op q) [.s (q.dst u.bun.rep) (v (val q.h.a a) (val q.h.b b) (val q.h.c c))] 0)
    let narrowed (z : Int) : W64 := put (if q.h.sat = 1 then max lo (min hi z) else z)
    sends (.add q) (fun a b _ => narrowed (a + b)) ∧
    sends (.sub q) (fun a b _ => narrowed (a - b)) ∧
    sends (.mul q) (fun a b _ => narrowed (a * b)) ∧
    sends (.madd q) (fun a b c => narrowed (a * b + c)) ∧
    sends (.neg q) (fun a _ _ => narrowed (-a)) ∧
    sends (.abs q) (fun a _ _ => narrowed a.natAbs) ∧
    sends (.min q) (fun a b _ => narrowed (min a b)) ∧
    sends (.max q) (fun a b _ => narrowed (max a b)) ∧
    sends (.minn q) (fun a b _ => narrowed (min a b)) ∧
    sends (.maxn q) (fun a b _ => narrowed (max a b)) ∧
    sends (.mulh q) (fun a b _ => put (a * b / 2 ^ w)) ∧
    sends (.mulhn q) (fun a b _ => put (a * b / 2 ^ w)) ∧
    sends (.cmpeq q) (fun a b _ => if a = b then 1 else 0) ∧
    sends (.cmpne q) (fun a b _ => if a ≠ b then 1 else 0) ∧
    sends (.cmplt q) (fun a b _ => if a < b then 1 else 0) ∧
    sends (.cmple q) (fun a b _ => if a ≤ b then 1 else 0) ∧
    sends (.cmpltn q) (fun a b _ => if a < b then 1 else 0) ∧
    sends (.cmplen q) (fun a b _ => if a ≤ b then 1 else 0)

/-- R88, R89: a divide or remainder empties its destination and takes a station with its start cycle and result: all ones or A for
a zero divisor, the smallest or, with SAT, the largest value for min(iN) by -1, else the quotient truncated toward zero with its remainder; a
quotient out of range otherwise, which only a modified operand gives, wraps (the model's choice, log 79). -/
def Obligations.DividesTakeStations : Prop :=
  ∀ (s : State) (q : SlotOp), s.bun.issuing = true →
    let w := tyWidth q.t
    let val (x : Src) (e : Nat) : Int :=
      let v : Int := if tySigned q.t then (e : Int).bmod (2 ^ w) else (e : Int) % 2 ^ w
      let v := if x.abs = 1 then (v.natAbs : Int) else v
      if x.neg = 1 then -v else v
    let put (z : Int) : W64 := BitVec.ofInt 64 (if tySigned q.t then z.bmod (2 ^ w) else z % 2 ^ w)
    let least (a b : Int) : Prop := tySigned q.t = true ∧ a = -2 ^ (w - 1) ∧ b = -1
    let stations (i : Instr) (ok : Int → Int → Int → Prop) : Prop :=
      ∀ op, i.hcw? = some (op, q) → i.wf = true →
        ∃ z : Int, exec i s = .next (s.repeated i q fun u =>
            let (u, _) := u.operands op q
            (u.setEmpty (.s (q.dst u.bun.rep)) true).modQ fun k => { k with divs := k.divs ++
              [{ start := s.cyc, reg := q.dst u.bun.rep, val := put z
                 ready := if hcwPops op q && u.rqShort then u.t.q.rqUsed else 0 }] }) ∧
          ok (val q.h.a (s.operands op q).2.1) (val q.h.b (s.operands op q).2.2.1) z
    let quot (sat : Bool) (a b z : Int) : Prop :=
      (b = 0 → z % 2 ^ w = -1 % 2 ^ w) ∧
      (b ≠ 0 → least a b → z = if sat then 2 ^ (w - 1) - 1 else -2 ^ (w - 1)) ∧
      (b ≠ 0 → ¬least a b → z = a.tdiv b)
    let remd (a b z : Int) : Prop :=
      (b = 0 → z = a) ∧ (b ≠ 0 → least a b → z = 0) ∧ (b ≠ 0 → ¬least a b → z = a - a.tdiv b * b)
    stations (.div q) (quot (q.h.sat == 1)) ∧ stations (.divn q) (quot false) ∧ stations (.rem q) remd ∧ stations (.remn q) remd

/-- R90, R91: bitwise operations, shifts by counts of any size, rotations, bit counts and bit fields act on the encodings. -/
def Obligations.BitResults : Prop :=
  ∀ (s : State) (q : SlotOp), s.bun.issuing = true →
    let w := tyWidth q.t
    let put (x : BitVec w) : W64 := if tySigned q.t then x.signExtend 64 else x.setWidth 64
    let sends (i : Instr) (ok : BitVec w → BitVec w → Nat → W64 → Prop) : Prop :=
      ∀ op, i.hcw? = some (op, q) → i.wf = true →
        ∃ v : W64, exec i s = .next (s.repeated i q fun u =>
            let (u, _) := u.operands op q
            u.results (hcwLat op q) q.slot (hcwPops op q) [.s (q.dst u.bun.rep) v] 0) ∧
          let o := (s.operands op q).2
          ok (BitVec.ofNat w o.1) (BitVec.ofNat w o.2.1) o.2.1 v
    sends (.and q) (fun a b _ v => v = put (a &&& b)) ∧
    sends (.or q) (fun a b _ v => v = put (a ||| b)) ∧
    sends (.xor q) (fun a b _ v => v = put (a ^^^ b)) ∧
    sends (.andn q) (fun a b _ v => v = put (a &&& ~~~b)) ∧
    sends (.shl q) (fun a _ c v =>
      let x : Int := if tySigned q.t then a.toInt else a.toNat
      let lo : Int := if tySigned q.t then -2 ^ (w - 1) else 0
      let hi : Int := if tySigned q.t then 2 ^ (w - 1) - 1 else 2 ^ w - 1
      v = put (if q.h.sat = 1 then BitVec.ofInt w (max lo (min hi (x * 2 ^ c))) else a <<< c)) ∧
    sends (.shr q) (fun a _ c v => v = put (a >>> c)) ∧
    sends (.sar q) (fun a _ c v => v = put (a.sshiftRight c)) ∧
    sends (.rol q) (fun a _ c v => v = put (a.rotateLeft c)) ∧
    sends (.clz q) (fun a _ _ v => ∃ n ≤ w, v = BitVec.ofNat 64 n ∧ (∀ j < n, a.getMsbD j = false) ∧ (n < w → a.getMsbD n = true)) ∧
    sends (.ctz q) (fun a _ _ v => ∃ n ≤ w, v = BitVec.ofNat 64 n ∧ (∀ j < n, a.getLsbD j = false) ∧ (n < w → a.getLsbD n = true)) ∧
    sends (.popc q) (fun a _ _ v => v = BitVec.ofNat 64 ((List.range w).filter a.getLsbD).length) ∧
    (let p := q.h.aux.toNat % 64
     let n := q.h.aux.toNat / 64 % 64 + 1
     sends (.bext q) (fun a _ _ v => let f : BitVec n := ((a >>> p).setWidth n)
       v = if tySigned q.t then f.signExtend 64 else f.setWidth 64) ∧
     sends (.bins q) (fun a b _ v => ∀ j < 64, v.getLsbD j = if p ≤ j ∧ j < p + n then b.getLsbD (j - p) else a.getLsbD j))

/-- R84, R85, R92-R97, R129: where no native runs, moves, selection, counters, coordinates, random bits, vector elements, float sums and
products rounded once, float minima and maxima, and conversions, whose flags land with their result. -/
def Obligations.ScalarResults : Prop :=
  ∀ (s : State) (q : SlotOp), s.bun.issuing = true → s.t.ctl.native = none →
    let w := tyWidth q.t
    let put (e : Nat) : W64 := if tySigned q.t then (BitVec.ofNat w e).signExtend 64 else BitVec.ofNat 64 (e % 2 ^ w)
    let sends (i : Instr) (v : Nat → Nat → Nat → W64) : Prop :=
      ∀ op, i.hcw? = some (op, q) → i.wf = true →
        exec i s = .next (s.repeated i q fun u =>
          let (u, a, b, c) := u.operands op q
          u.results (hcwLat op q) q.slot (hcwPops op q) [.s (q.dst u.bun.rep) (v a b c)] 0)
    let rm := q.h.rm.toNat
    let flt (x : Val) : W64 := put (fltRes q.t rm x)
    sends (.mov q) (fun a _ _ => put a) ∧
    sends (.movl q) (fun a b _ => if q.h.b.isZero then BitVec.ofNat 64 (litElem q.t (BitVec.ofNat 32 a))
      else BitVec.ofNat 64 (b * 2 ^ 32 + a)) ∧
    sends (.sel q) (fun a b c => put (if c ≠ 0 then a else b)) ∧
    sends (.vget q) (fun a b _ => put (a / 2 ^ (w * (b % (256 / w))) % 2 ^ w)) ∧
    sends (.fadd q) (fun a b _ => flt ((q.fA a).add rm (q.fB b))) ∧
    sends (.fsub q) (fun a b _ => flt ((q.fA a).add rm (q.fB b).negate)) ∧
    sends (.fmul q) (fun a b _ => flt ((q.fA a).mul (q.fB b))) ∧
    sends (.fma q) (fun a b c => flt (((q.fA a).mul (q.fB b)).add rm (q.fC c))) ∧
    sends (.fcmp q) (fun a b _ => if fltPred (q.h.aux.toNat % 16) ((q.fA a).cmp (q.fB b)) then 1 else 0) ∧
    sends (.fmin q) (fun a b _ => put (fltEnc q.t ((q.fA a).fmin (q.fB b)))) ∧
    sends (.fmax q) (fun a b _ => put (fltEnc q.t ((q.fA a).fmax (q.fB b)))) ∧
    (∀ op, (Instr.fcvt q).hcw? = some (op, q) → (Instr.fcvt q).wf = true →
      let code (k : Nat) : Nat := q.h.aux.toNat / k % 4
      let c (a : Nat) := cvt (modVal q.h.a (valOf q.h.ty2.toNat a)) q.t rm (code 1) (code 4) (code 16)
      exec (.fcvt q) s = .next (s.repeated (.fcvt q) q fun u =>
        let (u, a, _) := u.operands op q
        u.results (hcwLat op q) q.slot (hcwPops op q) [.s (q.dst u.bun.rep) (put (c a).1)] (c a).2)) ∧
    (∀ op, (Instr.rqpop q).hcw? = some (op, q) → (Instr.rqpop q).wf = true →
      exec (.rqpop q) s = .next (s.repeated (.rqpop q) q fun u =>
        let v := (u.modSys fun y => { y with rqctr := y.rqctr + 64 }).modQ fun k => { k with rqUsed := k.rqUsed + 64 }
        v.results (hcwLat op q) q.slot (hcwPops op q) [.s (q.dst u.bun.rep) (BitVec.ofNat 64 (rqBits u.t.sys.rqkey u.t.sys.rqctr 64))] 0)) ∧
    sends (.rdcyc q) (fun _ _ _ => BitVec.ofNat 64 s.cyc) ∧
    sends (.rdtc q) (fun _ _ _ => BitVec.ofNat 64 (s.specialInt (q.h.aux.toNat % 4 + 1)))

/-- R73, R100, R103-R106, R108, R115, R120, R123, R126, R130: where no native runs, an element-wise vector operation sends its destination
group once, with the latency of its row. Each element active under the mask is the operation on the elements of the operands there,
narrowed or rounded once; every other keeps its bits as they stand when the bundle issues (the reading of log 9), or with Z becomes zero.
`vcmp` gives all ones or zeros, or the mask bits of a k destination, `vpopc` counts bits, `vpfx` adds to its start the bits of the active
elements below, `vexpnd` takes the element whose number is that of the active ones below, and `vrnd` scales the random bits of A. -/
def Obligations.VectorLanes : Prop :=
  ∀ (s : State) (q : SlotOp), s.bun.issuing = true → s.t.ctl.native = none →
    let w := tyWidth q.t
    let el (x e : Nat) : Nat := x / 2 ^ (w * e) % 2 ^ w
    let on (e : Nat) : Bool := (s.maskBits q).testBit (e * w / 8)
    let lanesAt (i : Instr) (f : Nat → Nat × Nat × Nat → Nat) : Prop :=
      ∀ op, i.hcw? = some (op, q) → i.wf = true →
        let o := (s.operands op q).2
        ∃ x : Nat, exec i s = .next (s.repeated i q fun u =>
            (u.operands op q).1.results (hcwLat op q) q.slot (hcwPops op q) (vEffects (q.dst s.bun.rep) x q.group) 0) ∧
          ∀ e < q.bits / w, el x e =
            if on e then f e o % 2 ^ w else if q.h.z = 1 then 0 else el (s.vGroup (q.dst s.bun.rep) q.group) e
    let lanes (i : Instr) (f : Nat → Nat → Nat → Nat) : Prop :=
      lanesAt i fun e o => f (el o.1 e) (el o.2.1 e) (el o.2.2 e)
    let holds (a b : Nat) : Bool := fltPred (q.h.aux.toNat % 16)
      (if tyInt q.t then some (compare (q.iA a) (q.iB b)) else (q.fA a).cmp (q.fB b))
    let ones (x : Nat) : Nat := ((List.range w).filter x.testBit).length
    let rm := q.h.rm.toNat
    let num (i : Int) (f : Val) : Nat := if tyInt q.t then narrow q.t (q.h.sat == 1) i else fltRes q.t rm f
    let same (i : Int) (f : Val) : Nat := if tyInt q.t then narrow q.t (q.h.sat == 1) i else fltEnc q.t f
    lanes (.vadd q) (fun a b _ => num (q.iA a + q.iB b) ((q.fA a).add rm (q.fB b))) ∧
    lanes (.vsub q) (fun a b _ => num (q.iA a - q.iB b) ((q.fA a).add rm (q.fB b).negate)) ∧
    lanes (.vmul q) (fun a b _ => num (q.iA a * q.iB b) ((q.fA a).mul (q.fB b))) ∧
    lanes (.vfma q) (fun a b c => fltRes q.t rm (((q.fA a).mul (q.fB b)).add rm (q.fC c))) ∧
    lanes (.vimad q) (fun a b c => narrow q.t (q.h.sat == 1) (q.iA a * q.iB b + q.iC c)) ∧
    lanes (.vmin q) (fun a b _ => same (min (q.iA a) (q.iB b)) ((q.fA a).fmin (q.fB b))) ∧
    lanes (.vmax q) (fun a b _ => same (max (q.iA a) (q.iB b)) ((q.fA a).fmax (q.fB b))) ∧
    lanes (.vabs q) (fun a _ _ => same (q.iA a).natAbs (q.fA a).abs) ∧
    lanes (.vneg q) (fun a _ _ => same (-q.iA a) (q.fA a).negate) ∧
    lanes (.vand q) (fun a b _ => a &&& b) ∧
    lanes (.vor q) (fun a b _ => a ||| b) ∧
    lanes (.vxor q) (fun a b _ => a ^^^ b) ∧
    lanes (.vnot q) (fun a _ _ => 2 ^ w - 1 - a) ∧
    lanes (.vshr q) (fun a c _ => if w ≤ c then 0 else a / 2 ^ c) ∧
    lanes (.vsel q) (fun a b c => if c ≠ 0 then a else b) ∧
    lanes (.vmov q) (fun a _ _ => a) ∧
    (q.h.dk = 1 → lanes (.vcmp q) (fun a b _ => if holds a b then 2 ^ w - 1 else 0)) ∧
    (q.h.dk ≠ 1 → ∀ op, (Instr.vcmp q).hcw? = some (op, q) → (Instr.vcmp q).wf = true →
      let o := (s.operands op q).2
      let d : BitVec 3 := (q.dst s.bun.rep).setWidth 3
      ∃ x : W128, exec (.vcmp q) s = .next (s.repeated (.vcmp q) q fun u =>
          (u.operands op q).1.results (hcwLat op q) q.slot (hcwPops op q) [.k d x] 0) ∧
        ∀ j < 128, x.getLsbD j =
          let e := j / (w / 8)
          if j < q.bits / 8 then
            if on e then holds (el o.1 e) (el o.2.1 e) else if q.h.z = 1 then false else (s.kGet d).getLsbD j
          else (s.kGet d).getLsbD j) ∧
    lanes (.vpopc q) (fun a _ _ => narrow q.t (q.h.sat == 1) (ones a : Nat)) ∧
    lanesAt (.vpfx q) (fun e o => narrow q.t (q.h.sat == 1)
      (q.iB o.2.1 + ((((List.range e).filter on).map fun k => ones (el o.1 k)).sum : Nat))) ∧
    lanes (.vmulh q) (fun a b _ => (q.iA a * q.iB b / 2 ^ w % 2 ^ w).toNat) ∧
    lanes (.vfms q) (fun a b c => fltRes q.t rm (((q.fA a).mul (q.fB b)).add rm (q.fC c).negate)) ∧
    lanes (.vfnma q) (fun a b c => fltRes q.t rm (((q.fA a).mul (q.fB b)).negate.add rm (q.fC c))) ∧
    lanes (.vabd q) (fun a b _ => num (q.iA a - q.iB b).natAbs ((q.fA a).add rm (q.fB b).negate).abs) ∧
    lanes (.vclamp q) (fun a b c =>
      same (min (max (q.iA a) (q.iB b)) (q.iC c)) (((q.fA a).fmax (q.fB b)).fmin (q.fC c))) ∧
    lanes (.vshl q) (fun a c _ => if q.h.sat = 1 then narrow q.t true (q.iA a * 2 ^ c) else if w ≤ c then 0 else a * 2 ^ c) ∧
    lanes (.vsar q) (fun a c _ => ((BitVec.ofNat w a).sshiftRight c).toNat) ∧
    lanesAt (.viota q) (fun e o => narrow q.t (q.h.sat == 1) (q.iA o.1 + e * q.iB o.2.1)) ∧
    (q.h.aux.toNat / 8 % 2 = 1 → lanesAt (.vbcast q) fun _ o => o.1) ∧
    lanesAt (.vexpnd q) (fun e o => el o.1 ((List.range e).filter on).length) ∧
    lanes (.vrnd q) (fun a b _ => if tyInt q.t then a * b / 2 ^ w
      else fltEnc q.t (.fin false (a / 2 ^ (w - fltP q.t)) (-(fltP q.t : Int)))) ∧
    (∀ x ∈ [(Instr.vrcp q, rcpVal), (.vrsq q, rsqVal), (.vsqrt q, sqrtVal), (.vexp2 q, exp2Val), (.vlog2 q, log2Val), (.vtanh q, tanhVal)],
      lanes x.1 (fun a _ _ => fltRes q.t rm (x.2 q.t rm (q.fA a)))) ∧
    lanes (.vsmth q) (fun a b _ => fltRes q.t 0 (smthVal q.t rm (valOf q.t a) (valOf q.t b)))

/-- R73, R118, R121-R123, R127, R131, R132, R134: where no native runs, permutes, `vzip` and `vunzip` fetch through the source mask, an element the
mask hides reading as its nearest readable neighbour below or the identity; `vcmprs` writes the active elements in order, then the identity;
`vinter` writes the ranks of the common bits of one word of two bitmaps, then 0xFF. `vtrow` sends one tile row and `vtcol` one tile column,
converted where the types differ, the row merged with the row as it stands when the bundle issues (the reading of log 9) and the flags of
the active elements with it; mask operations act on 128 bits. -/
def Obligations.PermutesTilesMasks : Prop :=
  ∀ (s : State) (q : SlotOp), s.bun.issuing = true → s.t.ctl.native = none →
    let w := tyWidth q.t
    let n := q.bits / w
    let el (x e : Nat) : Nat := x / 2 ^ (w * e) % 2 ^ w
    let on (e : Nat) : Bool := (s.maskBits q).testBit (e * w / 8)
    let old (e : Nat) : Nat := if q.h.z = 1 then 0 else el (s.vGroup (q.dst s.bun.rep) q.group) e
    let seen (x id : Nat) (v : Nat) (j : Int) : Prop :=
      let open_ (e : Nat) : Bool := (s.kGet (kSOf q)).toNat.testBit (e * w / 8)
      (j < 0 ∨ (n : Int) ≤ j → v = id) ∧
      ∀ k : Nat, j = k → k < n →
        (∃ e ≤ k, open_ e = true ∧ (∀ e', e < e' → e' ≤ k → open_ e' = false) ∧ v = el x e) ∨
        ((∀ e ≤ k, open_ e = false) ∧ v = id)
    let sends (i : Instr) (regs : Nat) (flags : BitVec 5) (ok : Nat → Prop) : Prop :=
      ∀ op, i.hcw? = some (op, q) → i.wf = true →
        ∃ x : Nat, exec i s = .next (s.repeated i q fun u =>
          (u.operands op q).1.results (hcwLat op q) q.slot (hcwPops op q) (vEffects (q.dst s.bun.rep) x regs) flags) ∧ ok x
    let fetches (i : Instr) (src : Nat × Nat × Nat → Nat → Nat) (j : Nat → Nat → Int) : Prop :=
      ∀ op, i.hcw? = some (op, q) → let o := (s.operands op q).2
        sends i q.group 0 fun x => ∀ e < n, (on e = false → el x e = old e) ∧
          (on e = true → ∃ v, el x e = v % 2 ^ w ∧ seen (src o e) o.2.2 v (j o.2.1 e))
    let half := q.h.aux.toNat / 8 % 2
    let cv (e : Nat) : Nat × BitVec 5 := if q.h.ty2 = q.h.ty then (e, 0) else
      cvt (modVal q.h.a (valOf q.h.ty2.toNat e)) q.t q.h.rm.toNat (q.h.aux.toNat % 4) (q.h.aux.toNat / 4 % 4) (q.h.aux.toNat / 16 % 4)
    let flagsOf (k : Nat) (f : Nat → Nat) : BitVec 5 := ((List.range k).filter on).foldl (fun x e => x ||| (cv (f e)).2) 0
    let part (x e : Nat) : Nat := x / 2 ^ (tyWidth q.h.ty2.toNat * e) % 2 ^ tyWidth q.h.ty2.toNat
    (half = 0 → fetches (.vbcast q) (fun o _ => o.1) fun c _ => c) ∧
    fetches (.vperm q) (fun o _ => o.1) (fun b e => (el b e : Nat)) ∧
    fetches (.vrotl q) (fun o _ => o.1) (fun c e => ((e + c) % n : Nat)) ∧
    fetches (.vslide q) (fun o _ => o.1) (fun c e => if half = 1 then (e : Int) - c else e + c) ∧
    fetches (.vxlane q) (fun o _ => o.1) (fun c e => (e ^^^ (c % n) : Nat)) ∧
    fetches (.vzip q) (fun o e => if e % 2 = 0 then o.1 else o.2.1) (fun _ e => (e / 2 + half * (n / 2) : Nat)) ∧
    fetches (.vunzip q) (fun o e => if 2 * e + half < n then o.1 else o.2.1)
      (fun _ e => (if 2 * e + half < n then 2 * e + half else 2 * e + half - n : Nat)) ∧
    (∀ op, (Instr.vcmprs q).hcw? = some (op, q) → let o := (s.operands op q).2
      sends (.vcmprs q) q.group 0 fun x => ∀ e < n, el x e = match ((List.range n).filter on)[e]? with
        | some k => el o.1 k
        | none => o.2.2 % 2 ^ w) ∧
    (∀ op, (Instr.vinter q).hcw? = some (op, q) → let o := (s.operands op q).2
      let bit (x j : Nat) : Bool := x.testBit (32 * (o.2.2 % (q.bits / 32)) + j)
      let both := (List.range 32).filter fun j => bit o.1 j && bit o.2.1 j
      let rank (x : Nat) (k : Nat) : Nat := match both[k]? with
        | some j => ((List.range j).filter (bit x)).length
        | none => 0xFF
      sends (.vinter q) 2 0 fun x => ∀ k < 32, x / 2 ^ (8 * k) % 256 = rank o.1 k ∧ x / 2 ^ (256 + 8 * k) % 256 = rank o.2.1 k) ∧
    (∀ op, (Instr.vtrow q).hcw? = some (op, q) → (Instr.vtrow q).wf = true →
      let o := (s.operands op q).2
      let key := 32 * ((q.dst s.bun.rep).toNat / 8) + o.2.1 % 32
      ∃ x : W256, exec (.vtrow q) s = .next (s.repeated (.vtrow q) q fun u =>
          (u.operands op q).1.results (hcwLat op q) q.slot (hcwPops op q) [.x key x] (flagsOf (256 / w) (part o.1))) ∧
        ∀ e < 256 / w, el x.toNat e = if on e then (cv (part o.1 e)).1 % 2 ^ w
          else if q.h.z = 1 then 0 else el (spGet 0 s.t.regs.x key).toNat e) ∧
    (∀ op, (Instr.vtcol q).hcw? = some (op, q) → let o := (s.operands op q).2
      let cell (r : Nat) : Nat := part (spGet 0 s.t.regs.x (32 * (q.h.aux.toNat / 64 % 8) + r)).toNat (o.2.1 % (256 / tyWidth q.h.ty2.toNat))
      sends (.vtcol q) q.group (flagsOf 32 cell) fun x => ∀ e < 32, el x e = if on e then (cv (cell e)).1 % 2 ^ w else old e) ∧
    (∀ x ∈ [(Instr.kand q, fun a b : W128 => a &&& b), (.kor q, fun a b => a ||| b), (.kxor q, fun a b => a ^^^ b),
        (.knot q, fun a _ => ~~~a)],
      ∀ op, x.1.hcw? = some (op, q) → x.1.wf = true →
        exec x.1 s = .next (s.repeated x.1 q fun u =>
          let (u, a, b, _) := u.operands op q
          u.results (hcwLat op q) q.slot (hcwPops op q)
            [.k ((q.dst u.bun.rep).setWidth 3) (x.2 (BitVec.ofNat 128 a) (BitVec.ofNat 128 b))] 0)) ∧
    (∀ op, (Instr.kmov q).hcw? = some (op, q) → (Instr.kmov q).wf = true →
      exec (.kmov q) s = .next (s.repeated (.kmov q) q fun u =>
        let (u, a, _) := u.operands op q
        u.results (hcwLat op q) q.slot (hcwPops op q) [if q.h.dk = 0 then
          .s (q.dst u.bun.rep) (BitVec.ofNat 64 (a / 2 ^ (64 * (q.h.aux.toNat / 4 % 2))))
          else .k ((q.dst u.bun.rep).setWidth 3) (BitVec.ofNat 128 a)] 0))

/-- R73, R107, R109-R114, R124, R125: where no native runs: `vcvt` and `vdqnt` convert each active element, their flags landing with the result;
`vdp4` and `vsad` add four products or distances to an i32 element exactly and narrow once, `vdp2` two products to an f32 element, rounding
once; `vqnt` gives each block of 32 elements the least scale exponent that holds its valid elements and its codes under it; `vred` joins the
active elements in a tree, an inactive one passing its neighbour on, and `vscan` and `vsscan` give each active element the combination of
those of its segment up to it, or, exclusive, below it. Inactive elements keep their bits as they stand when the bundle issues (the reading
of log 9), or with Z become zero. -/
def Obligations.DotsReductionsConversions : Prop :=
  ∀ (s : State) (q : SlotOp), s.bun.issuing = true → s.t.ctl.native = none →
    let w := tyWidth q.t
    let n := q.bits / w
    let at_ (k x e : Nat) : Nat := x / 2 ^ (k * e) % 2 ^ k
    let on (k e : Nat) : Bool := (s.maskBits q).testBit (e * k / 8)
    let old (k e : Nat) : Nat := if q.h.z = 1 then 0 else at_ k (s.vGroup (q.dst s.bun.rep) q.group) e
    let aux := q.h.aux.toNat
    let rm := q.h.rm.toNat
    let u := q.h.ty2.toNat
    let sat : Bool := q.h.sat == 1
    let sends (i : Instr) (regs : Nat) (flags : BitVec 5) (ok : Nat → Prop) : Prop :=
      ∀ op, i.hcw? = some (op, q) → i.wf = true →
        ∃ x : Nat, exec i s = .next (s.repeated i q fun v =>
          (v.operands op q).1.results (hcwLat op q) q.slot (hcwPops op q) (vEffects (q.dst s.bun.rep) x regs) flags) ∧ ok x
    let lanes (i : Instr) (k : Nat) (f : Nat × Nat × Nat → Nat → Nat × BitVec 5) : Prop :=
      ∀ op, i.hcw? = some (op, q) → let o := (s.operands op q).2
        sends i q.group (((List.range (q.bits / k)).filter (on k)).foldl (fun x e => x ||| (f o e).2) 0) fun x =>
          ∀ e < q.bits / k, at_ k x e = if on k e then (f o e).1 % 2 ^ k else old k e
    let comb (x y : Int) : Int := if tyInt q.t then
        let bits (f : BitVec w → BitVec w → BitVec w) : Int :=
          (valOf q.t (f (BitVec.ofInt w x) (BitVec.ofInt w y)).toNat).toInt
        [x + y, min x y, max x y, bits (· &&& ·), bits (· ||| ·), bits (· ^^^ ·)].getD (aux % 8) (bits (· ^^^ ·))
      else
        let a := fltVal q.t x.toNat
        let b := fltVal q.t y.toNat
        ([fltRes q.t rm (a.add rm b), fltEnc q.t (a.fmin b)].getD (aux % 8) (fltEnc q.t (a.fmax b)) : Nat)
    let value (x e : Nat) : Int := if tyInt q.t then (valOf q.t (at_ w x e)).toInt else (fltEnc q.t (fltVal q.t (at_ w x e)) : Nat)
    let result (x : Option Int) : Nat := match x with
      | none => 0
      | some v => if tyInt q.t then narrow q.t sat v else v.toNat
    lanes (.vcvt q) w (fun o e => cvt (modVal q.h.a (valOf u (at_ (tyWidth u) o.1 e))) q.t rm (aux % 4) (aux / 4 % 4) (aux / 16 % 4)) ∧
    lanes (.vdqnt q) w (fun o e =>
      let sb := o.1 / 2 ^ (256 + 8 * (e / 32)) % 256
      let c := at_ (tyWidth u) o.1 e
      cvt ((if u = 13 then q4val (sb / 64) c else valOf u c).shift ((sb % 64 : Nat) - 32)) q.t rm 2 2 0) ∧
    (∀ x ∈ [(Instr.vdp4 q, fun a b : Int => a * b), (.vsad q, fun a b => ((a - b).natAbs : Int))],
      lanes x.1 32 fun o e => (narrow 4 sat ((valOf 4 (at_ 32 o.2.2 e)).toInt + ((List.range 4).map fun j =>
        x.2 (valOf q.t (at_ 8 o.1 (4 * e + j))).toInt (valOf u (at_ 8 o.2.1 (4 * e + j))).toInt).sum), 0)) ∧
    lanes (.vdp2 q) 32 (fun o e =>
      let p (j : Nat) : Val := (modVal q.h.a (valOf 9 (at_ 16 o.1 (2 * e + j)))).mul (modVal q.h.b (valOf 9 (at_ 16 o.2.1 (2 * e + j))))
      (fltRes 8 rm (((modVal q.h.c (valOf 8 (at_ 32 o.2.2 e))).add rm (p 0)).add rm (p 1)), 0)) ∧
    (∀ op, (Instr.vqnt q).hcw? = some (op, q) → let o := (s.operands op q).2
      let code := aux % 4
      let y (e : Nat) : Val := if aux / 4 % 2 = 1 then (valOf q.t (at_ w o.1 e)).mul (valOf q.t (at_ w o.2.1 e)) else valOf q.t (at_ w o.1 e)
      let fits (x : Nat) (e : Nat) : Prop := match y e with
        | .fin _ m k => magLe m k (qMax u code) ((x : Int) - 32) = true
        | _ => True
      let holds (j x : Nat) : Prop := ∀ k < 32, on w (32 * j + k) = true → fits x (32 * j + k)
      let elem (x e : Nat) : Nat × BitVec 5 := if on w e then qElem u code rm (aux / 8 % 4) (aux / 32 % 4) x (y e) else (0, 0)
      ∃ xs : Nat → Nat, (∀ j < n / 32, xs j ≤ 63 ∧ (holds j (xs j) ∨ xs j = 63) ∧ ∀ x < xs j, ¬holds j x) ∧
        sends (.vqnt q) 2 ((List.range (n / 32 * 32)).foldl (fun f e => f ||| (elem (xs (e / 32)) e).2) 0) fun x =>
          (∀ e < n / 32 * 32, tyWidth u * e + tyWidth u ≤ 256 → at_ (tyWidth u) x e = (elem (xs (e / 32)) e).1 % 2 ^ tyWidth u) ∧
          ∀ j < n / 32, x / 2 ^ (256 + 8 * j) % 256 = xs j + 64 * code) ∧
    (∀ op, (Instr.vred q).hcw? = some (op, q) → (Instr.vred q).wf = true → let o := (s.operands op q).2
      let x := result (tree comb 7 ((List.range n).map fun e => if on w e then some (value o.1 e) else none))
      (q.h.dk ≠ 0 → sends (.vred q) 1 0 fun y => y % 2 ^ 256 = x) ∧
      (q.h.dk = 0 → exec (.vred q) s = .next (s.repeated (.vred q) q fun v =>
        (v.operands op q).1.results (hcwLat op q) q.slot (hcwPops op q) [.s (q.dst s.bun.rep)
          (if tySigned q.t then (BitVec.ofNat w x).signExtend 64 else BitVec.ofNat 64 (x % 2 ^ w))] 0))) ∧
    (∀ x ∈ [(Instr.vscan q, fun (_ _ : Nat) => false), (.vsscan q, fun b e => b.testBit (e * w / 8))],
      lanes x.1 w fun o e =>
        let first := (((List.range (e + 1)).filter (x.2 o.2.1)).getLast?).getD 0
        let ks := ((List.range (if aux / 8 % 2 = 1 then e else e + 1)).drop first).filter (on w)
        (result (match ks.map (value o.1) with
          | [] => none
          | v :: vs => some (vs.foldl comb v)), 0))

/-! ## Events: results, long operations, translations, engines -/

/-- R9, R27, R52, R153, R155, R160, R208, R261, R274, R331: results land once their cycle has come, and in a frozen task once it had come
before the freeze, those of the class of the event and no others; a latch is written in the cycle it is due, so that what lands here is
due before, and waits while its bytes are locked (R274). A landing register, accumulator row, plane swap or latch takes its value, and its
flags join CVS; a correctable error of the row that a beat reads is corrected (R368), and those of plane rows go with their plane. -/
def Obligations.ResultsLand : Prop :=
  ∀ s : State,
    let by_ := match s.t.ctl.freeze with
      | some z => min s.cyc (z.f - 1)
      | none => s.cyc
    let latchBy := min by_ (s.cyc - 1)
    let without (by_ : Nat) (keep : Effect → Bool) (t : State) : Prop :=
      t.t.q.fly = s.t.q.fly.filter (fun f => decide (by_ < f.due) || keep f.eff) ∧ t.cyc = s.cyc
    (∃ t, exec .resultLanding s = .next t ∧ without by_ (fun e => e.isAcc || e.isSwap || e.isLatch) t) ∧
    (∃ t, exec .accumulatorRowLanding s = .next t ∧ without by_ (fun e => !e.isAcc) t) ∧
    (∃ t, exec .planeSwap s = .next t ∧ without by_ (fun e => !e.isSwap) t) ∧
    (∃ t, exec .yokeLatchWrite s = .next t ∧ without latchBy (fun e => !e.isLatch || s.latchWaits e) t) ∧
    (∃ t, exec .placketReplay s = .next t ∧ (∀ f ∈ t.t.q.fly, (if f.eff.isLatch then latchBy else by_) < f.due ∨ t.latchWaits f.eff = true) ∧
      (∀ f ∈ t.t.q.placket, s.cyc < f.due)) ∧
    (∀ f : Flight, s.t.q.fly = [f] → f.due ≤ by_ →
      let u := s.modQ fun q => { q with fly := [] }
      (∀ n x, f.eff = .s n x → exec .resultLanding s = .next ((u.sPut n x).orFlags f.flags)) ∧
      (∀ n x, f.eff = .v n x → exec .resultLanding s = .next ((u.vPut n x).orFlags f.flags)) ∧
      (∀ row y, f.eff = .acc row y →
        exec .accumulatorRowLanding s = .next ((u.landRow row y).orFlags f.flags) ∧
        (s.t.ctl.native = none → (∀ op i32 t ts, y = .beat op i32 t ts → ts = []) → u.landRow row y = (u.fixRow row y).setAcc row ((s.accRow row).fold y))) ∧
      (f.eff = .swap → exec .planeSwap s =
        .next ({ u.modMat fun m => { m with active := m.shadow, shadow := m.active } with
          soft := s.soft.map fun (x : Nat × EccPlace) => if x.1 = s.core.id then (x.1, match x.2 with
            | .activeRow n => .shadowRow n
            | .shadowRow n => .activeRow n
            | p => p) else x }.orFlags f.flags)) ∧
      (∀ off x bad lt, f.eff = .latch off x bad lt → f.due < s.cyc → s.latchWaits f.eff = false →
        ∃ t, exec .yokeLatchWrite s = .next t ∧ t.core.scrRead off 128 = leBytes 128 x.toNat ∧ t.mem = s.mem))

/-- R68, R89, R129, R163, R174, R175, R183, R222, R229: the oldest divide fills its register after six cycles at the earliest, and once the random
bits it took have come; a load of one access, into an s register or a v group, fills its destination with the bytes seen at its place,
extended by its form: the own scratchpad or a gang member's, memory at a memory-side or peer home, or the sector the L1 holds under its
lease, else the home's; the random queue fills once in a cycle, by at most 1,024 bits to at most 4,096 ahead. -/
def Obligations.LongResultsReturn : Prop :=
  ∀ s : State,
    let fills (i : Instr) (r : BitVec 6) (x : W64) (p : State → Prop) : Prop :=
      ∃ t, exec i s = .next t ∧ t.sGet r = (if r = 0 then 0 else x) ∧ t.emptyAt (.s r) = false ∧ t.mem = s.mem ∧ p t
    let seen (at_ : Place) (n : Nat) : List Byte × Bool := match at_ with
      | .own off => (s.core.scrRead off n, s.core.scrBad off n)
      | .gang m off => match (s.memberId m).bind s.coreById with
        | some c => (c.scrRead off n, c.scrBad off n)
        | none => ([], true)
      | .glob pa ms _ =>
        let k := 256 * (pa / 256)
        if isPeer pa || ms then (s.rd pa n, s.badAt pa n)
        else match l1Find s.core.l1 (pa / 256) with
          | some x => if tle s.core.lt x.r || (x.w == (s.line k).wts && !s.lostAt k) then (memRead x.data pa n, x.bad)
            else (s.rd pa n, s.badAt k 256)
          | none => (s.rd pa n, s.badAt k 256)
    (∀ d ds, s.t.q.divs = d :: ds →
      (d.start + 6 ≤ s.cyc → d.ready ≤ s.t.q.rqGen → fills .divideComplete d.reg d.val fun t => t.t.q.divs = ds) ∧
      (s.cyc < d.start + 6 ∨ s.t.q.rqGen < d.ready → exec .divideComplete s = .next s)) ∧
    (s.t.sys.log = false → s.t.sys.rpl = false → ∀ e rest dst addr at_ n spec, s.t.q.cq = e :: rest →
      e.op = .load dst addr n false [{ off := 0, addr, pieces := [{ at_, len := n }], alt := none }] spec →
      s.breach { at_, len := n } = false → s.pieceWaits { at_, len := n } = false → (seen at_ n).2 = false →
      (∀ pa ms ft, at_ = .glob pa ms ft → pa % 256 + n ≤ 256) →
      let x := ofLe (seen at_ n).1
      (∀ r sg, dst = .s r sg → n ≤ 8 →
        fills .loadReturn r (if sg then (BitVec.ofNat (8 * n) x).signExtend 64 else BitVec.ofNat 64 x) fun t => t.t.q.cq = rest) ∧
      (∀ r w, dst = .v r w → w ≤ 8 → n = 32 * w →
        ∃ t, exec .loadReturn s = .next t ∧ t.t.q.cq = rest ∧ t.mem = s.mem ∧ (∀ k, t.sGet k = s.sGet k) ∧
          ∀ i < w, t.emptyAt (.v (r + BitVec.ofNat 6 i)) = false ∧ t.vGet (r + BitVec.ofNat 6 i) = BitVec.ofNat 256 (x / 2 ^ (256 * i)))) ∧
    (s.t.q.rqPend = [] → s.t.q.rqCyc < s.cyc → exec .randomQueueFill s =
      .next (s.modQ fun q => { q with rqGen := min (q.rqGen + 1024) (q.rqUsed + 4096), rqCyc := s.cyc })) ∧
    (s.cyc ≤ s.t.q.rqCyc → exec .randomQueueFill s = .next s)

/-- R188, R189, R190: each atomic at the head of the core path reads the word of 4 or 8 bytes at its place, combines it with its operands
by its row of R188 and writes the result back, no other byte changing: `amo` then fills its register with the old word, `faddb`'s bit
63 saying that the bound was hit; `red` fills none, and `amov` (operation 8 there) writes its operand. -/
def Obligations.AtomicsPerform : Prop :=
  ∀ (s : State) (e : CqEntry) (rest : List CqEntry) (op n : Nat) (addr : W64) (at_ : Place) (v v2 : W64),
    s.t.q.cq = e :: rest → s.t.sys.log = false → s.t.sys.rpl = false →
    (n = 4 ∨ n = 8) → op ≤ 12 → (op = 11 ∨ op = 12 → n = 4) →
    let p : Piece := { at_, len := n }
    s.pieceWaits p = false → s.pieceBusy p = false → s.breach p = false → s.writeFails at_ = none →
    let m := 2 ^ (8 * n)
    let x := v.toNat % m
    let y := v2.toNat % m
    let int (z : Nat) : Int := if 2 * z < m then z else (z : Int) - m
    let core (u : State) : Option Core := match at_ with
      | .own _ => some u.core
      | .gang k _ => (s.memberId k).bind u.coreById
      | .glob .. => none
    let word (u : State) : Option Nat := match at_ with
      | .glob pa _ _ => some (ofLe (u.rd pa n))
      | .own off => (core u).map fun c => ofLe (c.scrRead off n)
      | .gang _ off => (core u).map fun c => ofLe (c.scrRead off n)
    let bad := match at_ with
      | .glob pa _ _ => s.badAt pa n
      | .own off => optAll (core s) fun c => c.scrBad off n
      | .gang _ off => optAll (core s) fun c => c.scrBad off n
    bad = false → ∀ old, word s = some old →
    let new : Option Nat := match op with
      | 0 => some ((old + x) % m)
      | 1 => some (old &&& x)
      | 2 => some (old ||| x)
      | 3 => some (old ^^^ x)
      | 4 => some (if int x < int old then x else old)
      | 5 => some (if int old < int x then x else old)
      | 6 => some (if x < old then x else old)
      | 7 => some (if old < x then x else old)
      | 8 => some x
      | 9 => if old = x then some y else none
      | 10 => some (if x ≤ old then 0 else old + 1)
      | 11 => if y ≤ old then none else some (if y < old + x then y else old + x)
      | _ => some (fltRes 8 0 ((fltVal 8 old).add 0 (fltVal 8 x)))
    let done (t : State) : Prop := t.t.q.cq = rest ∧ word t = some (new.getD old) ∧
      (∀ a, (∀ pa ms ft, at_ = .glob pa ms ft → a < pa ∨ pa + n ≤ a) → memGet t.mem a = memGet s.mem a) ∧
      (∀ off k, at_ = .own off → k < off ∨ off + n ≤ k → memGet t.core.t.scratch k = memGet s.core.t.scratch k)
    (∀ (r b c : BitVec 6) (sz : BitVec 1), n = (if sz = 1 then 8 else 4) → e.op = .amo op r addr at_ n v v2 →
      ∃ t, exec (.amoReturn r b c sz) s = .next t ∧ done t ∧ t.emptyAt (.s r) = false ∧
        t.sGet r = (if r = 0 then 0 else BitVec.ofNat 64 (if op = 11 ∧ y ≤ old then old + 2 ^ 63 else old))) ∧
    (∀ te, op ≠ 9 → e.op = .red op addr n v v2 → s.access s.xl (scalarAcc .amo n) addr n = .ok [(p, te)] →
      ∃ t, exec .postedOperationPerform s = .next t ∧ done t ∧ t.t.regs = s.t.regs)

/-- R234, R342, R344: a walk that finds a translation adds it to the TLB and one that faults adds nothing, the task left as it was
(`pageWalk` as an event of its own is log 19's choice); an invalidation takes every translation in its scope out of every core's TLB at
once and is done when no core holds an access translated before: that the table's events act through the pilot die's registers, and
when DONE follows, are the readings of log 63. -/
def Obligations.TranslationEvents : Prop :=
  ∀ s : State,
    (∀ va : W64, ∃ t, exec (.pageWalk va) s = .next t ∧ t.t = s.t ∧ t.core.lt = s.core.lt ∧ t.mem = s.mem ∧
      (∀ e, s.walk s.xl.ctx s.xl.root va.toNat = .ok e → e ∈ t.core.tlb) ∧
      (∀ c, s.walk s.xl.ctx s.xl.root va.toNat = .error c → t.core.tlb = s.core.tlb)) ∧
    (let x := s.tlbiOf s.pilotDie
     let drops (i : Instr) (inside : TlbEntry → Bool) : Prop :=
       (x.busy = true → exec i s = .next s) ∧
       (x.busy = false → ∃ t, exec i s = .next t ∧ (t.tlbiOf s.pilotDie).busy = true ∧ t.mem = s.mem ∧ t.t = s.t ∧
         (∀ c ∈ t.cores, ∀ e ∈ c.tlb, inside e = false) ∧ t.core.tlb = s.core.tlb.filter fun e => !inside e)
     (∀ (ctx : BitVec 12) (gran : BitVec 41), drops (.tlbiGranule ctx gran) fun e =>
       e.ctx == ctx && decide (e.va ≤ 65536 * gran.toNat) && decide (65536 * gran.toNat < e.va + 2 ^ e.lg)) ∧
     (∀ ctx : BitVec 12, drops (.tlbiContext ctx) fun e => e.ctx == ctx) ∧ drops .tlbiAll fun _ => true) ∧
    (s.translated = true → exec .tlbiComplete s = .next s) ∧
    (s.translated = false → ∃ t, exec .tlbiComplete s = .next t ∧ ∀ x ∈ t.sup.tlbi, x.2.busy = false)

/-- R200, R203, R248-R251, R253, R255, R256, R334, R385, R395: the oldest waiting copy starts while fewer than four run, the task is not frozen
and a resumed task's first cycle has come; whether it may write where the module is quiesced is settled there (log 60's choice). A
checked promise that passes unfulfilled is noted once. A copy that completes leaves the queue, its buffer FULL after a fetch and FREE
after a write-back; with no copy of the tag, what completed copies still owe their barriers is paid (log 29's and log 36's readings).
A schedule entry enters its copy, a fetch or a write-back, once its stage has come and its buffer is ready. -/
def Obligations.CopyEvents : Prop :=
  ∀ s : State,
    (∀ q l r, s.t.eng.cpq = l ++ q :: r → (∀ p ∈ l, p.active = true) → q.active = false → (∀ p ∈ l ++ r, p.tag ≠ q.tag) →
      (s.t.eng.cpq.filter (·.active)).length < 4 → s.t.ctl.freeze = none → s.t.ctl.rho ≤ s.cyc →
      exec .copyRequestStart s =
        .next (s.modEng fun e => { e with cpq := l ++ { q with
          active := true, granted := !s.sup.quiesce, base := s.core.lt, moved := { q.moved with t := s.core.lt } } :: r })) ∧
    (∀ q l r, s.t.eng.cpq = l ++ q :: r → (∀ p ∈ l ++ r, p.tag ≠ q.tag) →
      (q.chk = true → q.missed = false → q.promise < s.cyc → exec (.promiseMiss q.tag) s =
        .next ((s.modEng fun e => { e with cpq := l ++ { q with missed := true } :: r }).modCtl fun c =>
          { c with missed := c.missed ++ [q.tag] })) ∧
      (s.mayComplete q = true → s.copyWaits q = false → s.issuer.log = false → s.issuer.rpl = false → ∀ peer,
        ∃ t, exec (.copyCompletion q.tag peer) s = .next t ∧ t.t.eng.cpq = l ++ r ∧ t.t.regs = s.t.regs ∧
          (q.kind = .fetch → (t.buf q.buf).st = .full) ∧ (q.kind = .back → (t.buf q.buf).st = .free))) ∧
    (∀ (tag : BitVec 16) peer, (∀ q ∈ s.t.eng.cpq, q.tag ≠ tag) → exec (.copyCompletion tag peer) s = .next s.payOwed) ∧
    (∀ k ws, s.t.task = some k → s.t.eng.relStop = false → s.t.eng.relp < k.schn → s.copyFull = false → s.t.ctl.freeze = none →
      s.t.ctl.ending = none → k.sched ≠ 0 → s.t.ctl.rho ≤ s.cyc → s.issuer.log = false → s.issuer.rpl = false →
      s.farWaits (s.engPieces (engAcc .rd) [(k.sched + BitVec.ofNat 64 (32 * s.t.eng.relp), 32)]) = false →
      s.entryWords (k.sched + BitVec.ofNat 64 (32 * s.t.eng.relp)) = .ok ws → field (wordAt ws 0) 0 17 = 0 → wordAt ws 3 = 0 →
      field (wordAt ws 0) 32 32 ≤ s.t.sys.stage.toNat → s.entryReady (wordAt ws 0) = true →
      let back := field (wordAt ws 0) 17 1 = 1
      let b := BitVec.ofNat 6 (field (wordAt ws 0) 18 6)
      let h := BitVec.ofNat 8 (field (wordAt ws 0) 24 8)
      let xs := coords (ws.getD 1 0) (ws.getD 2 0)
      let u := s.modBun fun b => { b with mret := none }
      (¬back → u.copyTraps b h xs = none) → (back → u.copyoTraps b h xs = none) →
      ∃ t q, exec .scheduleEntryRelease s = .next t ∧ t.t.eng.relp = s.t.eng.relp + 1 ∧ t.t.eng.cpq = s.t.eng.cpq ++ [q] ∧
        q.tag = s.t.eng.nextTag ∧ q.buf = b ∧ q.xs = xs ∧ (q.kind = .back ↔ back) ∧ t.t.regs = s.t.regs ∧ t.mem = s.mem)

/-- R141, R146, R233, R244, R246, R247, R284, R286-R288: a ring's V16L table that is to be loaded becomes what its 256 bytes are read as,
once the pieces of it on MS pages have been read, and no other register, nor memory, changes. The oldest encode request starts, a V16L one
with its table read; one whose table failed, or with a target that is not finite, answers the canonical NaN and leaves; any other writes
its block and its scale byte, neither where a check of either fails, and answers its error. A conversion finds the lowest tile whose bit
is 0 (that its bits are set in ascending order from there is the reading of log 80, that its byte is read and written as one operation log
108's choice), locks it, moves its units, each read from old and then written to new storage at one time, and commits it: its bit is set
and CDONE counts it, the request staying at the head of its die's queue. A unit or a bit whose check fails halts the conversion, whose
request leaves the queue. Once no tile is left the handle takes its new base and tag and its request leaves the queue. -/
def Obligations.EngineEvents : Prop :=
  ∀ s : State,
    let pieces (e : Eng) (va : W64) : List Piece := match s.access e.xl (engAcc .rd) va 256 with
      | .ok ps => bare ps
      | .error _ => []
    let held (e : Eng) (va : W64) : Prop := (s.reachedBy e.who (s.msPieces e.xl .rd [(va, 256)])).all (gotPiece e.got) = true
    (∀ g : BitVec 3, s.issuer.log = false → s.issuer.rpl = false →
      (∀ va l got, spGet V16.none s.t.mat.v16 g.toNat = .loading va l got →
        let e : Eng := { xl := s.core.xl s.core.tlbY, l, ok := true, who := s.phaseTask, strict := false, got }
        s.farWaits (pieces e va) = false →
        ∃ t, exec (.v16lTableLoad g) s = .next t ∧ t.t.regs = s.t.regs ∧ t.t.sys = s.t.sys ∧ t.mem = s.mem ∧
          (held e va → spGet V16.none t.t.mat.v16 g.toNat = (Eng.table e (s.sendFar (pieces e va)) va).2) ∧
          ∀ va' l' got', spGet V16.none t.t.mat.v16 g.toNat ≠ .loading va' l' got') ∧
      ((∀ va l got, spGet V16.none s.t.mat.v16 g.toNat ≠ .loading va l got) → exec (.v16lTableLoad g) s = .next s)) ∧
    (s.t.eng.ten = [] → exec .trellisRequestStart s = .next s ∧ exec .trellisComplete s = .next s) ∧
    (∀ q qs, s.t.eng.ten = q :: qs →
      (q.running = true ∨ s.t.ctl.freeze.isSome = true → exec .trellisRequestStart s = .next s) ∧
      (q.running = false → q.v16l = false → s.t.ctl.freeze = none → exec .trellisRequestStart s =
        .next (s.modEng fun e => { e with ten := { q with running := true } :: qs })) ∧
      (let e := { s.tenEng q.base with got := q.got }
       let va := s.tenTable q
       q.running = false → q.v16l = true → s.t.ctl.freeze = none → s.issuer.log = false → s.issuer.rpl = false →
        s.farWaits (pieces e va) = false → held e va →
        let v := (Eng.table e (s.sendFar (pieces e va)) va).2
        ∃ t, exec .trellisRequestStart s = .next t ∧ t.t.regs = s.t.regs ∧ t.t.sys = s.t.sys ∧ t.mem = s.mem ∧
          (∀ bs, v = .ready bs → t.t.eng.ten = { q with running := true, table := some bs } :: qs) ∧
          (∀ c a sub, v = .failed c a sub → t.t.eng.ten = { q with running := true, bad := c, sub } :: qs)) ∧
      (q.running = false → exec .trellisComplete s = .next s) ∧
      (q.running = true → q.bad ≠ 0x0B → q.bad ≠ 0 ∨ q.finite = false →
        ∃ t, exec .trellisComplete s = .next t ∧ t.t.eng.ten = qs ∧ t.mem = s.mem ∧ t.emptyAt (.s q.dst) = false ∧
          t.sGet q.dst = if q.dst = 0 then 0 else BitVec.ofNat 64 f32NaN) ∧
      (q.running = true → q.bad = 0 → q.finite = true →
        let enc := trelEncode q.fmt q.auto q.e q.table q.targets
        let n := ftBytes q.fmt
        let sb := (if q.v16l then 0x40 else 0) + enc.2.1
        let answers (t : State) : Prop := exec .trellisComplete s = .next t ∧ t.t.eng.ten = qs ∧ t.emptyAt (.s q.dst) = false ∧
          t.sGet q.dst = if q.dst = 0 then 0 else BitVec.ofNat 64 enc.2.2
        ((s.tryTen q).fail ≠ none → ∃ t, answers t ∧ t.mem = s.mem) ∧
        ((s.tryTen q).fail = none → s.tenWaits q = true → exec .trellisComplete s = .next s) ∧
        ((s.tryTen q).fail = none → s.tenWaits q = false → q.done = [] → s.issuer.log = false → s.issuer.rpl = false →
          let u := s.writePart q 0 (some q.fmt, q.block, leBytes n enc.1)
          ∃ t, answers t ∧ t.mem = (u.writePart q 1 (none, q.scale, leBytes 1 sb)).mem ∧
            ∀ pa ms ft te pb ms' ft' te',
              (s.tenEng q.base).target (s.sendFar (s.engPieces (engAcc .wr) [(q.block, n)])) q.block n (some q.fmt) =
                .ok [({ at_ := .glob pa ms ft, len := n }, te)] →
              (u.tenEng q.base).target (u.sendFar (u.engPieces (engAcc .wr) [(q.scale, 1)])) q.scale 1 none =
                .ok [({ at_ := .glob pb ms' ft', len := 1 }, te')] →
              pa % 256 + n ≤ n * ftPer q.fmt → pb / 256 ≠ pa / 256 →
              memRead t.mem pa n = leBytes n enc.1 ∧ memGet t.mem pb = BitVec.ofNat 8 sb))) ∧
    (∀ (die : BitVec 6) q qs, topQueue s die.toNat = q :: qs →
      let d := die.toNat
      let h := handleOf (s.rdWords q.img 8)
      let e := s.topEng d q
      let free : Prop := (s.topIssuer q).log = false ∧ (s.topIssuer q).rpl = false
      let halts (t : State) : Prop := topQueue t d = qs ∧ (handleOf (t.rdWords q.img 8)).halt = true ∧
        (handleOf (t.rdWords q.img 8)).cdone = h.cdone
      h.cv = true → h.halt = false →
      (q.next = none → q.locked = false →
        let ps := s.topPieces e .rd [(BitVec.ofNat 64 h.cbmp, h.bmBytes)]
        let x := (Run.start (s.sendFar ps) q.moved.t).topRead { e with got := q.bits } h.cbmp h.bmBytes
        let bit (τ : Nat) : Bool := (x.2.1.getD (τ / 8) 0).toNat.testBit (τ % 8)
        exec (.topiaryDrop die) s = .next s ∧
        (((Run.start s e.l).topPeek e h.cbmp h.bmBytes).fail ≠ none → halts (s.topReady d)) ∧
        (((Run.start s e.l).topPeek e h.cbmp h.bmBytes).fail = none → s.farWaits ps = false →
          (s.reachedBy e.who (s.msPieces e.xl .rd [(BitVec.ofNat 64 h.cbmp, h.bmBytes)])).all (gotPiece q.bits) = true →
          ∃ q' n, topQueue (s.topReady d) d = q' :: qs ∧ q'.next = some n ∧ n ≤ h.nTiles ∧ (∀ τ < n, bit τ = true) ∧
            (n < h.nTiles → bit n = false) ∧ (s.topReady d).mem = s.mem)) ∧
      (∀ τ, q.next = some τ → τ < h.nTiles → exec (.topiaryDrop die) s = .next s ∧
        let ms := h.tileMoves τ
        let src := s.topPieces e .rd (moveSrcs ms)
        let dst := s.topPieces e .wr (moveDsts ms)
        let bit := s.topPieces e .wr [h.bitByte τ]
        let us := s.topUnits d q h τ
        (q.locked = false → (((Run.start s e.l).tryMoves e h ms).tryBit e h τ).fail = none → s.quiesced dst = false →
          s.farWaits (src ++ dst ++ bit) = false → (dst ++ bit).any s.pieceBusy = false →
          exec (.topiaryTileConvert die) s = exec (.topiaryTileConvert die) (s.topReady d) ∧ (s.topReady d).mem = s.mem ∧
            ∃ q', topQueue (s.topReady d) d = q' :: qs ∧ q'.locked = true ∧ q'.next = some τ ∧ q'.moved = q.moved) ∧
        (q.locked = true → s.topLeft d q h τ = [] → exec (.topiaryTileConvert die) s =
          .next (((List.range us.length).foldl (fun u k => u.topUnit d us k) (s.headTop d q)).topCommit d us.length)) ∧
        (∀ k ms, q.locked = true → us[k]? = some ms → q.moved.done.contains k = false →
          (s.reachedBy e.who (s.msPieces e.xl .rd (moveSrcs ms))).all (gotPiece q.moved.got) = true →
          (((Run.start s e.l).tryMoves e h ms).fail ≠ none → halts (s.topUnit d us k)) ∧
          (((Run.start s e.l).tryMoves e h ms).fail = none → free →
            let got := ms.foldl (fun x m => match m.1 with
              | none => (x.1, x.2 ++ [(m.2.1, List.replicate m.2.2.1 0, false)])
              | some a => let y := x.1.topRead e a m.2.2.1
                (y.1, x.2 ++ [(m.2.1, leBytes m.2.2.1 (ofLe y.2.1 % 2 ^ m.2.2.2), y.2.2)]))
              (({ q.moved with s, fail := none, used := [] } : Run), ([] : List (Nat × List Byte × Bool)))
            let moved := got.2.foldl (fun r o => r.topWrite { e with l := tmax e.l got.1.t } h.ft o.1 o.2.1 o.2.2) { got.1 with mine := [] }
            (s.topUnit d us k).mem = moved.s.mem ∧
              ∃ q', topQueue (s.topUnit d us k) d = q' :: qs ∧ q'.locked = true ∧ q'.next = some τ ∧ k ∈ q'.moved.done)) ∧
        (q.locked = true → us.length ≤ q.moved.done.length →
          (((Run.start s e.l).tryBit e h τ).fail ≠ none → halts (s.topCommit d us.length)) ∧
          (((Run.start s e.l).tryBit e h τ).fail = none → free →
            let x := ({ q.moved with s, fail := none, used := [], mine := [] } : Run).topRead e (h.cbmp + τ / 8) 1
            let r := x.1.topWrite { e with l := tmax e.l x.1.t } none (h.cbmp + τ / 8) (leBytes 1 (ofLe x.2.1 ||| 2 ^ (τ % 8))) x.2.2
            ∃ q', topQueue (s.topCommit d us.length) d = q' :: qs ∧ q'.next = some (τ + 1) ∧ q'.locked = false ∧ q'.img = q.img ∧
              (s.topCommit d us.length).mem = memWrite r.s.mem q.img
                (((r.s.rdWords q.img 8).set 7 (BitVec.ofNat 64 (h.cdone + 1))).flatMap fun w => leBytes 8 w.toNat)))) ∧
      (∀ n, q.next = some n → h.nTiles ≤ n → q.locked = false → exec (.topiaryTileConvert die) s = .next s ∧
        let d' := s.descAt q.ctx + 8 * 58
        (d' + 8 ≤ q.img ∨ q.img + 64 ≤ d' →
        ∃ t, exec (.topiaryDrop die) s = .next t ∧ topQueue t d = qs ∧ t.t.regs = s.t.regs ∧
          let h' := handleOf (t.rdWords q.img 8)
          h'.base = h.tbase ∧ h'.tag = h.ttag ∧ h'.cv = false ∧ h'.halt = false ∧ h'.v = h.v ∧ h'.fmt = h.fmt ∧
            h'.fwi = h.fwi ∧ h'.rank = h.rank ∧ h'.raw = h.raw ∧ h'.sbase = h.sbase)))

/-- R211, R317-R322, R326: a lookup in the second delay bundle that misses fills the routine's result registers and lets it run; one that
hits puts its native at the listing's entry, the result registers staying empty; either is counted. A native that has run past its
listing performs its writes, fills the result registers, but those that the listing leaves empty there, and ends; a mapped point of an
EXACT one is reached with its writes performed. That these are events of their own, which bring a native that is on its way to its
next point at once, is the model's choice (log 12). A table is taken if it is signed, no two valid entries have one digest and every entry
is fit for its routine, as far as the Mantle can tell (log 41); it takes effect when no core of its die runs a native, below S3 not yet
(the reading of log 62). An unwinding gives back the region's registers and goes on at its handler. -/
def Obligations.SubstitutionAndUnwinding : Prop :=
  ∀ s : State,
    (∀ x c, s.t.ctl.xfer = some x → x.left = 1 → x.callr = some c → s.bun.issuing = true →
      let d := dieOf s.core.id
      ∃ t, exec .substitutionLookup s = .next t ∧ (t.substOf d).lookups = (s.substOf d).lookups + 1 ∧ t.t.regs = s.t.regs ∧
        ((s.substOf d).hit c = none →
          t.t.ctl.xfer = some { x with callr := none } ∧ t.t.ctl.native = s.t.ctl.native ∧ (t.substOf d).hits = (s.substOf d).hits ∧
          (∀ n : BitVec 6, c.outs.getLsbD n.toNat = true → t.emptyAt (.s n) = false) ∧
          (∀ n : BitVec 6, c.outv.getLsbD n.toNat = true → t.emptyAt (.v n) = false)) ∧
        (∀ e, (s.substOf d).hit c = some e → t.t.ctl.xfer = some { x with callr := none, target := c.entry } ∧
          t.t.ctl.native = some { grade := e.grade, entry := c.entry, routine := e.routine, outs := c.outs, outv := c.outv, yd := c.yd
                                  st := .point, due := 0, seq := s.t.ctl.seq, chains := [] } ∧
          (t.substOf d).hits = (s.substOf d).hits + 1 ∧ t.t.flags = s.t.flags)) ∧
    (s.bun.issuing = false ∨ s.t.ctl.xfer = none → exec .substitutionLookup s = .next s) ∧
    (∀ n, s.t.ctl.native = some n →
      (n.st = .ran → n.holds s.t.ctl.pc = false →
        let done := s.drain s.t.q.cq.length
        ∃ t, exec .nativeReturn s = .next t ∧ t.mem = done.mem ∧ t.t.regs = done.t.regs ∧ t.t.q.cq = done.t.q.cq ∧
          t.t.scratch = done.t.scratch ∧
          (s.t.q.cq = [] → t.t.ctl.native = none ∧ t.t.regs = s.t.regs ∧ t.mem = s.mem ∧
            (∀ m : BitVec 6, n.outs.getLsbD m.toNat = true → n.empty.contains (.s m) = false → t.emptyAt (.s m) = false) ∧
            (∀ m : BitVec 6, n.outv.getLsbD m.toNat = true → n.empty.contains (.v m) = false → t.emptyAt (.v m) = false))) ∧
      (n.st = .running → exec .nativeReturn s = .next (s.setNative { n with due := min n.due s.cyc })) ∧
      (n.grade = 0 → n.st = .ran → n.holds s.t.ctl.pc = true → n.yAt s.t.ctl.pc = true →
        exec .mappedPoint s =
          .next (((s.drain s.t.q.cq.length).setEmpties (resultRegs n.outs n.outv) true).setNative { n with st := .point })) ∧
      (n.grade = 0 → n.st = .running → exec .mappedPoint s = .next (s.setNative { n with due := min n.due s.cyc })) ∧
      (n.grade ≠ 0 → exec .mappedPoint s = .next s)) ∧
    (∀ (die : BitVec 6) es store signed,
      (tableOk es store signed = true ↔ signed = true ∧ es.length ≤ 256 ∧ ((es.filter (·.valid)).map (·.digest)).Nodup ∧
        ∀ e ∈ es, e.grade ≠ 3 ∧ e.prog.toNat < store.toNat ∧ (e.valid = true → (e.grade = 0 ∨ e.fixed = true) ∧
          e.routine.canonical = true ∧ e.digest = e.routine.digest ∧
          Routine.barred e.routine.hcws e.routine.words.length e.routine.words = false)) ∧
      (tableOk es store signed = false → exec (.substTableLoad die ⟨es, store⟩ signed) s = .next s) ∧
      (tableOk es store signed = true → ∃ t, exec (.substTableLoad die ⟨es, store⟩ signed) s = .next t ∧
        (s.sup.level = 3 → (∀ c ∈ s.cores, c.t.ctl.native = none) →
          (t.substOf die.toNat).entries = es ∧ (t.substOf die.toNat).wait = none) ∧
        (s.sup.level ≠ 3 → (t.substOf die.toNat).wait = some es ∧ (t.substOf die.toNat).entries = (s.substOf die.toNat).entries))) ∧
    (∀ u r rs, s.t.ctl.unwind = some u →
      (s.longDone = false → exec .containmentUnwind s = .next s) ∧
      (s.longDone = true → s.t.ctl.regions = r :: rs → r.vals.length = 16 →
        ∃ t, exec .containmentUnwind s = .next t ∧ t.t.ctl.regions = rs ∧ t.t.ctl.unwind = none ∧ t.t.ctl.pc = r.handler ∧
          t.t.ctl.xfer = none ∧ t.t.sys.epc = u.bun &&& epcMask ∧ t.t.sys.tval = u.tval ∧ t.mem = s.mem ∧
          ∀ i : Nat, i < 16 → r.first + BitVec.ofNat 6 i ≠ 0 → t.sGet (r.first + BitVec.ofNat 6 i) = r.vals.getD i 0))

/-! ## Events: tasks, contexts, the host, faults, power -/

/-- R194, R302-R309, R312: a submitted record whose count is not zero waits, one whose count is zero goes to the tail of its queue, and a
refused one is failed with its code; a decrement that leaves a count leaves the queues alone, and of a count of zero does nothing; the
next posted launch entry of a queue whose doorbell is pending is taken, marked done and the read pointer moved; entries of their age rise
one level, to its tail; a placement or a resumption takes the entry picked out of its queue, one for a die in a cycle, and a task of one
core then stands on its core; of the gangs that wait for the module's token the one that asked first takes it and keeps it, where its Yoke
slots are not held; one whose slots another took meanwhile keeps its place and holds up no other (the readings of logs 43 and 88); a phase
with nothing left is committed; a task whose `end` has issued and whose effects are complete retires and leaves its core (its steps are
the reading of log 68). -/
def Obligations.TaskEvents : Prop :=
  ∀ s : State,
    (∀ (rcd : W64) (ctx : BitVec 12) (lt : Time), (s.outside ctx).log = false → (s.outside ctx).rpl = false →
      ∃ t, exec (.taskSubmit rcd ctx lt) s = .next t ∧ t.core.t = s.core.t ∧
        (s.recCheck rcd.toNat ctx = 0 → s.recF rcd.toNat 3 16 1 = 0 → s.recF rcd.toNat 0 0 32 ≠ 0 → t.recSt rcd.toNat = stWaiting ∧ t.ready = s.ready) ∧
        (s.recCheck rcd.toNat ctx = 0 → s.recF rcd.toNat 3 16 1 = 0 → s.recF rcd.toNat 0 0 32 = 0 →
          s.recSt rcd.toNat ≠ stFailed ∨ s.fcode rcd.toNat ≠ 0xF0 →
          t.ready = s.ready ++ [{ rcd := rcd.toNat, ctx, die := s.homeDie rcd.toNat, level := s.recF rcd.toNat 3 13 3, since := s.cyc
                                  first := s.cyc, parked := false, member := none, spill := none }]) ∧
        (∀ c, s.recCheck rcd.toNat ctx = c → 1 < c → c < 256 → t.fcode rcd.toNat = c)) ∧
    (∀ (pa : W64) (die : BitVec 6) (lt : Time),
      let w := s.outside (s.recCtx (pa.toNat / 256 * 256))
      w.log = false → w.rpl = false →
      ∃ t, exec (.dependencyDecrement pa die lt) s = .next t ∧
        ((s.rd32 pa.toNat).toNat = 0 → t.mem = s.mem ∧ t.ready = s.ready) ∧
        (1 < (s.rd32 pa.toNat).toNat → t.rd32 pa.toNat = s.rd32 pa.toNat - 1 ∧ t.ready = s.ready)) ∧
    (∀ (ctx : BitVec 12) (n : BitVec 2), s.liveCtx ctx = false → ∃ t, exec (.launchEntryConsume ctx n) s = .next t ∧
      (ctx, n) ∉ t.sup.doorbells ∧ t.mem = s.mem) ∧
    (∀ (ctx : BitVec 12) (n : BitVec 2), (ctx, n) ∉ s.sup.doorbells → exec (.launchEntryConsume ctx n) s = .next s) ∧
    (∀ (ctx : BitVec 12) (n : BitVec 2) (c : Ctx) (base k : Nat), (ctx, n) ∈ s.sup.doorbells → spFind s.ctxs ctx.toNat = some c →
      c.lq.getD n.toNat (0, 0) = (base, k) → c.closing = false → s.sup.level ≠ 0 →
      (s.outside ctx).log = false → (s.outside ctx).rpl = false →
      let d := s.descAt ctx + 8 * (11 + 2 * n.toNat)
      let rp := s.rdField d 32 32
      let e := base + 16 * (rp % 2 ^ k)
      k ≠ 0 → s.rdField e 63 1 = 1 → d + 8 ≤ e ∨ e + 16 ≤ d →
      ∃ t, exec (.launchEntryConsume ctx n) s = .next t ∧ t.rdField e 63 1 = 0 ∧ t.rdField (e + 8) 63 1 = 1 ∧
        t.rdField d 32 32 = (rp + 1) % 2 ^ 32) ∧
    (∀ die : BitVec 6,
      let age (e : RqEntry) : Nat := field (s.descWord e.ctx 2) 32 32
      let old (e : RqEntry) : Bool := decide (e.die = die.toNat ∧ e.level < 7 ∧ age e ≠ 0 ∧ e.since + age e ≤ s.cyc)
      ∃ t, exec (.readyAgeing die) s = .next t ∧
        t.ready = s.ready.filter (fun e => !old e) ++ (s.ready.filter old).map (fun e => { e with level := e.level + 1, since := s.cyc }) ∧
        t.core = s.core ∧ t.mem = s.mem) ∧
    (∀ die : BitVec 6,
      (s.pick die.toNat = none ∨ spFind s.placedAt die.toNat = some s.cyc ∨ s.sup.joining = true →
        exec (.taskPlacement die) s = .next s ∧ exec (.taskResume die) s = .next s) ∧
      (∀ e cs, s.pick die.toNat = some (e, cs) → spFind s.placedAt die.toNat ≠ some s.cyc → s.sup.joining = false →
        s.badAt e.rcd 256 = false →
        (e.parked = false → exec (.taskResume die) s = .next s ∧ ∃ t, exec (.taskPlacement die) s = .next t ∧ e ∉ t.ready ∧
          spFind t.placedAt die.toNat = some s.cyc ∧
          ∀ id, cs = [id] → ∃ c k, t.coreById id = some c ∧ c.t.task = some k ∧ k.rcd = e.rcd ∧ k.member = 0) ∧
        (e.parked = true → exec (.taskPlacement die) s = .next s ∧ ∃ t, exec (.taskResume die) s = .next t ∧ e ∉ t.ready)) ∧
      (s.token = none → s.tokenQ = [] → ∀ e, s.asksToken die.toNat = some e → s.tokenEntry e.rcd = some e →
        ∃ t, exec (.gangReservation die) s = .next t ∧ t.token.map (·.rcd) = some e.rcd) ∧
      (∀ d r l e, s.token = none → s.tokenQ = (d, r) :: l → s.tokenEntry r = some e →
        (s.slotsWait e = false → ∃ t, exec (.gangReservation die) s = .next t ∧ t.token.map (·.rcd) = some r) ∧
        (∀ d' r' l' e', s.slotsWait e = true → l = (d', r') :: l' → r' ≠ r → s.tokenEntry r' = some e' → s.slotsWait e' = false →
          ∃ t, exec (.gangReservation die) s = .next t ∧ t.token.map (·.rcd) = some r' ∧ t.tokenQ.head? = some (d, r))) ∧
      (s.token ≠ none → ∃ t, exec (.gangReservation die) s = .next t ∧ t.token = s.token)) ∧
    (∀ ctx : BitVec 12,
      (s.laterPhase ctx = none → exec (.phaseCommit ctx) s = .next s) ∧
      (∀ p, s.laterPhase ctx = some p → s.phaseCount ctx (s.cp ctx) = 0 → s.liveCtx ctx = true → s.phaseWrites ctx = false → s.helds = [] →
        (s.outside ctx).log = false → (s.outside ctx).rpl = false →
        ∃ t, exec (.phaseCommit ctx) s = .next t ∧ t.rdField (s.descAt ctx + 8 * 55) 0 32 = p % 2 ^ 32)) ∧
    (s.t.ctl.ending = none → exec .taskRetirement s = .next s) ∧
    (∀ k, s.t.task = some k → k.n = 1 → s.t.ctl.ending = some 0 → s.quiet = true → s.someGroup = none →
      s.recF k.rcd 20 56 8 ≤ 1 → (s.wrField (k.rcd + 8 * 20) 56 8 0).succs k.rcd = [] →
      ∃ t, exec .taskRetirement s = .next t ∧ t.t.task = none)

/-- R328, R329, R334: a request freezes a running task from the next cycle and marks its core busy; one that comes before a placed or
resumed task's first cycle has come marks the core busy and takes effect later; the save, twelve cycles on at the
earliest and with the long operations done, leaves the core without a task and the task's image behind. -/
def Obligations.PreEmptionEvents : Prop :=
  ∀ s : State,
    (∀ (core : BitVec 10) k, s.core.id = core.toNat → (∀ c ∈ s.others, c.id ≠ s.core.id) → s.t.task = some k →
      s.yokeGang k.rcd = false → s.core.ctl.busy = false → s.core.midNative = false → s.t.ctl.freeze = none →
      ∃ t, exec (.preEmptRequest core) s = .next t ∧ t.core.ctl.busy = true ∧ t.t.regs = s.t.regs ∧ t.mem = s.mem ∧
        (s.t.ctl.rho ≤ s.cyc + 1 → t.t.ctl.freeze = some { f := s.cyc + 1, gang := false, fault := none }) ∧
        (s.cyc + 1 < s.t.ctl.rho → t.t.ctl.freeze = none)) ∧
    (∀ core : BitVec 10, s.core.id = core.toNat → s.t.task = none → s.core.ctl.busy = false →
      ∃ t, exec (.preEmptRequest core) s = .next t ∧ t.core.ctl.done = true ∧ t.t = s.t) ∧
    (∀ k z, s.t.task = some k → s.t.ctl.freeze = some z →
      (z.f + 12 ≤ s.cyc → s.settled = true → ∃ t, exec .contextSave s = .next t ∧ t.t.task = none ∧
        (spFind t.images (k.imageOf k.member)).isSome = true) ∧
      (s.cyc < z.f + 12 ∨ s.settled = false → exec .contextSave s = .next s))

/-- R298, R381: context commands answer in CTXCMD: an existing context is not created again and one that is not live is not
destroyed, while a command is in progress only OP and CTX are taken; a destroy marks its context closing, and is complete once nothing of
the context is left; a doorbell of a live context is noted once. -/
def Obligations.ContextEvents : Prop :=
  ∀ (s : State) (ctx : BitVec 12),
    (s.sup.cmd.busy = true →
      exec (.contextCreate ctx) s = .next (s.modSup fun u => { u with cmd := { u.cmd with op := 1, ctx } }) ∧
      exec (.contextDestroy ctx) s = .next (s.modSup fun u => { u with cmd := { u.cmd with op := 2, ctx } })) ∧
    (s.sup.cmd.busy = false →
      ∃ t, exec (.contextCreate ctx) s = .next t ∧ t.sup.cmd.done = true ∧ t.sup.cmd.busy = false ∧ t.sup.cmd.ctx = ctx ∧
        ((spFind s.ctxs ctx.toNat).isSome = true → t.sup.cmd.result = 1 ∧ t.mem = s.mem) ∧
        (spFind s.ctxs ctx.toNat = none → s.descOk ctx = false → t.sup.cmd.result = 2 ∧ t.mem = s.mem) ∧
        (spFind s.ctxs ctx.toNat = none → s.descOk ctx = true →
          t.sup.cmd.result = 0 ∧ (spFind t.ctxs ctx.toNat).isSome = true)) ∧
    (s.sup.cmd.busy = false → s.liveCtx ctx = false →
      ∃ t, exec (.contextDestroy ctx) s = .next t ∧ t.sup.cmd = { result := 1, done := true, busy := false, op := 2, ctx } ∧
        t.mem = s.mem) ∧
    (s.sup.cmd.busy = false → s.liveCtx ctx = true →
      ∃ t c, exec (.contextDestroy ctx) s = .next t ∧ t.sup.cmd.busy = true ∧ t.sup.cmd.ctx = ctx ∧ t.sup.cmd.op = 2 ∧
        spFind t.ctxs ctx.toNat = some c ∧ c.closing = true) ∧
    (s.sup.cmd.busy = false → exec .contextDestroyComplete s = .next s) ∧
    (∀ l c r, s.sup.cmd.busy = true → s.ctxs = l ++ (ctx.toNat, c) :: r → (∀ x ∈ l, x.2.closing = false) → c.closing = true →
      s.rd64 (s.descAt ctx + 8 * 58) = 0 → (∀ k ∈ s.cores, ∀ u, k.t.task = some u → u.ctx ≠ ctx) →
      ∃ t, exec .contextDestroyComplete s = .next t ∧ spFind t.ctxs ctx.toNat = none ∧
        t.sup.cmd = { s.sup.cmd with result := 0, done := true, busy := false }) ∧
    (∀ v : W64, v.toNat < 4 → s.liveCtx ctx = true → (ctx, (v.setWidth 2 : BitVec 2)) ∉ s.sup.doorbells →
      exec (.launchDoorbell ctx v) s =
        .next (s.modSup fun u => { u with doorbells := u.doorbells ++ [(ctx, v.setWidth 2)] })) ∧
    (∀ v : W64, 4 ≤ v.toNat ∨ s.liveCtx ctx = false → exec (.launchDoorbell ctx v) s = .next s)

/-- R231, R319, R374, R377-R380, R384, R387-R390: register writes set their fields and clear what a one clears, each noted in its cycle;
host accesses through a port that is down are dropped, writes of up to 512 bytes arrive as their bytes and reads of up to 4,096 answer
them, a register of BAR0, and a word of a substitution table and its counters (R319), is read in 8 aligned bytes; the Mantle reads
registers, applies a record at S0 only, moves the service level one step at a time, a module that reaches S1 with another in service
waiting for the domain's floor (R231), and signs its measurements with the level and the module number; a link trains to a width it
offers. The model's readings here are those of log 1 (an access from outside waits behind those held, and while a conversion keeps its
line locked), log 100 (where the host reads a table), log 50 (what a port takes, and the Mantle's abort of an unaligned register), log 40
(the record, at S0), log 62 (the moves of the level) and log 74 (whose table is measured). -/
def Obligations.HostEvents : Prop :=
  ∀ s : State,
    (∀ (port : BitVec 1) (off : W32) (v : W64),
      let noted (u : State) : State := u.modSup fun x => { x with hostWrote := setAdd x.hostWrote off.toNat }
      (s.hostUp port.toNat = false ∨ 2 ^ 29 ≤ off.toNat → exec (.registerWrite ⟨port, off⟩ v) s = .next s) ∧
      (s.hostUp port.toNat = true → off.toNat < 2 ^ 29 → s.outHeld ≠ [] → exec (.registerWrite ⟨port, off⟩ v) s =
        .next { s with outHeld := s.outHeld ++ [.register ⟨port, off⟩ v] }) ∧
      (s.hostUp port.toNat = true → off.toNat < 2 ^ 29 → s.outHeld = [] →
        (regAt off.toNat = .none → exec (.registerWrite ⟨port, off⟩ v) s = .next s) ∧
        (regAt off.toNat = .svclvl → exec (.registerWrite ⟨port, off⟩ v) s =
          .next (noted (s.modSup fun u => { u with tgt := BitVec.setWidth 2 (v >>> 4) }))) ∧
        (regAt off.toNat = .alert → exec (.registerWrite ⟨port, off⟩ v) s =
          .next (noted (s.modSup fun u => { u with alert := u.alert &&& ~~~v.setWidth 5 }))) ∧
        (∀ n, regAt off.toNat = .counter n → exec (.registerWrite ⟨port, off⟩ v) s =
          .next (noted (s.modSup fun u => { u with cnt := spSet 0 u.cnt n (v.setWidth 32) })))) ∧
      (s.outHeld = [] → exec (.mantleMessage (.readReg off)) s = .next (s.modSup fun u => { u with reply :=
        (if off.toNat % 8 ≠ 0 then Reply.abort else Reply.value (s.regRead (regAt off.toNat))) }))) ∧
    (∀ (port : BitVec 1) (sp : HostSpace) (pa : BitVec 48) (bytes : List Byte) (len : BitVec 13) (rid : BitVec 16),
      let a := s.barAddr pa
      (s.hostUp port.toNat = false → exec (.hostMemoryWrite port ⟨sp, pa⟩ bytes false) s = .next s ∧
        exec (.hostMemoryRead port ⟨sp, pa⟩ len rid) s = .next s) ∧
      (s.hostUp port.toNat = true → s.outHeld = [] → pa.toNat < 2 ^ 42 → s.beyond a = false →
        (s.lineBusy a bytes.length = false → bytes ≠ [] → bytes.length ≤ 512 → s.beyond (a + (bytes.length - 1)) = false → (∀ k, (s.line k).ft = none) →
          ∃ t, exec (.hostMemoryWrite port ⟨.bar2, pa⟩ bytes false) s = .next t ∧ memRead t.mem a bytes.length = bytes ∧
            (∀ b, b < a ∨ a + bytes.length ≤ b → memGet t.mem b = memGet s.mem b) ∧ t.core = s.core) ∧
        (len ≠ 0 → len.toNat ≤ 4096 → s.beyond (a + (len.toNat - 1)) = false → (s.outRead a len.toNat).2.2 = false →
          ∃ t, exec (.hostMemoryRead port ⟨.bar2, pa⟩ len rid) s = .next t ∧ t.mem = s.mem ∧
            t.sup.reply = .bytes (s.outRead a len.toNat).2.1 false)) ∧
      (s.hostUp port.toNat = true → s.outHeld = [] → pa.toNat % 8 = 0 →
        (pa.toNat < 2 ^ 29 → ∃ t, exec (.hostMemoryRead port ⟨.bar0, pa⟩ 8 rid) s = .next t ∧ t.mem = s.mem ∧
          t.sup.reply = .value (s.regRead (regAt pa.toNat))) ∧
        (pa.toNat / 65536 < 64 → pa.toNat % 65536 < 8224 → ∃ t, exec (.hostMemoryRead port ⟨.table, pa⟩ 8 rid) s = .next t ∧
          t.mem = s.mem ∧ t.sup.reply = .value (s.tableWord (pa.toNat / 65536) (pa.toNat % 65536))))) ∧
    (∀ nonce : W256, 
      let x := Config.signature nonce s.measures s.sup.level s.modNo
      exec (.attestationRequest nonce) s =
        .next (s.modSup fun u => { u with reply := Reply.signature x s.measures s.sup.level s.modNo })) ∧
    (∀ a b : ConfigCopy,
      (s.sup.level ≠ 0 → exec (.configRecordLoad a b) s = .next s) ∧
      (s.sup.level = 0 → ∃ t, exec (.configRecordLoad a b) s = .next t ∧ t.mem = s.mem ∧
        (a.verifies = false → b.verifies = false → t.sup.cfg = none ∧ t.sup.cfgerr = 1) ∧
        (a.verifies = true → b.verifies = false → recordOk a = true → t.sup.cfg = some a ∧ t.sup.cfgerr = 0) ∧
        (a.verifies = true → b.verifies = false → recordOk a = false → t.sup.cfg = none ∧ t.sup.cfgerr = 2))) ∧
    (s.sup.chg = false →
      (s.sup.level.toNat < s.sup.tgt.toNat → s.sup.cfg.isSome = true →
        ∀ domain, (∃ t, exec (.serviceLevelChange ⟨true, domain⟩) s = .next t ∧ t.sup.level = s.sup.level + 1 ∧
          t.sup.joining = (s.sup.joining || (s.sup.level == 0 && (domain || s.sup.links.any fun l => l.2.up && l.2.serving)))) ∧
        exec (.serviceLevelChange ⟨false, domain⟩) s = .next s) ∧
      (s.sup.level = s.sup.tgt → ∀ news, exec (.serviceLevelChange news) s = .next s)) ∧
    (∀ (port : BitVec 1) (cxl : Bool) (width : BitVec 5), width = 16 ∨ width = 8 ∨ width = 4 → s.sup.level ≠ 0 →
      exec (.hostLinkTraining port cxl width) s = .next (s.modSup fun u =>
        { u with ports := spPut u.ports port.toNat { up := true, cxl := cxl && port == 0, width, aer := s.aerOf port.toNat } })) ∧
    (∀ port : BitVec 1, ∃ t, exec (.surpriseDown port) s = .next t ∧ t.portUp port.toNat = false ∧ t.mem = s.mem ∧ t.t = s.t)

/-- R355, R357, R365, R367-R373: an uncorrectable error poisons its sector or its entry, and empties and marks its register; a scrub
corrects what it finds in its slice and changes nothing that is read; a lost die, and the die of a core with a second late edge,
are out of service, and a first one without a task holds the core two cycles; a replay release lets the task at the point's head
try again what waits; an interval end answers the oldest `hsnap`; intents are logged as far as the log has room, each with its
sectors, a commit writes its sector and counts under its intent, and settling poisons the sectors that were not committed. That the
log's 64 entries are intents and that a refused sector is over for its intent too are readings of log 59; what a lost part takes with it,
and what a scrub finds, are those of log 58. -/
def Obligations.FaultEvents : Prop :=
  ∀ s : State,
    (∀ pa : BitVec 57, ∃ t, exec (.eccUncorrectable (.memSector pa)) s = .next t ∧ pa.toNat / 256 ∈ t.memBad ∧ t.mem = s.mem ∧ t.t = s.t) ∧
    (∀ n : BitVec 9, ∃ t, exec (.eccUncorrectable (.hcwEntry n)) s = .next t ∧ n.toNat ∈ t.t.hcwBad ∧ t.mem = s.mem) ∧
    (∀ n : BitVec 6, n ≠ 0 → s.emptyAt (.s n) = false →
      ∃ t, exec (.eccUncorrectable (.sReg n)) s = .next t ∧ t.emptyAt (.s n) = true ∧ (t.markOf (.s n)).isSome = true ∧ t.mem = s.mem) ∧
    (∀ slice : BitVec 5, ∃ t, exec (.scrub slice) s = .next t ∧ t.mem = s.mem ∧ t.memBad = s.memBad ∧ t.cores = s.cores ∧
      ∀ x, x ∈ t.soft ↔ x ∈ s.soft ∧ ∀ pa, x.2 = .memSector pa → s.homeOf pa.toNat ≠ slice.toNat) ∧
    (∀ die : BitVec 6, (die.toNat ∈ s.sup.outDies → exec (.dieLoss die) s = .next s) ∧
      (die.toNat ∉ s.sup.outDies → ∃ t, exec (.dieLoss die) s = .next t ∧ die.toNat ∈ t.sup.outDies)) ∧
    (∃ t, exec (.lateEdgeReplay true) s = .next t ∧ s.core.id ∈ t.sup.outCores ∧ dieOf s.core.id ∈ t.sup.outDies) ∧
    (s.t.task = none → ∃ t, exec (.lateEdgeReplay false) s = .next t ∧ t.core.hold = s.core.hold + 2 ∧ t.mem = s.mem) ∧
    (∀ point : BitVec 11, (∀ c ∈ s.cores, c.t.sys.rpl = false) → exec (.replayRelease point) s = .next s) ∧
    (∀ (point : BitVec 11) (ctx id : Nat) (c : Ctx), s.ctxs = [(ctx, c)] → s.headCore ctx point.toNat = some id →
      exec (.replayRelease point) s = .next (s.onCore id State.retryAll)) ∧
    (s.t.q.hq = [] → exec .hashIntervalEnd s = .next s) ∧
    (∀ a as k c, s.t.q.hq = a :: as → s.t.task = some k → s.wroteAll = true → s.t.sys.log = false → s.t.sys.rpl = false →
      spFind s.ctxs k.ctx.toNat = some c →
      ∃ t, exec .hashIntervalEnd s = .next t ∧ t.t.q.hq = as ∧ t.emptyAt (.s a) = false) ∧
    (∀ (m : BitVec 8) (ss : List W64), m ≠ s.modNo → m ∉ s.sup.lost → ss ≠ [] → (∀ a ∈ ss, s.serves a.toNat 1 = true) →
      ((s.openIntents m).length < 64 → exec (.writeIntent m ss) s = .next (s.modSup fun u =>
        { u with intents := u.intents ++ [{ m, sectors := ss.map fun a => (a.toNat / 256, false) }] })) ∧
      (64 ≤ (s.openIntents m).length → exec (.writeIntent m ss) s = .next s)) ∧
    (∀ (m : BitVec 8) (a : W64) (bs : List Byte) (tm : Time) (ms : Bool) (ft : Option (BitVec 5)),
      (s.serves a.toNat bs.length = false → exec (.sectorCommit m a ⟨bs, tm, ms, ft⟩) s = .next s) ∧
      (s.serves a.toNat bs.length = true → m ≠ s.modNo → m ∉ s.sup.lost → a.toNat % 256 + bs.length ≤ 256 → s.outHeld = [] →
        s.lineBusy a.toNat bs.length = false →
        ∃ t, exec (.sectorCommit m a ⟨bs, tm, ms, ft⟩) s = .next t ∧ t.core = s.core ∧
          t.sup.intents = commitIn m (a.toNat / 256) s.sup.intents ∧
          (ms = true ∨ s.farAdmits a.toNat bs.length (ft.map (·.toNat)) = true →
            memRead t.mem a.toNat bs.length = bs ∧
              ∀ b, b < a.toNat ∨ a.toNat + bs.length ≤ b → memGet t.mem b = memGet s.mem b) ∧
          (ms = false → s.farAdmits a.toNat bs.length (ft.map (·.toNat)) = false →
            t.mem = s.mem ∧ t.sup.reply = .refused 0x0A))) ∧
    (∀ m : BitVec 8, ∃ t, exec (.intentSettle m) s = .next t ∧ (∀ i ∈ t.sup.intents, i.m ≠ m) ∧ t.mem = s.mem ∧
      ∀ i ∈ s.sup.intents, i.m = m → ∀ k, (k, false) ∈ i.sectors → k ∈ t.memBad)

/-- R231, R383-R386, R391-R395: Seam links deliver each flit once in its order and acknowledge it whatever it asks, refuse what is damaged
or out of it, replay, retrain after sixteen failed replays; the first lane that fails is spared, the second leaves the half that it is
not in, and a third takes the link down where that half has it, in either direction; a lane out of use has no further failure. A link
that the record gives (R388) comes up with its peer no longer lost (log 59), and one that has booted has lost its memory; a module lost is
recorded with its intents settled; the power cap, thermal thresholds and the tray latch act on steps, status and alerts. What is an event
here, with which operands, and the window of a lane's errors are log 82's choices, that an access from outside waits behind those held is
log 1's; what an average below the cap does, and which group is raised, are readings of log 61. -/
def Obligations.FabricEvents : Prop :=
  ∀ s : State,
    (∀ l : BitVec 6, l.toNat < 48 → (s.link1 l.toNat).up = true →
      let x := s.link1 l.toNat
      let put (y : Link) : State := s.modSup fun u => { u with links := spSet Link.down u.links l.toNat y }
      let answer (u : State) (r : Reply) : State := u.modSup fun v => { v with reply := r }
      (∀ lane : BitVec 5, s.outHeld = [] → exec (.flitReceive l x.num true ⟨lane, .none⟩) s =
        .next (answer (put { x.countFlit with num := x.num + 1, ackd := some x.num }) (.accepted x.num))) ∧
      (∀ flit : SeamFlit, s.outHeld = [] → s.lineBusy (seamWrites flit.msg).1 (seamWrites flit.msg).2 = false →
        ∃ t, exec (.flitReceive l x.num true flit) s = .next t ∧ t.sup.reply = .accepted x.num ∧
        (t.link1 l.toNat).num = x.num + 1 ∧ (t.link1 l.toNat).ackd = some x.num) ∧
      (∀ (num : BitVec 12) (lane : BitVec 5) (msg : SeamMsg), num ≠ x.num → exec (.flitReceive l num true ⟨lane, msg⟩) s =
        .next (answer (put x.countFlit) (if (x.num - num).toNat < 2048 then .accepted num else .nak x.num))) ∧
      (∀ (num : BitVec 12) (lane : BitVec 5) (msg : SeamMsg),
        let n := spGet 0 x.countFlit.laneErr lane.toNat + 1
        n ≤ 64 → exec (.flitReceive l num false ⟨lane, msg⟩) s = .next (answer (put { x.countFlit with
          crcerr := BitVec.ofNat 32 (min (x.crcerr.toNat + 1) (2 ^ 32 - 1))
          laneErr := spSet 0 x.countFlit.laneErr lane.toNat n }) (.nak x.num))) ∧
      (∀ num : BitVec 12, exec (.flitReplay l num) s = .next (put (x.replay num))) ∧
      (x.fails < 16 → ∀ ok, exec (.linkRetrain l ok) s = .next s) ∧
      (16 ≤ x.fails → exec (.linkRetrain l true) s = .next (put { x with fails := 0 }) ∧
        ∃ t, exec (.linkRetrain l false) s = .next t ∧ (t.link1 l.toNat).up = false ∧ t.sup.alert.getLsbD 3 = true) ∧
      (∀ lane : BitVec 5,
        let half (spared : BitVec 5) : Bool := decide (8 ≤ (if lane = 16 then spared else lane).toNat)
        let resent (y : Link) : Link := { y with retry := BitVec.ofNat 32 (min (x.retry.toNat + x.sent.length) (2 ^ 32 - 1)) }
        let downs (i : Instr) : Prop := ∃ t, exec i s = .next t ∧ (t.link1 l.toNat).up = false ∧ t.sup.alert.getLsbD 3 = true
        (16 < lane.toNat ∨ (x.spu = false ∧ lane = 16) ∨ (x.spu = true ∧ lane = x.splane) → exec (.laneSpare l ⟨lane, false⟩) s = .next s) ∧
        (x.spu = false → lane.toNat < 16 → exec (.laneSpare l ⟨lane, false⟩) s =
          .next (put { x with spu := true, splane := lane, laneErr := spErase x.laneErr lane.toNat })) ∧
        (x.spu = true → lane.toNat ≤ 16 → lane ≠ x.splane →
          (x.width = 2 → exec (.laneSpare l ⟨lane, false⟩) s =
            .next (put { x with width := 1, fails := 0, laneErr := [], high := !half x.splane })) ∧
          (x.width ≠ 2 → half x.splane = x.high → downs (.laneSpare l ⟨lane, false⟩)) ∧
          (x.width ≠ 2 → half x.splane ≠ x.high → exec (.laneSpare l ⟨lane, false⟩) s = .next s)) ∧
        (16 < lane.toNat ∨ (x.txSpare = false ∧ lane = 16) ∨ (x.txSpare = true ∧ lane = x.txLane) →
          exec (.laneSpare l ⟨lane, true⟩) s = .next s) ∧
        (x.txSpare = false → lane.toNat < 16 → exec (.laneSpare l ⟨lane, true⟩) s =
          .next (put (resent { x with txSpare := true, txLane := lane }))) ∧
        (x.txSpare = true → lane.toNat ≤ 16 → lane ≠ x.txLane →
          (x.txHalf = false → exec (.laneSpare l ⟨lane, true⟩) s =
            .next (put (resent { x with txHalf := true, fails := 0, txHigh := !half x.txLane }))) ∧
          (x.txHalf = true → half x.txLane = x.txHigh → downs (.laneSpare l ⟨lane, true⟩)) ∧
          (x.txHalf = true → half x.txLane ≠ x.txHigh → exec (.laneSpare l ⟨lane, true⟩) s = .next s)))) ∧
    (∀ (l : BitVec 6) (peer : BitVec 8) (plink : BitVec 6) (booted serving : Bool), l.toNat < 48 →
      let x := s.link1 l.toNat
      (s.linkGiven l peer = false → exec (.seamLinkUp l ⟨peer, booted, serving⟩ plink) s = .next s) ∧
      (s.linkGiven l peer = true → ∃ t, exec (.seamLinkUp l ⟨peer, booted, serving⟩ plink) s = .next t ∧
        (t.link1 l.toNat).up = true ∧ (t.link1 l.toNat).peer = peer ∧ (t.link1 l.toNat).width = 2 ∧
        ((∀ i, (s.link1 i).wait = []) → t.link1 l.toNat = { Link.down with
          peer, plink, up := true, width := 2, retry := x.retry, crcerr := x.crcerr, serving }) ∧
        peer ∉ t.sup.lost ∧ (booted = false → t.mem = s.mem) ∧
        (booted = true → t.mem = s.mem.filter fun c => isPeer c.1 || paModule c.1 != peer.toNat))) ∧
    (∀ m : BitVec 8, s.reaches m = false → m ≠ s.modNo → m ∉ s.sup.lost →
      ∃ t, exec (.moduleLost m) s = .next t ∧ m ∈ t.sup.lost ∧ t.sup.loss = true ∧ t.sup.alert.getLsbD 3 = true ∧
        ∀ i ∈ t.sup.intents, i.m ≠ m) ∧
    (∀ (avg : BitVec 16) (order : List (BitVec 3)) (calm : Bool),
      (s.sup.capEn = false ∨ (avg.toNat ≤ s.sup.cap.toNat ∧ calm = false) →
        exec (.powerCapTick avg order calm) s = .next (s.modSup fun u => { u with pwr := avg })) ∧
      (∀ l g r, s.sup.capEn = true → s.sup.cap.toNat < avg.toNat → order = l ++ g :: r → (∀ h ∈ l, 12 ≤ s.groupStep h.toNat) →
        s.groupStep g.toNat < 12 →
        ∃ t, exec (.powerCapTick avg order calm) s = .next t ∧ t.sup.pwr = avg ∧
          spGet 0 t.sup.steps g.toNat = spGet 0 s.sup.steps g.toNat + 1 ∧
          (∀ h : Nat, h ≠ g.toNat → spGet 0 t.sup.steps h = spGet 0 s.sup.steps h) ∧
          t.groupStep g.toNat = s.groupStep g.toNat + 1)) ∧
    (∀ group : BitVec 3, ∃ t, exec (.thermalThreshold group false) s = .next t ∧ t.sup.thermal.getLsbD group.toNat = true ∧
      t.sup.alert.getLsbD 1 = true ∧ t.mem = s.mem) ∧
    (∃ t, exec .trayLatchOpen s = .next t ∧ t.sup.latch = true ∧ (s.sup.arm = true → t.sup.quiesce = true) ∧
      t.sup.alert.getLsbD 2 = true ∧ t.mem = s.mem)

/-- R229-R231: logical time rises by one on every core at once; a floor exchange sets the floor to the least time seen; a joining
module starts every core at the floor it receives, once; power coming on leaves the state after reset (its values that no rule gives are
those of log 4), and off leaves nothing (log 1). -/
def Obligations.TimeAndPowerEvents : Prop :=
  ∀ s : State,
    (∃ t, exec .ltAdvance s = .next t ∧ t.core.lt = s.core.lt + 1 ∧ t.others.map (·.lt) = s.others.map (·.lt + 1) ∧ t.mem = s.mem ∧
      t.t = s.t) ∧
    (∀ peers : List Time, ∃ t, exec (.domainFloorExchange peers) s = .next t ∧ t.floor = s.floorOf peers ∧ t.mem = s.mem ∧
      t.core = s.core) ∧
    (∀ f : Time,
      (s.sup.joining = true → ∃ t, exec (.domainFloorJoin f) s = .next t ∧ (∀ c ∈ t.cores, c.lt = f) ∧ t.floor = f ∧
        t.sup.joining = false ∧ t.mem = s.mem) ∧
      (s.sup.joining = false → exec (.domainFloorJoin f) s = .next s)) ∧
    (s.power = true → exec .powerOn s = .next s) ∧
    (s.power = false → exec .powerOn s = .next { State.reset with agenda := s.agenda, fresh := s.fresh }) ∧
    exec .powerOff s = .next { State.reset with power := false, agenda := s.agenda, fresh := s.fresh }
end

