-- ==== Sys2Proof/Laws/Memory.lean ====
section
/-!
SUPPORT. Laws of the sparse tables and of memory: a read after a write, that a write leaves every other place alone, and that
every operation on memory keeps its canonical form.
-/
namespace Sys2Proof
variable {α : Type}

/-! ## Sorted tables -/

theorem spSorted_mono {t : Sp α} : ∀ {lo lo' : Nat}, spSorted lo t = true → lo' ≤ lo → spSorted lo' t = true := by
  intro lo lo' h hl
  cases t with
  | nil => rfl
  | cons c t =>
    simp only [spSorted, Bool.and_eq_true, decide_eq_true_eq] at h ⊢
    exact ⟨by omega, h.2⟩

theorem spErase_sorted {t : Sp α} (i : Nat) : ∀ {lo : Nat}, spSorted lo t = true → spSorted lo (spErase t i) = true := by
  induction t with
  | nil => intros; rfl
  | cons c t ih =>
    obtain ⟨k, v⟩ := c
    intro lo h
    simp only [spSorted, Bool.and_eq_true, decide_eq_true_eq] at h
    simp only [spErase]
    split
    · exact spSorted_mono (ih h.2) (by omega)
    · simp [spSorted, h.1, ih h.2]

theorem spPut_sorted {t : Sp α} (i : Nat) (x : α) :
    ∀ {lo : Nat}, spSorted lo t = true → lo ≤ i → spSorted lo (spPut t i x) = true := by
  induction t with
  | nil => intro lo _ hl; simp [spPut, spSorted, hl]
  | cons c t ih =>
    obtain ⟨k, v⟩ := c
    intro lo h hl
    simp only [spSorted, Bool.and_eq_true, decide_eq_true_eq] at h
    simp only [spPut]
    split
    · rename_i he; subst he; simp [spSorted, hl, h.2]
    · split
      · simp [spSorted, hl, h.2, show i + 1 ≤ k by omega]
      · simp [spSorted, h.1, ih h.2 (show k + 1 ≤ i by omega)]

theorem spFind_erase (t : Sp α) (i j : Nat) : spFind (spErase t i) j = if j = i then none else spFind t j := by
  induction t with
  | nil => simp [spErase, spFind]
  | cons c t ih =>
    obtain ⟨k, v⟩ := c
    simp only [spErase]
    split
    · rename_i he; subst he
      rw [ih]
      by_cases hj : j = i <;> simp [hj, spFind]
    · rename_i he
      simp only [spFind, ih]
      by_cases hj : j = i
      · subst hj; simp [he]
      · simp [hj]

theorem spFind_put (t : Sp α) (i j : Nat) (x : α) : spFind (spPut t i x) j = if j = i then some x else spFind t j := by
  induction t with
  | nil => simp [spPut, spFind]
  | cons c t ih =>
    obtain ⟨k, v⟩ := c
    simp only [spPut]
    split
    · rename_i he; subst he
      simp only [spFind]
      split <;> simp_all
    · rename_i he
      split
      · simp [spFind]
      · simp only [spFind, ih]
        by_cases hj : j = i
        · subst hj; simp [he]
        · simp [hj]

/-- A read of a table after a write. -/
theorem spGet_spSet [DecidableEq α] (d : α) (t : Sp α) (i j : Nat) (x : α) :
    spGet d (spSet d t i x) j = if j = i then x else spGet d t j := by
  simp only [spGet, spSet]
  split
  · rename_i hx
    rw [spFind_erase]
    split <;> simp [hx]
  · rw [spFind_put]
    split <;> simp

theorem spSet_sorted [DecidableEq α] (d : α) {t : Sp α} (h : spSorted 0 t = true) (i : Nat) (x : α) :
    spSorted 0 (spSet d t i x) = true := by
  simp only [spSet]
  split
  · exact spErase_sorted i h
  · exact spPut_sorted i x h (Nat.zero_le _)

theorem spErase_mem {t : Sp α} {i : Nat} {c : Nat × α} (h : c ∈ spErase t i) : c ∈ t := by
  induction t with
  | nil => exact h
  | cons b t ih =>
    obtain ⟨k, v⟩ := b
    simp only [spErase] at h
    split at h
    · exact List.mem_cons_of_mem _ (ih h)
    · rcases List.mem_cons.mp h with h | h
      · exact h ▸ List.mem_cons_self ..
      · exact List.mem_cons_of_mem _ (ih h)

theorem spPut_mem {t : Sp α} {i : Nat} {x : α} {c : Nat × α} (h : c ∈ spPut t i x) : c = (i, x) ∨ c ∈ t := by
  induction t with
  | nil => simpa [spPut] using h
  | cons b t ih =>
    obtain ⟨k, v⟩ := b
    simp only [spPut] at h
    split at h
    · rename_i he
      rcases List.mem_cons.mp h with h | h
      · exact .inl (by rw [h, he])
      · exact .inr (List.mem_cons_of_mem _ h)
    · split at h
      · rcases List.mem_cons.mp h with h | h
        · exact .inl h
        · exact .inr h
      · rcases List.mem_cons.mp h with h | h
        · exact .inr (h ▸ List.mem_cons_self ..)
        · exact (ih h).imp id (List.mem_cons_of_mem _)

end Sys2Proof

namespace Sys2Proof.Machine
open Sys2Proof

/-! ## Memory -/

theorem Memory.wf_iff (m : List Host.Cell) :
    Memory.wf m = true ↔ spSorted 0 m = true ∧ ∀ c ∈ m, c.2 ≠ memDefault := by
  simp [Memory.wf, List.all_eq_true]

theorem Memory.wf_sorted {m : List Host.Cell} (h : Memory.wf m = true) : spSorted 0 m = true :=
  ((Memory.wf_iff m).mp h).1

@[simp] theorem Memory.wf_nil : Memory.wf [] = true := rfl

theorem memSet_wf {m : List Host.Cell} (h : Memory.wf m = true) (a : Nat) (b : Byte) : Memory.wf (memSet m a b) = true := by
  rw [Memory.wf_iff] at h ⊢
  refine ⟨spSet_sorted _ h.1 a b, ?_⟩
  intro c hc
  simp only [memSet, spSet] at hc
  split at hc
  · exact h.2 c (spErase_mem hc)
  · rcases spPut_mem hc with rfl | hc
    · assumption
    · exact h.2 c hc

/-- A read after a write of one byte. -/
theorem memGet_memSet (m : List Host.Cell) (a : Nat) (b : Byte) (i : Nat) :
    memGet (memSet m a b) i = if i = a then b else memGet m i :=
  spGet_spSet memDefault m a i b

theorem memWrite_wf {m : List Host.Cell} (h : Memory.wf m = true) (a : Nat) (bs : List Byte) :
    Memory.wf (memWrite m a bs) = true := by
  induction bs generalizing m a with
  | nil => exact h
  | cons b bs ih => exact ih (memSet_wf h a b) (a + 1)

/-- A read after a write of bytes: the bytes written inside their range, what stood there outside it. -/
theorem memGet_memWrite (m : List Host.Cell) (a : Nat) (bs : List Byte) (i : Nat) :
    memGet (memWrite m a bs) i = if a ≤ i ∧ i < a + bs.length then bs.getD (i - a) 0 else memGet m i := by
  induction bs generalizing m a with
  | nil => simp [memWrite, show ¬(a ≤ i ∧ i < a) by omega]
  | cons b bs ih =>
    simp only [memWrite, ih (memSet m a b) (a + 1), memGet_memSet, List.length_cons]
    by_cases h1 : i = a
    · subst h1
      simp [show ¬(i + 1 ≤ i) by omega]
    · by_cases h2 : a + 1 ≤ i ∧ i < a + 1 + bs.length
      · have h3 : i - a = (i - (a + 1)) + 1 := by omega
        simp [h2, h3, show a ≤ i by omega, show i < a + (bs.length + 1) by omega]
      · rw [if_neg h2, if_neg h1, if_neg (show ¬(a ≤ i ∧ i < a + (bs.length + 1)) by omega)]

theorem memGet_memWrite_outside (m : List Host.Cell) {a i : Nat} {bs : List Byte}
    (hi : i < a ∨ a + bs.length ≤ i) : memGet (memWrite m a bs) i = memGet m i := by
  rw [memGet_memWrite, if_neg (by omega)]

/-- The bytes written are the bytes read back. -/
theorem memRead_memWrite (m : List Host.Cell) (a : Nat) (bs : List Byte) : memRead (memWrite m a bs) a bs.length = bs := by
  suffices h : ∀ (m : List Host.Cell) (k : Nat), k ≤ bs.length → (∀ i, k ≤ i → i < bs.length → memGet m (a + i) = bs.getD i 0) →
      memRead m (a + k) (bs.length - k) = bs.drop k by
    simpa using h (memWrite m a bs) 0 (Nat.zero_le _) fun i _ hi => by
      rw [memGet_memWrite, if_pos (by omega)]; simp
  intro m k hk hg
  generalize hn : bs.length - k = n
  induction n generalizing k with
  | zero => simp [memRead, List.drop_eq_nil_of_le (show bs.length ≤ k by omega)]
  | succ n ih =>
    rw [memRead, hg k (Nat.le_refl _) (by omega), List.drop_eq_getElem_cons (show k < bs.length by omega)]
    simp only [List.getD_eq_getElem?_getD, List.getElem?_eq_getElem (show k < bs.length by omega), Option.getD_some]
    rw [← ih (k + 1) (by omega) (fun i h1 h2 => hg i (by omega) h2) (by omega)]; rfl

@[simp] theorem memRead_length (m : List Host.Cell) (a n : Nat) : (memRead m a n).length = n := by
  induction n generalizing a with
  | zero => rfl
  | succ n ih => simp [memRead, ih]

theorem filter_sorted {t : Sp α} (p : Nat × α → Bool) : ∀ {lo : Nat}, spSorted lo t = true → spSorted lo (t.filter p) = true := by
  induction t with
  | nil => intros; rfl
  | cons c t ih =>
    obtain ⟨k, v⟩ := c
    intro lo h
    simp only [spSorted, Bool.and_eq_true, decide_eq_true_eq] at h
    simp only [List.filter_cons]
    split
    · simp [spSorted, h.1, ih h.2]
    · exact spSorted_mono (ih h.2) (by omega)

theorem memFilter_wf {m : List Host.Cell} (h : Memory.wf m = true) (p : Host.Cell → Bool) : Memory.wf (m.filter p) = true := by
  rw [Memory.wf_iff] at h ⊢
  exact ⟨filter_sorted _ h.1, fun c hc => h.2 c ((List.mem_filter.mp hc).1)⟩

theorem memDrop_wf {m : List Host.Cell} (h : Memory.wf m = true) (a n : Nat) : Memory.wf (memDrop m a n) = true :=
  memFilter_wf h _

theorem foldl_keeps {β γ : Type} (p : β → Prop) (f : β → γ → β) (hf : ∀ b c, p b → p (f b c)) :
    ∀ (l : List γ) (b : β), p b → p (l.foldl f b)
  | [], _, h => h
  | c :: l, b, h => foldl_keeps p f hf l (f b c) (hf b c h)

/-- A property that every step of a fold over pairs keeps of the first component. -/
theorem foldl_pair {β γ δ : Type} (p : β → Prop) (f : β × δ → γ → β × δ) (hf : ∀ b d c, p b → p (f (b, d) c).1) :
    ∀ (l : List γ) (b : β × δ), p b.1 → p (l.foldl f b).1
  | [], _, h => h
  | c :: l, (b, d), h => foldl_pair p f hf l (f (b, d) c) (hf b d c h)

theorem memOverlay_wf {m : List Host.Cell} (h : Memory.wf m = true) (a n : Nat) (src : Sp Byte) :
    Memory.wf (memOverlay m a n src) = true :=
  foldl_keeps (fun m => Memory.wf m = true) _ (fun _ c hm => memSet_wf hm (a + c.1) c.2) _ _ (memDrop_wf h a n)

/-! ## The state's writes -/

theorem State.wr_memOk {s : State} (h : s.MemOk) (pa : Nat) (bs : List Byte) : (s.wr pa bs).MemOk := memWrite_wf h pa bs

theorem State.wrBad_memOk {s : State} (h : s.MemOk) (pa : Nat) (bs : List Byte) : (s.wrBad pa bs).MemOk := memWrite_wf h pa bs

/-! ## Folds over states -/

theorem foldl_mem {γ : Type} {m : List Host.Cell} (f : State → γ → State) (hf : ∀ u c, u.mem = m → (f u c).mem = m) (l : List γ)
    (s : State) (h : s.mem = m) : (l.foldl f s).mem = m :=
  foldl_keeps (fun u : State => u.mem = m) f hf l s h

theorem foldl_wf {γ : Type} (f : State → γ → State)
    (hf : ∀ u c, Memory.wf u.mem = true → Memory.wf (f u c).mem = true) (l : List γ) (s : State)
    (h : Memory.wf s.mem = true) : Memory.wf (l.foldl f s).mem = true :=
  foldl_keeps (fun u : State => Memory.wf u.mem = true) f hf l s h

theorem ite_wf {p : Prop} [Decidable p] {a b : State} (ha : Memory.wf a.mem = true) (hb : Memory.wf b.mem = true) :
    Memory.wf (if p then a else b).mem = true := by
  split
  · exact ha
  · exact hb

theorem foldl_pair_mem {γ δ : Type} {m : List Host.Cell} (f : State × δ → γ → State × δ)
    (hf : ∀ u d c, u.mem = m → (f (u, d) c).1.mem = m) (l : List γ) (s : State × δ) (h : s.1.mem = m) :
    (l.foldl f s).1.mem = m :=
  foldl_pair (fun u : State => u.mem = m) f hf l s h

theorem foldl_pair_wf {γ δ : Type} (f : State × δ → γ → State × δ)
    (hf : ∀ u d c, Memory.wf u.mem = true → Memory.wf (f (u, d) c).1.mem = true) (l : List γ) (s : State × δ)
    (h : Memory.wf s.1.mem = true) : Memory.wf (l.foldl f s).1.mem = true :=
  foldl_pair (fun u : State => Memory.wf u.mem = true) f hf l s h

end Sys2Proof.Machine
end

