-- ==== Sys2Proof/Laws/State.lean ====
section
/-!
SUPPORT. What each named update of the state leaves as it was and what it changes: one lemma per field per update, true by
unfolding, so that no proof unfolds a record update.
-/
namespace Sys2Proof.Machine
open Sys2Proof

/-! ## modify the task span -/

@[simp] theorem State.modT_power (s : State) (f : TaskSpan → TaskSpan) : (s.modT f).power = s.power := rfl
@[simp] theorem State.modT_cyc (s : State) (f : TaskSpan → TaskSpan) : (s.modT f).cyc = s.cyc := rfl
@[simp] theorem State.modT_others (s : State) (f : TaskSpan → TaskSpan) : (s.modT f).others = s.others := rfl
@[simp] theorem State.modT_mem (s : State) (f : TaskSpan → TaskSpan) : (s.modT f).mem = s.mem := rfl
@[simp] theorem State.modT_memBad (s : State) (f : TaskSpan → TaskSpan) : (s.modT f).memBad = s.memBad := rfl
@[simp] theorem State.modT_lines (s : State) (f : TaskSpan → TaskSpan) : (s.modT f).lines = s.lines := rfl
@[simp] theorem State.modT_mt (s : State) (f : TaskSpan → TaskSpan) : (s.modT f).mt = s.mt := rfl
@[simp] theorem State.modT_ut (s : State) (f : TaskSpan → TaskSpan) : (s.modT f).ut = s.ut := rfl
@[simp] theorem State.modT_floor (s : State) (f : TaskSpan → TaskSpan) : (s.modT f).floor = s.floor := rfl
@[simp] theorem State.modT_idleLt (s : State) (f : TaskSpan → TaskSpan) : (s.modT f).idleLt = s.idleLt := rfl
@[simp] theorem State.modT_ptags (s : State) (f : TaskSpan → TaskSpan) : (s.modT f).ptags = s.ptags := rfl
@[simp] theorem State.modT_ctxs (s : State) (f : TaskSpan → TaskSpan) : (s.modT f).ctxs = s.ctxs := rfl
@[simp] theorem State.modT_groups (s : State) (f : TaskSpan → TaskSpan) : (s.modT f).groups = s.groups := rfl
@[simp] theorem State.modT_images (s : State) (f : TaskSpan → TaskSpan) : (s.modT f).images = s.images := rfl
@[simp] theorem State.modT_ready (s : State) (f : TaskSpan → TaskSpan) : (s.modT f).ready = s.ready := rfl
@[simp] theorem State.modT_helds (s : State) (f : TaskSpan → TaskSpan) : (s.modT f).helds = s.helds := rfl
@[simp] theorem State.modT_token (s : State) (f : TaskSpan → TaskSpan) : (s.modT f).token = s.token := rfl
@[simp] theorem State.modT_topiary (s : State) (f : TaskSpan → TaskSpan) : (s.modT f).topiary = s.topiary := rfl
@[simp] theorem State.modT_outHeld (s : State) (f : TaskSpan → TaskSpan) : (s.modT f).outHeld = s.outHeld := rfl
@[simp] theorem State.modT_topTlb (s : State) (f : TaskSpan → TaskSpan) : (s.modT f).topTlb = s.topTlb := rfl
@[simp] theorem State.modT_subst (s : State) (f : TaskSpan → TaskSpan) : (s.modT f).subst = s.subst := rfl
@[simp] theorem State.modT_yoke (s : State) (f : TaskSpan → TaskSpan) : (s.modT f).yoke = s.yoke := rfl
@[simp] theorem State.modT_seqs (s : State) (f : TaskSpan → TaskSpan) : (s.modT f).seqs = s.seqs := rfl
@[simp] theorem State.modT_sup (s : State) (f : TaskSpan → TaskSpan) : (s.modT f).sup = s.sup := rfl
@[simp] theorem State.modT_agenda (s : State) (f : TaskSpan → TaskSpan) : (s.modT f).agenda = s.agenda := rfl
@[simp] theorem State.modT_fresh (s : State) (f : TaskSpan → TaskSpan) : (s.modT f).fresh = s.fresh := rfl
@[simp] theorem State.modT_subs (s : State) (f : TaskSpan → TaskSpan) : (s.modT f).subs = s.subs := rfl
@[simp] theorem State.modT_subNo (s : State) (f : TaskSpan → TaskSpan) : (s.modT f).subNo = s.subNo := rfl
@[simp] theorem State.modT_tokenQ (s : State) (f : TaskSpan → TaskSpan) : (s.modT f).tokenQ = s.tokenQ := rfl
@[simp] theorem State.modT_placedAt (s : State) (f : TaskSpan → TaskSpan) : (s.modT f).placedAt = s.placedAt := rfl
@[simp] theorem State.modT_soft (s : State) (f : TaskSpan → TaskSpan) : (s.modT f).soft = s.soft := rfl
@[simp] theorem State.modT_core_id (s : State) (f : TaskSpan → TaskSpan) : (s.modT f).core.id = s.core.id := rfl
@[simp] theorem State.modT_core_lt (s : State) (f : TaskSpan → TaskSpan) : (s.modT f).core.lt = s.core.lt := rfl
@[simp] theorem State.modT_core_st (s : State) (f : TaskSpan → TaskSpan) : (s.modT f).core.st = s.core.st := rfl
@[simp] theorem State.modT_core_l1 (s : State) (f : TaskSpan → TaskSpan) : (s.modT f).core.l1 = s.core.l1 := rfl
@[simp] theorem State.modT_core_icache (s : State) (f : TaskSpan → TaskSpan) : (s.modT f).core.icache = s.core.icache := rfl
@[simp] theorem State.modT_core_tlb (s : State) (f : TaskSpan → TaskSpan) : (s.modT f).core.tlb = s.core.tlb := rfl
@[simp] theorem State.modT_core_tlbY (s : State) (f : TaskSpan → TaskSpan) : (s.modT f).core.tlbY = s.core.tlbY := rfl
@[simp] theorem State.modT_core_tlbT (s : State) (f : TaskSpan → TaskSpan) : (s.modT f).core.tlbT = s.core.tlbT := rfl
@[simp] theorem State.modT_core_ctl (s : State) (f : TaskSpan → TaskSpan) : (s.modT f).core.ctl = s.core.ctl := rfl
@[simp] theorem State.modT_core_acted (s : State) (f : TaskSpan → TaskSpan) : (s.modT f).core.acted = s.core.acted := rfl
@[simp] theorem State.modT_core_defer (s : State) (f : TaskSpan → TaskSpan) : (s.modT f).core.defer = s.core.defer := rfl
@[simp] theorem State.modT_core_hold (s : State) (f : TaskSpan → TaskSpan) : (s.modT f).core.hold = s.core.hold := rfl
@[simp] theorem State.modT_t (s : State) (f : TaskSpan → TaskSpan) : (s.modT f).t = f s.t := rfl

/-! ## modify the regs -/

@[simp] theorem State.modRegs_power (s : State) (f : Regs → Regs) : (s.modRegs f).power = s.power := rfl
@[simp] theorem State.modRegs_cyc (s : State) (f : Regs → Regs) : (s.modRegs f).cyc = s.cyc := rfl
@[simp] theorem State.modRegs_others (s : State) (f : Regs → Regs) : (s.modRegs f).others = s.others := rfl
@[simp] theorem State.modRegs_mem (s : State) (f : Regs → Regs) : (s.modRegs f).mem = s.mem := rfl
@[simp] theorem State.modRegs_memBad (s : State) (f : Regs → Regs) : (s.modRegs f).memBad = s.memBad := rfl
@[simp] theorem State.modRegs_lines (s : State) (f : Regs → Regs) : (s.modRegs f).lines = s.lines := rfl
@[simp] theorem State.modRegs_mt (s : State) (f : Regs → Regs) : (s.modRegs f).mt = s.mt := rfl
@[simp] theorem State.modRegs_ut (s : State) (f : Regs → Regs) : (s.modRegs f).ut = s.ut := rfl
@[simp] theorem State.modRegs_floor (s : State) (f : Regs → Regs) : (s.modRegs f).floor = s.floor := rfl
@[simp] theorem State.modRegs_idleLt (s : State) (f : Regs → Regs) : (s.modRegs f).idleLt = s.idleLt := rfl
@[simp] theorem State.modRegs_ptags (s : State) (f : Regs → Regs) : (s.modRegs f).ptags = s.ptags := rfl
@[simp] theorem State.modRegs_ctxs (s : State) (f : Regs → Regs) : (s.modRegs f).ctxs = s.ctxs := rfl
@[simp] theorem State.modRegs_groups (s : State) (f : Regs → Regs) : (s.modRegs f).groups = s.groups := rfl
@[simp] theorem State.modRegs_images (s : State) (f : Regs → Regs) : (s.modRegs f).images = s.images := rfl
@[simp] theorem State.modRegs_ready (s : State) (f : Regs → Regs) : (s.modRegs f).ready = s.ready := rfl
@[simp] theorem State.modRegs_helds (s : State) (f : Regs → Regs) : (s.modRegs f).helds = s.helds := rfl
@[simp] theorem State.modRegs_token (s : State) (f : Regs → Regs) : (s.modRegs f).token = s.token := rfl
@[simp] theorem State.modRegs_topiary (s : State) (f : Regs → Regs) : (s.modRegs f).topiary = s.topiary := rfl
@[simp] theorem State.modRegs_outHeld (s : State) (f : Regs → Regs) : (s.modRegs f).outHeld = s.outHeld := rfl
@[simp] theorem State.modRegs_topTlb (s : State) (f : Regs → Regs) : (s.modRegs f).topTlb = s.topTlb := rfl
@[simp] theorem State.modRegs_subst (s : State) (f : Regs → Regs) : (s.modRegs f).subst = s.subst := rfl
@[simp] theorem State.modRegs_yoke (s : State) (f : Regs → Regs) : (s.modRegs f).yoke = s.yoke := rfl
@[simp] theorem State.modRegs_seqs (s : State) (f : Regs → Regs) : (s.modRegs f).seqs = s.seqs := rfl
@[simp] theorem State.modRegs_sup (s : State) (f : Regs → Regs) : (s.modRegs f).sup = s.sup := rfl
@[simp] theorem State.modRegs_agenda (s : State) (f : Regs → Regs) : (s.modRegs f).agenda = s.agenda := rfl
@[simp] theorem State.modRegs_fresh (s : State) (f : Regs → Regs) : (s.modRegs f).fresh = s.fresh := rfl
@[simp] theorem State.modRegs_subs (s : State) (f : Regs → Regs) : (s.modRegs f).subs = s.subs := rfl
@[simp] theorem State.modRegs_subNo (s : State) (f : Regs → Regs) : (s.modRegs f).subNo = s.subNo := rfl
@[simp] theorem State.modRegs_tokenQ (s : State) (f : Regs → Regs) : (s.modRegs f).tokenQ = s.tokenQ := rfl
@[simp] theorem State.modRegs_placedAt (s : State) (f : Regs → Regs) : (s.modRegs f).placedAt = s.placedAt := rfl
@[simp] theorem State.modRegs_soft (s : State) (f : Regs → Regs) : (s.modRegs f).soft = s.soft := rfl
@[simp] theorem State.modRegs_core_id (s : State) (f : Regs → Regs) : (s.modRegs f).core.id = s.core.id := rfl
@[simp] theorem State.modRegs_core_lt (s : State) (f : Regs → Regs) : (s.modRegs f).core.lt = s.core.lt := rfl
@[simp] theorem State.modRegs_core_st (s : State) (f : Regs → Regs) : (s.modRegs f).core.st = s.core.st := rfl
@[simp] theorem State.modRegs_core_l1 (s : State) (f : Regs → Regs) : (s.modRegs f).core.l1 = s.core.l1 := rfl
@[simp] theorem State.modRegs_core_icache (s : State) (f : Regs → Regs) : (s.modRegs f).core.icache = s.core.icache := rfl
@[simp] theorem State.modRegs_core_tlb (s : State) (f : Regs → Regs) : (s.modRegs f).core.tlb = s.core.tlb := rfl
@[simp] theorem State.modRegs_core_tlbY (s : State) (f : Regs → Regs) : (s.modRegs f).core.tlbY = s.core.tlbY := rfl
@[simp] theorem State.modRegs_core_tlbT (s : State) (f : Regs → Regs) : (s.modRegs f).core.tlbT = s.core.tlbT := rfl
@[simp] theorem State.modRegs_core_ctl (s : State) (f : Regs → Regs) : (s.modRegs f).core.ctl = s.core.ctl := rfl
@[simp] theorem State.modRegs_core_acted (s : State) (f : Regs → Regs) : (s.modRegs f).core.acted = s.core.acted := rfl
@[simp] theorem State.modRegs_core_defer (s : State) (f : Regs → Regs) : (s.modRegs f).core.defer = s.core.defer := rfl
@[simp] theorem State.modRegs_core_hold (s : State) (f : Regs → Regs) : (s.modRegs f).core.hold = s.core.hold := rfl
@[simp] theorem State.modRegs_t_task (s : State) (f : Regs → Regs) : (s.modRegs f).t.task = s.t.task := rfl
@[simp] theorem State.modRegs_t_regs (s : State) (f : Regs → Regs) : (s.modRegs f).t.regs = f s.t.regs := rfl
@[simp] theorem State.modRegs_t_flags (s : State) (f : Regs → Regs) : (s.modRegs f).t.flags = s.t.flags := rfl
@[simp] theorem State.modRegs_t_sys (s : State) (f : Regs → Regs) : (s.modRegs f).t.sys = s.t.sys := rfl
@[simp] theorem State.modRegs_t_ctl (s : State) (f : Regs → Regs) : (s.modRegs f).t.ctl = s.t.ctl := rfl
@[simp] theorem State.modRegs_t_mat (s : State) (f : Regs → Regs) : (s.modRegs f).t.mat = s.t.mat := rfl
@[simp] theorem State.modRegs_t_q (s : State) (f : Regs → Regs) : (s.modRegs f).t.q = s.t.q := rfl
@[simp] theorem State.modRegs_t_eng (s : State) (f : Regs → Regs) : (s.modRegs f).t.eng = s.t.eng := rfl
@[simp] theorem State.modRegs_t_hcw (s : State) (f : Regs → Regs) : (s.modRegs f).t.hcw = s.t.hcw := rfl
@[simp] theorem State.modRegs_t_hcwBad (s : State) (f : Regs → Regs) : (s.modRegs f).t.hcwBad = s.t.hcwBad := rfl
@[simp] theorem State.modRegs_t_hcwFault (s : State) (f : Regs → Regs) : (s.modRegs f).t.hcwFault = s.t.hcwFault := rfl
@[simp] theorem State.modRegs_t_scratch (s : State) (f : Regs → Regs) : (s.modRegs f).t.scratch = s.t.scratch := rfl
@[simp] theorem State.modRegs_t_scratchBad (s : State) (f : Regs → Regs) : (s.modRegs f).t.scratchBad = s.t.scratchBad := rfl

/-! ## modify the flags -/

@[simp] theorem State.modFlags_power (s : State) (f : FlagFile → FlagFile) : (s.modFlags f).power = s.power := rfl
@[simp] theorem State.modFlags_cyc (s : State) (f : FlagFile → FlagFile) : (s.modFlags f).cyc = s.cyc := rfl
@[simp] theorem State.modFlags_others (s : State) (f : FlagFile → FlagFile) : (s.modFlags f).others = s.others := rfl
@[simp] theorem State.modFlags_mem (s : State) (f : FlagFile → FlagFile) : (s.modFlags f).mem = s.mem := rfl
@[simp] theorem State.modFlags_memBad (s : State) (f : FlagFile → FlagFile) : (s.modFlags f).memBad = s.memBad := rfl
@[simp] theorem State.modFlags_lines (s : State) (f : FlagFile → FlagFile) : (s.modFlags f).lines = s.lines := rfl
@[simp] theorem State.modFlags_mt (s : State) (f : FlagFile → FlagFile) : (s.modFlags f).mt = s.mt := rfl
@[simp] theorem State.modFlags_ut (s : State) (f : FlagFile → FlagFile) : (s.modFlags f).ut = s.ut := rfl
@[simp] theorem State.modFlags_floor (s : State) (f : FlagFile → FlagFile) : (s.modFlags f).floor = s.floor := rfl
@[simp] theorem State.modFlags_idleLt (s : State) (f : FlagFile → FlagFile) : (s.modFlags f).idleLt = s.idleLt := rfl
@[simp] theorem State.modFlags_ptags (s : State) (f : FlagFile → FlagFile) : (s.modFlags f).ptags = s.ptags := rfl
@[simp] theorem State.modFlags_ctxs (s : State) (f : FlagFile → FlagFile) : (s.modFlags f).ctxs = s.ctxs := rfl
@[simp] theorem State.modFlags_groups (s : State) (f : FlagFile → FlagFile) : (s.modFlags f).groups = s.groups := rfl
@[simp] theorem State.modFlags_images (s : State) (f : FlagFile → FlagFile) : (s.modFlags f).images = s.images := rfl
@[simp] theorem State.modFlags_ready (s : State) (f : FlagFile → FlagFile) : (s.modFlags f).ready = s.ready := rfl
@[simp] theorem State.modFlags_helds (s : State) (f : FlagFile → FlagFile) : (s.modFlags f).helds = s.helds := rfl
@[simp] theorem State.modFlags_token (s : State) (f : FlagFile → FlagFile) : (s.modFlags f).token = s.token := rfl
@[simp] theorem State.modFlags_topiary (s : State) (f : FlagFile → FlagFile) : (s.modFlags f).topiary = s.topiary := rfl
@[simp] theorem State.modFlags_outHeld (s : State) (f : FlagFile → FlagFile) : (s.modFlags f).outHeld = s.outHeld := rfl
@[simp] theorem State.modFlags_topTlb (s : State) (f : FlagFile → FlagFile) : (s.modFlags f).topTlb = s.topTlb := rfl
@[simp] theorem State.modFlags_subst (s : State) (f : FlagFile → FlagFile) : (s.modFlags f).subst = s.subst := rfl
@[simp] theorem State.modFlags_yoke (s : State) (f : FlagFile → FlagFile) : (s.modFlags f).yoke = s.yoke := rfl
@[simp] theorem State.modFlags_seqs (s : State) (f : FlagFile → FlagFile) : (s.modFlags f).seqs = s.seqs := rfl
@[simp] theorem State.modFlags_sup (s : State) (f : FlagFile → FlagFile) : (s.modFlags f).sup = s.sup := rfl
@[simp] theorem State.modFlags_agenda (s : State) (f : FlagFile → FlagFile) : (s.modFlags f).agenda = s.agenda := rfl
@[simp] theorem State.modFlags_fresh (s : State) (f : FlagFile → FlagFile) : (s.modFlags f).fresh = s.fresh := rfl
@[simp] theorem State.modFlags_subs (s : State) (f : FlagFile → FlagFile) : (s.modFlags f).subs = s.subs := rfl
@[simp] theorem State.modFlags_subNo (s : State) (f : FlagFile → FlagFile) : (s.modFlags f).subNo = s.subNo := rfl
@[simp] theorem State.modFlags_tokenQ (s : State) (f : FlagFile → FlagFile) : (s.modFlags f).tokenQ = s.tokenQ := rfl
@[simp] theorem State.modFlags_placedAt (s : State) (f : FlagFile → FlagFile) : (s.modFlags f).placedAt = s.placedAt := rfl
@[simp] theorem State.modFlags_soft (s : State) (f : FlagFile → FlagFile) : (s.modFlags f).soft = s.soft := rfl
@[simp] theorem State.modFlags_core_id (s : State) (f : FlagFile → FlagFile) : (s.modFlags f).core.id = s.core.id := rfl
@[simp] theorem State.modFlags_core_lt (s : State) (f : FlagFile → FlagFile) : (s.modFlags f).core.lt = s.core.lt := rfl
@[simp] theorem State.modFlags_core_st (s : State) (f : FlagFile → FlagFile) : (s.modFlags f).core.st = s.core.st := rfl
@[simp] theorem State.modFlags_core_l1 (s : State) (f : FlagFile → FlagFile) : (s.modFlags f).core.l1 = s.core.l1 := rfl
@[simp] theorem State.modFlags_core_icache (s : State) (f : FlagFile → FlagFile) : (s.modFlags f).core.icache = s.core.icache := rfl
@[simp] theorem State.modFlags_core_tlb (s : State) (f : FlagFile → FlagFile) : (s.modFlags f).core.tlb = s.core.tlb := rfl
@[simp] theorem State.modFlags_core_tlbY (s : State) (f : FlagFile → FlagFile) : (s.modFlags f).core.tlbY = s.core.tlbY := rfl
@[simp] theorem State.modFlags_core_tlbT (s : State) (f : FlagFile → FlagFile) : (s.modFlags f).core.tlbT = s.core.tlbT := rfl
@[simp] theorem State.modFlags_core_ctl (s : State) (f : FlagFile → FlagFile) : (s.modFlags f).core.ctl = s.core.ctl := rfl
@[simp] theorem State.modFlags_core_acted (s : State) (f : FlagFile → FlagFile) : (s.modFlags f).core.acted = s.core.acted := rfl
@[simp] theorem State.modFlags_core_defer (s : State) (f : FlagFile → FlagFile) : (s.modFlags f).core.defer = s.core.defer := rfl
@[simp] theorem State.modFlags_core_hold (s : State) (f : FlagFile → FlagFile) : (s.modFlags f).core.hold = s.core.hold := rfl
@[simp] theorem State.modFlags_t_task (s : State) (f : FlagFile → FlagFile) : (s.modFlags f).t.task = s.t.task := rfl
@[simp] theorem State.modFlags_t_regs (s : State) (f : FlagFile → FlagFile) : (s.modFlags f).t.regs = s.t.regs := rfl
@[simp] theorem State.modFlags_t_flags (s : State) (f : FlagFile → FlagFile) : (s.modFlags f).t.flags = f s.t.flags := rfl
@[simp] theorem State.modFlags_t_sys (s : State) (f : FlagFile → FlagFile) : (s.modFlags f).t.sys = s.t.sys := rfl
@[simp] theorem State.modFlags_t_ctl (s : State) (f : FlagFile → FlagFile) : (s.modFlags f).t.ctl = s.t.ctl := rfl
@[simp] theorem State.modFlags_t_mat (s : State) (f : FlagFile → FlagFile) : (s.modFlags f).t.mat = s.t.mat := rfl
@[simp] theorem State.modFlags_t_q (s : State) (f : FlagFile → FlagFile) : (s.modFlags f).t.q = s.t.q := rfl
@[simp] theorem State.modFlags_t_eng (s : State) (f : FlagFile → FlagFile) : (s.modFlags f).t.eng = s.t.eng := rfl
@[simp] theorem State.modFlags_t_hcw (s : State) (f : FlagFile → FlagFile) : (s.modFlags f).t.hcw = s.t.hcw := rfl
@[simp] theorem State.modFlags_t_hcwBad (s : State) (f : FlagFile → FlagFile) : (s.modFlags f).t.hcwBad = s.t.hcwBad := rfl
@[simp] theorem State.modFlags_t_hcwFault (s : State) (f : FlagFile → FlagFile) : (s.modFlags f).t.hcwFault = s.t.hcwFault := rfl
@[simp] theorem State.modFlags_t_scratch (s : State) (f : FlagFile → FlagFile) : (s.modFlags f).t.scratch = s.t.scratch := rfl
@[simp] theorem State.modFlags_t_scratchBad (s : State) (f : FlagFile → FlagFile) : (s.modFlags f).t.scratchBad = s.t.scratchBad := rfl

/-! ## modify the sys -/

@[simp] theorem State.modSys_power (s : State) (f : SysRegs → SysRegs) : (s.modSys f).power = s.power := rfl
@[simp] theorem State.modSys_cyc (s : State) (f : SysRegs → SysRegs) : (s.modSys f).cyc = s.cyc := rfl
@[simp] theorem State.modSys_others (s : State) (f : SysRegs → SysRegs) : (s.modSys f).others = s.others := rfl
@[simp] theorem State.modSys_mem (s : State) (f : SysRegs → SysRegs) : (s.modSys f).mem = s.mem := rfl
@[simp] theorem State.modSys_memBad (s : State) (f : SysRegs → SysRegs) : (s.modSys f).memBad = s.memBad := rfl
@[simp] theorem State.modSys_lines (s : State) (f : SysRegs → SysRegs) : (s.modSys f).lines = s.lines := rfl
@[simp] theorem State.modSys_mt (s : State) (f : SysRegs → SysRegs) : (s.modSys f).mt = s.mt := rfl
@[simp] theorem State.modSys_ut (s : State) (f : SysRegs → SysRegs) : (s.modSys f).ut = s.ut := rfl
@[simp] theorem State.modSys_floor (s : State) (f : SysRegs → SysRegs) : (s.modSys f).floor = s.floor := rfl
@[simp] theorem State.modSys_idleLt (s : State) (f : SysRegs → SysRegs) : (s.modSys f).idleLt = s.idleLt := rfl
@[simp] theorem State.modSys_ptags (s : State) (f : SysRegs → SysRegs) : (s.modSys f).ptags = s.ptags := rfl
@[simp] theorem State.modSys_ctxs (s : State) (f : SysRegs → SysRegs) : (s.modSys f).ctxs = s.ctxs := rfl
@[simp] theorem State.modSys_groups (s : State) (f : SysRegs → SysRegs) : (s.modSys f).groups = s.groups := rfl
@[simp] theorem State.modSys_images (s : State) (f : SysRegs → SysRegs) : (s.modSys f).images = s.images := rfl
@[simp] theorem State.modSys_ready (s : State) (f : SysRegs → SysRegs) : (s.modSys f).ready = s.ready := rfl
@[simp] theorem State.modSys_helds (s : State) (f : SysRegs → SysRegs) : (s.modSys f).helds = s.helds := rfl
@[simp] theorem State.modSys_token (s : State) (f : SysRegs → SysRegs) : (s.modSys f).token = s.token := rfl
@[simp] theorem State.modSys_topiary (s : State) (f : SysRegs → SysRegs) : (s.modSys f).topiary = s.topiary := rfl
@[simp] theorem State.modSys_outHeld (s : State) (f : SysRegs → SysRegs) : (s.modSys f).outHeld = s.outHeld := rfl
@[simp] theorem State.modSys_topTlb (s : State) (f : SysRegs → SysRegs) : (s.modSys f).topTlb = s.topTlb := rfl
@[simp] theorem State.modSys_subst (s : State) (f : SysRegs → SysRegs) : (s.modSys f).subst = s.subst := rfl
@[simp] theorem State.modSys_yoke (s : State) (f : SysRegs → SysRegs) : (s.modSys f).yoke = s.yoke := rfl
@[simp] theorem State.modSys_seqs (s : State) (f : SysRegs → SysRegs) : (s.modSys f).seqs = s.seqs := rfl
@[simp] theorem State.modSys_sup (s : State) (f : SysRegs → SysRegs) : (s.modSys f).sup = s.sup := rfl
@[simp] theorem State.modSys_agenda (s : State) (f : SysRegs → SysRegs) : (s.modSys f).agenda = s.agenda := rfl
@[simp] theorem State.modSys_fresh (s : State) (f : SysRegs → SysRegs) : (s.modSys f).fresh = s.fresh := rfl
@[simp] theorem State.modSys_subs (s : State) (f : SysRegs → SysRegs) : (s.modSys f).subs = s.subs := rfl
@[simp] theorem State.modSys_subNo (s : State) (f : SysRegs → SysRegs) : (s.modSys f).subNo = s.subNo := rfl
@[simp] theorem State.modSys_tokenQ (s : State) (f : SysRegs → SysRegs) : (s.modSys f).tokenQ = s.tokenQ := rfl
@[simp] theorem State.modSys_placedAt (s : State) (f : SysRegs → SysRegs) : (s.modSys f).placedAt = s.placedAt := rfl
@[simp] theorem State.modSys_soft (s : State) (f : SysRegs → SysRegs) : (s.modSys f).soft = s.soft := rfl
@[simp] theorem State.modSys_core_id (s : State) (f : SysRegs → SysRegs) : (s.modSys f).core.id = s.core.id := rfl
@[simp] theorem State.modSys_core_lt (s : State) (f : SysRegs → SysRegs) : (s.modSys f).core.lt = s.core.lt := rfl
@[simp] theorem State.modSys_core_st (s : State) (f : SysRegs → SysRegs) : (s.modSys f).core.st = s.core.st := rfl
@[simp] theorem State.modSys_core_l1 (s : State) (f : SysRegs → SysRegs) : (s.modSys f).core.l1 = s.core.l1 := rfl
@[simp] theorem State.modSys_core_icache (s : State) (f : SysRegs → SysRegs) : (s.modSys f).core.icache = s.core.icache := rfl
@[simp] theorem State.modSys_core_tlb (s : State) (f : SysRegs → SysRegs) : (s.modSys f).core.tlb = s.core.tlb := rfl
@[simp] theorem State.modSys_core_tlbY (s : State) (f : SysRegs → SysRegs) : (s.modSys f).core.tlbY = s.core.tlbY := rfl
@[simp] theorem State.modSys_core_tlbT (s : State) (f : SysRegs → SysRegs) : (s.modSys f).core.tlbT = s.core.tlbT := rfl
@[simp] theorem State.modSys_core_ctl (s : State) (f : SysRegs → SysRegs) : (s.modSys f).core.ctl = s.core.ctl := rfl
@[simp] theorem State.modSys_core_acted (s : State) (f : SysRegs → SysRegs) : (s.modSys f).core.acted = s.core.acted := rfl
@[simp] theorem State.modSys_core_defer (s : State) (f : SysRegs → SysRegs) : (s.modSys f).core.defer = s.core.defer := rfl
@[simp] theorem State.modSys_core_hold (s : State) (f : SysRegs → SysRegs) : (s.modSys f).core.hold = s.core.hold := rfl
@[simp] theorem State.modSys_t_task (s : State) (f : SysRegs → SysRegs) : (s.modSys f).t.task = s.t.task := rfl
@[simp] theorem State.modSys_t_regs (s : State) (f : SysRegs → SysRegs) : (s.modSys f).t.regs = s.t.regs := rfl
@[simp] theorem State.modSys_t_flags (s : State) (f : SysRegs → SysRegs) : (s.modSys f).t.flags = s.t.flags := rfl
@[simp] theorem State.modSys_t_sys (s : State) (f : SysRegs → SysRegs) : (s.modSys f).t.sys = f s.t.sys := rfl
@[simp] theorem State.modSys_t_ctl (s : State) (f : SysRegs → SysRegs) : (s.modSys f).t.ctl = s.t.ctl := rfl
@[simp] theorem State.modSys_t_mat (s : State) (f : SysRegs → SysRegs) : (s.modSys f).t.mat = s.t.mat := rfl
@[simp] theorem State.modSys_t_q (s : State) (f : SysRegs → SysRegs) : (s.modSys f).t.q = s.t.q := rfl
@[simp] theorem State.modSys_t_eng (s : State) (f : SysRegs → SysRegs) : (s.modSys f).t.eng = s.t.eng := rfl
@[simp] theorem State.modSys_t_hcw (s : State) (f : SysRegs → SysRegs) : (s.modSys f).t.hcw = s.t.hcw := rfl
@[simp] theorem State.modSys_t_hcwBad (s : State) (f : SysRegs → SysRegs) : (s.modSys f).t.hcwBad = s.t.hcwBad := rfl
@[simp] theorem State.modSys_t_hcwFault (s : State) (f : SysRegs → SysRegs) : (s.modSys f).t.hcwFault = s.t.hcwFault := rfl
@[simp] theorem State.modSys_t_scratch (s : State) (f : SysRegs → SysRegs) : (s.modSys f).t.scratch = s.t.scratch := rfl
@[simp] theorem State.modSys_t_scratchBad (s : State) (f : SysRegs → SysRegs) : (s.modSys f).t.scratchBad = s.t.scratchBad := rfl

/-! ## modify the ctl -/

@[simp] theorem State.modCtl_power (s : State) (f : Ctl → Ctl) : (s.modCtl f).power = s.power := rfl
@[simp] theorem State.modCtl_cyc (s : State) (f : Ctl → Ctl) : (s.modCtl f).cyc = s.cyc := rfl
@[simp] theorem State.modCtl_others (s : State) (f : Ctl → Ctl) : (s.modCtl f).others = s.others := rfl
@[simp] theorem State.modCtl_mem (s : State) (f : Ctl → Ctl) : (s.modCtl f).mem = s.mem := rfl
@[simp] theorem State.modCtl_memBad (s : State) (f : Ctl → Ctl) : (s.modCtl f).memBad = s.memBad := rfl
@[simp] theorem State.modCtl_lines (s : State) (f : Ctl → Ctl) : (s.modCtl f).lines = s.lines := rfl
@[simp] theorem State.modCtl_mt (s : State) (f : Ctl → Ctl) : (s.modCtl f).mt = s.mt := rfl
@[simp] theorem State.modCtl_ut (s : State) (f : Ctl → Ctl) : (s.modCtl f).ut = s.ut := rfl
@[simp] theorem State.modCtl_floor (s : State) (f : Ctl → Ctl) : (s.modCtl f).floor = s.floor := rfl
@[simp] theorem State.modCtl_idleLt (s : State) (f : Ctl → Ctl) : (s.modCtl f).idleLt = s.idleLt := rfl
@[simp] theorem State.modCtl_ptags (s : State) (f : Ctl → Ctl) : (s.modCtl f).ptags = s.ptags := rfl
@[simp] theorem State.modCtl_ctxs (s : State) (f : Ctl → Ctl) : (s.modCtl f).ctxs = s.ctxs := rfl
@[simp] theorem State.modCtl_groups (s : State) (f : Ctl → Ctl) : (s.modCtl f).groups = s.groups := rfl
@[simp] theorem State.modCtl_images (s : State) (f : Ctl → Ctl) : (s.modCtl f).images = s.images := rfl
@[simp] theorem State.modCtl_ready (s : State) (f : Ctl → Ctl) : (s.modCtl f).ready = s.ready := rfl
@[simp] theorem State.modCtl_helds (s : State) (f : Ctl → Ctl) : (s.modCtl f).helds = s.helds := rfl
@[simp] theorem State.modCtl_token (s : State) (f : Ctl → Ctl) : (s.modCtl f).token = s.token := rfl
@[simp] theorem State.modCtl_topiary (s : State) (f : Ctl → Ctl) : (s.modCtl f).topiary = s.topiary := rfl
@[simp] theorem State.modCtl_outHeld (s : State) (f : Ctl → Ctl) : (s.modCtl f).outHeld = s.outHeld := rfl
@[simp] theorem State.modCtl_topTlb (s : State) (f : Ctl → Ctl) : (s.modCtl f).topTlb = s.topTlb := rfl
@[simp] theorem State.modCtl_subst (s : State) (f : Ctl → Ctl) : (s.modCtl f).subst = s.subst := rfl
@[simp] theorem State.modCtl_yoke (s : State) (f : Ctl → Ctl) : (s.modCtl f).yoke = s.yoke := rfl
@[simp] theorem State.modCtl_seqs (s : State) (f : Ctl → Ctl) : (s.modCtl f).seqs = s.seqs := rfl
@[simp] theorem State.modCtl_sup (s : State) (f : Ctl → Ctl) : (s.modCtl f).sup = s.sup := rfl
@[simp] theorem State.modCtl_agenda (s : State) (f : Ctl → Ctl) : (s.modCtl f).agenda = s.agenda := rfl
@[simp] theorem State.modCtl_fresh (s : State) (f : Ctl → Ctl) : (s.modCtl f).fresh = s.fresh := rfl
@[simp] theorem State.modCtl_subs (s : State) (f : Ctl → Ctl) : (s.modCtl f).subs = s.subs := rfl
@[simp] theorem State.modCtl_subNo (s : State) (f : Ctl → Ctl) : (s.modCtl f).subNo = s.subNo := rfl
@[simp] theorem State.modCtl_tokenQ (s : State) (f : Ctl → Ctl) : (s.modCtl f).tokenQ = s.tokenQ := rfl
@[simp] theorem State.modCtl_placedAt (s : State) (f : Ctl → Ctl) : (s.modCtl f).placedAt = s.placedAt := rfl
@[simp] theorem State.modCtl_soft (s : State) (f : Ctl → Ctl) : (s.modCtl f).soft = s.soft := rfl
@[simp] theorem State.modCtl_core_id (s : State) (f : Ctl → Ctl) : (s.modCtl f).core.id = s.core.id := rfl
@[simp] theorem State.modCtl_core_lt (s : State) (f : Ctl → Ctl) : (s.modCtl f).core.lt = s.core.lt := rfl
@[simp] theorem State.modCtl_core_st (s : State) (f : Ctl → Ctl) : (s.modCtl f).core.st = s.core.st := rfl
@[simp] theorem State.modCtl_core_l1 (s : State) (f : Ctl → Ctl) : (s.modCtl f).core.l1 = s.core.l1 := rfl
@[simp] theorem State.modCtl_core_icache (s : State) (f : Ctl → Ctl) : (s.modCtl f).core.icache = s.core.icache := rfl
@[simp] theorem State.modCtl_core_tlb (s : State) (f : Ctl → Ctl) : (s.modCtl f).core.tlb = s.core.tlb := rfl
@[simp] theorem State.modCtl_core_tlbY (s : State) (f : Ctl → Ctl) : (s.modCtl f).core.tlbY = s.core.tlbY := rfl
@[simp] theorem State.modCtl_core_tlbT (s : State) (f : Ctl → Ctl) : (s.modCtl f).core.tlbT = s.core.tlbT := rfl
@[simp] theorem State.modCtl_core_ctl (s : State) (f : Ctl → Ctl) : (s.modCtl f).core.ctl = s.core.ctl := rfl
@[simp] theorem State.modCtl_core_acted (s : State) (f : Ctl → Ctl) : (s.modCtl f).core.acted = s.core.acted := rfl
@[simp] theorem State.modCtl_core_defer (s : State) (f : Ctl → Ctl) : (s.modCtl f).core.defer = s.core.defer := rfl
@[simp] theorem State.modCtl_core_hold (s : State) (f : Ctl → Ctl) : (s.modCtl f).core.hold = s.core.hold := rfl
@[simp] theorem State.modCtl_t_task (s : State) (f : Ctl → Ctl) : (s.modCtl f).t.task = s.t.task := rfl
@[simp] theorem State.modCtl_t_regs (s : State) (f : Ctl → Ctl) : (s.modCtl f).t.regs = s.t.regs := rfl
@[simp] theorem State.modCtl_t_flags (s : State) (f : Ctl → Ctl) : (s.modCtl f).t.flags = s.t.flags := rfl
@[simp] theorem State.modCtl_t_sys (s : State) (f : Ctl → Ctl) : (s.modCtl f).t.sys = s.t.sys := rfl
@[simp] theorem State.modCtl_t_ctl (s : State) (f : Ctl → Ctl) : (s.modCtl f).t.ctl = f s.t.ctl := rfl
@[simp] theorem State.modCtl_t_mat (s : State) (f : Ctl → Ctl) : (s.modCtl f).t.mat = s.t.mat := rfl
@[simp] theorem State.modCtl_t_q (s : State) (f : Ctl → Ctl) : (s.modCtl f).t.q = s.t.q := rfl
@[simp] theorem State.modCtl_t_eng (s : State) (f : Ctl → Ctl) : (s.modCtl f).t.eng = s.t.eng := rfl
@[simp] theorem State.modCtl_t_hcw (s : State) (f : Ctl → Ctl) : (s.modCtl f).t.hcw = s.t.hcw := rfl
@[simp] theorem State.modCtl_t_hcwBad (s : State) (f : Ctl → Ctl) : (s.modCtl f).t.hcwBad = s.t.hcwBad := rfl
@[simp] theorem State.modCtl_t_hcwFault (s : State) (f : Ctl → Ctl) : (s.modCtl f).t.hcwFault = s.t.hcwFault := rfl
@[simp] theorem State.modCtl_t_scratch (s : State) (f : Ctl → Ctl) : (s.modCtl f).t.scratch = s.t.scratch := rfl
@[simp] theorem State.modCtl_t_scratchBad (s : State) (f : Ctl → Ctl) : (s.modCtl f).t.scratchBad = s.t.scratchBad := rfl

/-! ## modify the mat -/

@[simp] theorem State.modMat_power (s : State) (f : Matrix → Matrix) : (s.modMat f).power = s.power := rfl
@[simp] theorem State.modMat_cyc (s : State) (f : Matrix → Matrix) : (s.modMat f).cyc = s.cyc := rfl
@[simp] theorem State.modMat_others (s : State) (f : Matrix → Matrix) : (s.modMat f).others = s.others := rfl
@[simp] theorem State.modMat_mem (s : State) (f : Matrix → Matrix) : (s.modMat f).mem = s.mem := rfl
@[simp] theorem State.modMat_memBad (s : State) (f : Matrix → Matrix) : (s.modMat f).memBad = s.memBad := rfl
@[simp] theorem State.modMat_lines (s : State) (f : Matrix → Matrix) : (s.modMat f).lines = s.lines := rfl
@[simp] theorem State.modMat_mt (s : State) (f : Matrix → Matrix) : (s.modMat f).mt = s.mt := rfl
@[simp] theorem State.modMat_ut (s : State) (f : Matrix → Matrix) : (s.modMat f).ut = s.ut := rfl
@[simp] theorem State.modMat_floor (s : State) (f : Matrix → Matrix) : (s.modMat f).floor = s.floor := rfl
@[simp] theorem State.modMat_idleLt (s : State) (f : Matrix → Matrix) : (s.modMat f).idleLt = s.idleLt := rfl
@[simp] theorem State.modMat_ptags (s : State) (f : Matrix → Matrix) : (s.modMat f).ptags = s.ptags := rfl
@[simp] theorem State.modMat_ctxs (s : State) (f : Matrix → Matrix) : (s.modMat f).ctxs = s.ctxs := rfl
@[simp] theorem State.modMat_groups (s : State) (f : Matrix → Matrix) : (s.modMat f).groups = s.groups := rfl
@[simp] theorem State.modMat_images (s : State) (f : Matrix → Matrix) : (s.modMat f).images = s.images := rfl
@[simp] theorem State.modMat_ready (s : State) (f : Matrix → Matrix) : (s.modMat f).ready = s.ready := rfl
@[simp] theorem State.modMat_helds (s : State) (f : Matrix → Matrix) : (s.modMat f).helds = s.helds := rfl
@[simp] theorem State.modMat_token (s : State) (f : Matrix → Matrix) : (s.modMat f).token = s.token := rfl
@[simp] theorem State.modMat_topiary (s : State) (f : Matrix → Matrix) : (s.modMat f).topiary = s.topiary := rfl
@[simp] theorem State.modMat_outHeld (s : State) (f : Matrix → Matrix) : (s.modMat f).outHeld = s.outHeld := rfl
@[simp] theorem State.modMat_topTlb (s : State) (f : Matrix → Matrix) : (s.modMat f).topTlb = s.topTlb := rfl
@[simp] theorem State.modMat_subst (s : State) (f : Matrix → Matrix) : (s.modMat f).subst = s.subst := rfl
@[simp] theorem State.modMat_yoke (s : State) (f : Matrix → Matrix) : (s.modMat f).yoke = s.yoke := rfl
@[simp] theorem State.modMat_seqs (s : State) (f : Matrix → Matrix) : (s.modMat f).seqs = s.seqs := rfl
@[simp] theorem State.modMat_sup (s : State) (f : Matrix → Matrix) : (s.modMat f).sup = s.sup := rfl
@[simp] theorem State.modMat_agenda (s : State) (f : Matrix → Matrix) : (s.modMat f).agenda = s.agenda := rfl
@[simp] theorem State.modMat_fresh (s : State) (f : Matrix → Matrix) : (s.modMat f).fresh = s.fresh := rfl
@[simp] theorem State.modMat_subs (s : State) (f : Matrix → Matrix) : (s.modMat f).subs = s.subs := rfl
@[simp] theorem State.modMat_subNo (s : State) (f : Matrix → Matrix) : (s.modMat f).subNo = s.subNo := rfl
@[simp] theorem State.modMat_tokenQ (s : State) (f : Matrix → Matrix) : (s.modMat f).tokenQ = s.tokenQ := rfl
@[simp] theorem State.modMat_placedAt (s : State) (f : Matrix → Matrix) : (s.modMat f).placedAt = s.placedAt := rfl
@[simp] theorem State.modMat_soft (s : State) (f : Matrix → Matrix) : (s.modMat f).soft = s.soft := rfl
@[simp] theorem State.modMat_core_id (s : State) (f : Matrix → Matrix) : (s.modMat f).core.id = s.core.id := rfl
@[simp] theorem State.modMat_core_lt (s : State) (f : Matrix → Matrix) : (s.modMat f).core.lt = s.core.lt := rfl
@[simp] theorem State.modMat_core_st (s : State) (f : Matrix → Matrix) : (s.modMat f).core.st = s.core.st := rfl
@[simp] theorem State.modMat_core_l1 (s : State) (f : Matrix → Matrix) : (s.modMat f).core.l1 = s.core.l1 := rfl
@[simp] theorem State.modMat_core_icache (s : State) (f : Matrix → Matrix) : (s.modMat f).core.icache = s.core.icache := rfl
@[simp] theorem State.modMat_core_tlb (s : State) (f : Matrix → Matrix) : (s.modMat f).core.tlb = s.core.tlb := rfl
@[simp] theorem State.modMat_core_tlbY (s : State) (f : Matrix → Matrix) : (s.modMat f).core.tlbY = s.core.tlbY := rfl
@[simp] theorem State.modMat_core_tlbT (s : State) (f : Matrix → Matrix) : (s.modMat f).core.tlbT = s.core.tlbT := rfl
@[simp] theorem State.modMat_core_ctl (s : State) (f : Matrix → Matrix) : (s.modMat f).core.ctl = s.core.ctl := rfl
@[simp] theorem State.modMat_core_acted (s : State) (f : Matrix → Matrix) : (s.modMat f).core.acted = s.core.acted := rfl
@[simp] theorem State.modMat_core_defer (s : State) (f : Matrix → Matrix) : (s.modMat f).core.defer = s.core.defer := rfl
@[simp] theorem State.modMat_core_hold (s : State) (f : Matrix → Matrix) : (s.modMat f).core.hold = s.core.hold := rfl
@[simp] theorem State.modMat_t_task (s : State) (f : Matrix → Matrix) : (s.modMat f).t.task = s.t.task := rfl
@[simp] theorem State.modMat_t_regs (s : State) (f : Matrix → Matrix) : (s.modMat f).t.regs = s.t.regs := rfl
@[simp] theorem State.modMat_t_flags (s : State) (f : Matrix → Matrix) : (s.modMat f).t.flags = s.t.flags := rfl
@[simp] theorem State.modMat_t_sys (s : State) (f : Matrix → Matrix) : (s.modMat f).t.sys = s.t.sys := rfl
@[simp] theorem State.modMat_t_ctl (s : State) (f : Matrix → Matrix) : (s.modMat f).t.ctl = s.t.ctl := rfl
@[simp] theorem State.modMat_t_mat (s : State) (f : Matrix → Matrix) : (s.modMat f).t.mat = f s.t.mat := rfl
@[simp] theorem State.modMat_t_q (s : State) (f : Matrix → Matrix) : (s.modMat f).t.q = s.t.q := rfl
@[simp] theorem State.modMat_t_eng (s : State) (f : Matrix → Matrix) : (s.modMat f).t.eng = s.t.eng := rfl
@[simp] theorem State.modMat_t_hcw (s : State) (f : Matrix → Matrix) : (s.modMat f).t.hcw = s.t.hcw := rfl
@[simp] theorem State.modMat_t_hcwBad (s : State) (f : Matrix → Matrix) : (s.modMat f).t.hcwBad = s.t.hcwBad := rfl
@[simp] theorem State.modMat_t_hcwFault (s : State) (f : Matrix → Matrix) : (s.modMat f).t.hcwFault = s.t.hcwFault := rfl
@[simp] theorem State.modMat_t_scratch (s : State) (f : Matrix → Matrix) : (s.modMat f).t.scratch = s.t.scratch := rfl
@[simp] theorem State.modMat_t_scratchBad (s : State) (f : Matrix → Matrix) : (s.modMat f).t.scratchBad = s.t.scratchBad := rfl

/-! ## modify the q -/

@[simp] theorem State.modQ_power (s : State) (f : Queues → Queues) : (s.modQ f).power = s.power := rfl
@[simp] theorem State.modQ_cyc (s : State) (f : Queues → Queues) : (s.modQ f).cyc = s.cyc := rfl
@[simp] theorem State.modQ_others (s : State) (f : Queues → Queues) : (s.modQ f).others = s.others := rfl
@[simp] theorem State.modQ_mem (s : State) (f : Queues → Queues) : (s.modQ f).mem = s.mem := rfl
@[simp] theorem State.modQ_memBad (s : State) (f : Queues → Queues) : (s.modQ f).memBad = s.memBad := rfl
@[simp] theorem State.modQ_lines (s : State) (f : Queues → Queues) : (s.modQ f).lines = s.lines := rfl
@[simp] theorem State.modQ_mt (s : State) (f : Queues → Queues) : (s.modQ f).mt = s.mt := rfl
@[simp] theorem State.modQ_ut (s : State) (f : Queues → Queues) : (s.modQ f).ut = s.ut := rfl
@[simp] theorem State.modQ_floor (s : State) (f : Queues → Queues) : (s.modQ f).floor = s.floor := rfl
@[simp] theorem State.modQ_idleLt (s : State) (f : Queues → Queues) : (s.modQ f).idleLt = s.idleLt := rfl
@[simp] theorem State.modQ_ptags (s : State) (f : Queues → Queues) : (s.modQ f).ptags = s.ptags := rfl
@[simp] theorem State.modQ_ctxs (s : State) (f : Queues → Queues) : (s.modQ f).ctxs = s.ctxs := rfl
@[simp] theorem State.modQ_groups (s : State) (f : Queues → Queues) : (s.modQ f).groups = s.groups := rfl
@[simp] theorem State.modQ_images (s : State) (f : Queues → Queues) : (s.modQ f).images = s.images := rfl
@[simp] theorem State.modQ_ready (s : State) (f : Queues → Queues) : (s.modQ f).ready = s.ready := rfl
@[simp] theorem State.modQ_helds (s : State) (f : Queues → Queues) : (s.modQ f).helds = s.helds := rfl
@[simp] theorem State.modQ_token (s : State) (f : Queues → Queues) : (s.modQ f).token = s.token := rfl
@[simp] theorem State.modQ_topiary (s : State) (f : Queues → Queues) : (s.modQ f).topiary = s.topiary := rfl
@[simp] theorem State.modQ_outHeld (s : State) (f : Queues → Queues) : (s.modQ f).outHeld = s.outHeld := rfl
@[simp] theorem State.modQ_topTlb (s : State) (f : Queues → Queues) : (s.modQ f).topTlb = s.topTlb := rfl
@[simp] theorem State.modQ_subst (s : State) (f : Queues → Queues) : (s.modQ f).subst = s.subst := rfl
@[simp] theorem State.modQ_yoke (s : State) (f : Queues → Queues) : (s.modQ f).yoke = s.yoke := rfl
@[simp] theorem State.modQ_seqs (s : State) (f : Queues → Queues) : (s.modQ f).seqs = s.seqs := rfl
@[simp] theorem State.modQ_sup (s : State) (f : Queues → Queues) : (s.modQ f).sup = s.sup := rfl
@[simp] theorem State.modQ_agenda (s : State) (f : Queues → Queues) : (s.modQ f).agenda = s.agenda := rfl
@[simp] theorem State.modQ_fresh (s : State) (f : Queues → Queues) : (s.modQ f).fresh = s.fresh := rfl
@[simp] theorem State.modQ_subs (s : State) (f : Queues → Queues) : (s.modQ f).subs = s.subs := rfl
@[simp] theorem State.modQ_subNo (s : State) (f : Queues → Queues) : (s.modQ f).subNo = s.subNo := rfl
@[simp] theorem State.modQ_tokenQ (s : State) (f : Queues → Queues) : (s.modQ f).tokenQ = s.tokenQ := rfl
@[simp] theorem State.modQ_placedAt (s : State) (f : Queues → Queues) : (s.modQ f).placedAt = s.placedAt := rfl
@[simp] theorem State.modQ_soft (s : State) (f : Queues → Queues) : (s.modQ f).soft = s.soft := rfl
@[simp] theorem State.modQ_core_id (s : State) (f : Queues → Queues) : (s.modQ f).core.id = s.core.id := rfl
@[simp] theorem State.modQ_core_lt (s : State) (f : Queues → Queues) : (s.modQ f).core.lt = s.core.lt := rfl
@[simp] theorem State.modQ_core_st (s : State) (f : Queues → Queues) : (s.modQ f).core.st = s.core.st := rfl
@[simp] theorem State.modQ_core_l1 (s : State) (f : Queues → Queues) : (s.modQ f).core.l1 = s.core.l1 := rfl
@[simp] theorem State.modQ_core_icache (s : State) (f : Queues → Queues) : (s.modQ f).core.icache = s.core.icache := rfl
@[simp] theorem State.modQ_core_tlb (s : State) (f : Queues → Queues) : (s.modQ f).core.tlb = s.core.tlb := rfl
@[simp] theorem State.modQ_core_tlbY (s : State) (f : Queues → Queues) : (s.modQ f).core.tlbY = s.core.tlbY := rfl
@[simp] theorem State.modQ_core_tlbT (s : State) (f : Queues → Queues) : (s.modQ f).core.tlbT = s.core.tlbT := rfl
@[simp] theorem State.modQ_core_ctl (s : State) (f : Queues → Queues) : (s.modQ f).core.ctl = s.core.ctl := rfl
@[simp] theorem State.modQ_core_acted (s : State) (f : Queues → Queues) : (s.modQ f).core.acted = s.core.acted := rfl
@[simp] theorem State.modQ_core_defer (s : State) (f : Queues → Queues) : (s.modQ f).core.defer = s.core.defer := rfl
@[simp] theorem State.modQ_core_hold (s : State) (f : Queues → Queues) : (s.modQ f).core.hold = s.core.hold := rfl
@[simp] theorem State.modQ_t_task (s : State) (f : Queues → Queues) : (s.modQ f).t.task = s.t.task := rfl
@[simp] theorem State.modQ_t_regs (s : State) (f : Queues → Queues) : (s.modQ f).t.regs = s.t.regs := rfl
@[simp] theorem State.modQ_t_flags (s : State) (f : Queues → Queues) : (s.modQ f).t.flags = s.t.flags := rfl
@[simp] theorem State.modQ_t_sys (s : State) (f : Queues → Queues) : (s.modQ f).t.sys = s.t.sys := rfl
@[simp] theorem State.modQ_t_ctl (s : State) (f : Queues → Queues) : (s.modQ f).t.ctl = s.t.ctl := rfl
@[simp] theorem State.modQ_t_mat (s : State) (f : Queues → Queues) : (s.modQ f).t.mat = s.t.mat := rfl
@[simp] theorem State.modQ_t_q (s : State) (f : Queues → Queues) : (s.modQ f).t.q = f s.t.q := rfl
@[simp] theorem State.modQ_t_eng (s : State) (f : Queues → Queues) : (s.modQ f).t.eng = s.t.eng := rfl
@[simp] theorem State.modQ_t_hcw (s : State) (f : Queues → Queues) : (s.modQ f).t.hcw = s.t.hcw := rfl
@[simp] theorem State.modQ_t_hcwBad (s : State) (f : Queues → Queues) : (s.modQ f).t.hcwBad = s.t.hcwBad := rfl
@[simp] theorem State.modQ_t_hcwFault (s : State) (f : Queues → Queues) : (s.modQ f).t.hcwFault = s.t.hcwFault := rfl
@[simp] theorem State.modQ_t_scratch (s : State) (f : Queues → Queues) : (s.modQ f).t.scratch = s.t.scratch := rfl
@[simp] theorem State.modQ_t_scratchBad (s : State) (f : Queues → Queues) : (s.modQ f).t.scratchBad = s.t.scratchBad := rfl

/-! ## modify the eng -/

@[simp] theorem State.modEng_power (s : State) (f : Engines → Engines) : (s.modEng f).power = s.power := rfl
@[simp] theorem State.modEng_cyc (s : State) (f : Engines → Engines) : (s.modEng f).cyc = s.cyc := rfl
@[simp] theorem State.modEng_others (s : State) (f : Engines → Engines) : (s.modEng f).others = s.others := rfl
@[simp] theorem State.modEng_mem (s : State) (f : Engines → Engines) : (s.modEng f).mem = s.mem := rfl
@[simp] theorem State.modEng_memBad (s : State) (f : Engines → Engines) : (s.modEng f).memBad = s.memBad := rfl
@[simp] theorem State.modEng_lines (s : State) (f : Engines → Engines) : (s.modEng f).lines = s.lines := rfl
@[simp] theorem State.modEng_mt (s : State) (f : Engines → Engines) : (s.modEng f).mt = s.mt := rfl
@[simp] theorem State.modEng_ut (s : State) (f : Engines → Engines) : (s.modEng f).ut = s.ut := rfl
@[simp] theorem State.modEng_floor (s : State) (f : Engines → Engines) : (s.modEng f).floor = s.floor := rfl
@[simp] theorem State.modEng_idleLt (s : State) (f : Engines → Engines) : (s.modEng f).idleLt = s.idleLt := rfl
@[simp] theorem State.modEng_ptags (s : State) (f : Engines → Engines) : (s.modEng f).ptags = s.ptags := rfl
@[simp] theorem State.modEng_ctxs (s : State) (f : Engines → Engines) : (s.modEng f).ctxs = s.ctxs := rfl
@[simp] theorem State.modEng_groups (s : State) (f : Engines → Engines) : (s.modEng f).groups = s.groups := rfl
@[simp] theorem State.modEng_images (s : State) (f : Engines → Engines) : (s.modEng f).images = s.images := rfl
@[simp] theorem State.modEng_ready (s : State) (f : Engines → Engines) : (s.modEng f).ready = s.ready := rfl
@[simp] theorem State.modEng_helds (s : State) (f : Engines → Engines) : (s.modEng f).helds = s.helds := rfl
@[simp] theorem State.modEng_token (s : State) (f : Engines → Engines) : (s.modEng f).token = s.token := rfl
@[simp] theorem State.modEng_topiary (s : State) (f : Engines → Engines) : (s.modEng f).topiary = s.topiary := rfl
@[simp] theorem State.modEng_outHeld (s : State) (f : Engines → Engines) : (s.modEng f).outHeld = s.outHeld := rfl
@[simp] theorem State.modEng_topTlb (s : State) (f : Engines → Engines) : (s.modEng f).topTlb = s.topTlb := rfl
@[simp] theorem State.modEng_subst (s : State) (f : Engines → Engines) : (s.modEng f).subst = s.subst := rfl
@[simp] theorem State.modEng_yoke (s : State) (f : Engines → Engines) : (s.modEng f).yoke = s.yoke := rfl
@[simp] theorem State.modEng_seqs (s : State) (f : Engines → Engines) : (s.modEng f).seqs = s.seqs := rfl
@[simp] theorem State.modEng_sup (s : State) (f : Engines → Engines) : (s.modEng f).sup = s.sup := rfl
@[simp] theorem State.modEng_agenda (s : State) (f : Engines → Engines) : (s.modEng f).agenda = s.agenda := rfl
@[simp] theorem State.modEng_fresh (s : State) (f : Engines → Engines) : (s.modEng f).fresh = s.fresh := rfl
@[simp] theorem State.modEng_subs (s : State) (f : Engines → Engines) : (s.modEng f).subs = s.subs := rfl
@[simp] theorem State.modEng_subNo (s : State) (f : Engines → Engines) : (s.modEng f).subNo = s.subNo := rfl
@[simp] theorem State.modEng_tokenQ (s : State) (f : Engines → Engines) : (s.modEng f).tokenQ = s.tokenQ := rfl
@[simp] theorem State.modEng_placedAt (s : State) (f : Engines → Engines) : (s.modEng f).placedAt = s.placedAt := rfl
@[simp] theorem State.modEng_soft (s : State) (f : Engines → Engines) : (s.modEng f).soft = s.soft := rfl
@[simp] theorem State.modEng_core_id (s : State) (f : Engines → Engines) : (s.modEng f).core.id = s.core.id := rfl
@[simp] theorem State.modEng_core_lt (s : State) (f : Engines → Engines) : (s.modEng f).core.lt = s.core.lt := rfl
@[simp] theorem State.modEng_core_st (s : State) (f : Engines → Engines) : (s.modEng f).core.st = s.core.st := rfl
@[simp] theorem State.modEng_core_l1 (s : State) (f : Engines → Engines) : (s.modEng f).core.l1 = s.core.l1 := rfl
@[simp] theorem State.modEng_core_icache (s : State) (f : Engines → Engines) : (s.modEng f).core.icache = s.core.icache := rfl
@[simp] theorem State.modEng_core_tlb (s : State) (f : Engines → Engines) : (s.modEng f).core.tlb = s.core.tlb := rfl
@[simp] theorem State.modEng_core_tlbY (s : State) (f : Engines → Engines) : (s.modEng f).core.tlbY = s.core.tlbY := rfl
@[simp] theorem State.modEng_core_tlbT (s : State) (f : Engines → Engines) : (s.modEng f).core.tlbT = s.core.tlbT := rfl
@[simp] theorem State.modEng_core_ctl (s : State) (f : Engines → Engines) : (s.modEng f).core.ctl = s.core.ctl := rfl
@[simp] theorem State.modEng_core_acted (s : State) (f : Engines → Engines) : (s.modEng f).core.acted = s.core.acted := rfl
@[simp] theorem State.modEng_core_defer (s : State) (f : Engines → Engines) : (s.modEng f).core.defer = s.core.defer := rfl
@[simp] theorem State.modEng_core_hold (s : State) (f : Engines → Engines) : (s.modEng f).core.hold = s.core.hold := rfl
@[simp] theorem State.modEng_t_task (s : State) (f : Engines → Engines) : (s.modEng f).t.task = s.t.task := rfl
@[simp] theorem State.modEng_t_regs (s : State) (f : Engines → Engines) : (s.modEng f).t.regs = s.t.regs := rfl
@[simp] theorem State.modEng_t_flags (s : State) (f : Engines → Engines) : (s.modEng f).t.flags = s.t.flags := rfl
@[simp] theorem State.modEng_t_sys (s : State) (f : Engines → Engines) : (s.modEng f).t.sys = s.t.sys := rfl
@[simp] theorem State.modEng_t_ctl (s : State) (f : Engines → Engines) : (s.modEng f).t.ctl = s.t.ctl := rfl
@[simp] theorem State.modEng_t_mat (s : State) (f : Engines → Engines) : (s.modEng f).t.mat = s.t.mat := rfl
@[simp] theorem State.modEng_t_q (s : State) (f : Engines → Engines) : (s.modEng f).t.q = s.t.q := rfl
@[simp] theorem State.modEng_t_eng (s : State) (f : Engines → Engines) : (s.modEng f).t.eng = f s.t.eng := rfl
@[simp] theorem State.modEng_t_hcw (s : State) (f : Engines → Engines) : (s.modEng f).t.hcw = s.t.hcw := rfl
@[simp] theorem State.modEng_t_hcwBad (s : State) (f : Engines → Engines) : (s.modEng f).t.hcwBad = s.t.hcwBad := rfl
@[simp] theorem State.modEng_t_hcwFault (s : State) (f : Engines → Engines) : (s.modEng f).t.hcwFault = s.t.hcwFault := rfl
@[simp] theorem State.modEng_t_scratch (s : State) (f : Engines → Engines) : (s.modEng f).t.scratch = s.t.scratch := rfl
@[simp] theorem State.modEng_t_scratchBad (s : State) (f : Engines → Engines) : (s.modEng f).t.scratchBad = s.t.scratchBad := rfl

/-! ## modify the bundle at hand -/

@[simp] theorem State.modBun_power (s : State) (f : Bun → Bun) : (s.modBun f).power = s.power := rfl
@[simp] theorem State.modBun_cyc (s : State) (f : Bun → Bun) : (s.modBun f).cyc = s.cyc := rfl
@[simp] theorem State.modBun_others (s : State) (f : Bun → Bun) : (s.modBun f).others = s.others := rfl
@[simp] theorem State.modBun_mem (s : State) (f : Bun → Bun) : (s.modBun f).mem = s.mem := rfl
@[simp] theorem State.modBun_memBad (s : State) (f : Bun → Bun) : (s.modBun f).memBad = s.memBad := rfl
@[simp] theorem State.modBun_lines (s : State) (f : Bun → Bun) : (s.modBun f).lines = s.lines := rfl
@[simp] theorem State.modBun_mt (s : State) (f : Bun → Bun) : (s.modBun f).mt = s.mt := rfl
@[simp] theorem State.modBun_ut (s : State) (f : Bun → Bun) : (s.modBun f).ut = s.ut := rfl
@[simp] theorem State.modBun_floor (s : State) (f : Bun → Bun) : (s.modBun f).floor = s.floor := rfl
@[simp] theorem State.modBun_idleLt (s : State) (f : Bun → Bun) : (s.modBun f).idleLt = s.idleLt := rfl
@[simp] theorem State.modBun_ptags (s : State) (f : Bun → Bun) : (s.modBun f).ptags = s.ptags := rfl
@[simp] theorem State.modBun_ctxs (s : State) (f : Bun → Bun) : (s.modBun f).ctxs = s.ctxs := rfl
@[simp] theorem State.modBun_groups (s : State) (f : Bun → Bun) : (s.modBun f).groups = s.groups := rfl
@[simp] theorem State.modBun_images (s : State) (f : Bun → Bun) : (s.modBun f).images = s.images := rfl
@[simp] theorem State.modBun_ready (s : State) (f : Bun → Bun) : (s.modBun f).ready = s.ready := rfl
@[simp] theorem State.modBun_helds (s : State) (f : Bun → Bun) : (s.modBun f).helds = s.helds := rfl
@[simp] theorem State.modBun_token (s : State) (f : Bun → Bun) : (s.modBun f).token = s.token := rfl
@[simp] theorem State.modBun_topiary (s : State) (f : Bun → Bun) : (s.modBun f).topiary = s.topiary := rfl
@[simp] theorem State.modBun_outHeld (s : State) (f : Bun → Bun) : (s.modBun f).outHeld = s.outHeld := rfl
@[simp] theorem State.modBun_topTlb (s : State) (f : Bun → Bun) : (s.modBun f).topTlb = s.topTlb := rfl
@[simp] theorem State.modBun_subst (s : State) (f : Bun → Bun) : (s.modBun f).subst = s.subst := rfl
@[simp] theorem State.modBun_yoke (s : State) (f : Bun → Bun) : (s.modBun f).yoke = s.yoke := rfl
@[simp] theorem State.modBun_seqs (s : State) (f : Bun → Bun) : (s.modBun f).seqs = s.seqs := rfl
@[simp] theorem State.modBun_sup (s : State) (f : Bun → Bun) : (s.modBun f).sup = s.sup := rfl
@[simp] theorem State.modBun_agenda (s : State) (f : Bun → Bun) : (s.modBun f).agenda = s.agenda := rfl
@[simp] theorem State.modBun_fresh (s : State) (f : Bun → Bun) : (s.modBun f).fresh = s.fresh := rfl
@[simp] theorem State.modBun_subs (s : State) (f : Bun → Bun) : (s.modBun f).subs = s.subs := rfl
@[simp] theorem State.modBun_subNo (s : State) (f : Bun → Bun) : (s.modBun f).subNo = s.subNo := rfl
@[simp] theorem State.modBun_tokenQ (s : State) (f : Bun → Bun) : (s.modBun f).tokenQ = s.tokenQ := rfl
@[simp] theorem State.modBun_placedAt (s : State) (f : Bun → Bun) : (s.modBun f).placedAt = s.placedAt := rfl
@[simp] theorem State.modBun_soft (s : State) (f : Bun → Bun) : (s.modBun f).soft = s.soft := rfl
@[simp] theorem State.modBun_core_id (s : State) (f : Bun → Bun) : (s.modBun f).core.id = s.core.id := rfl
@[simp] theorem State.modBun_core_lt (s : State) (f : Bun → Bun) : (s.modBun f).core.lt = s.core.lt := rfl
@[simp] theorem State.modBun_core_st (s : State) (f : Bun → Bun) : (s.modBun f).core.st = s.core.st := rfl
@[simp] theorem State.modBun_core_l1 (s : State) (f : Bun → Bun) : (s.modBun f).core.l1 = s.core.l1 := rfl
@[simp] theorem State.modBun_core_icache (s : State) (f : Bun → Bun) : (s.modBun f).core.icache = s.core.icache := rfl
@[simp] theorem State.modBun_core_tlb (s : State) (f : Bun → Bun) : (s.modBun f).core.tlb = s.core.tlb := rfl
@[simp] theorem State.modBun_core_tlbY (s : State) (f : Bun → Bun) : (s.modBun f).core.tlbY = s.core.tlbY := rfl
@[simp] theorem State.modBun_core_tlbT (s : State) (f : Bun → Bun) : (s.modBun f).core.tlbT = s.core.tlbT := rfl
@[simp] theorem State.modBun_core_ctl (s : State) (f : Bun → Bun) : (s.modBun f).core.ctl = s.core.ctl := rfl
@[simp] theorem State.modBun_core_acted (s : State) (f : Bun → Bun) : (s.modBun f).core.acted = s.core.acted := rfl
@[simp] theorem State.modBun_core_defer (s : State) (f : Bun → Bun) : (s.modBun f).core.defer = s.core.defer := rfl
@[simp] theorem State.modBun_core_hold (s : State) (f : Bun → Bun) : (s.modBun f).core.hold = s.core.hold := rfl
@[simp] theorem State.modBun_t_task (s : State) (f : Bun → Bun) : (s.modBun f).t.task = s.t.task := rfl
@[simp] theorem State.modBun_t_regs (s : State) (f : Bun → Bun) : (s.modBun f).t.regs = s.t.regs := rfl
@[simp] theorem State.modBun_t_flags (s : State) (f : Bun → Bun) : (s.modBun f).t.flags = s.t.flags := rfl
@[simp] theorem State.modBun_t_sys (s : State) (f : Bun → Bun) : (s.modBun f).t.sys = s.t.sys := rfl
@[simp] theorem State.modBun_t_mat (s : State) (f : Bun → Bun) : (s.modBun f).t.mat = s.t.mat := rfl
@[simp] theorem State.modBun_t_q (s : State) (f : Bun → Bun) : (s.modBun f).t.q = s.t.q := rfl
@[simp] theorem State.modBun_t_eng (s : State) (f : Bun → Bun) : (s.modBun f).t.eng = s.t.eng := rfl
@[simp] theorem State.modBun_t_hcw (s : State) (f : Bun → Bun) : (s.modBun f).t.hcw = s.t.hcw := rfl
@[simp] theorem State.modBun_t_hcwBad (s : State) (f : Bun → Bun) : (s.modBun f).t.hcwBad = s.t.hcwBad := rfl
@[simp] theorem State.modBun_t_hcwFault (s : State) (f : Bun → Bun) : (s.modBun f).t.hcwFault = s.t.hcwFault := rfl
@[simp] theorem State.modBun_t_scratch (s : State) (f : Bun → Bun) : (s.modBun f).t.scratch = s.t.scratch := rfl
@[simp] theorem State.modBun_t_scratchBad (s : State) (f : Bun → Bun) : (s.modBun f).t.scratchBad = s.t.scratchBad := rfl
@[simp] theorem State.modBun_t_ctl_pc (s : State) (f : Bun → Bun) : (s.modBun f).t.ctl.pc = s.t.ctl.pc := rfl
@[simp] theorem State.modBun_t_ctl_eBase (s : State) (f : Bun → Bun) : (s.modBun f).t.ctl.eBase = s.t.ctl.eBase := rfl
@[simp] theorem State.modBun_t_ctl_gapIn (s : State) (f : Bun → Bun) : (s.modBun f).t.ctl.gapIn = s.t.ctl.gapIn := rfl
@[simp] theorem State.modBun_t_ctl_xfer (s : State) (f : Bun → Bun) : (s.modBun f).t.ctl.xfer = s.t.ctl.xfer := rfl
@[simp] theorem State.modBun_t_ctl_latch (s : State) (f : Bun → Bun) : (s.modBun f).t.ctl.latch = s.t.ctl.latch := rfl
@[simp] theorem State.modBun_t_ctl_seq (s : State) (f : Bun → Bun) : (s.modBun f).t.ctl.seq = s.t.ctl.seq := rfl
@[simp] theorem State.modBun_t_ctl_bun (s : State) (f : Bun → Bun) : (s.modBun f).t.ctl.bun = f s.bun := rfl
@[simp] theorem State.modBun_t_ctl_dpf (s : State) (f : Bun → Bun) : (s.modBun f).t.ctl.dpf = s.t.ctl.dpf := rfl
@[simp] theorem State.modBun_t_ctl_missed (s : State) (f : Bun → Bun) : (s.modBun f).t.ctl.missed = s.t.ctl.missed := rfl
@[simp] theorem State.modBun_t_ctl_cterr (s : State) (f : Bun → Bun) : (s.modBun f).t.ctl.cterr = s.t.ctl.cterr := rfl
@[simp] theorem State.modBun_t_ctl_regions (s : State) (f : Bun → Bun) : (s.modBun f).t.ctl.regions = s.t.ctl.regions := rfl
@[simp] theorem State.modBun_t_ctl_unwind (s : State) (f : Bun → Bun) : (s.modBun f).t.ctl.unwind = s.t.ctl.unwind := rfl
@[simp] theorem State.modBun_t_ctl_native (s : State) (f : Bun → Bun) : (s.modBun f).t.ctl.native = s.t.ctl.native := rfl
@[simp] theorem State.modBun_t_ctl_freeze (s : State) (f : Bun → Bun) : (s.modBun f).t.ctl.freeze = s.t.ctl.freeze := rfl
@[simp] theorem State.modBun_t_ctl_ending (s : State) (f : Bun → Bun) : (s.modBun f).t.ctl.ending = s.t.ctl.ending := rfl
@[simp] theorem State.modBun_bun (s : State) (f : Bun → Bun) : (s.modBun f).bun = f s.bun := rfl

/-! ## modify the task placed -/

@[simp] theorem State.modTask_power (s : State) (f : TaskId → TaskId) : (s.modTask f).power = s.power := rfl
@[simp] theorem State.modTask_cyc (s : State) (f : TaskId → TaskId) : (s.modTask f).cyc = s.cyc := rfl
@[simp] theorem State.modTask_others (s : State) (f : TaskId → TaskId) : (s.modTask f).others = s.others := rfl
@[simp] theorem State.modTask_mem (s : State) (f : TaskId → TaskId) : (s.modTask f).mem = s.mem := rfl
@[simp] theorem State.modTask_memBad (s : State) (f : TaskId → TaskId) : (s.modTask f).memBad = s.memBad := rfl
@[simp] theorem State.modTask_lines (s : State) (f : TaskId → TaskId) : (s.modTask f).lines = s.lines := rfl
@[simp] theorem State.modTask_mt (s : State) (f : TaskId → TaskId) : (s.modTask f).mt = s.mt := rfl
@[simp] theorem State.modTask_ut (s : State) (f : TaskId → TaskId) : (s.modTask f).ut = s.ut := rfl
@[simp] theorem State.modTask_floor (s : State) (f : TaskId → TaskId) : (s.modTask f).floor = s.floor := rfl
@[simp] theorem State.modTask_idleLt (s : State) (f : TaskId → TaskId) : (s.modTask f).idleLt = s.idleLt := rfl
@[simp] theorem State.modTask_ptags (s : State) (f : TaskId → TaskId) : (s.modTask f).ptags = s.ptags := rfl
@[simp] theorem State.modTask_ctxs (s : State) (f : TaskId → TaskId) : (s.modTask f).ctxs = s.ctxs := rfl
@[simp] theorem State.modTask_groups (s : State) (f : TaskId → TaskId) : (s.modTask f).groups = s.groups := rfl
@[simp] theorem State.modTask_images (s : State) (f : TaskId → TaskId) : (s.modTask f).images = s.images := rfl
@[simp] theorem State.modTask_ready (s : State) (f : TaskId → TaskId) : (s.modTask f).ready = s.ready := rfl
@[simp] theorem State.modTask_helds (s : State) (f : TaskId → TaskId) : (s.modTask f).helds = s.helds := rfl
@[simp] theorem State.modTask_token (s : State) (f : TaskId → TaskId) : (s.modTask f).token = s.token := rfl
@[simp] theorem State.modTask_topiary (s : State) (f : TaskId → TaskId) : (s.modTask f).topiary = s.topiary := rfl
@[simp] theorem State.modTask_outHeld (s : State) (f : TaskId → TaskId) : (s.modTask f).outHeld = s.outHeld := rfl
@[simp] theorem State.modTask_topTlb (s : State) (f : TaskId → TaskId) : (s.modTask f).topTlb = s.topTlb := rfl
@[simp] theorem State.modTask_subst (s : State) (f : TaskId → TaskId) : (s.modTask f).subst = s.subst := rfl
@[simp] theorem State.modTask_yoke (s : State) (f : TaskId → TaskId) : (s.modTask f).yoke = s.yoke := rfl
@[simp] theorem State.modTask_seqs (s : State) (f : TaskId → TaskId) : (s.modTask f).seqs = s.seqs := rfl
@[simp] theorem State.modTask_sup (s : State) (f : TaskId → TaskId) : (s.modTask f).sup = s.sup := rfl
@[simp] theorem State.modTask_agenda (s : State) (f : TaskId → TaskId) : (s.modTask f).agenda = s.agenda := rfl
@[simp] theorem State.modTask_fresh (s : State) (f : TaskId → TaskId) : (s.modTask f).fresh = s.fresh := rfl
@[simp] theorem State.modTask_subs (s : State) (f : TaskId → TaskId) : (s.modTask f).subs = s.subs := rfl
@[simp] theorem State.modTask_subNo (s : State) (f : TaskId → TaskId) : (s.modTask f).subNo = s.subNo := rfl
@[simp] theorem State.modTask_tokenQ (s : State) (f : TaskId → TaskId) : (s.modTask f).tokenQ = s.tokenQ := rfl
@[simp] theorem State.modTask_placedAt (s : State) (f : TaskId → TaskId) : (s.modTask f).placedAt = s.placedAt := rfl
@[simp] theorem State.modTask_soft (s : State) (f : TaskId → TaskId) : (s.modTask f).soft = s.soft := rfl
@[simp] theorem State.modTask_core_id (s : State) (f : TaskId → TaskId) : (s.modTask f).core.id = s.core.id := rfl
@[simp] theorem State.modTask_core_lt (s : State) (f : TaskId → TaskId) : (s.modTask f).core.lt = s.core.lt := rfl
@[simp] theorem State.modTask_core_st (s : State) (f : TaskId → TaskId) : (s.modTask f).core.st = s.core.st := rfl
@[simp] theorem State.modTask_core_l1 (s : State) (f : TaskId → TaskId) : (s.modTask f).core.l1 = s.core.l1 := rfl
@[simp] theorem State.modTask_core_icache (s : State) (f : TaskId → TaskId) : (s.modTask f).core.icache = s.core.icache := rfl
@[simp] theorem State.modTask_core_tlb (s : State) (f : TaskId → TaskId) : (s.modTask f).core.tlb = s.core.tlb := rfl
@[simp] theorem State.modTask_core_tlbY (s : State) (f : TaskId → TaskId) : (s.modTask f).core.tlbY = s.core.tlbY := rfl
@[simp] theorem State.modTask_core_tlbT (s : State) (f : TaskId → TaskId) : (s.modTask f).core.tlbT = s.core.tlbT := rfl
@[simp] theorem State.modTask_core_ctl (s : State) (f : TaskId → TaskId) : (s.modTask f).core.ctl = s.core.ctl := rfl
@[simp] theorem State.modTask_core_acted (s : State) (f : TaskId → TaskId) : (s.modTask f).core.acted = s.core.acted := rfl
@[simp] theorem State.modTask_core_defer (s : State) (f : TaskId → TaskId) : (s.modTask f).core.defer = s.core.defer := rfl
@[simp] theorem State.modTask_core_hold (s : State) (f : TaskId → TaskId) : (s.modTask f).core.hold = s.core.hold := rfl
@[simp] theorem State.modTask_t_task (s : State) (f : TaskId → TaskId) : (s.modTask f).t.task = s.t.task.map f := rfl
@[simp] theorem State.modTask_t_regs (s : State) (f : TaskId → TaskId) : (s.modTask f).t.regs = s.t.regs := rfl
@[simp] theorem State.modTask_t_flags (s : State) (f : TaskId → TaskId) : (s.modTask f).t.flags = s.t.flags := rfl
@[simp] theorem State.modTask_t_sys (s : State) (f : TaskId → TaskId) : (s.modTask f).t.sys = s.t.sys := rfl
@[simp] theorem State.modTask_t_ctl (s : State) (f : TaskId → TaskId) : (s.modTask f).t.ctl = s.t.ctl := rfl
@[simp] theorem State.modTask_t_mat (s : State) (f : TaskId → TaskId) : (s.modTask f).t.mat = s.t.mat := rfl
@[simp] theorem State.modTask_t_q (s : State) (f : TaskId → TaskId) : (s.modTask f).t.q = s.t.q := rfl
@[simp] theorem State.modTask_t_eng (s : State) (f : TaskId → TaskId) : (s.modTask f).t.eng = s.t.eng := rfl
@[simp] theorem State.modTask_t_hcw (s : State) (f : TaskId → TaskId) : (s.modTask f).t.hcw = s.t.hcw := rfl
@[simp] theorem State.modTask_t_hcwBad (s : State) (f : TaskId → TaskId) : (s.modTask f).t.hcwBad = s.t.hcwBad := rfl
@[simp] theorem State.modTask_t_hcwFault (s : State) (f : TaskId → TaskId) : (s.modTask f).t.hcwFault = s.t.hcwFault := rfl
@[simp] theorem State.modTask_t_scratch (s : State) (f : TaskId → TaskId) : (s.modTask f).t.scratch = s.t.scratch := rfl
@[simp] theorem State.modTask_t_scratchBad (s : State) (f : TaskId → TaskId) : (s.modTask f).t.scratchBad = s.t.scratchBad := rfl

/-! ## modify the supervisor registers -/

@[simp] theorem State.modSup_power (s : State) (f : Sup → Sup) : (s.modSup f).power = s.power := rfl
@[simp] theorem State.modSup_cyc (s : State) (f : Sup → Sup) : (s.modSup f).cyc = s.cyc := rfl
@[simp] theorem State.modSup_core (s : State) (f : Sup → Sup) : (s.modSup f).core = s.core := rfl
@[simp] theorem State.modSup_others (s : State) (f : Sup → Sup) : (s.modSup f).others = s.others := rfl
@[simp] theorem State.modSup_mem (s : State) (f : Sup → Sup) : (s.modSup f).mem = s.mem := rfl
@[simp] theorem State.modSup_memBad (s : State) (f : Sup → Sup) : (s.modSup f).memBad = s.memBad := rfl
@[simp] theorem State.modSup_lines (s : State) (f : Sup → Sup) : (s.modSup f).lines = s.lines := rfl
@[simp] theorem State.modSup_mt (s : State) (f : Sup → Sup) : (s.modSup f).mt = s.mt := rfl
@[simp] theorem State.modSup_ut (s : State) (f : Sup → Sup) : (s.modSup f).ut = s.ut := rfl
@[simp] theorem State.modSup_floor (s : State) (f : Sup → Sup) : (s.modSup f).floor = s.floor := rfl
@[simp] theorem State.modSup_idleLt (s : State) (f : Sup → Sup) : (s.modSup f).idleLt = s.idleLt := rfl
@[simp] theorem State.modSup_ptags (s : State) (f : Sup → Sup) : (s.modSup f).ptags = s.ptags := rfl
@[simp] theorem State.modSup_ctxs (s : State) (f : Sup → Sup) : (s.modSup f).ctxs = s.ctxs := rfl
@[simp] theorem State.modSup_groups (s : State) (f : Sup → Sup) : (s.modSup f).groups = s.groups := rfl
@[simp] theorem State.modSup_images (s : State) (f : Sup → Sup) : (s.modSup f).images = s.images := rfl
@[simp] theorem State.modSup_ready (s : State) (f : Sup → Sup) : (s.modSup f).ready = s.ready := rfl
@[simp] theorem State.modSup_helds (s : State) (f : Sup → Sup) : (s.modSup f).helds = s.helds := rfl
@[simp] theorem State.modSup_token (s : State) (f : Sup → Sup) : (s.modSup f).token = s.token := rfl
@[simp] theorem State.modSup_topiary (s : State) (f : Sup → Sup) : (s.modSup f).topiary = s.topiary := rfl
@[simp] theorem State.modSup_outHeld (s : State) (f : Sup → Sup) : (s.modSup f).outHeld = s.outHeld := rfl
@[simp] theorem State.modSup_topTlb (s : State) (f : Sup → Sup) : (s.modSup f).topTlb = s.topTlb := rfl
@[simp] theorem State.modSup_subst (s : State) (f : Sup → Sup) : (s.modSup f).subst = s.subst := rfl
@[simp] theorem State.modSup_yoke (s : State) (f : Sup → Sup) : (s.modSup f).yoke = s.yoke := rfl
@[simp] theorem State.modSup_seqs (s : State) (f : Sup → Sup) : (s.modSup f).seqs = s.seqs := rfl
@[simp] theorem State.modSup_sup (s : State) (f : Sup → Sup) : (s.modSup f).sup = f s.sup := rfl
@[simp] theorem State.modSup_agenda (s : State) (f : Sup → Sup) : (s.modSup f).agenda = s.agenda := rfl
@[simp] theorem State.modSup_fresh (s : State) (f : Sup → Sup) : (s.modSup f).fresh = s.fresh := rfl
@[simp] theorem State.modSup_subs (s : State) (f : Sup → Sup) : (s.modSup f).subs = s.subs := rfl
@[simp] theorem State.modSup_subNo (s : State) (f : Sup → Sup) : (s.modSup f).subNo = s.subNo := rfl
@[simp] theorem State.modSup_tokenQ (s : State) (f : Sup → Sup) : (s.modSup f).tokenQ = s.tokenQ := rfl
@[simp] theorem State.modSup_placedAt (s : State) (f : Sup → Sup) : (s.modSup f).placedAt = s.placedAt := rfl
@[simp] theorem State.modSup_soft (s : State) (f : Sup → Sup) : (s.modSup f).soft = s.soft := rfl

/-! ## Reads through an update -/

@[simp] theorem State.modCtl_bun (s : State) (f : Ctl → Ctl) : (s.modCtl f).bun = (f s.t.ctl).bun := rfl
@[simp] theorem State.modFlags_bun (s : State) (f : FlagFile → FlagFile) : (s.modFlags f).bun = s.bun := rfl
@[simp] theorem State.modSys_bun (s : State) (f : SysRegs → SysRegs) : (s.modSys f).bun = s.bun := rfl
@[simp] theorem State.modQ_bun (s : State) (f : Queues → Queues) : (s.modQ f).bun = s.bun := rfl
@[simp] theorem State.modEng_bun (s : State) (f : Engines → Engines) : (s.modEng f).bun = s.bun := rfl
@[simp] theorem State.modMat_bun (s : State) (f : Matrix → Matrix) : (s.modMat f).bun = s.bun := rfl
@[simp] theorem State.modRegs_bun (s : State) (f : Regs → Regs) : (s.modRegs f).bun = s.bun := rfl

/-- The bundle at hand is part of the control state. -/
theorem State.bun_eq (s : State) : s.bun = s.t.ctl.bun := rfl

/-- The task span is part of the core. -/
theorem State.t_eq (s : State) : s.t = s.core.t := rfl

end Sys2Proof.Machine
end

