-- ==== Sys2Proof/Laws/Access.lean ====
section
/-!
SUPPORT. An access's side effects (R234, R266): reading a line at its home, walking the page tables and reading a handle leave the
task, the cycle and the other cores alone; only a handle's read moves the core's logical time.
-/
namespace Sys2Proof.Machine
open Sys2Proof

/-- What an access's own reads leave alone. -/
structure Aside (s t : State) : Prop where
  task : t.t = s.t
  cyc : t.cyc = s.cyc
  lt : t.core.lt = s.core.lt
  id : t.core.id = s.core.id
  others : t.others = s.others

theorem Aside.rfl' (s : State) : Aside s s := ⟨rfl, rfl, rfl, rfl, rfl⟩

theorem Aside.trans {s t u : State} (h : Aside s t) (k : Aside t u) : Aside s u :=
  ⟨k.task.trans h.task, k.cyc.trans h.cyc, k.lt.trans h.lt, k.id.trans h.id, k.others.trans h.others⟩

theorem evictLine_aside (s : State) (line : Nat) : Aside s (s.evictLine line) := by
  unfold State.evictLine
  split <;> exact ⟨rfl, rfl, rfl, rfl, rfl⟩

theorem roomAt_aside (s : State) (pa : Nat) : Aside s (s.roomAt pa) := by
  unfold State.roomAt
  dsimp only
  repeat' split
  · exact .rfl' s
  · exact .rfl' s
  · have h := evictLine_aside s ((s.setLines pa).getD ((Config.freeWord s.fresh).toNat % (s.setLines pa).length) 0)
    exact ⟨h.task, h.cyc, h.lt, h.id, h.others⟩

theorem setLine_aside (s : State) (pa : Nat) (x : HomeLine) : Aside s (s.setLine pa x) := by
  have h := roomAt_aside s pa
  exact ⟨h.task, h.cyc, h.lt, h.id, h.others⟩

theorem touch_aside (s : State) (pa n : Nat) (wr : Bool) : Aside s (s.touch pa n wr) := ⟨rfl, rfl, rfl, rfl, rfl⟩

theorem engTime_aside (s : State) (l : Time) (pa : Nat) (ms wr : Bool) : Aside s (s.engTime l pa ms wr).1 := by
  unfold State.engTime
  dsimp only
  repeat' split
  all_goals first | exact setLine_aside .. | exact ⟨rfl, rfl, rfl, rfl, rfl⟩

theorem walkLines_aside (s : State) (va : Nat) (ls : List (Nat × Nat)) (table : Nat) : Aside s (s.walkLines va ls table) := by
  induction ls generalizing s table with
  | nil => exact .rfl' s
  | cons c rest ih =>
    simp only [State.walkLines]
    split
    · exact (engTime_aside ..).trans (touch_aside ..)
    · exact ((engTime_aside ..).trans (touch_aside ..)).trans (ih _ _)

theorem noteWalk_aside (s : State) (va : Nat) (e : TlbEntry) : Aside s (s.noteWalk va e) := by
  unfold State.noteWalk
  split
  · exact .rfl' s
  · have h := walkLines_aside s va walkLevels (s.core.xl []).root
    exact ⟨h.task, h.cyc, h.lt, h.id, h.others⟩

theorem noteWalks_aside (s : State) (ps : List (Piece × TlbEntry)) : Aside s (s.noteWalks ps) := by
  unfold State.noteWalks
  refine foldl_keeps (Aside s) _ (fun u p h => ?_) ps s (.rfl' s)
  split
  · exact h.trans (noteWalk_aside ..)
  · exact h

@[simp] theorem noteWalks_t (s : State) (ps : List (Piece × TlbEntry)) : (s.noteWalks ps).t = s.t := (noteWalks_aside s ps).task
@[simp] theorem noteWalks_cyc (s : State) (ps : List (Piece × TlbEntry)) : (s.noteWalks ps).cyc = s.cyc := (noteWalks_aside s ps).cyc
@[simp] theorem noteWalks_lt (s : State) (ps : List (Piece × TlbEntry)) : (s.noteWalks ps).core.lt = s.core.lt :=
  (noteWalks_aside s ps).lt

/-- Reading a handle raises the core's logical time and leaves the rest of the core and its task alone. -/
theorem readHandle_keeps (s : State) (n : Nat) :
    (s.readHandle n).t = s.t ∧ (s.readHandle n).cyc = s.cyc ∧ (s.readHandle n).core.id = s.core.id := by
  have h := engTime_aside s s.core.lt (s.handleAt n) false false
  unfold State.readHandle State.homeRead
  exact ⟨h.task, h.cyc, h.id⟩

@[simp] theorem readHandle_t (s : State) (n : Nat) : (s.readHandle n).t = s.t := (readHandle_keeps s n).1
@[simp] theorem readHandle_cyc (s : State) (n : Nat) : (s.readHandle n).cyc = s.cyc := (readHandle_keeps s n).2.1

end Sys2Proof.Machine
end

