-- ==== Sys2Proof/Laws/Issue.lean ====
section
/-!
SUPPORT. Everything `issue` and `runHcw` can answer: the effect, once the bundle has passed its judgement; else a held bundle, a
trap, or the judgement followed by the effect.
-/
namespace Sys2Proof.Machine
open Sys2Proof

@[simp] theorem issue_issuing {g : Gate} {eff : State → State} {s : State} (h : s.bun.issuing = true) :
    issue g eff s = .next (eff s) := by simp [issue, h]

theorem issue_go {g : Gate} {eff : State → State} {s : State} (h : s.bun.issuing = false) (hj : s.judge [g] = .go) :
    issue g eff s = .next (eff (s.modBun fun b => { b with st := .issued })) := by simp [issue, h, hj]

theorem issue_hold {g : Gate} {eff : State → State} {s : State} (h : s.bun.issuing = false) (hj : s.judge [g] = .hold) :
    issue g eff s = .next (s.modBun fun b => { b with st := .held }) := by simp [issue, h, hj]

theorem issue_trap {g : Gate} {eff : State → State} {s : State} {t : Trap} {m : Option Mark} (h : s.bun.issuing = false)
    (hj : s.judge [g] = .trap t m) : issue g eff s = .next (s.raise t m) := by simp [issue, h, hj]

/-- `issue` always answers a next state, and this is every way it can. -/
theorem issue_cases (g : Gate) (eff : State → State) (s : State) :
    (s.bun.issuing = true ∧ issue g eff s = .next (eff s)) ∨
    (s.bun.issuing = false ∧ s.judge [g] = .go ∧ issue g eff s = .next (eff (s.modBun fun b => { b with st := .issued }))) ∨
    (s.bun.issuing = false ∧ s.judge [g] = .hold ∧ issue g eff s = .next (s.modBun fun b => { b with st := .held })) ∨
    ∃ t m, s.bun.issuing = false ∧ s.judge [g] = .trap t m ∧ issue g eff s = .next (s.raise t m) := by
  by_cases h : s.bun.issuing = true
  · exact .inl ⟨h, issue_issuing h⟩
  · have h : s.bun.issuing = false := by simpa using h
    cases hj : s.judge [g] with
    | go => exact .inr (.inl ⟨h, rfl, issue_go h hj⟩)
    | hold => exact .inr (.inr (.inl ⟨h, rfl, issue_hold h hj⟩))
    | trap t m => exact .inr (.inr (.inr ⟨t, m, h, rfl, issue_trap h hj⟩))

theorem runHcw_issuing {i : Instr} {op : Nat} {q : SlotOp} {eff : Nat → SlotOp → State → State} {s : State}
    (hi : i.hcw? = some (op, q)) (h : s.bun.issuing = true) :
    runHcw i eff s = .next (s.repeated i q (eff op q)) := by
  simp [runHcw, hi, h]

end Sys2Proof.Machine
end

