-- ==== Sys2Proof/Laws/MemIssue.lean ====
section
/-!
SUPPORT. For each operation, what the shared operations and the instructions of the memory, control, matrix and landing files do to memory:
`X_mem` says that X leaves every byte of memory alone, `X_wf` that X keeps the canonical form of memory.
-/
namespace Sys2Proof.Machine
open Sys2Proof

@[simp] theorem State.wr_wf (s : State) (pa : Nat) (bs : List Byte) (hw : Memory.wf s.mem = true) :
    Memory.wf (State.wr s pa bs).mem = true := by
  exact memWrite_wf hw pa bs

@[simp] theorem State.wrBad_wf (s : State) (pa : Nat) (bs : List Byte) (hw : Memory.wf s.mem = true) :
    Memory.wf (State.wrBad s pa bs).mem = true := by
  unfold State.wrBad
  all_goals simp_all

@[simp] theorem State.evictLine_mem (s : State) (line : Nat) : (State.evictLine s line).mem = s.mem := by
  unfold State.evictLine
  split <;> rfl

@[simp] theorem State.roomAt_mem (s : State) (pa : Nat) : (State.roomAt s pa).mem = s.mem := by
  unfold State.roomAt
  repeat' split
  · rfl
  · dsimp only; split
    · rfl
    · exact State.evictLine_mem ..

@[simp] theorem State.setLine_mem (s : State) (pa : Nat) (h : HomeLine) :
    (State.setLine s pa h).mem = s.mem := State.roomAt_mem s pa

@[simp] theorem State.touch_mem (s : State) (pa n : Nat) (wr : Bool) : (State.touch s pa n wr).mem = s.mem := rfl

@[simp] theorem State.postPorts_mem (s : State) (ps : List Nat) : (State.postPorts s ps).mem = s.mem := rfl

@[simp] theorem State.hwLine_mem (s : State) (pa : Nat) :
    (State.hwLine s pa).mem = s.mem := by
  unfold State.hwLine
  repeat' split
  all_goals simp_all

@[simp] theorem State.wr64_wf (s : State) (pa : Nat) (w : W64) (hw : Memory.wf s.mem = true) :
    Memory.wf (State.wr64 s pa w).mem = true := by
  unfold State.wr64
  all_goals simp_all

@[simp] theorem State.wr32_wf (s : State) (pa : Nat) (w : W32) (hw : Memory.wf s.mem = true) :
    Memory.wf (State.wr32 s pa w).mem = true := by
  unfold State.wr32
  all_goals simp_all

@[simp] theorem State.wrWords_wf (s : State) (pa : Nat) (x2 : List W64) (hw : Memory.wf s.mem = true) :
    Memory.wf (State.wrWords s pa x2).mem = true := by
  induction x2 generalizing s pa with
  | nil => exact hw
  | cons w ws ih => simpa [State.wrWords] using ih _ _ (State.wr64_wf s pa w hw)

@[simp] theorem State.wrField_wf (s : State) (pa : Nat) (lo : Nat) (len : Nat) (v : Nat) (hw : Memory.wf s.mem = true) :
    Memory.wf (State.wrField s pa lo len v).mem = true := by
  unfold State.wrField
  all_goals simp_all

@[simp] theorem State.hwLines_mem (s : State) (pa : Nat) (n : Nat) :
    (State.hwLines s pa n).mem = s.mem := by
  rfl

@[simp] theorem State.hwWr_wf (s : State) (pa : Nat) (bs : List Byte) (hw : Memory.wf s.mem = true) :
    Memory.wf (State.hwWr s pa bs).mem = true := by
  unfold State.hwWr
  all_goals simp_all

@[simp] theorem State.engTime_mem (s : State) (l : Time) (pa : Nat) (ms : Bool) (wr : Bool) :
    (State.engTime s l pa ms wr).1.mem = s.mem := by
  unfold State.engTime
  repeat' split
  all_goals simp_all

@[simp] theorem State.noteFt_mem (s : State) (pa : Nat) (ms : Bool) (ft : Option Nat) : (State.noteFt s pa ms ft).mem = s.mem := by
  unfold State.noteFt
  split
  · exact State.setLine_mem ..
  · rfl

@[simp] theorem State.homeRead_mem (s : State) (pa : Nat) (ms : Bool) : (State.homeRead s pa ms).mem = s.mem :=
  State.engTime_mem ..

@[simp] theorem State.engRead_mem (s : State) (l : Time) (pa : Nat) (n : Nat) (ms : Bool) :
    (State.engRead s l pa n ms).1.mem = s.mem := by
  unfold State.engRead
  refine foldl_keeps (fun u : State × Time × List Byte × Bool => u.1.mem = s.mem) _ ?_ _ _ rfl
  intro b c hb
  dsimp only
  split <;> simpa using hb

@[simp] theorem State.writeTime_mem (s : State) (l : Time) (pa : Nat) (ms : Bool) (mine : Sp Time) :
    (State.writeTime s l pa ms mine).1.mem = s.mem := by
  unfold State.writeTime
  repeat' split
  all_goals simp_all

@[simp] theorem State.engWriteBy_wf (s : State) (l : Time) (pa : Nat) (bs : List Byte) (ms : Bool) (ft : Option Nat) (bad : Bool)
    (mine : Sp Time) (hw : Memory.wf s.mem = true) : Memory.wf (State.engWriteBy s l pa bs ms ft bad mine).1.mem = true := by
  unfold State.engWriteBy
  refine foldl_keeps (fun u : State × Time × Sp Time => Memory.wf u.1.mem = true) _ ?_ _ _ (by split <;> exact hw)
  intro b c hb
  dsimp only
  repeat' split
  all_goals simp_all

@[simp] theorem State.engWrite_wf (s : State) (l : Time) (pa : Nat) (bs : List Byte) (ms : Bool) (ft : Option Nat) (bad : Bool) (hw : Memory.wf s.mem = true) :
    Memory.wf (State.engWrite s l pa bs ms ft bad).1.mem = true := by
  exact State.engWriteBy_wf s l pa bs ms ft bad [] hw

@[simp] theorem State.l1Room_mem (s : State) (k : Nat) : (State.l1Room s k).mem = s.mem := by
  unfold State.l1Room
  dsimp only
  split <;> rfl

@[simp] theorem State.l1Fill_mem (s : State) (k : Nat) (ft : Option Nat) (old : Option L1Sector) :
    (State.l1Fill s k ft old).1.mem = s.mem := by
  unfold State.l1Fill
  simp

@[simp] theorem State.l1Read_mem (s : State) (k : Nat) (ft : Option Nat) :
    (State.l1Read s k ft).1.mem = s.mem := by
  unfold State.l1Read
  repeat' split
  all_goals simp_all

@[simp] theorem State.updCore_mem (s : State) (id : Nat) (f : Core → Core) :
    (State.updCore s id f).mem = s.mem := by
  unfold State.updCore
  repeat' split
  all_goals simp_all

@[simp] theorem State.correct_mem (s : State) (p : Nat × EccPlace → Bool) : (State.correct s p).mem = s.mem := by
  unfold State.correct
  refine foldl_keeps (fun u : State => u.mem = s.mem) _ ?_ _ _ rfl
  exact fun _ _ h => h

@[simp] theorem State.fixScratch_mem (s : State) (id off n : Nat) : (State.fixScratch s id off n).mem = s.mem := State.correct_mem ..

@[simp] theorem State.fixHome_mem (s : State) (pa n : Nat) : (State.fixHome s pa n).mem = s.mem := State.correct_mem ..

@[simp] theorem State.fixPlace_mem (s : State) (p : Place) (n : Nat) : (State.fixPlace s p n).mem = s.mem := by
  unfold State.fixPlace
  repeat' split
  all_goals simp [State.fixScratch, State.fixMem]

@[simp] theorem State.fixEng_mem (s : State) (p : Place) (n : Nat) : (State.fixEng s p n).mem = s.mem := by
  unfold State.fixEng
  split <;> simp

@[simp] theorem State.coreRead_mem (s : State) (p : Place) (n : Nat) :
    (State.coreRead s p n).1.mem = s.mem := by
  unfold State.coreRead
  dsimp only
  repeat' split
  all_goals simp_all

@[simp] theorem State.coreWrite_wf (s : State) (p : Place) (bs : List Byte) (lt0 : Time) (hw : Memory.wf s.mem = true) :
    Memory.wf (State.coreWrite s p bs lt0).1.mem = true := by
  unfold State.coreWrite
  dsimp only
  repeat' split
  all_goals simp_all

@[simp] theorem State.walkLines_mem (s : State) (va : Nat) (x2 : List (Nat × Nat)) (x3 : Nat) :
    (State.walkLines s va x2 x3).mem = s.mem := by
  induction x2 generalizing s x3 with
  | nil => rfl
  | cons c rest ih =>
    simp only [State.walkLines]
    split
    · simp
    · simp [ih]

@[simp] theorem State.tlbIn_mem (s : State) (e : TlbEntry) : (State.tlbIn s e).mem = s.mem := rfl

@[simp] theorem State.noteWalk_mem (s : State) (va : Nat) (e : TlbEntry) : (State.noteWalk s va e).mem = s.mem := by
  unfold State.noteWalk
  split <;> simp

@[simp] theorem State.refusedAt_mem (s : State) (va : Nat) : (State.refusedAt s va).1.mem = s.mem := by
  unfold State.refusedAt
  dsimp only
  repeat' split
  all_goals simp

@[simp] theorem State.noteRefused_mem (s : State) (va n : Nat) : (State.noteRefused s va n).mem = s.mem := by
  have h := State.refusedAt_mem s va
  unfold State.noteRefused
  generalize s.refusedAt va = p at h ⊢
  obtain ⟨u, _ | _⟩ := p
  · exact h
  · dsimp only
    split
    · exact h
    · rw [State.refusedAt_mem]; exact h

@[simp] theorem State.noteTrap_mem (s : State) (tr : Trap) : (State.noteTrap s tr).mem = s.mem := by
  unfold State.noteTrap
  split <;> simp

@[simp] theorem State.sPut_mem (s : State) (r : BitVec 6) (x : W64) :
    (State.sPut s r x).mem = s.mem := by
  unfold State.sPut
  repeat' split
  all_goals simp_all

@[simp] theorem State.vPut_mem (s : State) (r : BitVec 6) (x : W256) :
    (State.vPut s r x).mem = s.mem := by
  rfl

@[simp] theorem State.kPut_mem (s : State) (r : BitVec 3) (x : W128) :
    (State.kPut s r x).mem = s.mem := by
  unfold State.kPut
  repeat' split
  all_goals simp_all

@[simp] theorem State.vPutGroup_mem (s : State) (r : BitVec 6) (x : Nat) (x3 : Nat) :
    (State.vPutGroup s r x x3).mem = s.mem := by
  induction x3 generalizing s r x with
  | zero => rfl
  | succ n ih => simp [State.vPutGroup, ih]

@[simp] theorem State.setEmpty_mem (s : State) (r : RegId) (b : Bool) :
    (State.setEmpty s r b).mem = s.mem := by
  rfl

@[simp] theorem State.setEmpties_mem (s : State) (rs : List RegId) (b : Bool) :
    (State.setEmpties s rs b).mem = s.mem := by
  rfl

@[simp] theorem State.mark_mem (s : State) (rs : List RegId) (cause : BitVec 8) (addr : W64) :
    (State.mark s rs cause addr).mem = s.mem := by
  rfl

@[simp] theorem State.rPut_mem (s : State) (r : RegId) (x : Nat) :
    (State.rPut s r x).mem = s.mem := by
  unfold State.rPut
  repeat' split
  all_goals simp_all

@[simp] theorem State.clearMark_mem (s : State) (m : Mark) :
    (State.clearMark s m).mem = s.mem := by
  unfold State.clearMark
  apply foldl_keeps (fun (u : State) => u.mem = s.mem) <;> simp_all

@[simp] theorem State.tagFill_mem (s : State) (r : RegId) (x2 : BitVec 3) :
    (State.tagFill s r x2).mem = s.mem := by
  simp [State.tagFill]

@[simp] theorem State.fly_mem (s : State) (lat : Nat) (slot : Slot) (e : Effect) (flags : optParam (BitVec 5) 0) :
    (State.fly s lat slot e flags).mem = s.mem := by
  rfl

@[simp] theorem State.flyV_mem (s : State) (lat : Nat) (slot : Slot) (r : BitVec 6) (x : Nat) (x5 : Nat) :
    (State.flyV s lat slot r x x5).mem = s.mem := by
  induction x5 generalizing s r x with
  | zero => rfl
  | succ n ih => simp [State.flyV, ih]

@[simp] theorem State.sysPut_mem (s : State) (n : Nat) (x : W64) :
    (State.sysPut s n x).mem = s.mem := by
  unfold State.sysPut
  repeat' split
  all_goals simp_all

@[simp] theorem State.free_mem (s : State) :
    (State.free s).1.mem = s.mem := by
  rfl

@[simp] theorem State.freeV_mem (s : State) :
    (State.freeV s).1.mem = s.mem := by
  rfl

@[simp] theorem State.frame_mem (s : State) (tr : Trap) (epc : W64) (more : Bool) (pd : Nat) :
    (State.frame s tr epc more pd).mem = s.mem := by
  simp [State.frame]

@[simp] theorem State.deliver_mem (s : State) (tr : Trap) (epc : W64) (more : optParam Bool false) (pd : optParam Nat 0) :
    (State.deliver s tr epc more pd).mem = s.mem := by
  unfold State.deliver
  repeat' split
  all_goals simp_all

@[simp] theorem State.trapReturn_mem (s : State) :
    (State.trapReturn s).mem = s.mem := by
  rfl

@[simp] theorem State.deferFault_mem (s : State) (addr : W64) (sub : BitVec 8) (bun : W64) (seq : Nat) :
    (State.deferFault s addr sub bun seq).mem = s.mem := by
  rfl

@[simp] theorem State.deliverDeferred_mem (s : State) (d : Dpf) :
    (State.deliverDeferred s d).mem = s.mem := by
  simp [State.deliverDeferred]

@[simp] theorem State.raise_mem (s : State) (tr : Trap) (m : optParam (Option Mark) none) :
    (State.raise s tr m).mem = s.mem := by
  have h := State.noteTrap_mem s tr
  unfold State.raise
  generalize s.noteTrap tr = u at h ⊢
  dsimp only
  rw [apply_ite State.mem]
  split
  · exact h
  · split
    · split <;> simp [h]
    · simp [h]
    · simp [h]

@[simp] theorem State.pop_mem (s : State) (w : Nat) :
    (State.pop s w).1.mem = s.mem := by
  rfl

@[simp] theorem State.source_mem (s : State) (op : Nat) (q : SlotOp) (i : Nat) (x : Src) (r : Role) :
    (State.source s op q i x r).1.mem = s.mem := by
  unfold State.source
  repeat' split
  all_goals simp_all

@[simp] theorem State.operands_mem (s : State) (op : Nat) (q : SlotOp) :
    (State.operands s op q).1.mem = s.mem := by
  unfold State.operands
  dsimp only
  repeat' split
  all_goals simp_all

@[simp] theorem State.results_mem (s : State) (lat : Nat) (slot : Slot) (pops : Bool) (effs : List Effect) (flags : BitVec 5) :
    (State.results s lat slot pops effs flags).mem = s.mem := by
  unfold State.results
  split
  · simp
  · split
    · rfl
    · rename_i e es
      refine foldl_keeps (fun u : State => u.mem = s.mem) _ ?_ _ _ (by simp)
      intro b c hb
      simpa using hb

@[simp] theorem State.noteChain_mem (s : State) (c : Chain) : (State.noteChain s c).mem = s.mem := rfl

@[simp] theorem State.freeValue_mem (s : State) (n : Native) (op e rm t x : Nat) (p : Part) :
    (State.freeValue s n op e rm t x p).1.mem = s.mem := by
  unfold State.freeValue
  repeat' split
  all_goals rfl

@[simp] theorem State.modNative_mem (s : State) (f : Native → Native) : (State.modNative s f).mem = s.mem := rfl

@[simp] theorem State.noteWriters_mem (s : State) (fs : List Flight) : (State.noteWriters s fs).mem = s.mem := rfl

@[simp] theorem State.dropWriters_mem (s : State) : (State.dropWriters s).mem = s.mem := rfl

@[simp] theorem State.endRow_mem (s : State) (row : BitVec 8) : (State.endRow s row).mem = s.mem := rfl

@[simp] theorem State.chainElem_mem (s : State) (n : Native) (op : Nat) (q : SlotOp) (t e x : Nat) (ps : List Part) :
    (State.chainElem s n op q t e x ps).1.mem = s.mem := by
  unfold State.chainElem
  dsimp only
  repeat' split
  all_goals simp

@[simp] theorem State.keepChains_mem (s : State) (q : SlotOp) (w : Nat) (old : List Nat) :
    (State.keepChains s q w old).mem = s.mem := by
  unfold State.keepChains
  repeat' split
  · rfl
  · rfl
  · refine foldl_keeps (fun u : State => u.mem = s.mem) _ ?_ _ _ rfl
    intro b c hb
    dsimp only
    split <;> simpa using hb

@[simp] theorem State.chainFrom_mem (s : State) (n : Native) (op : Nat) (q : SlotOp) (t : Nat) (ps : Nat → List Part) (e : Nat)
    (xs : List Nat) : (State.chainFrom s n op q t ps e xs).1.mem = s.mem := by
  induction xs generalizing s e with
  | nil => rfl
  | cons x xs ih =>
    simp only [State.chainFrom]
    split <;> simp [ih]

@[simp] theorem State.chained_mem (s : State) (op : Nat) (q : SlotOp) (parts : Native → Nat → List Part) (xs : List Nat) :
    (State.chained s op q parts xs).1.mem = s.mem := by
  unfold State.chained
  repeat' split
  all_goals simp

@[simp] theorem State.passChains_mem (s : State) (op : Nat) (q : SlotOp) (as xs : List Nat) :
    (State.passChains s op q as xs).mem = s.mem := by
  unfold State.passChains
  dsimp only
  repeat' split
  · refine foldl_keeps (fun u : State => u.mem = s.mem) _ ?_ _ _ rfl
    intro b c hb
    split <;> simpa using hb
  · rfl
  · rfl

@[simp] theorem State.rowSums_mem (s : State) (row : BitVec 8) (j : Nat) (ts : List (List Val)) (xs : List Nat) :
    (State.rowSums s row j ts xs).1.mem = s.mem := by
  induction ts generalizing s j xs with
  | nil => simp [State.rowSums]
  | cons t ts ih =>
    cases xs with
    | nil => simp [State.rowSums]
    | cons x xs => simp [State.rowSums, ih]

@[simp] theorem State.ringTime_mem (s : State) : (State.ringTime s).mem = s.mem := rfl

@[simp] theorem State.scalarResult_mem (s : State) (op : Nat) (q : SlotOp) (x : W64) (flags : optParam (BitVec 5) 0) :
    (State.scalarResult s op q x flags).mem = s.mem := by
  simp [State.scalarResult]

@[simp] theorem State.vectorResult_mem (s : State) (op : Nat) (q : SlotOp) (x : Nat) (regs : Nat) (flags : optParam (BitVec 5) 0) :
    (State.vectorResult s op q x regs flags).mem = s.mem := by
  simp [State.vectorResult]

@[simp] theorem State.maskResult_mem (s : State) (op : Nat) (q : SlotOp) (x : Nat) :
    (State.maskResult s op q x).mem = s.mem := by
  simp [State.maskResult]

theorem issue_mem (g : Gate) (eff : State → State) (s : State) (hf : ∀ s, (eff s).mem = s.mem) :
    ∀ t, (issue g eff s) = .next t → t.mem = s.mem := by
  intro t ht
  unfold issue at ht
  repeat' split at ht
  all_goals cases ht
  all_goals simp_all

theorem issue_wf (g : Gate) (eff : State → State) (s : State) (hf : ∀ s, Memory.wf s.mem = true → Memory.wf (eff s).mem = true)
    (hw : Memory.wf s.mem = true) :
    ∀ t, (issue g eff s) = .next t → Memory.wf t.mem = true := by
  intro t ht
  unfold issue at ht
  repeat' split at ht
  all_goals cases ht
  · exact hf _ hw
  · exact hf _ (by simpa using hw)
  · simpa using hw
  · simpa using hw

@[simp] theorem State.repeated_mem (s : State) (i : Instr) (q : SlotOp) (eff : State → State) (hf : ∀ s, (eff s).mem = s.mem) :
    (State.repeated s i q eff).mem = s.mem := by
  unfold State.repeated
  repeat' split
  all_goals simp_all

theorem runHcw_mem (i : Instr) (eff : Nat → SlotOp → State → State) (s : State) (hf : ∀ op q s, (eff op q s).mem = s.mem) :
    ∀ t, runHcw i eff s = .next t → t.mem = s.mem := by
  intro t ht
  unfold runHcw at ht
  split at ht
  · rename_i op q hi
    exact issue_mem _ _ s (fun u => State.repeated_mem u i q _ (hf op q)) t ht
  · cases ht
    rfl

@[simp] theorem State.diverge_wf (s : State) (c : Nat) (hw : Memory.wf s.mem = true) : Memory.wf (State.diverge s c).mem = true :=
  State.wrField_wf s c 62 1 1 hw

@[simp] theorem State.logPoint_wf (s : State) (w : Issuer) (point : Nat) (kind : Nat) (tag : Nat) (hw : Memory.wf s.mem = true) :
    Memory.wf (State.logPoint s w point kind tag).1.mem = true := by
  grind [State.logPoint, State.wrField_wf, State.wr64_wf, State.diverge_wf]

@[simp] theorem State.logUnits_wf (s : State) (w : Issuer) (kind : Nat) (x3 : List Nat) (hw : Memory.wf s.mem = true) :
    Memory.wf (State.logUnits s w kind x3).1.mem = true := by
  induction x3 generalizing s with
  | nil => exact hw
  | cons p ps ih =>
    have := State.logPoint_wf s w p kind 0 hw
    simp only [State.logUnits]
    split
    · exact ih _ this
    · exact this

@[simp] theorem State.tagAs_mem (s : State) (who : Option (Nat × Nat)) (pa : Nat) (n : Nat) :
    (State.tagAs s who pa n).mem = s.mem := by
  unfold State.tagAs
  repeat' split
  all_goals simp_all

@[simp] theorem State.tagWrite_mem (s : State) (p : Piece) :
    (State.tagWrite s p).mem = s.mem := by
  unfold State.tagWrite
  repeat' split
  all_goals simp_all

@[simp] theorem State.setRing_mem (s : State) (g : BitVec 3) (x : W64) :
    (State.setRing s g x).mem = s.mem := by
  rfl

@[simp] theorem State.setBuf_mem (s : State) (b : BitVec 6) (x : Buf) :
    (State.setBuf s b x).mem = s.mem := by
  rfl

@[simp] theorem State.setBufSt_mem (s : State) (b : BitVec 6) (st : BufSt) :
    (State.setBufSt s b st).mem = s.mem := by
  rfl

@[simp] theorem State.readHandle_mem (s : State) (n : Nat) :
    (State.readHandle s n).mem = s.mem := by
  simp [State.readHandle]

@[simp] theorem State.noteWalks_mem (s : State) (ps : List (Piece × TlbEntry)) :
    (State.noteWalks s ps).mem = s.mem := by
  unfold State.noteWalks
  refine foldl_keeps (fun u : State => u.mem = s.mem) _ ?_ _ _ rfl
  intro b c hb
  split <;> simpa using hb

@[simp] theorem State.readBit_mem (s : State) (p : Option Place) : (State.readBit s p).mem = s.mem := by
  unfold State.readBit
  split <;> simp

@[simp] theorem State.enq_mem (s : State) (op : CoreOp) :
    (State.enq s op).mem = s.mem := by
  rfl

@[simp] theorem State.postLoad_mem (s : State) (dst : LoadDst) (addr : W64) (len : Nat) (keep : Bool) (elems : List LdElem) (spec : Bool) (ps : List (Piece × TlbEntry)) :
    (State.postLoad s dst addr len keep elems spec ps).mem = s.mem := by
  simp [State.postLoad]

@[simp] theorem State.runLoad_mem (s : State) (k : AccKind) (dst : LoadDst) (va : W64) (n : Nat) (spec : Bool) :
    (State.runLoad s k dst va n spec).mem = s.mem := by
  simp [State.runLoad]

theorem execLd_mem (a : BitVec 6) (b : BitVec 6) (imm : CImm) (s : State) :
    ∀ t, (execLd a b imm s) = .next t → t.mem = s.mem := by
  refine issue_mem _ _ s ?_
  intro u
  simp [*]

theorem execLdx_mem (a : BitVec 6) (b : BitVec 6) (c : BitVec 6) (sz : BitVec 3) (sh : BitVec 2) (s : State) :
    ∀ t, (execLdx a b c sz sh s) = .next t → t.mem = s.mem := by
  refine issue_mem _ _ s ?_
  intro u
  simp [*]

@[simp] theorem State.specLoad_mem (s : State) (k : AccKind) (dst : LoadDst) (va : W64) (n : Nat) (misaligned : Bool) :
    (State.specLoad s k dst va n misaligned).mem = s.mem := by
  unfold State.specLoad
  have hf : ∀ (u : State) (e : BitVec 8), u.mem = s.mem →
      (dst.regs.foldl (fun u r => u.fly 1 .c (.tagged r (tagFor e))) (u.setEmpties dst.regs true)).mem = s.mem :=
    fun u e hu => foldl_keeps (fun u : State => u.mem = s.mem) _ (fun b c hb => by simpa using hb) _ _ (by simpa using hu)
  dsimp only
  split
  · exact hf s 0x06 rfl
  · split
    · simp
    · exact hf _ _ (State.noteRefused_mem s va.toNat n)

theorem execLds_mem (a : BitVec 6) (b : BitVec 6) (imm : CImm) (s : State) :
    ∀ t, (execLds a b imm s) = .next t → t.mem = s.mem := by
  refine issue_mem _ _ s ?_
  intro u
  simp [*]

@[simp] theorem State.postStore_mem (s : State) (va : W64) (n : Nat) (x : W64) :
    (State.postStore s va n x).mem = s.mem := by
  rfl

theorem execSt_mem (a : BitVec 6) (b : BitVec 6) (imm : CImm) (s : State) :
    ∀ t, (execSt a b imm s) = .next t → t.mem = s.mem := by
  refine issue_mem _ _ s ?_
  intro u
  simp [*]

theorem execStx_mem (a : BitVec 6) (b : BitVec 6) (c : BitVec 6) (sz : BitVec 3) (sh : BitVec 2) (s : State) :
    ∀ t, (execStx a b c sz sh s) = .next t → t.mem = s.mem := by
  refine issue_mem _ _ s ?_
  intro u
  simp [*]

@[simp] theorem State.prefetch_mem (s : State) (lvl : BitVec 2) (va : W64) :
    (State.prefetch s lvl va).mem = s.mem := by
  unfold State.prefetch
  split
  · dsimp only
    repeat' split
    all_goals simp
  · simp

theorem execPref_mem (lvl : BitVec 2) (b : BitVec 6) (imm : CImm) (s : State) :
    ∀ t, (execPref lvl b imm s) = .next t → t.mem = s.mem := by
  refine issue_mem _ _ s ?_
  intro u
  simp [*]

theorem execVld_mem (a : BitVec 6) (b : BitVec 6) (w : BitVec 2) (buf : BitVec 1) (off : BitVec 10) (s : State) :
    ∀ t, (execVld a b w buf off s) = .next t → t.mem = s.mem := by
  refine issue_mem _ _ s ?_
  intro u
  simp [*]

theorem execVst_mem (a : BitVec 6) (b : BitVec 6) (w : BitVec 2) (buf : BitVec 1) (off : BitVec 10) (s : State) :
    ∀ t, (execVst a b w buf off s) = .next t → t.mem = s.mem := by
  refine issue_mem _ _ s ?_
  intro u
  simp [*]

theorem execVlds_mem (a : BitVec 6) (b : BitVec 6) (w : BitVec 2) (buf : BitVec 1) (off : BitVec 10) (s : State) :
    ∀ t, (execVlds a b w buf off s) = .next t → t.mem = s.mem := by
  refine issue_mem _ _ s ?_
  intro u
  simp [*]

theorem execVgath_mem (a : BitVec 6) (b : BitVec 6) (c : BitVec 6) (k : BitVec 3) (w : BitVec 2) (sc : BitVec 1) (e : BitVec 2) (s : State) :
    ∀ t, (execVgath a b c k w sc e s) = .next t → t.mem = s.mem := by
  refine issue_mem _ _ s ?_
  intro u
  simp [*]

theorem execVscat_mem (a : BitVec 6) (b : BitVec 6) (c : BitVec 6) (k : BitVec 3) (w : BitVec 2) (sc : BitVec 1) (e : BitVec 2) (s : State) :
    ∀ t, (execVscat a b c k w sc e s) = .next t → t.mem = s.mem := by
  refine issue_mem _ _ s ?_
  intro u
  simp [*]

theorem execVldh_mem (a : BitVec 6) (b : BitVec 6) (c : BitVec 6) (w : BitVec 2) (s : State) :
    ∀ t, (execVldh a b c w s) = .next t → t.mem = s.mem := by
  refine issue_mem _ _ s ?_
  intro u
  simp [*]

theorem execVsth_mem (a : BitVec 6) (b : BitVec 6) (c : BitVec 6) (w : BitVec 2) (s : State) :
    ∀ t, (execVsth a b c w s) = .next t → t.mem = s.mem := by
  refine issue_mem _ _ s ?_
  intro u
  simp [*]

theorem execPageWalk_mem (va : W64) (s : State) :
    ∀ t, (execPageWalk va s) = .next t → t.mem = s.mem := by
  intro t ht
  unfold execPageWalk at ht
  dsimp only at ht
  repeat' split at ht
  all_goals cases ht
  all_goals simp_all

@[simp] theorem State.postAmo_mem (op : Nat) (a : BitVec 6) (b : BitVec 6) (c : BitVec 6) (sz : BitVec 1) (s : State) :
    (State.postAmo op a b c sz s).mem = s.mem := by
  unfold State.postAmo
  dsimp only
  repeat' split
  all_goals simp_all

@[simp] theorem State.postRed_mem (op : Nat) (b : BitVec 6) (c : BitVec 6) (sz : BitVec 1) (s : State) :
    (State.postRed op b c sz s).mem = s.mem := by
  rfl

theorem execAmov_mem (b : BitVec 6) (c : BitVec 6) (sz : BitVec 1) (s : State) :
    ∀ t, (execAmov b c sz s) = .next t → t.mem = s.mem := by
  refine issue_mem _ _ s ?_
  intro u
  simp [*]

theorem execDepdec_mem (b : BitVec 6) (imm : CImm) (s : State) :
    ∀ t, (execDepdec b imm s) = .next t → t.mem = s.mem := by
  refine issue_mem _ _ s ?_
  intro u
  simp [*]

theorem execSpawn_mem (b : BitVec 6) (s : State) :
    ∀ t, (execSpawn b s) = .next t → t.mem = s.mem := by
  refine issue_mem _ _ s ?_
  intro u
  simp [*]

theorem execAmoAdd_mem (a : BitVec 6) (b : BitVec 6) (c : BitVec 6) (sz : BitVec 1) (s : State) :
    ∀ t, (execAmoAdd a b c sz s) = .next t → t.mem = s.mem := by
  refine issue_mem _ _ s ?_
  intro u
  simp [*]

theorem execAmoAnd_mem (a : BitVec 6) (b : BitVec 6) (c : BitVec 6) (sz : BitVec 1) (s : State) :
    ∀ t, (execAmoAnd a b c sz s) = .next t → t.mem = s.mem := by
  refine issue_mem _ _ s ?_
  intro u
  simp [*]

theorem execAmoOr_mem (a : BitVec 6) (b : BitVec 6) (c : BitVec 6) (sz : BitVec 1) (s : State) :
    ∀ t, (execAmoOr a b c sz s) = .next t → t.mem = s.mem := by
  refine issue_mem _ _ s ?_
  intro u
  simp [*]

theorem execAmoXor_mem (a : BitVec 6) (b : BitVec 6) (c : BitVec 6) (sz : BitVec 1) (s : State) :
    ∀ t, (execAmoXor a b c sz s) = .next t → t.mem = s.mem := by
  refine issue_mem _ _ s ?_
  intro u
  simp [*]

theorem execAmoMin_mem (a : BitVec 6) (b : BitVec 6) (c : BitVec 6) (sz : BitVec 1) (s : State) :
    ∀ t, (execAmoMin a b c sz s) = .next t → t.mem = s.mem := by
  refine issue_mem _ _ s ?_
  intro u
  simp [*]

theorem execAmoMax_mem (a : BitVec 6) (b : BitVec 6) (c : BitVec 6) (sz : BitVec 1) (s : State) :
    ∀ t, (execAmoMax a b c sz s) = .next t → t.mem = s.mem := by
  refine issue_mem _ _ s ?_
  intro u
  simp [*]

theorem execAmoMinn_mem (a : BitVec 6) (b : BitVec 6) (c : BitVec 6) (sz : BitVec 1) (s : State) :
    ∀ t, (execAmoMinn a b c sz s) = .next t → t.mem = s.mem := by
  refine issue_mem _ _ s ?_
  intro u
  simp [*]

theorem execAmoMaxn_mem (a : BitVec 6) (b : BitVec 6) (c : BitVec 6) (sz : BitVec 1) (s : State) :
    ∀ t, (execAmoMaxn a b c sz s) = .next t → t.mem = s.mem := by
  refine issue_mem _ _ s ?_
  intro u
  simp [*]

theorem execAmoSwap_mem (a : BitVec 6) (b : BitVec 6) (c : BitVec 6) (sz : BitVec 1) (s : State) :
    ∀ t, (execAmoSwap a b c sz s) = .next t → t.mem = s.mem := by
  refine issue_mem _ _ s ?_
  intro u
  simp [*]

theorem execAmoCas_mem (a : BitVec 6) (b : BitVec 6) (c : BitVec 6) (sz : BitVec 1) (s : State) :
    ∀ t, (execAmoCas a b c sz s) = .next t → t.mem = s.mem := by
  refine issue_mem _ _ s ?_
  intro u
  simp [*]

theorem execAmoIncw_mem (a : BitVec 6) (b : BitVec 6) (c : BitVec 6) (sz : BitVec 1) (s : State) :
    ∀ t, (execAmoIncw a b c sz s) = .next t → t.mem = s.mem := by
  refine issue_mem _ _ s ?_
  intro u
  simp [*]

theorem execAmoFaddb_mem (a : BitVec 6) (b : BitVec 6) (c : BitVec 6) (sz : BitVec 1) (s : State) :
    ∀ t, (execAmoFaddb a b c sz s) = .next t → t.mem = s.mem := by
  refine issue_mem _ _ s ?_
  intro u
  simp [*]

theorem execAmoFadd_mem (a : BitVec 6) (b : BitVec 6) (c : BitVec 6) (sz : BitVec 1) (s : State) :
    ∀ t, (execAmoFadd a b c sz s) = .next t → t.mem = s.mem := by
  refine issue_mem _ _ s ?_
  intro u
  simp [*]

theorem execRedAdd_mem (b : BitVec 6) (c : BitVec 6) (sz : BitVec 1) (s : State) :
    ∀ t, (execRedAdd b c sz s) = .next t → t.mem = s.mem := by
  refine issue_mem _ _ s ?_
  intro u
  simp [*]

theorem execRedAnd_mem (b : BitVec 6) (c : BitVec 6) (sz : BitVec 1) (s : State) :
    ∀ t, (execRedAnd b c sz s) = .next t → t.mem = s.mem := by
  refine issue_mem _ _ s ?_
  intro u
  simp [*]

theorem execRedOr_mem (b : BitVec 6) (c : BitVec 6) (sz : BitVec 1) (s : State) :
    ∀ t, (execRedOr b c sz s) = .next t → t.mem = s.mem := by
  refine issue_mem _ _ s ?_
  intro u
  simp [*]

theorem execRedXor_mem (b : BitVec 6) (c : BitVec 6) (sz : BitVec 1) (s : State) :
    ∀ t, (execRedXor b c sz s) = .next t → t.mem = s.mem := by
  refine issue_mem _ _ s ?_
  intro u
  simp [*]

theorem execRedMin_mem (b : BitVec 6) (c : BitVec 6) (sz : BitVec 1) (s : State) :
    ∀ t, (execRedMin b c sz s) = .next t → t.mem = s.mem := by
  refine issue_mem _ _ s ?_
  intro u
  simp [*]

theorem execRedMax_mem (b : BitVec 6) (c : BitVec 6) (sz : BitVec 1) (s : State) :
    ∀ t, (execRedMax b c sz s) = .next t → t.mem = s.mem := by
  refine issue_mem _ _ s ?_
  intro u
  simp [*]

theorem execRedMinn_mem (b : BitVec 6) (c : BitVec 6) (sz : BitVec 1) (s : State) :
    ∀ t, (execRedMinn b c sz s) = .next t → t.mem = s.mem := by
  refine issue_mem _ _ s ?_
  intro u
  simp [*]

theorem execRedMaxn_mem (b : BitVec 6) (c : BitVec 6) (sz : BitVec 1) (s : State) :
    ∀ t, (execRedMaxn b c sz s) = .next t → t.mem = s.mem := by
  refine issue_mem _ _ s ?_
  intro u
  simp [*]

theorem execRedIncw_mem (b : BitVec 6) (c : BitVec 6) (sz : BitVec 1) (s : State) :
    ∀ t, (execRedIncw b c sz s) = .next t → t.mem = s.mem := by
  refine issue_mem _ _ s ?_
  intro u
  simp [*]

theorem execRedFaddb_mem (b : BitVec 6) (c : BitVec 6) (sz : BitVec 1) (s : State) :
    ∀ t, (execRedFaddb b c sz s) = .next t → t.mem = s.mem := by
  refine issue_mem _ _ s ?_
  intro u
  simp [*]

theorem execRedFadd_mem (b : BitVec 6) (c : BitVec 6) (sz : BitVec 1) (s : State) :
    ∀ t, (execRedFadd b c sz s) = .next t → t.mem = s.mem := by
  refine issue_mem _ _ s ?_
  intro u
  simp [*]

@[simp] theorem State.ilineRoom_mem (s : State) : (State.ilineRoom s).mem = s.mem := by
  unfold State.ilineRoom
  split <;> rfl

@[simp] theorem State.addLine_mem (s : State) (va : Nat) (line : Sp Byte) (e : TlbEntry) :
    (State.addLine s va line e).mem = s.mem := by
  simp [State.addLine]

@[simp] theorem State.link_mem (s : State) :
    (State.link s).1.mem = s.mem := by
  unfold State.link
  split <;> rfl

theorem execNop_mem (s : State) :
    ∀ t, (execNop s) = .next t → t.mem = s.mem := by
  refine issue_mem _ _ s ?_
  intro u
  simp [*]

@[simp] theorem State.transfer_mem (s : State) (taken : Bool) (target : W64) :
    (State.transfer s taken target).mem = s.mem := by
  rfl

theorem execBr_mem (cond : BitVec 4) (a : BitVec 6) (off : BitVec 16) (s : State) :
    ∀ t, (execBr cond a off s) = .next t → t.mem = s.mem := by
  refine issue_mem _ _ s ?_
  intro u
  simp [*]

theorem execJmp_mem (off : BitVec 16) (s : State) :
    ∀ t, (execJmp off s) = .next t → t.mem = s.mem := by
  refine issue_mem _ _ s ?_
  intro u
  simp [*]

theorem execJmpr_mem (b : BitVec 6) (imm : CImm) (s : State) :
    ∀ t, (execJmpr b imm s) = .next t → t.mem = s.mem := by
  refine issue_mem _ _ s ?_
  intro u
  simp [*]

theorem execCall_mem (off : BitVec 16) (s : State) :
    ∀ t, (execCall off s) = .next t → t.mem = s.mem := by
  refine issue_mem _ _ s ?_
  intro u
  simp [*]

theorem execRet_mem (b : BitVec 6) (s : State) :
    ∀ t, (execRet b s) = .next t → t.mem = s.mem := by
  refine issue_mem _ _ s ?_
  intro u
  simp [*]

theorem execLoop_mem (a : BitVec 6) (off : BitVec 16) (s : State) :
    ∀ t, (execLoop a off s) = .next t → t.mem = s.mem := by
  refine issue_mem _ _ s ?_
  intro u
  simp [*]

theorem execIpref_mem (off : BitVec 16) (s : State) :
    ∀ t, (execIpref off s) = .next t → t.mem = s.mem := by
  refine issue_mem _ _ s ?_
  intro u
  dsimp only
  repeat' split
  all_goals simp_all

theorem execChkp_mem (a : BitVec 6) (b : BitVec 6) (s : State) :
    ∀ t, (execChkp a b s) = .next t → t.mem = s.mem := by
  refine issue_mem _ _ s ?_
  intro u
  simp [*]

theorem execVchkp_mem (a : BitVec 6) (b : BitVec 6) (w : BitVec 2) (s : State) :
    ∀ t, (execVchkp a b w s) = .next t → t.mem = s.mem := by
  refine issue_mem _ _ s ?_
  intro u
  simp [*]

theorem execTrap_mem (b : BitVec 6) (imm : CImm) (s : State) :
    ∀ t, (execTrap b imm s) = .next t → t.mem = s.mem := by
  refine issue_mem _ _ s ?_
  intro u
  simp [*]

theorem execEret_mem (s : State) :
    ∀ t, (execEret s) = .next t → t.mem = s.mem := by
  refine issue_mem _ _ s ?_
  intro u
  simp [*]

theorem execCtopen_mem (a : BitVec 6) (off : BitVec 16) (s : State) :
    ∀ t, (execCtopen a off s) = .next t → t.mem = s.mem := by
  refine issue_mem _ _ s ?_
  intro u
  simp [*]

theorem execCtclose_mem (s : State) :
    ∀ t, (execCtclose s) = .next t → t.mem = s.mem := by
  refine issue_mem _ _ s ?_
  intro u
  simp [*]

theorem execMfs_mem (a : BitVec 6) (n : BitVec 13) (s : State) :
    ∀ t, (execMfs a n s) = .next t → t.mem = s.mem := by
  refine issue_mem _ _ s ?_
  intro u
  simp [*]

theorem execMts_mem (a : BitVec 6) (n : BitVec 13) (s : State) :
    ∀ t, (execMts a n s) = .next t → t.mem = s.mem := by
  refine issue_mem _ _ s ?_
  intro u
  simp [*]

theorem execPhase_mem (a : BitVec 6) (s : State) :
    ∀ t, (execPhase a s) = .next t → t.mem = s.mem := by
  refine issue_mem _ _ s ?_
  intro u
  simp [*]

theorem execStage_mem (b : BitVec 6) (imm : CImm) (s : State) :
    ∀ t, (execStage b imm s) = .next t → t.mem = s.mem := by
  refine issue_mem _ _ s ?_
  intro u
  simp [*]

@[simp] theorem State.orFlags_mem (s : State) (f : BitVec 5) :
    (State.orFlags s f).mem = s.mem := by
  rfl

@[simp] theorem State.setAcc_mem (s : State) (r : BitVec 8) (x : AccRow) :
    (State.setAcc s r x).mem = s.mem := by
  rfl

@[simp] theorem State.toRow_mem (s : State) (g : BitVec 3) (rpos : Nat) :
    (State.toRow s g rpos).mem = s.mem := by
  rfl

@[simp] theorem State.setNext_mem (s : State) (next : Nat) :
    (State.setNext s next).mem = s.mem := by
  rfl

@[simp] theorem State.advSA_mem (s : State) (hold : BitVec 1) :
    (State.advSA s hold).mem = s.mem := by
  unfold State.advSA
  repeat' split
  all_goals simp_all

theorem execMzero_mem (op : BitVec 2) (hold : BitVec 1) (i32 : BitVec 1) (s : State) :
    ∀ t, (execMzero op hold i32 s) = .next t → t.mem = s.mem := by
  refine issue_mem _ _ s ?_
  intro u
  simp [*]

@[simp] theorem State.setWindows_mem (s : State) (rg : Ring) :
    (State.setWindows s rg).mem = s.mem := by
  rfl

@[simp] theorem State.fixRanges_mem (s : State) (rs : List (Nat × Nat)) : (State.fixRanges s rs).mem = s.mem := by
  unfold State.fixRanges
  split
  · rfl
  · exact foldl_keeps (fun u : State => u.mem = s.mem) _ (fun b c hb => by simpa using hb) _ _ rfl

theorem execMpush_mem (g : BitVec 3) (s : State) :
    ∀ t, (execMpush g s) = .next t → t.mem = s.mem := by
  refine issue_mem _ _ s ?_
  intro u
  dsimp only
  repeat' split
  all_goals simp_all

theorem execMflip_mem (s : State) :
    ∀ t, (execMflip s) = .next t → t.mem = s.mem := by
  refine issue_mem _ _ s ?_
  intro u
  simp [*]

theorem execMstrm_mem (g : BitVec 3) (op : BitVec 2) (hold : BitVec 1) (s : State) :
    ∀ t, (execMstrm g op hold s) = .next t → t.mem = s.mem := by
  refine issue_mem _ _ s ?_
  intro u
  dsimp only
  repeat' split
  all_goals simp_all

theorem execMdrain_mem (adv : BitVec 1) (scl : BitVec 1) (fmt : BitVec 2) (clr : BitVec 1) (quad : BitVec 4) (part : BitVec 2) (s : State) :
    ∀ t, (execMdrain adv scl fmt clr quad part s) = .next t → t.mem = s.mem := by
  refine issue_mem _ _ s ?_
  intro u
  extract_lets da row n cols es fl x effs v w
  have hv : v.mem = u.mem := State.results_mem _ _ _ _ _ _
  clear_value v effs es fl x cols
  have hw : w.mem = u.mem := by
    show (if clr = 1 then _ else v).mem = u.mem
    split
    · rw [State.setAcc_mem, hv]
    · exact hv
  clear_value w
  split
  · rw [State.modSys_mem, hw]
  · exact hw

theorem execMret_mem (g : BitVec 3) (s : State) :
    ∀ t, (execMret g s) = .next t → t.mem = s.mem := by
  refine issue_mem _ _ s ?_
  intro u
  dsimp only
  repeat' split
  all_goals simp_all

theorem execMskip_mem (g : BitVec 3) (n : BitVec 7) (s : State) :
    ∀ t, (execMskip g n s) = .next t → t.mem = s.mem := by
  refine issue_mem _ _ s ?_
  intro u
  dsimp only
  repeat' split
  all_goals simp_all

theorem execMpad_mem (kv : BitVec 7) (s : State) :
    ∀ t, (execMpad kv s) = .next t → t.mem = s.mem := by
  refine issue_mem _ _ s ?_
  intro u
  simp [*]

theorem execMscl_mem (g : BitVec 3) (s : State) :
    ∀ t, (execMscl g s) = .next t → t.mem = s.mem := by
  refine issue_mem _ _ s ?_
  intro u
  simp [*]

@[simp] theorem State.takeDue_mem (s : State) (p : Effect → Bool) :
    (State.takeDue s p).1.mem = s.mem := by
  rfl

@[simp] theorem State.fill_mem (s : State) (r : RegId) (x : Nat) :
    (State.fill s r x).mem = s.mem := by
  simp [State.fill]

@[simp] theorem State.fixRow_mem (s : State) (row : BitVec 8) (u : AccUpd) : (State.fixRow s row u).mem = s.mem := by
  unfold State.fixRow
  split <;> simp

@[simp] theorem State.landRow_mem (s : State) (row : BitVec 8) (u : AccUpd) : (State.landRow s row u).mem = s.mem := by
  unfold State.landRow
  split <;> simp

@[simp] theorem State.everySpan_mem (s : State) (g : TaskSpan → TaskSpan) : (State.everySpan s g).mem = s.mem := rfl

@[simp] theorem State.putWords_wf (s : State) (pa : Nat) (ws : List W64) (hw : Memory.wf s.mem = true) :
    Memory.wf (State.putWords s pa ws).mem = true := by
  unfold State.putWords
  dsimp only
  split <;> simp [hw]

@[simp] theorem State.applyEff_wf (s : State) (e : Effect) (hw : Memory.wf s.mem = true) :
    Memory.wf (State.applyEff s e).mem = true := by
  cases e <;> simp only [State.applyEff] <;> first | simp [hw] | exact hw

@[simp] theorem State.landAll_wf (s : State) (fs : List Flight) (hw : Memory.wf s.mem = true) :
    Memory.wf (State.landAll s fs).mem = true := by
  unfold State.landAll
  apply foldl_keeps (fun (u : State) => Memory.wf u.mem = true) <;> simp_all

@[simp] theorem State.landResults_wf (s : State) (hw : Memory.wf s.mem = true) :
    Memory.wf (State.landResults s).mem = true := by
  have h1 := State.takeDue_mem s Effect.isSys
  rw [State.landResults]
  generalize s.takeDue Effect.isSys = p at h1 ⊢
  obtain ⟨u, ws⟩ := p
  have hu : Memory.wf (ws.foldl (fun s f => s.applyEff f.eff) u).mem = true :=
    foldl_wf _ (fun u c hu => State.applyEff_wf u c.eff hu) _ _ (by rw [show u.mem = s.mem from h1]; exact hw)
  dsimp -zeta only
  generalize ws.foldl (fun s f => s.applyEff f.eff) u = v at hu ⊢
  exact State.landAll_wf (v.takeDue fun e => !(e.isAcc || e.isSwap || e.isLatch)).1 _
    (by rw [State.takeDue_mem]; exact hu)

@[simp] theorem State.landAcc_wf (s : State) (hw : Memory.wf s.mem = true) :
    Memory.wf (State.landAcc s).mem = true := by
  unfold State.landAcc
  dsimp only
  all_goals simp_all

@[simp] theorem State.landSwap_wf (s : State) (hw : Memory.wf s.mem = true) :
    Memory.wf (State.landSwap s).mem = true := by
  unfold State.landSwap
  dsimp only
  all_goals simp_all

@[simp] theorem State.takeBy_mem (s : State) (n : Nat) (p : Effect → Bool) : (State.takeBy s n p).1.mem = s.mem := rfl

@[simp] theorem State.landLatch_wf (s : State) (hw : Memory.wf s.mem = true) :
    Memory.wf (State.landLatch s).mem = true := State.landAll_wf _ _ hw

@[simp] theorem State.replayPlacket_mem (s : State) :
    (State.replayPlacket s).mem = s.mem := by
  rfl

@[simp] theorem State.land_wf (s : State) (hw : Memory.wf s.mem = true) :
    Memory.wf (State.land s).mem = true := by
  grind [State.land, State.landLatch_wf, State.landAcc_wf, State.landResults_wf, State.landSwap_wf, State.replayPlacket_mem]

theorem execResultLanding_wf (s : State) (hw : Memory.wf s.mem = true) :
    ∀ t, (execResultLanding s) = .next t → Memory.wf t.mem = true := by
  intro t ht
  simp only [execResultLanding] at ht
  cases ht
  simp [*]

theorem execAccumulatorRowLanding_wf (s : State) (hw : Memory.wf s.mem = true) :
    ∀ t, (execAccumulatorRowLanding s) = .next t → Memory.wf t.mem = true := by
  intro t ht
  simp only [execAccumulatorRowLanding] at ht
  cases ht
  simp [*]

theorem execPlaneSwap_wf (s : State) (hw : Memory.wf s.mem = true) :
    ∀ t, (execPlaneSwap s) = .next t → Memory.wf t.mem = true := by
  intro t ht
  simp only [execPlaneSwap] at ht
  cases ht
  simp [*]

theorem execYokeLatchWrite_wf (s : State) (hw : Memory.wf s.mem = true) :
    ∀ t, (execYokeLatchWrite s) = .next t → Memory.wf t.mem = true := by
  intro t ht
  simp only [execYokeLatchWrite] at ht
  cases ht
  simp [*]

theorem execPlacketReplay_wf (s : State) (hw : Memory.wf s.mem = true) :
    ∀ t, (execPlacketReplay s) = .next t → Memory.wf t.mem = true := by
  intro t ht
  have := Host.Outcome.next.inj ht
  subst this
  exact State.land_wf s hw

@[simp] theorem State.finishDivide_mem (s : State) :
    (State.finishDivide s).mem = s.mem := by
  unfold State.finishDivide
  repeat' split
  all_goals simp_all

theorem execDivideComplete_mem (s : State) :
    ∀ t, (execDivideComplete s) = .next t → t.mem = s.mem := by
  intro t ht
  unfold execDivideComplete at ht
  repeat' split at ht
  all_goals cases ht
  all_goals simp_all

@[simp] theorem State.overdueDivides_mem (s : State) (x1 : Nat) :
    (State.overdueDivides s x1).mem = s.mem := by
  induction x1 generalizing s with
  | zero => rfl
  | succ n ih =>
    simp only [State.overdueDivides]
    repeat' split
    all_goals simp_all

@[simp] theorem State.fillEff_wf (s : State) (e : Effect) (hw : Memory.wf s.mem = true) :
    Memory.wf (State.fillEff s e).mem = true := by
  unfold State.fillEff
  repeat' split
  all_goals simp_all

@[simp] theorem State.flagsDue_mem (s : State) (f : BitVec 5) : (State.flagsDue s f).mem = s.mem := by
  unfold State.flagsDue
  dsimp only
  repeat' split
  all_goals rfl

@[simp] theorem State.fillPops_wf (s : State) (x1 : Nat) (hw : Memory.wf s.mem = true) :
    Memory.wf (State.fillPops s x1).mem = true := by
  induction x1 generalizing s with
  | zero => exact hw
  | succ n ih =>
    simp only [State.fillPops]
    repeat' split
    · exact hw
    · refine ih _ ?_
      rw [State.flagsDue_mem]
      exact foldl_wf _ (fun u c hu => State.fillEff_wf u c hu) _ _ (by simpa using hw)
    · exact hw

@[simp] theorem State.rqFill_wf (s : State) (hw : Memory.wf s.mem = true) :
    Memory.wf (State.rqFill s).mem = true := by
  unfold State.rqFill
  all_goals simp_all

theorem execRandomQueueFill_wf (s : State) (hw : Memory.wf s.mem = true) :
    ∀ t, (execRandomQueueFill s) = .next t → Memory.wf t.mem = true := by
  intro t ht
  unfold execRandomQueueFill at ht
  split at ht <;> cases ht
  · exact State.rqFill_wf s hw
  · exact hw

end Sys2Proof.Machine
end

