-- ==== Sys2Proof/Laws/MemEngines.lean ====
section
/-!
SUPPORT. For each operation, what performing core-path operations, copies and handles does to memory:
`X_mem` says that X leaves every byte of memory alone, `X_wf` that X keeps the canonical form of memory.
-/
namespace Sys2Proof.Machine
open Sys2Proof

@[simp] theorem State.focus_mem (s : State) (id : Nat) :
    (State.focus s id).mem = s.mem := by
  unfold State.focus
  repeat' split
  all_goals simp_all

@[simp] theorem State.modLink_mem (s : State) (l : BitVec 6) (f : Link → Link) :
    (State.modLink s l f).mem = s.mem := by
  unfold State.modLink
  repeat' split
  all_goals simp_all

@[simp] theorem State.seamSend_mem (s : State) (pa : Nat) : (State.seamSend s pa).mem = s.mem := by
  unfold State.seamSend
  split
  · exact State.modLink_mem _ _ _
  · rfl

@[simp] theorem State.sendFar_mem (s : State) (ps : List Piece) : (State.sendFar s ps).mem = s.mem := by
  unfold State.sendFar
  exact foldl_mem _ (fun u k hu => by rw [State.seamSend_mem]; exact hu) _ _ rfl

@[simp] theorem State.bump_mem (s : State) (off : Nat) (n : Nat) :
    (State.bump s off n).mem = s.mem := by
  rfl

@[simp] theorem State.setSt_wf (s : State) (r : Nat) (st : Nat) (hw : Memory.wf s.mem = true) :
    Memory.wf (State.setSt s r st).mem = true := by
  unfold State.setSt
  all_goals simp_all

@[simp] theorem State.setFcode_wf (s : State) (r : Nat) (c : Nat) (hw : Memory.wf s.mem = true) :
    Memory.wf (State.setFcode s r c).mem = true := by
  unfold State.setFcode
  all_goals simp_all

@[simp] theorem State.addLive_wf (s : State) (ctx : BitVec 12) (d : Int) (hw : Memory.wf s.mem = true) :
    Memory.wf (State.addLive s ctx d).mem = true := by
  unfold State.addLive
  all_goals simp_all

@[simp] theorem State.addConv_wf (s : State) (ctx : BitVec 12) (d : Int) (hw : Memory.wf s.mem = true) :
    Memory.wf (State.addConv s ctx d).mem = true := by
  unfold State.addConv
  all_goals simp_all

@[simp] theorem State.addPhase_wf (s : State) (ctx : BitVec 12) (p : Nat) (d : Int) (hw : Memory.wf s.mem = true) :
    Memory.wf (State.addPhase s ctx p d).mem = true := by
  unfold State.addPhase
  all_goals simp_all

@[simp] theorem State.msi_mem (s : State) (v : Nat) : (State.msi s v).mem = s.mem := rfl

@[simp] theorem State.faultEntry_wf (s : State) (ctx : BitVec 12) (r : Nat) (cause : W64) (hw : Memory.wf s.mem = true) :
    Memory.wf (State.faultEntry s ctx r cause).mem = true := by
  unfold State.faultEntry
  dsimp only
  repeat' split
  all_goals simp_all

@[simp] theorem State.toSt_wf (s : State) (r : Nat) (st : Nat) (hw : Memory.wf s.mem = true) :
    Memory.wf (State.toSt s r st).mem = true := by
  unfold State.toSt
  dsimp only
  repeat' split
  all_goals simp_all

@[simp] theorem State.enqueue_wf (s : State) (r : Nat) (x2 : Time) (hw : Memory.wf s.mem = true) :
    Memory.wf (State.enqueue s r x2).mem = true := by
  grind [State.enqueue, State.setFcode_wf, State.toSt_wf, State.wrField_wf]

@[simp] theorem State.unitTime_mem (s : State) (l : Time) (pa : Nat) :
    (State.unitTime s l pa).1.mem = s.mem := by
  simp [State.unitTime]

@[simp] theorem State.accept_wf (s : State) (r : Nat) (ctx : BitVec 12) (hw : Memory.wf s.mem = true) :
    Memory.wf (State.accept s r ctx).mem = true := by
  unfold State.accept
  dsimp only
  refine State.setFcode_wf _ _ _ ?_
  split
  · exact State.addPhase_wf _ _ _ _ hw
  · exact hw

@[simp] theorem State.submit_wf (s : State) (r : Nat) (ctx : BitVec 12) (l : Time) (hw : Memory.wf s.mem = true) :
    Memory.wf (State.submit s r ctx l).1.mem = true := by
  grind [State.submit, State.unitTime_mem, State.setFcode_wf, State.setSt_wf, State.accept_wf, State.enqueue_wf]

@[simp] theorem State.decrement_wf (s : State) (pa : Nat) (die : Nat) (l : Time) (hw : Memory.wf s.mem = true) :
    Memory.wf (State.decrement s pa die l).1.mem = true := by
  unfold State.decrement
  dsimp only
  repeat' split
  all_goals simp_all

@[simp] theorem State.setGroup_mem (s : State) (k : Nat) (g : Group) :
    (State.setGroup s k g).mem = s.mem := by
  rfl

@[simp] theorem State.popCq_mem (s : State) :
    (State.popCq s).mem = s.mem := by
  rfl

@[simp] theorem State.atUnits_wf (s : State) (kind : Nat) (units : List Nat) (f : State → State) (hf : ∀ s, Memory.wf s.mem = true → Memory.wf (f s).mem = true) (hw : Memory.wf s.mem = true) :
    Memory.wf (State.atUnits s kind units f).mem = true := by
  grind [State.atUnits, State.logUnits_wf, State.popCq_mem]

@[simp] theorem State.atPieces_wf (s : State) (ps : List Piece) (f : State → State) (hf : ∀ s, Memory.wf s.mem = true → Memory.wf (f s).mem = true) (hw : Memory.wf s.mem = true) :
    Memory.wf (State.atPieces s ps f).mem = true := by
  unfold State.atPieces
  split
  · exact hw
  · exact State.atUnits_wf _ _ _ _ (fun u hu => hf _ (by rw [State.sendFar_mem]; exact hu)) hw

@[simp] theorem State.atWrites_wf (s : State) (ps : List Piece) (f : State → State) (hf : ∀ s, Memory.wf s.mem = true → Memory.wf (f s).mem = true) (hw : Memory.wf s.mem = true) :
    Memory.wf (State.atWrites s ps f).mem = true := by
  unfold State.atWrites
  split
  · exact hw
  · exact State.atPieces_wf s ps f hf hw

@[simp] theorem State.atCounter_wf (s : State) (pa : Nat) (ps : List Piece) (f : State → State) (hf : ∀ s, Memory.wf s.mem = true → Memory.wf (f s).mem = true) (hw : Memory.wf s.mem = true) :
    Memory.wf (State.atCounter s pa ps f).mem = true := by
  unfold State.atCounter
  split
  · exact hw
  · exact State.atUnits_wf _ _ _ _ (fun u hu => hf _ (by rw [State.sendFar_mem]; exact hu)) hw

@[simp] theorem State.readPs_mem (s : State) (ps : List Piece) :
    (State.readPs s ps).1.mem = s.mem := by
  unfold State.readPs
  refine foldl_pair_mem _ ?_ _ _ rfl
  intro u d c hu
  simpa using hu

@[simp] theorem State.fillDst_mem (s : State) (dst : LoadDst) (len : Nat) (x : Nat) :
    (State.fillDst s dst len x).mem = s.mem := by
  unfold State.fillDst
  split
  · simp
  · refine foldl_mem _ ?_ _ _ (by simp)
    intro u c hu
    simpa using hu

@[simp] theorem State.markDst_mem (s : State) (dst : LoadDst) (cause : BitVec 8) (addr : W64) :
    (State.markDst s dst cause addr).mem = s.mem := by
  unfold State.markDst
  repeat' split
  all_goals simp_all

@[simp] theorem State.setHead_mem (s : State) (op : CoreOp) (locks : List Piece) :
    (State.setHead s op locks).mem = s.mem := rfl

@[simp] theorem State.readElem_mem (s : State) (l : LdElem) : (State.readElem s l).1.mem = s.mem := by
  unfold State.readElem
  split
  · rfl
  · exact State.readPs_mem _ _

theorem State.askBit_wf (s : State) (p : Place) (hw : Memory.wf s.mem = true) :
    ∀ t, State.askBit s p = some t → Memory.wf t.mem = true := by
  intro t ht
  unfold State.askBit at ht
  dsimp only at ht
  split at ht
  · cases ht
  · split at ht
    · rename_i u heq
      have h := State.logUnits_wf s s.issuer 1 (s.unitsOf [{ at_ := p, len := 1 }]) hw
      rw [heq] at h
      cases ht
      simpa using h
    · cases ht

@[simp] theorem State.askBits_wf (s : State) (es : List LdElem) (hw : Memory.wf s.mem = true) :
    Memory.wf (State.askBits s es).1.mem = true := by
  induction es generalizing s with
  | nil => exact hw
  | cons l ls ih =>
    unfold State.askBits
    split
    · exact ih s hw
    · split
      · exact hw
      · rename_i u hu
        exact ih u (State.askBit_wf s _ hw u hu)

/-- The bytes that a load's elements read leave memory alone. -/
theorem State.readElems_mem (es : List LdElem) (s : State) (x : Nat) (bad : Bool) :
    (es.foldl (fun (s, x, bad) l =>
      let (s, bs, b) := State.readElem s l
      (s, setField x (8 * l.off) (8 * bs.length) (ofLe bs), bad || b)) (s, x, bad)).1.mem = s.mem := by
  refine foldl_pair_mem _ ?_ _ _ rfl
  intro v d c hv
  simpa using hv

@[simp] theorem State.performLoad_wf (s : State) (dst : LoadDst) (addr : W64) (len : Nat) (keep : Bool) (elems : List LdElem) (spec : Bool) (hw : Memory.wf s.mem = true) :
    Memory.wf (State.performLoad s dst addr len keep elems spec).mem = true := by
  unfold State.performLoad
  extract_lets ps
  split
  · simp [hw]
  split
  · exact hw
  have hb := State.askBits_wf s elems hw
  generalize s.askBits elems = q at hb ⊢
  obtain ⟨v, es, ok⟩ := q
  cases ok
  · exact hb
  · refine State.atPieces_wf v _ _ ?_ hb
    intro u hu
    have key := State.readElems_mem es u (if keep then u.dstVal dst else 0) false
    split
    rename_i v y z heq
    rw [heq] at key
    have hv : Memory.wf v.mem = true := by rw [show v.mem = u.mem from key]; exact hu
    repeat' split
    · exact foldl_wf _ (fun w c hw => by simpa using hw) _ _ hv
    · simpa using hv
    · simpa using hv

theorem execLoadReturn_wf (s : State) (hw : Memory.wf s.mem = true) :
    ∀ t, (execLoadReturn s) = .next t → Memory.wf t.mem = true := by
  intro t ht
  unfold execLoadReturn at ht
  repeat' split at ht
  all_goals cases ht
  all_goals simp_all

@[simp] theorem State.atomicOld_mem (s : State) (p : Place) (n : Nat) :
    (State.atomicOld s p n).1.mem = s.mem := by
  unfold State.atomicOld
  dsimp only
  repeat' split
  all_goals simp_all

@[simp] theorem State.atomicPut_wf (s : State) (p : Piece) (op : Nat) (old : Nat) (v : W64) (v2 : W64) (exempt : Bool) (lt : Time) (hw : Memory.wf s.mem = true) :
    Memory.wf (State.atomicPut s p op old v v2 exempt lt).mem = true := by
  unfold State.atomicPut
  repeat' split
  all_goals simp_all

@[simp] theorem State.performAmo_wf (s : State) (e : CqEntry) (op : Nat) (dst : BitVec 6) (addr : W64) (at_ : Place) (size : Nat) (v : W64) (v2 : W64) (hw : Memory.wf s.mem = true) :
    Memory.wf (State.performAmo s e op dst addr at_ size v v2).mem = true := by
  grind [State.performAmo, State.markDst_mem, State.popCq_mem, State.atWrites_wf, State.deferFault_mem, State.fillDst_mem, State.atomicOld_mem, State.atomicPut_wf]

theorem execAmoReturn_wf (a : BitVec 6) (x1 : BitVec 6) (x2 : BitVec 6) (sz : BitVec 1) (s : State) (hw : Memory.wf s.mem = true) :
    ∀ t, (execAmoReturn a x1 x2 sz s) = .next t → Memory.wf t.mem = true := by
  intro t ht
  unfold execAmoReturn at ht
  repeat' split at ht
  all_goals cases ht
  all_goals simp_all

@[simp] theorem State.failPosted_mem (s : State) (e : CqEntry) (addr : W64) (sub : BitVec 8) (n : Nat) :
    (State.failPosted s e addr sub n).mem = s.mem := by
  simp [State.failPosted]

@[simp] theorem State.storeElem_wf (s : State) (e : CqEntry) (k : AccKind) (x : StElem) (hw : Memory.wf s.mem = true) :
    Memory.wf (State.storeElem s e k x).mem = true := by
  unfold State.storeElem
  repeat' split
  · simpa using hw
  · simpa using hw
  · simpa using hw
  · refine foldl_pair_wf _ ?_ _ _ (by simpa using hw)
    intro u d c hu
    have := State.coreWrite_wf u c.at_ (d.take c.len) e.lt hu
    simpa using this

@[simp] theorem State.performStore_wf (s : State) (e : CqEntry) (k : AccKind) (xs : List StElem) (hw : Memory.wf s.mem = true) :
    Memory.wf (State.performStore s e k xs).mem = true := by
  unfold State.performStore
  split
  · exact hw
  · exact State.atPieces_wf s _ _ (fun u hu => foldl_wf _ (fun v c hv => State.storeElem_wf v e k c hv) _ _ hu) hw

theorem State.hstoreElem_wf (s : State) (e : CqEntry) (h : Handle) (x : List Nat × List Byte) (hw : Memory.wf s.mem = true) :
    ∀ t, State.hstoreElem s e h x = some t → Memory.wf t.mem = true := by
  intro t ht
  unfold State.hstoreElem at ht
  split at ht
  · cases ht; simpa using hw
  · split at ht
    · rename_i p _
      rcases hq : s.askBit p with _ | u <;> rw [hq] at ht <;> cases ht
      exact State.storeElem_wf _ _ _ _ (State.askBit_wf s p hw u hq)
    · cases ht
      exact State.storeElem_wf _ _ _ _ hw

@[simp] theorem State.sendNew_mem (s : State) (sent : List Nat) (ps : List Piece) : (State.sendNew s sent ps).1.mem = s.mem := by
  unfold State.sendNew
  exact foldl_keeps (fun u : State => u.mem = s.mem) _ (fun b c hb => by rw [State.seamSend_mem]; exact hb) _ _ rfl

@[simp] theorem State.hstoreSome_wf (s : State) (e : CqEntry) (h : Handle) (sent : List Nat) (xs : List (List Nat × List Byte))
    (hw : Memory.wf s.mem = true) : Memory.wf (State.hstoreSome s e h sent xs).1.mem = true := by
  induction xs generalizing s sent with
  | nil => exact hw
  | cons x xs ih =>
    unfold State.hstoreSome
    have hm := State.sendNew_mem s sent (s.storePieces (vectorAcc .wr) [s.hElemAt h x])
    generalize s.sendNew sent (s.storePieces (vectorAcc .wr) [s.hElemAt h x]) = p at hm ⊢
    obtain ⟨v, sent'⟩ := p
    dsimp only
    split
    · rename_i u hu
      exact ih u sent' (State.hstoreElem_wf v e _ x (by rw [show v.mem = s.mem from hm]; exact hw) u hu)
    · exact hw

@[simp] theorem State.hstoreAll_wf (s : State) (e : CqEntry) (img : Nat) (ws : List W64) (xs : List (List Nat × List Byte))
    (hw : Memory.wf s.mem = true) : Memory.wf (State.hstoreAll s e img ws xs).mem = true := by
  have hm := State.hstoreSome_wf s e (handleOf ws) [] xs hw
  unfold State.hstoreAll
  generalize s.hstoreSome e (handleOf ws) [] xs = p at hm ⊢
  obtain ⟨v, _ | _⟩ := p
  · exact hm
  · exact hm

@[simp] theorem State.performHstore_wf (s : State) (e : CqEntry) (img : Nat) (ws : List W64) (xs : List (List Nat × List Byte))
    (hw : Memory.wf s.mem = true) : Memory.wf (State.performHstore s e img ws xs).mem = true := by
  unfold State.performHstore
  dsimp only
  split
  · exact hw
  · exact State.hstoreAll_wf _ _ _ _ _ hw

@[simp] theorem State.performRed_wf (s : State) (e : CqEntry) (op : Nat) (addr : W64) (size : Nat) (v : W64) (v2 : W64) (hw : Memory.wf s.mem = true) :
    Memory.wf (State.performRed s e op addr size v v2).mem = true := by
  grind [State.performRed, State.failPosted_mem, State.popCq_mem, State.atWrites_wf, State.atomicOld_mem, State.noteWalks_mem, State.atomicPut_wf]

@[simp] theorem State.ack_mem (s : State) (x1 : Time) :
    (State.ack s x1).mem = s.mem := by
  rfl

@[simp] theorem State.performDepdec_wf (s : State) (e : CqEntry) (addr : W64) (hw : Memory.wf s.mem = true) :
    Memory.wf (State.performDepdec s e addr).mem = true := by
  unfold State.performDepdec
  repeat' split
  all_goals simp_all

@[simp] theorem State.performSpawn_wf (s : State) (e : CqEntry) (addr : W64) (hw : Memory.wf s.mem = true) :
    Memory.wf (State.performSpawn s e addr).mem = true := by
  grind [State.performSpawn, State.failPosted_mem, State.popCq_mem, State.atCounter_wf, State.submit_wf, State.noteWalks_mem, State.ack_mem]

@[simp] theorem State.performPosted_wf (s : State) (e : CqEntry) (hw : Memory.wf s.mem = true) :
    Memory.wf (State.performPosted s e).mem = true := by
  unfold State.performPosted
  repeat' split
  all_goals simp_all

theorem execPostedOperationPerform_wf (s : State) (hw : Memory.wf s.mem = true) :
    ∀ t, (execPostedOperationPerform s) = .next t → Memory.wf t.mem = true := by
  intro t ht
  unfold execPostedOperationPerform at ht
  repeat' split at ht
  all_goals cases ht
  all_goals simp_all

@[simp] theorem State.performHead_wf (s : State) (hw : Memory.wf s.mem = true) :
    Memory.wf (State.performHead s).mem = true := by
  unfold State.performHead
  repeat' split
  all_goals simp_all

@[simp] theorem State.drain_wf (s : State) (x1 : Nat) (hw : Memory.wf s.mem = true) :
    Memory.wf (State.drain s x1).mem = true := by
  induction x1 generalizing s with
  | zero => exact hw
  | succ n ih => exact ih _ (State.performHead_wf s hw)

theorem execCallr_mem (off : BitVec 16) (s : State) :
    ∀ t, (execCallr off s) = .next t → t.mem = s.mem := by
  refine issue_mem _ _ s ?_
  intro u
  dsimp only
  repeat' split
  all_goals simp_all

@[simp] theorem State.modSubst_mem (s : State) (die : Nat) (f : SubstTable → SubstTable) :
    (State.modSubst s die f).mem = s.mem := by
  rfl

@[simp] theorem State.lookup_mem (s : State) :
    (State.lookup s).mem = s.mem := by
  unfold State.lookup
  dsimp only
  repeat' split
  all_goals simp_all

theorem execSubstitutionLookup_mem (s : State) :
    ∀ t, (execSubstitutionLookup s) = .next t → t.mem = s.mem := by
  intro t ht
  unfold execSubstitutionLookup at ht
  repeat' split at ht
  all_goals cases ht
  all_goals simp_all

@[simp] theorem State.settleTable_mem (s : State) (die : Nat) :
    (State.settleTable s die).mem = s.mem := by
  unfold State.settleTable
  dsimp only
  repeat' split
  all_goals simp_all

@[simp] theorem State.setNative_mem (s : State) (n : Native) : (State.setNative s n).mem = s.mem := rfl

@[simp] theorem State.ownResults_mem (s : State) (n : Native) : (State.ownResults s n).mem = s.mem := by
  simp [State.ownResults]

@[simp] theorem State.endNative_mem (s : State) :
    (State.endNative s).mem = s.mem := by
  unfold State.endNative
  split <;> simp

@[simp] theorem State.rewound_mem (s : State) (n : Native) : (State.rewound s n).mem = s.mem := by
  simp [State.rewound]

@[simp] theorem State.dropNative_mem (s : State) :
    (State.dropNative s).mem = s.mem := by
  unfold State.dropNative
  repeat' split
  all_goals simp

@[simp] theorem State.stopNative_mem (s : State) : (State.stopNative s).mem = s.mem := by
  unfold State.stopNative
  repeat' split
  all_goals simp

@[simp] theorem State.release_wf (s : State) (hw : Memory.wf s.mem = true) : Memory.wf (State.release s).mem = true :=
  State.drain_wf _ _ hw

theorem execNativeReturn_wf (s : State) (hw : Memory.wf s.mem = true) :
    ∀ t, (execNativeReturn s) = .next t → Memory.wf t.mem = true := by
  intro t ht
  unfold execNativeReturn at ht
  repeat' split at ht
  all_goals cases ht
  all_goals simp [hw]

theorem execMappedPoint_wf (s : State) (hw : Memory.wf s.mem = true) :
    ∀ t, (execMappedPoint s) = .next t → Memory.wf t.mem = true := by
  intro t ht
  unfold execMappedPoint at ht
  repeat' split at ht
  all_goals cases ht
  all_goals simp [hw]

theorem execSubstTableLoad_mem (die : BitVec 6) (image : TableImage) (signed : Bool) (s : State) :
    ∀ t, (execSubstTableLoad die image signed s) = .next t → t.mem = s.mem := by
  intro t ht
  unfold execSubstTableLoad at ht
  repeat' split at ht
  all_goals cases ht
  all_goals simp_all

@[simp] theorem State.barOp_wf (s : State) (m : Option Nat) (b : BitVec 6) (f : Bar → Bar) (hw : Memory.wf s.mem = true) :
    Memory.wf (State.barOp s m b f).mem = true := by
  unfold State.barOp
  repeat' split
  all_goals simp_all

theorem execExpect_wf (a : BitVec 6) (b : BitVec 6) (m : BitVec 6) (g : BitVec 1) (s : State) (hw : Memory.wf s.mem = true) :
    ∀ t, (execExpect a b m g s) = .next t → Memory.wf t.mem = true := by
  refine issue_wf _ _ s ?_ hw
  intro u hu
  exact State.barOp_wf _ _ _ _ hu

theorem execArrive_wf (a : BitVec 6) (m : BitVec 6) (g : BitVec 1) (s : State) (hw : Memory.wf s.mem = true) :
    ∀ t, (execArrive a m g s) = .next t → Memory.wf t.mem = true := by
  refine issue_wf _ _ s ?_ hw
  intro u hu
  exact State.barOp_wf _ _ _ _ hu

theorem execArriveInit_wf (a : BitVec 6) (b : BitVec 6) (m : BitVec 6) (g : BitVec 1) (s : State) (hw : Memory.wf s.mem = true) :
    ∀ t, (execArriveInit a b m g s) = .next t → Memory.wf t.mem = true := by
  refine issue_wf _ _ s ?_ hw
  intro u hu
  exact State.barOp_wf _ _ _ _ hu

@[simp] theorem State.groupOp_wf (s : State) (g : BitVec 6) (f : Group → Nat → Nat → Group) (hw : Memory.wf s.mem = true) :
    Memory.wf (State.groupOp s g f).mem = true := by
  unfold State.groupOp
  repeat' split
  all_goals simp_all

theorem execJoin_wf (g : BitVec 6) (s : State) (hw : Memory.wf s.mem = true) :
    ∀ t, (execJoin g s) = .next t → Memory.wf t.mem = true := by
  refine issue_wf _ _ s ?_ hw
  intro u hu
  exact State.groupOp_wf _ _ _ hu

theorem execLeave_wf (g : BitVec 6) (s : State) (hw : Memory.wf s.mem = true) :
    ∀ t, (execLeave g s) = .next t → Memory.wf t.mem = true := by
  refine issue_wf _ _ s ?_ hw
  intro u hu
  exact State.groupOp_wf _ _ _ hu

theorem execGbar_wf (g : BitVec 6) (s : State) (hw : Memory.wf s.mem = true) :
    ∀ t, (execGbar g s) = .next t → Memory.wf t.mem = true := by
  refine issue_wf _ _ s ?_ hw
  intro u hu
  simpa using State.groupOp_wf u g _ hu

@[simp] theorem State.fenced_mem (s : State) (scope : BitVec 3) : (State.fenced s scope).mem = s.mem := by
  unfold State.fenced
  split <;> rfl

theorem execFence_mem (scope : BitVec 3) (x1 : BitVec 1) (s : State) :
    ∀ t, (execFence scope x1 s) = .next t → t.mem = s.mem := by
  refine issue_mem _ _ s ?_
  intro u
  simp

theorem execFencep_mem (scope : BitVec 3) (p : BitVec 7) (q : BitVec 7) (s : State) :
    ∀ t, (execFencep scope p q s) = .next t → t.mem = s.mem := by
  refine issue_mem _ _ s ?_
  intro u
  rw [State.fenced_mem, State.modEng_mem]

theorem execBset_mem (a : BitVec 6) (b : BitVec 6) (c : BitVec 6) (s : State) :
    ∀ t, (execBset a b c s) = .next t → t.mem = s.mem := by
  refine issue_mem _ _ s ?_
  intro u
  simp [*]

theorem execBrel_mem (a : BitVec 6) (s : State) :
    ∀ t, (execBrel a s) = .next t → t.mem = s.mem := by
  refine issue_mem _ _ s ?_
  intro u
  simp [*]

@[simp] theorem State.onSlot_mem (s : State) : (State.onSlot s).mem = s.mem := rfl

theorem execYsend_wf (a : BitVec 6) (slot : BitVec 4) (s : State) (hw : Memory.wf s.mem = true) :
    ∀ t, (execYsend a slot s) = .next t → Memory.wf t.mem = true := by
  refine issue_wf _ _ s ?_ hw
  intro u hu
  dsimp only
  split
  · exact hu
  · exact State.logPoint_wf _ _ _ _ _ hu

theorem execYrecv_wf (b : BitVec 6) (slot : BitVec 4) (s : State) (hw : Memory.wf s.mem = true) :
    ∀ t, (execYrecv b slot s) = .next t → Memory.wf t.mem = true := by
  refine issue_wf _ _ s ?_ hw
  intro u hu
  split
  · exact hu
  · rw [State.fly_mem]
    exact State.logPoint_wf _ _ _ _ _ hu

@[simp] theorem State.enterCopy_mem (s : State) (q : CopyReq) :
    (State.enterCopy s q).mem = s.mem := by
  rfl

@[simp] theorem State.givePromise_mem (s : State) (a : BitVec 6) (p : Nat) :
    (State.givePromise s a p).mem = s.mem := by
  rfl

@[simp] theorem State.enterFetch_mem (s : State) (b : BitVec 6) (n : BitVec 8) (xs : List Nat) :
    (State.enterFetch s b n xs).mem = s.mem := by
  unfold State.enterFetch
  dsimp only
  repeat' split
  all_goals simp_all

theorem execCopy_mem (a : BitVec 6) (b : BitVec 6) (c : BitVec 6) (h : BitVec 8) (s : State) :
    ∀ t, (execCopy a b c h s) = .next t → t.mem = s.mem := by
  refine issue_mem _ _ s ?_
  intro u
  simp [*]

@[simp] theorem State.enterBack_mem (s : State) (b : BitVec 6) (n : BitVec 8) (xs : List Nat) :
    (State.enterBack s b n xs).mem = s.mem := by
  rfl

theorem execCopyo_mem (a : BitVec 6) (b : BitVec 6) (c : BitVec 6) (h : BitVec 8) (s : State) :
    ∀ t, (execCopyo a b c h s) = .next t → t.mem = s.mem := by
  refine issue_mem _ _ s ?_
  intro u
  simp [*]

theorem execCopyx_mem (a : BitVec 6) (b : BitVec 6) (c : BitVec 6) (s : State) :
    ∀ t, (execCopyx a b c s) = .next t → t.mem = s.mem := by
  refine issue_mem _ _ s ?_
  intro u
  simp [*]

theorem execPrmx_mem (a : BitVec 6) (b : BitVec 6) (imm : CImm) (s : State) :
    ∀ t, (execPrmx a b imm s) = .next t → t.mem = s.mem := by
  refine issue_mem _ _ s ?_
  intro u
  dsimp only
  repeat' split
  all_goals simp_all

@[simp] theorem Run.s_mem (self : Run) :
    (Run.s self).mem = self.s.mem := by
  rfl

@[simp] theorem Run.start_mem (s : State) (x1 : Time) :
    (Run.start s x1).s.mem = s.mem := by
  rfl

@[simp] theorem Run.failed_mem (r : Run) (va : W64) (c : BitVec 8) (n : Nat) :
    (Run.failed r va c n).s.mem = r.s.mem := by
  unfold Run.failed
  repeat' split
  all_goals simp_all

@[simp] theorem Eng.readMs_mem (e : Eng) (s : State) (pa n : Nat) : (Eng.readMs e s pa n).1.mem = s.mem := by
  unfold Eng.readMs
  refine foldl_pair_mem _ ?_ _ _ rfl
  intro u d c hu
  dsimp only
  split
  · exact hu
  · simpa using hu

@[simp] theorem Eng.readPiece_mem (e : Eng) (s : State) (p : Piece) :
    (Eng.readPiece e s p).1.mem = s.mem := by
  unfold Eng.readPiece
  dsimp only
  split
  · simp
  · split <;> simp
  · split <;> simp

@[simp] theorem Run.read_mem (r : Run) (e : Eng) (va : W64) (n : Nat) :
    (Run.read r e va n).1.s.mem = r.s.mem := by
  unfold Run.read
  repeat' split
  · simp
  · simp
  · exact foldl_keeps (fun u : Run × List Byte × Bool => u.1.s.mem = r.s.mem) _ (fun u c hu => by simpa using hu) _ _ rfl

@[simp] theorem State.zeroTail_wf (s : State) (ws : List (Nat × Nat)) (hw : Memory.wf s.mem = true) :
    Memory.wf (State.zeroTail s ws).mem = true :=
  foldl_keeps (fun u : State => Memory.wf u.mem = true) _ (fun _ _ hu => memWrite_wf hu _ _) _ _ hw

@[simp] theorem Eng.writePiece_wf (e : Eng) (r : Run) (blk : Option Nat) (p : Piece) (bs : List Byte) (bad : Bool) (hw : Memory.wf r.s.mem = true) :
    Memory.wf (Eng.writePiece e r blk p bs bad).s.mem = true := by
  unfold Eng.writePiece
  dsimp only
  repeat' split
  all_goals simp_all

@[simp] theorem Run.write_wf (r : Run) (e : Eng) (blk : Option Nat) (va : W64) (bs : List Byte) (bad : Bool) (hw : Memory.wf r.s.mem = true) :
    Memory.wf (Run.write r e blk va bs bad).s.mem = true := by
  unfold Run.write
  split
  · simpa using hw
  · exact foldl_keeps (fun u : Run × List Byte => Memory.wf u.1.s.mem = true) _
      (fun u c hu => Eng.writePiece_wf _ _ _ _ _ _ hu) _ _ hw

@[simp] theorem Run.tryWrite_mem (r : Run) (e : Eng) (blk : Option Nat) (va : W64) (n : Nat) :
    (Run.tryWrite r e blk va n).s.mem = r.s.mem := by
  unfold Run.tryWrite
  repeat' split
  all_goals simp_all

@[simp] theorem Run.cleared_mem (r : Run) :
    (Run.cleared r).mem = r.s.mem := by
  rfl

@[simp] theorem Run.addrOf_mem (r : Run) (e : Eng) (h : Handle) (x : List Nat) : (Run.addrOf r e h x).1.s.mem = r.s.mem := by
  unfold Run.addrOf
  split <;> simp

@[simp] theorem Run.readElem_mem (r : Run) (e : Eng) (h : Handle) (x : List Nat) (n : Nat) :
    (Run.readElem r e h x n).1.s.mem = r.s.mem := by
  simp [Run.readElem]

@[simp] theorem Run.fetchUnit_mem (r : Run) (e : Eng) (h : Handle) (u : FetchUnit) :
    (Run.fetchUnit r e h u).1.s.mem = r.s.mem := by
  unfold Run.fetchUnit
  dsimp only
  repeat' split
  all_goals simp

@[simp] theorem Run.place_mem (r : Run) (out : List (Nat × List Byte × Bool)) :
    (Run.place r out).mem = r.s.mem := by
  rfl

@[simp] theorem Run.resume_mem (s : State) (q : CopyReq) : (Run.resume s q).s.mem = s.mem := rfl

@[simp] theorem State.runFetch_mem (s : State) (q : CopyReq) (ok : Bool) (is : List Nat) :
    (State.runFetch s q ok is).s.mem = s.mem := by
  have key : ∀ (us : List FetchUnit) (p : Run × List (Nat × List Byte × Bool)), p.1.s.mem = s.mem →
      (us.foldl (fun (r, out) u =>
        let (r, o) := Run.fetchUnit r (s.engOf q ok) (handleOf q.handle) u
        (r, o :: out)) p).1.s.mem = s.mem :=
    fun us p hp => foldl_keeps (fun u : Run × List (Nat × List Byte × Bool) => u.1.s.mem = s.mem) _
      (fun u c hu => by simpa using hu) us p hp
  exact key (Sys2Proof.Machine.pick (s.fetchUnits q) is) (Run.resume s q, []) rfl

@[simp] theorem Run.tryBack_mem (r : Run) (e : Eng) (h : Handle) (b : Buf) (u : List Nat × Nat × Nat) :
    (Run.tryBack r e h b u).s.mem = r.s.mem := by
  unfold Run.tryBack
  dsimp only
  split <;> simp

theorem Run.tryBacks_mem (us : List (List Nat × Nat × Nat)) (r : Run) (e : Eng) (h : Handle) (b : Buf) :
    (us.foldl (fun r u => r.tryBack e h b u) r).s.mem = r.s.mem := by
  induction us generalizing r with
  | nil => rfl
  | cons c us ih => rw [List.foldl_cons, ih, Run.tryBack_mem]

@[simp] theorem State.runBack_wf (s : State) (q : CopyReq) (ok : Bool) (is : List Nat) (hw : Memory.wf s.mem = true) :
    Memory.wf (State.runBack s q ok is).s.mem = true := by
  unfold State.runBack
  extract_lets e h b units s0 r0 r f
  have hr : Memory.wf r.s.mem = true := by rw [Run.tryBacks_mem, Run.resume_mem, State.fixScratch_mem]; exact hw
  clear_value r e h b units
  refine foldl_keeps (fun u : Run => Memory.wf u.s.mem = true) _ ?_ _ _ hr
  intro u c hu
  obtain ⟨x, n, off⟩ := c
  exact Run.write_wf (u.addrOf e h x).1 e h.blk (u.addrOf e h x).2 _ _ (by rw [Run.addrOf_mem]; exact hu)

@[simp] theorem Run.convert_mem (r : Run) (e : Eng) (x : XDesc) (o n : Nat) :
    (Run.convert r e x o n).1.s.mem = r.s.mem := by
  unfold Run.convert
  dsimp only
  repeat' split
  · rfl
  · simp
  · refine foldl_keeps (fun u : Run × List Byte × Bool => u.1.s.mem = r.s.mem) _ ?_ _ _ rfl
    intro u c hu
    simpa using hu

@[simp] theorem State.runConv_wf (s : State) (q : CopyReq) (ok : Bool) (g : Nat) (is : List Nat) (hw : Memory.wf s.mem = true) :
    Memory.wf (State.runConv s q ok g is).s.mem = true := by
  unfold State.runConv
  extract_lets e x
  have key : ∀ (us : List (Nat × Nat)) (p : Run × List (Nat × List Byte × Bool)), Memory.wf p.1.s.mem = true →
      Memory.wf (us.foldl (fun (r, out) (o, n) =>
        let (r, bs, bad) := Run.convert r e x o n
        (r, out ++ [(o, bs, bad)])) p).1.s.mem = true :=
    fun us p hp => foldl_keeps (fun u : Run × List (Nat × List Byte × Bool) => Memory.wf u.1.s.mem = true) _
      (fun u c hu => by simpa using hu) us p hp
  have h1 := key (Sys2Proof.Machine.pick (x.units g) is) (Run.resume s q, []) hw
  dsimp only
  refine foldl_keeps (fun u : Run => Memory.wf u.s.mem = true) _ (fun u c hu => Run.write_wf _ _ _ _ _ _ hu) _ _ ?_
  refine foldl_keeps (fun u : Run => Memory.wf u.s.mem = true) _ (fun u c hu => by simpa using hu) _ _ ?_
  exact h1

@[simp] theorem State.engWalks_mem (s : State) (l : Time) (root : Nat) (es : List TlbEntry) :
    (State.engWalks s l root es).mem = s.mem := by
  unfold State.engWalks
  apply foldl_keeps (fun (u : State) => u.mem = s.mem) <;> simp_all

@[simp] theorem State.engMissed_mem (s : State) (x : Xl) (va : Nat) : (State.engMissed s x va).1.mem = s.mem := by
  unfold State.engMissed
  split <;> simp

@[simp] theorem State.engRefused_mem (s : State) (x : Xl) (l : Time) (fail : Option (W64 × BitVec 8)) (n : Nat) :
    (State.engRefused s x l fail n).mem = s.mem := by
  unfold State.engRefused
  split
  · split
    · rename_i va c _
      have h := State.engMissed_mem { s with core := { s.core with lt := l } } x va.toNat
      dsimp only
      generalize State.engMissed _ _ _ = p at h ⊢
      obtain ⟨v, _ | _⟩ := p
      · exact h
      · dsimp only
        split
        · exact h
        · rw [State.engMissed_mem]; exact h
    · rfl
  · rfl

@[simp] theorem State.noteTlbY_mem (s : State) (l : Time) (es : List TlbEntry) :
    (State.noteTlbY s l es).mem = s.mem := by
  simp [State.noteTlbY]

@[simp] theorem State.closeRun_mem (s : State) (q : CopyReq) (r : Run) :
    (State.closeRun s q r).mem = s.mem := by
  unfold State.closeRun
  repeat' split
  all_goals simp

theorem State.payOne_wf (s : State) (o : Owed) (hw : Memory.wf s.mem = true) :
    ∀ t, (State.payOne s o) = some t → Memory.wf t.mem = true := by
  grind [State.payOne, State.logPoint_wf, State.updCore_mem]

@[simp] theorem State.payOwed_wf (s : State) (hw : Memory.wf s.mem = true) :
    Memory.wf (State.payOwed s).mem = true := by
  unfold State.payOwed
  refine foldl_wf _ ?_ _ _ hw
  intro u c hu
  split
  · rename_i v hv
    simpa using State.payOne_wf _ _ hu _ hv
  · exact hu

@[simp] theorem State.noteLate_mem (s : State) (q : CopyReq) : (State.noteLate s q).mem = s.mem := by
  unfold State.noteLate
  split <;> rfl

@[simp] theorem State.leaveCopy_wf (s : State) (q : CopyReq) (r : Run) (hw : Memory.wf s.mem = true) :
    Memory.wf (State.leaveCopy s q r).mem = true := by
  unfold State.leaveCopy
  repeat' split
  all_goals simp_all

@[simp] theorem State.moveUnits_wf (s : State) (q : CopyReq) (ok : Bool) (is : List Nat) (hw : Memory.wf s.mem = true) :
    Memory.wf (State.moveUnits s q ok is).s.mem = true := by
  unfold State.moveUnits
  split
  · exact State.runConv_wf _ _ _ _ _ hw
  · exact State.runBack_wf _ _ _ _ hw
  · rw [State.runFetch_mem]; exact hw

@[simp] theorem State.moveRest_wf (s : State) (q : CopyReq) (ok : Bool) (hw : Memory.wf s.mem = true) :
    Memory.wf (State.moveRest s q ok).s.mem = true := by
  unfold State.moveRest
  dsimp only
  split <;> exact State.moveUnits_wf _ _ _ _ hw

@[simp] theorem State.runCopy_wf (s : State) (q : CopyReq) (ok : Bool) (hw : Memory.wf s.mem = true) :
    Memory.wf (State.runCopy s q ok).mem = true := by
  have h := State.moveRest_wf s q ok hw
  unfold State.runCopy
  dsimp only
  split
  · exact State.leaveCopy_wf _ _ _ (Run.write_wf _ _ _ _ _ _ h)
  · exact State.leaveCopy_wf _ _ _ h

@[simp] theorem State.setCopy_mem (s : State) (q : CopyReq) : (State.setCopy s q).mem = s.mem := rfl

@[simp] theorem State.readMsAt_wf (s : State) (w : Issuer) (who : Option (Nat × Nat)) (l : Time) (got : MsGot) (pas : List Nat)
    (hw : Memory.wf s.mem = true) : Memory.wf (State.readMsAt s w who l got pas).1.mem = true := by
  unfold State.readMsAt
  split
  · exact hw
  · have h := State.logUnits_wf s w 1 (pas.map s.msPoint) hw
    split
    · exact hw
    · rename_i u heq
      rw [heq] at h
      refine foldl_keeps (fun x : State × MsGot => Memory.wf x.1.mem = true) _ ?_ _ _ h
      intro x pa hx
      simpa using hx

@[simp] theorem State.msAhead_wf (s : State) (w : Issuer) (e : Eng) (blk : Bool) (pas : List Nat) (hw : Memory.wf s.mem = true) :
    Memory.wf (State.msAhead s w e blk pas).1.mem = true := by
  refine foldl_keeps (fun x : State × MsGot => Memory.wf x.1.mem = true) _ ?_ _ _ hw
  intro x pa hx
  dsimp only
  split
  · exact hx
  · exact State.readMsAt_wf _ _ _ _ _ _ hx

@[simp] theorem State.readAhead_wf (s : State) (q : CopyReq) (pa : Nat) (hw : Memory.wf s.mem = true) :
    Memory.wf (State.readAhead s q pa).mem = true := by
  unfold State.readAhead
  have h := State.readMsAt_wf s s.issuer s.phaseTask q.base q.moved.got (s.readWith q pa) hw
  generalize s.readMsAt s.issuer s.phaseTask q.base q.moved.got (s.readWith q pa) = p at h ⊢
  obtain ⟨u, got⟩ := p
  dsimp only
  split
  · exact hw
  · exact h

@[simp] theorem State.moveAhead_wf (s : State) (q : CopyReq) (k : Nat) (hw : Memory.wf s.mem = true) :
    Memory.wf (State.moveAhead s q k).mem = true := by
  unfold State.moveAhead
  extract_lets left keys is
  split
  · exact hw
  · have h := State.logUnits_wf s s.issuer 1 (s.unitPoints q is) hw
    split
    · exact hw
    · rename_i u heq
      rw [heq] at h
      rw [State.setCopy_mem, State.noteTlbY_mem]
      exact State.moveUnits_wf _ _ _ _ h

@[simp] theorem State.copyUnit_wf (s : State) (tag : BitVec 16) (k : Nat) (hw : Memory.wf s.mem = true) :
    Memory.wf (State.copyUnit s tag k).mem = true := by
  unfold State.copyUnit
  split
  · exact State.moveAhead_wf _ _ _ hw
  · exact hw

@[simp] theorem State.copyPiece_wf (s : State) (tag : BitVec 16) (k : Nat) (hw : Memory.wf s.mem = true) :
    Memory.wf (State.copyPiece s tag k).mem = true := by
  unfold State.copyPiece
  repeat' split
  all_goals first | exact hw | exact State.readAhead_wf _ _ _ hw

@[simp] theorem State.passPoints_wf (s : State) (tag : BitVec 16) (hw : Memory.wf s.mem = true) :
    Memory.wf (State.passPoints s tag).mem = true := by
  unfold State.passPoints
  exact foldl_wf _ (fun u k hu => State.copyUnit_wf _ _ _ hu) _ _
    (foldl_wf _ (fun u k hu => State.copyPiece_wf _ _ _ hu) _ _ hw)

@[simp] theorem State.completeCopy_wf (s : State) (q : CopyReq) (ok : Bool) (hw : Memory.wf s.mem = true) :
    Memory.wf (State.completeCopy s q ok).mem = true := by
  unfold State.completeCopy
  split
  · exact hw
  · extract_lets x rcd
    have h := State.logUnits_wf s s.issuer 1
      ((s.unbreached (s.piecesLeft q)).map s.msPoint ++ s.unitPoints q (s.unitsLeft q) ++ rcd) hw
    split
    · rename_i u heq
      rw [heq] at h
      exact State.runCopy_wf _ _ _ (by rw [State.sendFar_mem]; exact h)
    · exact State.passPoints_wf _ _ hw

@[simp] theorem State.startCopy_mem (s : State) :
    (State.startCopy s).mem = s.mem := by
  unfold State.startCopy
  repeat' split
  all_goals simp_all

theorem execCopyRequestStart_mem (s : State) :
    ∀ t, (execCopyRequestStart s) = .next t → t.mem = s.mem := by
  intro t ht
  simp only [execCopyRequestStart] at ht
  cases ht
  simp [*]

theorem execCopyCompletion_wf (tag : BitVec 16) (peer : PeerReply) (s : State) (hw : Memory.wf s.mem = true) :
    ∀ t, (execCopyCompletion tag peer s) = .next t → Memory.wf t.mem = true := by
  intro t ht
  unfold execCopyCompletion at ht
  repeat' split at ht
  all_goals cases ht
  all_goals simp_all

@[simp] theorem State.noteMiss_mem (s : State) (p : CopyReq → Bool) :
    (State.noteMiss s p).mem = s.mem := by
  rfl

theorem execPromiseMiss_mem (tag : BitVec 16) (s : State) :
    ∀ t, (execPromiseMiss tag s) = .next t → t.mem = s.mem := by
  intro t ht
  simp only [execPromiseMiss] at ht
  cases ht
  simp [*]

@[simp] theorem State.stopSchedule_mem (s : State) (va : W64) (c : BitVec 8) :
    (State.stopSchedule s va c).mem = s.mem := by
  rfl

@[simp] theorem State.enterEntry_mem (s : State) (va : W64) (ws : List W64) :
    (State.enterEntry s va ws).mem = s.mem := by
  unfold State.enterEntry
  dsimp only
  repeat' split
  all_goals simp_all

@[simp] theorem State.noteEntry_mem (s : State) (va : W64) : (State.noteEntry s va).mem = s.mem := by
  simp [State.noteEntry, State.readEntry]

@[simp] theorem State.releaseEntry_wf (s : State) (hw : Memory.wf s.mem = true) :
    Memory.wf (State.releaseEntry s).mem = true := by
  unfold State.releaseEntry
  split
  · exact hw
  split
  · exact hw
  extract_lets va ps
  split
  · exact hw
  split
  · simpa using hw
  split
  · exact hw
  have h := State.logUnits_wf s s.issuer 1 (s.engUnits s.entryEng.xl .rd [(va, 32)]) hw
  split
  · rename_i u heq
    rw [heq] at h
    simpa using h
  · exact hw

theorem execScheduleEntryRelease_wf (s : State) (hw : Memory.wf s.mem = true) :
    ∀ t, (execScheduleEntryRelease s) = .next t → Memory.wf t.mem = true := by
  intro t ht
  simp only [execScheduleEntryRelease] at ht
  cases ht
  exact State.releaseEntry_wf s hw

@[simp] theorem State.releaseAll_wf (s : State) (n : Nat) (hw : Memory.wf s.mem = true) :
    Memory.wf (State.releaseAll s n).mem = true := by
  induction n generalizing s with
  | zero => exact hw
  | succ n ih =>
    simp only [State.releaseAll]
    split
    · exact State.releaseEntry_wf s hw
    · exact ih _ (State.releaseEntry_wf s hw)

@[simp] theorem State.descWords_mem (s : State) (va : W64) :
    (State.descWords s va).1.mem = s.mem := by
  simp [State.descWords]

theorem execHset_mem (b : BitVec 6) (c : BitVec 6) (s : State) :
    ∀ t, (execHset b c s) = .next t → t.mem = s.mem := by
  refine issue_mem _ _ s ?_
  intro u
  simp [*]

@[simp] theorem State.setTop_mem (s : State) (die : Nat) (l : List TopReq) :
    (State.setTop s die l).mem = s.mem := by
  rfl

theorem Run.topGo_mem {α : Type} (r : Run) (e : Eng) (va n : Nat) (no : α) (f : Run → Run × α)
    (hf : ∀ r, (f r).1.s.mem = r.s.mem) : (Run.topGo r e va n no f).1.s.mem = r.s.mem := by
  unfold Run.topGo
  dsimp only
  repeat' split
  · rw [State.focus_mem, hf, State.focus_mem]
  · exact Run.failed_mem ..
  · exact hf r

theorem Run.topGo_wf {α : Type} (r : Run) (e : Eng) (va n : Nat) (no : α) (f : Run → Run × α)
    (hf : ∀ r : Run, Memory.wf r.s.mem = true → Memory.wf (f r).1.s.mem = true) (hw : Memory.wf r.s.mem = true) :
    Memory.wf (Run.topGo r e va n no f).1.s.mem = true := by
  unfold Run.topGo
  dsimp only
  repeat' split
  · rw [State.focus_mem]
    exact hf _ (by rw [State.focus_mem]; exact hw)
  · rw [Run.failed_mem]; exact hw
  · exact hf r hw

@[simp] theorem Run.topRead_mem (r : Run) (e : Eng) (va : Nat) (n : Nat) : (Run.topRead r e va n).1.s.mem = r.s.mem :=
  Run.topGo_mem _ _ _ _ _ _ fun _ => Run.read_mem ..

@[simp] theorem Run.topWrite_wf (r : Run) (e : Eng) (blk : Option Nat) (va : Nat) (bs : List Byte) (bad : Bool) (hw : Memory.wf r.s.mem = true) :
    Memory.wf (Run.topWrite r e blk va bs bad).s.mem = true :=
  Run.topGo_wf _ _ _ _ _ _ (fun _ hu => Run.write_wf _ _ _ _ _ _ hu) hw

@[simp] theorem State.zeroBitmap_wf (s : State) (die : Nat) (q : TopReq) (h : Handle) (hw : Memory.wf s.mem = true) :
    Memory.wf (State.zeroBitmap s die q h).s.mem = true :=
  foldl_keeps (fun u : Run => Memory.wf u.s.mem = true) _ (fun _ _ hu => Run.topWrite_wf _ _ _ _ _ _ hu) _ _ hw

@[simp] theorem State.noteTopTlb_mem (s : State) (die : Nat) (q : TopReq) (es : List TlbEntry) :
    (State.noteTopTlb s die q es).mem = s.mem := by
  simp [State.noteTopTlb]

@[simp] theorem State.zeroPiece_wf (s : State) (die : Nat) (q : TopReq) (c : Nat × Nat) (hw : Memory.wf s.mem = true) :
    Memory.wf (State.zeroPiece s die q c).mem = true := by
  unfold State.zeroPiece
  dsimp only
  split
  · exact hw
  · have h := State.logUnits_wf s s.issuer 1 (s.engUnits (s.topEng die q).xl .wr [(BitVec.ofNat 64 c.1, c.2)]) hw
    split
    · exact hw
    · rename_i u heq
      rw [heq] at h
      rw [State.modCtl_mem, State.noteTopTlb_mem, Run.cleared_mem]
      exact Run.topWrite_wf _ _ _ _ _ _ h

@[simp] theorem State.zeroAhead_wf (s : State) (b c : BitVec 6) (tag : BitVec 3) (hw : Memory.wf s.mem = true) :
    Memory.wf (State.zeroAhead s b c tag).mem = true := by
  unfold State.zeroAhead
  dsimp only
  repeat' split
  · exact hw
  · exact foldl_wf _ (fun u k hu => State.zeroPiece_wf _ _ _ _ hu) _ _ hw
  · exact hw

@[simp] theorem State.startConv_wf (s : State) (b : BitVec 6) (c : BitVec 6) (tag : BitVec 3) (hw : Memory.wf s.mem = true) :
    Memory.wf (State.startConv s b c tag).mem = true := by
  grind [State.startConv, State.readHandle_mem, State.modEng_mem, State.fly_mem, State.setTop_mem, State.logUnits_wf, State.zeroBitmap_wf, State.deferFault_mem, State.addConv_wf, State.noteTopTlb_mem, Run.cleared_mem, State.engRefused_mem,
    State.sendFar_mem, State.modCtl_mem]

theorem execRlay_wf (b : BitVec 6) (c : BitVec 6) (tag : BitVec 3) (s : State) (hw : Memory.wf s.mem = true) :
    ∀ t, (execRlay b c tag s) = .next t → Memory.wf t.mem = true := by
  refine issue_wf _ _ s ?_ hw
  intro u hu
  simp [*]

@[simp] theorem Run.moveTile_wf (r : Run) (e : Eng) (h : Handle) (ms : List (Option Nat × Nat × Nat × Nat))
    (hw : Memory.wf r.s.mem = true) : Memory.wf (Run.moveTile r e h ms).s.mem = true := by
  have key : ∀ (ms : List (Option Nat × Nat × Nat × Nat)) (p : Run × List (Nat × List Byte × Bool)), p.1.s.mem = r.s.mem →
      (ms.foldl (fun (r, out) (o, d, n, keep) =>
        match o with
        | none => (r, out ++ [(d, List.replicate n 0, false)])
        | some a =>
          let (r, bs, bad) := Run.topRead r e a n
          (r, out ++ [(d, leBytes n (ofLe bs % 2 ^ keep), bad)])) p).1.s.mem = r.s.mem :=
    fun ms p hp => foldl_keeps (fun u : Run × List (Nat × List Byte × Bool) => u.1.s.mem = r.s.mem) _
      (fun u c hu => by
        obtain ⟨_ | a, d, n, keep⟩ := c
        · exact hu
        · simpa using hu) ms p hp
  have h1 := key ms (r, []) rfl
  unfold Run.moveTile
  dsimp only
  refine foldl_keeps (fun u : Run => Memory.wf u.s.mem = true) _ (fun u c hu => Run.topWrite_wf _ _ _ _ _ _ hu) _ _ ?_
  exact (congrArg Memory.wf h1).trans hw

@[simp] theorem Run.setBit_wf (r : Run) (e : Eng) (h : Handle) (τ : Nat) (hw : Memory.wf r.s.mem = true) :
    Memory.wf (Run.setBit r e h τ).s.mem = true := by
  unfold Run.setBit
  have h1 := Run.topRead_mem { r with mine := [] } e (h.cbmp + τ / 8) 1
  dsimp only
  exact Run.topWrite_wf _ _ _ _ _ _ ((congrArg Memory.wf h1).trans hw)

@[simp] theorem State.putHandle_wf (s : State) (img : Nat) (l : Time) (ws : List W64) (hw : Memory.wf s.mem = true) :
    Memory.wf (State.putHandle s img l ws).1.mem = true := by
  unfold State.putHandle
  all_goals simp_all

@[simp] theorem State.atTask_mem (s : State) (r : Nat) (m : Nat) (f : Core → Core) :
    (State.atTask s r m f).mem = s.mem := by
  rfl

@[simp] theorem State.haltConv_wf (s : State) (die : Nat) (q : TopReq) (a : W64) (cause : BitVec 8) (n : Nat) (hw : Memory.wf s.mem = true) :
    Memory.wf (State.haltConv s die q a cause n).mem = true := by
  unfold State.haltConv
  all_goals simp_all

@[simp] theorem State.headTop_mem (s : State) (die : Nat) (q : TopReq) : (State.headTop s die q).mem = s.mem := rfl

@[simp] theorem State.noteConv_mem (s : State) (img : Nat) (f : Engines → Engines) : (State.noteConv s img f).mem = s.mem := rfl

@[simp] theorem State.topFind_wf (s : State) (die : Nat) (q : TopReq) (h : Handle) (hw : Memory.wf s.mem = true) :
    Memory.wf (State.topFind s die q h).mem = true := by
  unfold State.topFind
  extract_lets e0 e ps pas
  split
  · exact State.haltConv_wf _ _ _ _ _ _ hw
  · split
    · exact hw
    · have h1 := State.msAhead_wf s (s.topIssuer q) e false pas hw
      generalize s.msAhead (s.topIssuer q) e false pas = p at h1 ⊢
      obtain ⟨u, bits⟩ := p
      dsimp only
      split
      · exact (congrArg Memory.wf ((State.noteTopTlb_mem ..).trans ((Run.topRead_mem ..).trans (State.sendFar_mem u ps)))).trans h1
      · exact h1

@[simp] theorem State.topLock_wf (s : State) (die : Nat) (q : TopReq) (h : Handle) (τ : Nat) (hw : Memory.wf s.mem = true) :
    Memory.wf (State.topLock s die q h τ).mem = true := by
  unfold State.topLock
  dsimp only
  repeat' split
  · exact State.haltConv_wf _ _ _ _ _ _ hw
  · exact hw
  · rw [State.headTop_mem, State.sendFar_mem]; exact hw

@[simp] theorem State.topReady_wf (s : State) (die : Nat) (hw : Memory.wf s.mem = true) : Memory.wf (State.topReady s die).mem = true := by
  unfold State.topReady
  dsimp only
  repeat' split
  all_goals first | exact hw | exact State.topFind_wf _ _ _ _ hw | exact State.topLock_wf _ _ _ _ _ hw

@[simp] theorem State.topAhead_wf (s : State) (die : Nat) (q : TopReq) (h : Handle) (pas : List Nat) (hw : Memory.wf s.mem = true) :
    Memory.wf (State.topAhead s die q h pas).mem = true :=
  State.msAhead_wf s (s.topIssuer q) (s.topEng die q) h.packed pas hw

@[simp] theorem State.topUnit_wf (s : State) (die : Nat) (us : List (List (Option Nat × Nat × Nat × Nat))) (k : Nat)
    (hw : Memory.wf s.mem = true) : Memory.wf (State.topUnit s die us k).mem = true := by
  unfold State.topUnit
  split
  · rename_i q h τ ms _ _
    extract_lets e r
    split
    · exact hw
    · split
      · exact State.haltConv_wf _ _ _ _ _ _ hw
      · have h1 := State.logUnits_wf s (s.topIssuer q) 1 (s.engUnits e.xl .wr (moveDsts ms)) hw
        split
        · exact hw
        · rename_i u heq
          rw [heq] at h1
          rw [State.headTop_mem, State.noteTopTlb_mem]
          exact Run.moveTile_wf _ _ _ _ h1
  · exact hw

@[simp] theorem State.topCommit_wf (s : State) (die n : Nat) (hw : Memory.wf s.mem = true) :
    Memory.wf (State.topCommit s die n).mem = true := by
  unfold State.topCommit
  split
  · exact hw
  · rename_i q h τ _
    dsimp only
    split
    · exact hw
    · split
      · exact State.haltConv_wf _ _ _ _ _ _ hw
      · have h1 := State.logUnits_wf s (s.topIssuer q) 1 (s.engUnits (s.topEng die q).xl .wr [h.bitByte τ]) hw
        split
        · exact hw
        · rename_i u heq
          rw [heq] at h1
          rw [State.headTop_mem, State.noteConv_mem]
          refine State.putHandle_wf _ _ _ _ ?_
          rw [State.noteTopTlb_mem, Run.cleared_mem]
          exact Run.setBit_wf _ _ _ _ h1

@[simp] theorem State.topTile_wf (s : State) (die : Nat) (hw : Memory.wf s.mem = true) :
    Memory.wf (State.topTile s die).mem = true := by
  have h0 := State.topReady_wf _ die (State.topReady_wf s die hw)
  unfold State.topTile
  dsimp only
  split
  · exact h0
  · exact State.topCommit_wf _ _ _ (foldl_wf _ (fun u k hu => State.topUnit_wf _ _ _ _ hu) _ _ (State.topAhead_wf _ _ _ _ _ h0))

@[simp] theorem State.tileUnit_wf (s : State) (die k : Nat) (hw : Memory.wf s.mem = true) :
    Memory.wf (State.tileUnit s die k).mem = true := by
  have h0 := State.topReady_wf _ die (State.topReady_wf s die hw)
  unfold State.tileUnit
  dsimp only
  split
  · exact h0
  · split
    · exact State.topUnit_wf _ _ _ _ h0
    · exact State.topAhead_wf _ _ _ _ _ h0
    · exact h0

theorem execTopiaryTileConvert_wf (die : BitVec 6) (s : State) (hw : Memory.wf s.mem = true) :
    ∀ t, (execTopiaryTileConvert die s) = .next t → Memory.wf t.mem = true := by
  intro t ht
  simp only [execTopiaryTileConvert] at ht
  cases ht
  simp [*]

@[simp] theorem State.forgetConv_mem (s : State) (img : Nat) :
    (State.forgetConv s img).mem = s.mem := by
  rfl

@[simp] theorem State.topDrop_wf (s : State) (die : Nat) (hw : Memory.wf s.mem = true) :
    Memory.wf (State.topDrop s die).mem = true := by
  unfold State.topDrop
  dsimp only
  repeat' split
  · exact hw
  · exact hw
  · refine State.addConv_wf _ _ _ ?_
    rw [State.forgetConv_mem, State.setTop_mem, State.noteConv_mem]
    exact State.putHandle_wf _ _ _ _ hw

theorem execTopiaryDrop_wf (die : BitVec 6) (s : State) (hw : Memory.wf s.mem = true) :
    ∀ t, (execTopiaryDrop die s) = .next t → Memory.wf t.mem = true := by
  intro t ht
  simp only [execTopiaryDrop] at ht
  cases ht
  simp [*]

end Sys2Proof.Machine
end

