-- ==== Sys2Proof/Laws/MemTasks.lean ====
section
/-!
SUPPORT. For each operation, what scheduling, contexts, snapshots, upkeep, the host and the fabric do to memory:
`X_mem` says that X leaves every byte of memory alone, `X_wf` that X keeps the canonical form of memory.
-/
namespace Sys2Proof.Machine
open Sys2Proof

@[simp] theorem State.intervalEnd_wf (s : State) (ctx : BitVec 12) (kind : Nat) (rcd : Nat) (m : Nat) (phase : Nat) (hw : Memory.wf s.mem = true) :
    Memory.wf (State.intervalEnd s ctx kind rcd m phase).1.mem = true := by
  grind [State.intervalEnd, State.hwWr_wf, State.wrWords_wf, State.wrField_wf]

@[simp] theorem State.atUnit_wf (s : State) (w : Issuer) (pa : Nat) (f : State → State) (hf : ∀ s, Memory.wf s.mem = true → Memory.wf (f s).mem = true) (hw : Memory.wf s.mem = true) :
    Memory.wf (State.atUnit s w pa f).mem = true := by
  grind [State.atUnit, State.logPoint_wf]

theorem execTaskSubmit_wf (rcd : W64) (ctx : BitVec 12) (x2 : Time) (s : State) (hw : Memory.wf s.mem = true) :
    ∀ t, (execTaskSubmit rcd ctx x2 s) = .next t → Memory.wf t.mem = true := by
  intro t ht
  unfold execTaskSubmit at ht
  all_goals cases ht
  all_goals simp_all

theorem execDependencyDecrement_wf (pa : W64) (die : BitVec 6) (x2 : Time) (s : State) (hw : Memory.wf s.mem = true) :
    ∀ t, (execDependencyDecrement pa die x2 s) = .next t → Memory.wf t.mem = true := by
  intro t ht
  unfold execDependencyDecrement at ht
  all_goals cases ht
  all_goals simp_all

@[simp] theorem State.stopQueue_mem (s : State) (ctx : BitVec 12) (q : BitVec 2) :
    (State.stopQueue s ctx q).mem = s.mem := by
  rfl

@[simp] theorem State.launch_wf (s : State) (ctx : BitVec 12) (q : BitVec 2) (hw : Memory.wf s.mem = true) :
    Memory.wf (State.launch s ctx q).mem = true := by
  grind [State.launch, State.stopQueue_mem, State.wr64_wf, State.wrField_wf, State.modSup_mem, State.logPoint_wf, State.submit_wf]

theorem execLaunchEntryConsume_wf (ctx : BitVec 12) (q : BitVec 2) (s : State) (hw : Memory.wf s.mem = true) :
    ∀ t, (execLaunchEntryConsume ctx q s) = .next t → Memory.wf t.mem = true := by
  intro t ht
  unfold execLaunchEntryConsume at ht
  split at ht <;> cases ht
  · exact State.launch_wf _ _ _ hw
  · exact hw

@[simp] theorem State.ageDie_mem (s : State) (die : Nat) :
    (State.ageDie s die).mem = s.mem := by
  rfl

theorem execReadyAgeing_mem (die : BitVec 6) (s : State) :
    ∀ t, (execReadyAgeing die s) = .next t → t.mem = s.mem := by
  intro t ht
  simp only [execReadyAgeing] at ht
  cases ht
  simp [*]

@[simp] theorem State.grantToken_mem (s : State) : (State.grantToken s).mem = s.mem := by
  unfold State.grantToken
  dsimp only
  split <;> rfl

@[simp] theorem State.reserve_mem (s : State) (die : Nat) :
    (State.reserve s die).mem = s.mem := by
  rw [State.reserve, State.grantToken_mem, State.askToken]

theorem execGangReservation_mem (die : BitVec 6) (s : State) :
    ∀ t, (execGangReservation die s) = .next t → t.mem = s.mem := by
  intro t ht
  simp only [execGangReservation] at ht
  cases ht
  simp [*]

@[simp] theorem State.widenToken_mem (s : State) :
    (State.widenToken s).mem = s.mem := by
  unfold State.widenToken
  repeat' split
  all_goals simp_all

@[simp] theorem State.vacate_mem (s : State) (id : Nat) :
    (State.vacate s id).mem = s.mem := by
  simp [State.vacate]

@[simp] theorem State.withCore_mem (s : State) (id : Nat) :
    (State.withCore s id).mem = s.mem := by
  unfold State.withCore
  repeat' split
  all_goals simp_all

@[simp] theorem State.readDesc_wf (s : State) (ctx : BitVec 12) (hw : Memory.wf s.mem = true) :
    Memory.wf (State.readDesc s ctx).mem = true := by
  unfold State.readDesc
  split
  · exact hw
  · dsimp only
    split
    · exact hw
    · exact State.wrField_wf _ _ _ _ _ hw

theorem State.onCore_wf (s : State) (id : Nat) (f : State → State)
    (hf : ∀ s, Memory.wf s.mem = true → Memory.wf (f s).mem = true) (hw : Memory.wf s.mem = true) :
    Memory.wf (State.onCore s id f).mem = true := by
  rw [State.onCore, State.focus_mem]
  exact hf _ (by rw [State.focus_mem]; exact hw)

theorem State.onCore_mem (s : State) (id : Nat) (f : State → State) (hf : ∀ s, (f s).mem = s.mem) :
    (State.onCore s id f).mem = s.mem := by
  rw [State.onCore, State.focus_mem, hf, State.focus_mem]

@[simp] theorem State.notePages_mem (s : State) (vas : List Nat) : (State.notePages s vas).mem = s.mem := by
  induction vas generalizing s with
  | nil => rfl
  | cons va rest ih =>
    unfold State.notePages
    repeat' split
    · simp
    · simp
    · rw [ih, State.noteWalk_mem]

@[simp] theorem State.noteImage_mem (s : State) (r : Nat) : (State.noteImage s r).mem = s.mem := by
  unfold State.noteImage
  dsimp only
  split
  · rfl
  · simp

@[simp] theorem State.readRow_mem (s : State) (p : Nat × Piece) : (State.readRow s p).mem = s.mem := by
  unfold State.readRow
  split <;> simp

@[simp] theorem State.readRows_wf (s : State) (hw : Memory.wf s.mem = true) : Memory.wf (State.readRows s).mem = true := by
  unfold State.readRows
  refine foldl_wf _ (fun u k hu => ?_) _ _ hw
  dsimp only
  split
  · exact hu
  · have h := State.logUnits_wf u u.issuer 1 (if k.2 then [u.msPoint (64 * k.1)] else []) hu
    split
    · exact hu
    · rename_i v heq
      rw [heq] at h
      rw [State.modT_mem]
      exact foldl_wf _ (fun x c hx => by rw [State.readRow_mem]; exact hx) _ _ (by rw [State.sendFar_mem]; exact h)

@[simp] theorem State.placeMember_wf (s : State) (r : Nat) (level : Nat) (m : Nat) (id : Nat) (cores : List Nat)
    (hw : Memory.wf s.mem = true) : Memory.wf (State.placeMember s r level m id cores).mem = true := by
  refine State.onCore_wf _ _ _ (fun u hu => State.readRows_wf _ (by rw [State.noteImage_mem]; exact hu)) ?_
  rw [State.updCore_mem]
  exact State.readDesc_wf _ _ (by rw [State.withCore_mem]; exact hw)

@[simp] theorem State.writeScratch_wf (s : State) (key : Nat) (t : TaskSpan) (hw : Memory.wf s.mem = true) :
    Memory.wf (State.writeScratch s key t).mem = true := memOverlay_wf hw _ _ _

@[simp] theorem State.imageStep_wf (s : State) (key : Nat) (hw : Memory.wf s.mem = true) :
    Memory.wf (State.imageStep s key).mem = true := by
  unfold State.imageStep
  split
  · exact hw
  · dsimp only
    have h1 := fun (c : Core) (os : List Core) => State.performHead_wf { s with core := c, others := os } hw
    split
    · exact hw
    · split
      · split
        · exact h1 _ _
        · exact State.wrWords_wf _ _ _ (h1 _ _)
      · refine State.writeScratch_wf _ _ _ ?_
        split
        · exact h1 _ _
        · exact State.wrWords_wf _ _ _ (h1 _ _)

@[simp] theorem State.drainImages_wf (s : State) (r : Nat) (hw : Memory.wf s.mem = true) :
    Memory.wf (State.drainImages s r).mem = true := by
  refine foldl_wf _ (fun u k hu => ?_) _ _ hw
  split
  · exact foldl_wf _ (fun v _ hv => State.imageStep_wf _ _ hv) _ _ hu
  · exact hu

@[simp] theorem State.loseRecord_wf (s : State) (r : Nat) (ctx : BitVec 12) (hw : Memory.wf s.mem = true) :
    Memory.wf (State.loseRecord s r ctx).mem = true := by
  refine State.addLive_wf _ _ _ (foldl_wf _ (fun u c hu => ?_) _ _ hw)
  rw [State.vacate_mem]; exact hu

@[simp] theorem State.placeFresh_wf (s : State) (e : RqEntry) (cores : List Nat) (hw : Memory.wf s.mem = true) :
    Memory.wf (State.placeFresh s e cores).mem = true := by
  unfold State.placeFresh
  refine foldl_wf _ (fun u p hu => State.placeMember_wf _ _ _ _ _ _ hu) _ _ ?_
  exact State.wrField_wf _ _ _ _ _ (State.toSt_wf _ _ _ (State.drainImages_wf _ _ hw))

theorem execTaskPlacement_wf (die : BitVec 6) (s : State) (hw : Memory.wf s.mem = true) :
    ∀ t, (execTaskPlacement die s) = .next t → Memory.wf t.mem = true := by
  intro t ht
  unfold execTaskPlacement at ht
  repeat' split at ht
  all_goals obtain rfl := Host.Outcome.next.inj ht
  · exact hw
  · exact State.loseRecord_wf _ _ _ hw
  · exact State.placeFresh_wf _ _ _ hw
  · exact hw

@[simp] theorem State.commit_wf (s : State) (ctx : BitVec 12) (hw : Memory.wf s.mem = true) :
    Memory.wf (State.commit s ctx).mem = true := by
  unfold State.commit
  split
  · exact hw
  · split
    · exact hw
    · have h1 := State.logPoint_wf s (s.outside ctx) hashPoint 8 0 hw
      split
      · exact hw
      · rename_i u heq
        rw [heq] at h1
        refine foldl_wf _ (fun u c hu => State.toSt_wf _ _ _ hu) _ _ ?_
        exact State.wrField_wf _ _ _ _ _ (State.intervalEnd_wf _ _ _ _ _ _ h1)

theorem execPhaseCommit_wf (ctx : BitVec 12) (s : State) (hw : Memory.wf s.mem = true) :
    ∀ t, (execPhaseCommit ctx s) = .next t → Memory.wf t.mem = true := by
  intro t ht
  simp only [execPhaseCommit] at ht
  cases ht
  simp [*]

theorem execEndTask_mem (s : State) :
    ∀ t, (execEndTask s) = .next t → t.mem = s.mem := by
  refine issue_mem _ _ s ?_
  intro u
  simp [*]

@[simp] theorem State.lastStep_wf (s : State) (x1 : TaskId) (hw : Memory.wf s.mem = true) :
    Memory.wf (State.lastStep s x1).mem = true := by
  unfold State.lastStep
  dsimp only
  repeat' split
  all_goals simp_all

theorem State.countSucc_wf (s : State) (va : W64) (hw : Memory.wf s.mem = true) :
    ∀ t, (State.countSucc s va) = some t → Memory.wf t.mem = true := by
  grind [State.countSucc, State.logPoint_wf, State.decrement_wf, State.noteWalks_mem, State.ack_mem, State.noteRefused_mem, State.sendFar_mem]

theorem State.retireStep_wf (s : State) (hw : Memory.wf s.mem = true) :
    ∀ t, (State.retireStep s) = some t → Memory.wf t.mem = true := by
  intro t ht
  unfold State.retireStep at ht
  split at ht
  · split at ht
    · split at ht
      · cases ht
      · cases ht
        exact State.groupOp_wf _ _ _ hw
    · dsimp only at ht
      split at ht
      · cases ht
        rw [State.modCtl_mem]
        exact State.wrField_wf _ _ _ _ _ hw
      · cases ht
        rw [State.vacate_mem]
        exact State.wrField_wf _ _ _ _ _ hw
  · split at ht
    · cases ht
      exact State.lastStep_wf _ _ hw
    · split at ht
      · cases ht
        exact State.lastStep_wf _ _ hw
      · rw [Option.map_eq_some_iff] at ht
        obtain ⟨u, hu, rfl⟩ := ht
        rw [State.modCtl_mem]
        exact State.countSucc_wf _ _ hw _ hu
  · cases ht
  · cases ht

@[simp] theorem State.retireAll_wf (s : State) (x1 : Nat) (hw : Memory.wf s.mem = true) :
    Memory.wf (State.retireAll s x1).mem = true := by
  induction x1 generalizing s with
  | zero => exact hw
  | succ n ih =>
    simp only [State.retireAll]
    split
    · rename_i v hv
      exact ih _ (State.retireStep_wf _ hw _ hv)
    · exact hw

theorem execTaskRetirement_wf (s : State) (hw : Memory.wf s.mem = true) :
    ∀ t, (execTaskRetirement s) = .next t → Memory.wf t.mem = true := by
  intro t ht
  unfold execTaskRetirement at ht
  repeat' split at ht
  all_goals cases ht
  all_goals simp_all

@[simp] theorem State.discard_mem (s : State) :
    (State.discard s).mem = s.mem := by
  rfl

@[simp] theorem State.restoreReg_mem (s : State) (p : BitVec 6 × W64) :
    (State.restoreReg s p).mem = s.mem := by
  simp [State.restoreReg]

@[simp] theorem State.restoreRing_mem (s : State) (p : Nat × W64) :
    (State.restoreRing s p).mem = s.mem := by
  rfl

@[simp] theorem State.unwindNow_mem (s : State) (u : Unwind) :
    (State.unwindNow s u).mem = s.mem := by
  unfold State.unwindNow
  split
  · rw [State.modCtl_mem]
  · dsimp only
    rw [State.modCtl_mem, State.modSys_mem]
    refine foldl_mem _ (fun u c hu => by rw [State.restoreRing_mem]; exact hu) _ _ ?_
    refine foldl_mem _ (fun u c hu => by rw [State.restoreReg_mem]; exact hu) _ _ ?_
    split
    · rw [State.clearMark_mem, State.discard_mem]
    · rw [State.discard_mem]

theorem execContainmentUnwind_mem (s : State) :
    ∀ t, (execContainmentUnwind s) = .next t → t.mem = s.mem := by
  intro t ht
  unfold execContainmentUnwind at ht
  repeat' split at ht
  all_goals cases ht
  all_goals simp_all

@[simp] theorem State.freezeCore_mem (s : State) (id : Nat) (gang : Bool) :
    (State.freezeCore s id gang).mem = s.mem := by
  refine State.onCore_mem _ _ _ (fun u => ?_)
  split
  · rfl
  · rw [State.modCtl_mem, State.endNative_mem]

@[simp] theorem State.startFreeze_mem (s : State) (id : Nat) :
    (State.startFreeze s id).mem = s.mem := by
  unfold State.startFreeze
  dsimp only
  split
  · rfl
  · exact foldl_mem _ (fun u c hu => by rw [State.freezeCore_mem, hu]) _ _ rfl

@[simp] theorem State.preempt_mem (s : State) (id : Nat) :
    (State.preempt s id).mem = s.mem := by
  unfold State.preempt
  have hs := State.withCore_mem s id
  generalize s.withCore id = u at hs ⊢
  rw [← hs]
  dsimp only
  split
  · rfl
  · split
    · rfl
    · split
      · rw [State.updCore_mem]
      · rw [State.startFreeze_mem]
        refine foldl_mem _ (fun u c hu => by rw [State.onCore_mem _ _ _ State.stopNative_mem]; exact hu) _ _ ?_
        exact foldl_mem _ (fun u c hu => by rw [State.updCore_mem]; exact hu) _ _ rfl

theorem execPreEmptRequest_mem (core : BitVec 10) (s : State) :
    ∀ t, (execPreEmptRequest core s) = .next t → t.mem = s.mem := by
  intro t ht
  simp only [execPreEmptRequest] at ht
  cases ht
  simp [*]

@[simp] theorem State.freeBytes_mem (s : State) (n : Nat) :
    (State.freeBytes s n).1.mem = s.mem := by
  rfl

@[simp] theorem State.writeImage_wf (s : State) (a : Nat) (f : Nat) (grem : Nat) (hw : Memory.wf s.mem = true) :
    Memory.wf (State.writeImage s a f grem).mem = true := by
  unfold State.writeImage
  have h1 := State.freeBytes_mem s 0x60000
  generalize s.freeBytes 0x60000 = p at h1 ⊢
  obtain ⟨u, fb⟩ := p
  refine memOverlay_wf ?_ _ _ _
  refine foldl_wf _ (fun u c hu => State.hwWr_wf u c.1 c.2 hu) _ _ ?_
  refine State.wrWords_wf _ _ _ (State.hwWr_wf _ _ _ ?_)
  rw [show u.mem = s.mem from h1]
  exact hw

@[simp] theorem State.parkEntry_mem (s : State) (x1 : TaskId) :
    (State.parkEntry s x1).mem = s.mem := by
  unfold State.parkEntry
  repeat' split
  all_goals simp_all

@[simp] theorem State.afterSave_wf (s : State) (x1 : TaskId) (fault : Option W64) (hw : Memory.wf s.mem = true) :
    Memory.wf (State.afterSave s x1 fault).mem = true := by
  unfold State.afterSave
  split
  · exact State.setFcode_wf _ _ _ (State.toSt_wf _ _ _ hw)
  · split
    · exact State.faultEntry_wf _ _ _ _ (State.setFcode_wf _ _ _ (State.toSt_wf _ _ _ hw))
    · rw [State.parkEntry_mem]
      split
      · exact hw
      · exact State.toSt_wf _ _ _ hw

@[simp] theorem State.saveTask_wf (s : State) (x1 : TaskId) (z : Freeze) (hw : Memory.wf s.mem = true) :
    Memory.wf (State.saveTask s x1 z).mem = true := by
  unfold State.saveTask
  all_goals simp_all

theorem execContextSave_wf (s : State) (hw : Memory.wf s.mem = true) :
    ∀ t, (execContextSave s) = .next t → Memory.wf t.mem = true := by
  intro t ht
  unfold execContextSave at ht
  repeat' split at ht
  all_goals cases ht
  all_goals simp_all

@[simp] theorem State.noteCore_mem (s : State) (r : Nat) (m : Nat) (id : Nat) :
    (State.noteCore s r m id).mem = s.mem := by
  rfl

@[simp] theorem State.reloadV16_mem (s : State) (id : Nat) :
    (State.reloadV16 s id).mem = s.mem := by
  simp [State.reloadV16]

@[simp] theorem State.resumeOne_wf (s : State) (e : RqEntry) (rho : Nat) (p : Nat × Nat) (hw : Memory.wf s.mem = true) :
    Memory.wf (State.resumeOne s e rho p).mem = true := by
  unfold State.resumeOne
  dsimp only
  split
  · exact hw
  · split
    · exact hw
    · rw [State.reloadV16_mem, State.noteCore_mem, State.updCore_mem]
      exact State.readDesc_wf _ _ (by rw [State.withCore_mem]; exact hw)

@[simp] theorem State.resume_wf (s : State) (e : RqEntry) (cs : List Nat) (hw : Memory.wf s.mem = true) :
    Memory.wf (State.resume s e cs).mem = true := by
  unfold State.resume
  dsimp only
  split
  · rw [State.modSup_mem]
    exact State.toSt_wf _ _ _ hw
  · refine ite_wf ?_ (State.toSt_wf _ _ _ ?_)
    all_goals exact foldl_wf _ (fun u c hu => State.resumeOne_wf _ _ _ _ hu) _ _ hw

theorem execTaskResume_wf (die : BitVec 6) (s : State) (hw : Memory.wf s.mem = true) :
    ∀ t, (execTaskResume die s) = .next t → Memory.wf t.mem = true := by
  intro t ht
  unfold execTaskResume at ht
  repeat' split at ht
  all_goals obtain rfl := Host.Outcome.next.inj ht
  · exact hw
  · exact State.loseRecord_wf _ _ _ hw
  · exact State.resume_wf _ _ _ hw
  · exact hw

@[simp] theorem State.dropTlb_mem (s : State) (p : TlbEntry → Bool) :
    (State.dropTlb s p).mem = s.mem := by
  rfl

@[simp] theorem State.setTlbi_mem (s : State) (die : Nat) (x : Tlbi) :
    (State.setTlbi s die x).mem = s.mem := by
  rfl

@[simp] theorem State.tlbiGo_mem (s : State) (die : Nat) (x : Tlbi) :
    (State.tlbiGo s die x).mem = s.mem := by
  unfold State.tlbiGo
  repeat' split
  all_goals simp_all

@[simp] theorem State.tlbiAt_mem (s : State) (scope : BitVec 2) (ctx : Option (BitVec 12)) (gran : Option (BitVec 41)) :
    (State.tlbiAt s scope ctx gran).mem = s.mem := by
  simp [State.tlbiAt]

theorem execTlbiGranule_mem (ctx : BitVec 12) (gran : BitVec 41) (s : State) :
    ∀ t, (execTlbiGranule ctx gran s) = .next t → t.mem = s.mem := by
  intro t ht
  simp only [execTlbiGranule] at ht
  cases ht
  simp [*]

theorem execTlbiContext_mem (ctx : BitVec 12) (s : State) :
    ∀ t, (execTlbiContext ctx s) = .next t → t.mem = s.mem := by
  intro t ht
  simp only [execTlbiContext] at ht
  cases ht
  simp [*]

theorem execTlbiAll_mem (s : State) :
    ∀ t, (execTlbiAll s) = .next t → t.mem = s.mem := by
  intro t ht
  simp only [execTlbiAll] at ht
  cases ht
  simp [*]

@[simp] theorem State.tlbiDone_mem (s : State) :
    (State.tlbiDone s).mem = s.mem := by
  unfold State.tlbiDone
  repeat' split
  all_goals simp_all

theorem execTlbiComplete_mem (s : State) :
    ∀ t, (execTlbiComplete s) = .next t → t.mem = s.mem := by
  intro t ht
  simp only [execTlbiComplete] at ht
  cases ht
  simp [*]

@[simp] theorem State.setCmd_mem (s : State) (f : CtxCmd → CtxCmd) :
    (State.setCmd s f).mem = s.mem := by
  rfl

@[simp] theorem State.zero_wf (s : State) (a : Nat) (n : Nat) (hw : Memory.wf s.mem = true) :
    Memory.wf (State.zero s a n).mem = true := by
  exact memDrop_wf hw _ _

@[simp] theorem State.forgetCtx_mem (s : State) (ctx : BitVec 12) : (State.forgetCtx s ctx).mem = s.mem := rfl

@[simp] theorem State.openQueues_mem (s : State) (ctx : BitVec 12) : (State.openQueues s ctx).mem = s.mem := rfl

@[simp] theorem State.setOp_mem (s : State) (op : BitVec 2) (ctx : BitVec 12) : (State.setOp s op ctx).mem = s.mem := rfl

@[simp] theorem State.openCtx_wf (s : State) (ctx : BitVec 12) (hw : Memory.wf s.mem = true) :
    Memory.wf (State.openCtx s ctx).mem = true := by
  unfold State.openCtx
  refine State.wrField_wf _ _ _ _ _ ?_
  rw [State.openQueues_mem, State.forgetCtx_mem]
  show Memory.wf (State.dropTlb _ (fun e => e.ctx == ctx)).mem = true
  rw [State.dropTlb_mem]
  refine State.wr64_wf _ _ _ (State.wr64_wf _ _ _ (State.wrField_wf _ _ _ _ _ ?_))
  refine foldl_wf _ (fun u c hu => State.wrField_wf _ _ _ _ _ hu) _ _ ?_
  exact State.wrField_wf _ _ _ _ _ (State.wrField_wf _ _ _ _ _ (State.zero_wf _ _ _ (State.zero_wf _ _ _ (State.zero_wf _ _ _ hw))))

@[simp] theorem State.createCtx_wf (s : State) (ctx : BitVec 12) (hw : Memory.wf s.mem = true) :
    Memory.wf (State.createCtx s ctx).mem = true := by
  unfold State.createCtx
  repeat' split
  all_goals simp_all

theorem execContextCreate_wf (ctx : BitVec 12) (s : State) (hw : Memory.wf s.mem = true) :
    ∀ t, (execContextCreate ctx s) = .next t → Memory.wf t.mem = true := by
  intro t ht
  simp only [execContextCreate] at ht
  cases ht
  simp [*]

@[simp] theorem State.closeRec_wf (s : State) (r : Nat) (hw : Memory.wf s.mem = true) :
    Memory.wf (State.closeRec s r).mem = true := by
  unfold State.closeRec
  all_goals simp_all

@[simp] theorem State.closeCtx_wf (s : State) (ctx : BitVec 12) (hw : Memory.wf s.mem = true) :
    Memory.wf (State.closeCtx s ctx).mem = true := by
  unfold State.closeCtx
  refine foldl_wf _ (fun u c hu => by rw [State.preempt_mem]; exact hu) _ _ ?_
  rw [State.widenToken_mem]
  refine foldl_wf _ (fun u c hu => ite_wf hu (State.closeRec_wf _ _ hu)) _ _ ?_
  exact State.wrField_wf _ _ _ _ _ hw

@[simp] theorem State.destroyCtx_wf (s : State) (ctx : BitVec 12) (hw : Memory.wf s.mem = true) :
    Memory.wf (State.destroyCtx s ctx).mem = true := by
  unfold State.destroyCtx
  repeat' split
  all_goals simp_all

theorem execContextDestroy_wf (ctx : BitVec 12) (s : State) (hw : Memory.wf s.mem = true) :
    ∀ t, (execContextDestroy ctx s) = .next t → Memory.wf t.mem = true := by
  intro t ht
  obtain rfl := Host.Outcome.next.inj ht
  exact State.destroyCtx_wf _ _ hw

@[simp] theorem State.destroyDone_wf (s : State) (hw : Memory.wf s.mem = true) :
    Memory.wf (State.destroyDone s).mem = true := by
  unfold State.destroyDone
  split
  · exact hw
  · dsimp only
    split
    · exact State.wrField_wf (s.dropTlb _) _ _ _ _ hw
    · exact hw

theorem execContextDestroyComplete_wf (s : State) (hw : Memory.wf s.mem = true) :
    ∀ t, (execContextDestroyComplete s) = .next t → Memory.wf t.mem = true := by
  intro t ht
  simp only [execContextDestroyComplete] at ht
  cases ht
  simp [*]

theorem execHsnap_mem (a : BitVec 6) (s : State) :
    ∀ t, (execHsnap a s) = .next t → t.mem = s.mem := by
  refine issue_mem _ _ s ?_
  intro u
  simp [*]

@[simp] theorem State.endInterval_wf (s : State) (hw : Memory.wf s.mem = true) :
    Memory.wf (State.endInterval s).mem = true := by
  grind [State.endInterval, State.logPoint_wf, State.intervalEnd_wf, State.fillDst_mem, State.modQ_mem]

theorem execHashIntervalEnd_wf (s : State) (hw : Memory.wf s.mem = true) :
    ∀ t, (execHashIntervalEnd s) = .next t → Memory.wf t.mem = true := by
  intro t ht
  simp only [execHashIntervalEnd] at ht
  cases ht
  simp [*]

@[simp] theorem State.retryAll_wf (s : State) (hw : Memory.wf s.mem = true) :
    Memory.wf (State.retryAll s).mem = true := by
  unfold State.retryAll
  refine State.endInterval_wf _ (State.payOwed_wf _ ?_)
  refine foldl_wf _ ?_ _ _ (State.performHead_wf _ (State.readRows_wf s hw))
  intro u c hu
  repeat' split
  · exact State.completeCopy_wf _ _ _ hu
  · exact hu
  · exact hu

theorem execReplayRelease_wf (point : BitVec 11) (s : State) (hw : Memory.wf s.mem = true) :
    ∀ t, (execReplayRelease point s) = .next t → Memory.wf t.mem = true := by
  intro t ht
  have := Host.Outcome.next.inj ht
  subst this
  refine foldl_wf _ ?_ _ _ hw
  intro u c hu
  split
  · exact State.onCore_wf _ _ _ (fun v hv => State.retryAll_wf v hv) hu
  · exact hu

@[simp] theorem State.alert_mem (s : State) (bit : Nat) :
    (State.alert s bit).mem = s.mem := by
  unfold State.alert
  dsimp only
  split <;> simp

@[simp] theorem State.mapCores_mem (s : State) (f : Core → Core) :
    (State.mapCores s f).mem = s.mem := by
  rfl

@[simp] theorem State.ltUp_mem (s : State) :
    (State.ltUp s).mem = s.mem := by
  rfl

theorem execLtAdvance_mem (s : State) :
    ∀ t, (execLtAdvance s) = .next t → t.mem = s.mem := by
  intro t ht
  simp only [execLtAdvance] at ht
  cases ht
  simp [*]

theorem execDomainFloorExchange_mem (peers : List Time) (s : State) :
    ∀ t, (execDomainFloorExchange peers s) = .next t → t.mem = s.mem := by
  intro t ht
  obtain rfl := Host.Outcome.next.inj ht
  rfl

theorem execDomainFloorJoin_mem (f : Time) (s : State) :
    ∀ t, (execDomainFloorJoin f s) = .next t → t.mem = s.mem := by
  intro t ht
  unfold execDomainFloorJoin at ht
  repeat' split at ht
  all_goals cases ht
  all_goals simp_all

theorem execPowerOff_wf (s : State) (_ : Memory.wf s.mem = true) :
    ∀ t, (execPowerOff s) = .next t → Memory.wf t.mem = true := by
  intro t ht
  have := Host.Outcome.next.inj ht
  subst this
  rfl

theorem execPowerOn_wf (s : State) (hw : Memory.wf s.mem = true) :
    ∀ t, (execPowerOn s) = .next t → Memory.wf t.mem = true := by
  intro t ht
  unfold execPowerOn at ht
  split at ht
  · have := Host.Outcome.next.inj ht
    subst this
    exact hw
  · have := Host.Outcome.next.inj ht
    subst this
    rfl

@[simp] theorem State.overflowLogs_wf (s : State) (r : Nat) (hw : Memory.wf s.mem = true) :
    Memory.wf (State.overflowLogs s r).mem = true := by
  unfold State.overflowLogs
  refine foldl_wf _ ?_ _ _ hw
  intro u c hu
  split
  · exact State.wrField_wf _ _ _ _ _ hu
  · exact hu

@[simp] theorem State.leaveGroups_mem (s : State) (r : Nat) (m : Nat) :
    (State.leaveGroups s r m).mem = s.mem := by
  rfl

@[simp] theorem State.replay_wf (s : State) (r : Nat) (hw : Memory.wf s.mem = true) :
    Memory.wf (State.replay s r).mem = true := by
  unfold State.replay
  refine State.setFcode_wf _ _ _ (State.toSt_wf _ _ _ ?_)
  refine foldl_wf _ (fun u c hu => by rw [State.vacate_mem]; exact hu) _ _ ?_
  exact foldl_wf _ (fun u c hu => by rw [State.leaveGroups_mem]; exact hu) _ _ hw

@[simp] theorem State.failLost_wf (s : State) (r : Nat) (lost : List Core) (hw : Memory.wf s.mem = true) :
    Memory.wf (State.failLost s r lost).mem = true := by
  unfold State.failLost
  refine State.faultEntry_wf _ _ _ _ (State.setFcode_wf _ _ _ (State.toSt_wf _ _ _ ?_))
  refine foldl_wf _ ?_ _ _ hw
  intro u c hu
  dsimp only
  rw [State.vacate_mem]
  refine State.wrField_wf _ _ _ _ _ ?_
  split
  · rw [State.leaveGroups_mem]; exact hu
  · exact hu

@[simp] theorem State.settleLost_wf (s : State) (r : Nat) (lost : List Core) (hw : Memory.wf s.mem = true) :
    Memory.wf (State.settleLost s r lost).mem = true := by
  unfold State.settleLost
  split
  · split
    · exact State.loseRecord_wf _ _ _ hw
    · exact hw
  have h1 : Memory.wf (if lost.any fun c => c.t.sys.log then s.overflowLogs r else s).mem = true := by
    split
    · exact State.overflowLogs_wf _ _ hw
    · exact hw
  extract_lets u ok
  split
  · refine State.closeRec_wf _ _ ?_
    exact foldl_wf _ (fun u c hu => by rw [State.vacate_mem]; exact hu) _ _ h1
  · split
    · exact State.replay_wf _ _ h1
    · exact State.failLost_wf _ _ _ h1

@[simp] theorem State.drainSome_wf (s : State) (hw : Memory.wf s.mem = true) : Memory.wf (State.drainSome s).mem = true :=
  State.drain_wf _ _ hw

@[simp] theorem State.moveSome_wf (s : State) (q : CopyReq) (hw : Memory.wf s.mem = true) :
    Memory.wf (State.moveSome s q).mem = true :=
  foldl_wf _ (fun _ _ hu => ite_wf (State.copyUnit_wf _ _ _ hu) hu) _ _ hw

@[simp] theorem State.loseWork_wf (s : State) (hw : Memory.wf s.mem = true) : Memory.wf (State.loseWork s).mem = true :=
  foldl_wf _ (fun _ q hu => State.moveSome_wf _ q hu) _ _ (State.drainSome_wf _ hw)

@[simp] theorem State.loseCores_wf (s : State) (gone : Nat → Bool) (hw : Memory.wf s.mem = true) :
    Memory.wf (State.loseCores s gone).mem = true := by
  unfold State.loseCores
  refine foldl_wf _ (fun u c hu => State.settleLost_wf _ _ _ hu) _ _ ?_
  exact foldl_wf _ (fun u c hu => State.onCore_wf _ _ _ (fun v hv => State.loseWork_wf v hv) hu) _ _ hw

@[simp] theorem State.rehome_mem (s : State) : (State.rehome s).mem = s.mem := rfl

@[simp] theorem State.haltTopiary_wf (s : State) (die : Nat) (hw : Memory.wf s.mem = true) :
    Memory.wf (State.haltTopiary s die).mem = true := by
  unfold State.haltTopiary
  apply foldl_keeps (fun (u : State) => Memory.wf u.mem = true) <;> simp_all

@[simp] theorem State.loseDie_wf (s : State) (die : Nat) (hw : Memory.wf s.mem = true) :
    Memory.wf (State.loseDie s die).mem = true := by
  unfold State.loseDie
  dsimp only
  rw [State.widenToken_mem, State.rehome_mem]
  exact State.haltTopiary_wf _ _ (State.loseCores_wf _ _ hw)

theorem execDieLoss_wf (die : BitVec 6) (s : State) (hw : Memory.wf s.mem = true) :
    ∀ t, (execDieLoss die s) = .next t → Memory.wf t.mem = true := by
  intro t ht
  unfold execDieLoss at ht
  repeat' split at ht
  all_goals cases ht
  all_goals simp_all

@[simp] theorem State.loseCore_wf (s : State) (id : Nat) (hw : Memory.wf s.mem = true) :
    Memory.wf (State.loseCore s id).mem = true := by
  unfold State.loseCore
  dsimp only
  split
  · exact hw
  · exact State.loseDie_wf _ _ hw

theorem execLateEdgeReplay_wf (second : Bool) (s : State) (hw : Memory.wf s.mem = true) :
    ∀ t, (execLateEdgeReplay second s) = .next t → Memory.wf t.mem = true := by
  intro t ht
  unfold execLateEdgeReplay at ht
  split at ht
  · have := Host.Outcome.next.inj ht
    subst this
    exact State.loseCore_wf _ _ hw
  · have := Host.Outcome.next.inj ht
    subst this
    exact foldl_wf _ (fun u c hu => by rw [State.updCore_mem]; exact hu) _ _ (by rw [State.bump_mem]; exact hw)

@[simp] theorem State.eccReg_mem (s : State) (r : RegId) :
    (State.eccReg s r).mem = s.mem := by
  unfold State.eccReg
  dsimp only
  repeat' split
  all_goals simp_all

@[simp] theorem State.eccAt_mem (s : State) (x1 : EccPlace) :
    (State.eccAt s x1).mem = s.mem := by
  unfold State.eccAt
  repeat' split
  all_goals simp_all

theorem execEccUncorrectable_mem (place : EccPlace) (s : State) :
    ∀ t, (execEccUncorrectable place s) = .next t → t.mem = s.mem := by
  intro t ht
  simp only [execEccUncorrectable] at ht
  cases ht
  simp [*]

theorem execScrub_mem (x0 : BitVec 5) (s : State) :
    ∀ t, (execScrub x0 s) = .next t → t.mem = s.mem := by
  intro t ht
  obtain rfl := Host.Outcome.next.inj ht
  exact State.correct_mem _ _

@[simp] theorem State.setStep_mem (s : State) (g : Nat) (n : Nat) :
    (State.setStep s g n).mem = s.mem := by
  rfl

theorem execPowerCapTick_mem (avg : BitVec 16) (order : List (BitVec 3)) (calm : Bool) (s : State) :
    ∀ t, (execPowerCapTick avg order calm s) = .next t → t.mem = s.mem := by
  intro t ht
  unfold execPowerCapTick at ht
  dsimp only at ht
  repeat' split at ht
  all_goals cases ht
  all_goals simp_all

theorem execThermalThreshold_wf (group : BitVec 3) (deg115 : Bool) (s : State) (hw : Memory.wf s.mem = true) :
    ∀ t, (execThermalThreshold group deg115 s) = .next t → Memory.wf t.mem = true := by
  intro t ht
  have := Host.Outcome.next.inj ht
  subst this
  have h1 : Memory.wf ((s.modSup fun u =>
      { u with thermal := u.thermal ||| BitVec.ofNat 8 (2 ^ group.toNat) }).alert 1).mem = true := by
    rw [State.alert_mem, State.modSup_mem]; exact hw
  exact ite_wf (foldl_wf _ (fun u c hu => ite_wf hu (State.loseDie_wf _ _ hu)) _ _ h1) h1

@[simp] theorem State.answer_mem (s : State) (r : Reply) :
    (State.answer s r).mem = s.mem := by
  rfl

theorem execHostLinkTraining_mem (port : BitVec 1) (cxl : Bool) (width : BitVec 5) (s : State) :
    ∀ t, (execHostLinkTraining port cxl width s) = .next t → t.mem = s.mem := by
  intro t ht
  unfold execHostLinkTraining at ht
  repeat' split at ht
  all_goals cases ht
  all_goals simp_all

theorem execSurpriseDown_mem (port : BitVec 1) (s : State) :
    ∀ t, (execSurpriseDown port s) = .next t → t.mem = s.mem := by
  intro t ht
  unfold execSurpriseDown at ht
  repeat' split at ht
  all_goals cases ht
  all_goals simp_all

@[simp] theorem State.outWrites_wf (s : State) (pa : Nat) (bs : List Byte) (bad : Bool) (hw : Memory.wf s.mem = true) :
    Memory.wf (State.outWrites s pa bs bad).1.mem = true := by
  unfold State.outWrites
  dsimp only
  split
  · exact State.engWrite_wf _ _ _ _ _ _ _ hw
  · exact foldl_wf _ (fun u h hu => by rw [State.bump_mem]; exact hu) _ _ hw

@[simp] theorem State.freeLines_wf (s : State) (pa n : Nat) (hw : Memory.wf s.mem = true) : Memory.wf (State.freeLines s pa n).mem = true :=
  foldl_wf _ (fun _ _ hu => State.topTile_wf _ _ hu) _ _ hw

/-- An access from outside keeps memory's form if what it does keeps it. -/
theorem State.orHold_wf (s : State) (i : OutAcc) (pa n : Nat) (f : State → State)
    (hf : ∀ u, Memory.wf u.mem = true → Memory.wf (f u).mem = true) (hw : Memory.wf s.mem = true) :
    Memory.wf (State.orHold s i pa n f).mem = true := by
  unfold State.orHold
  extract_lets u
  have h1 : Memory.wf u.mem = true := by
    unfold u
    split
    · exact State.freeLines_wf _ _ _ hw
    · exact hw
  clear_value u
  split
  · exact h1
  · exact hf _ h1

@[simp] theorem State.noteAer_mem (s : State) (p : Nat) (e : AerErr) : (State.noteAer s p e).mem = s.mem := by
  unfold State.noteAer
  split <;> rfl

@[simp] theorem State.portWrite_wf (s : State) (port : Nat) (pa : Nat) (bs : List Byte) (bad : Bool) (hw : Memory.wf s.mem = true) :
    Memory.wf (State.portWrite s port pa bs bad).mem = true := by
  unfold State.portWrite
  dsimp only
  all_goals simp_all

@[simp] theorem State.outRead_mem (s : State) (pa : Nat) (n : Nat) :
    (State.outRead s pa n).1.mem = s.mem := by
  simp [State.outRead]

@[simp] theorem State.doorbell_mem (s : State) (ctx : BitVec 12) (v : W64) :
    (State.doorbell s ctx v).mem = s.mem := by
  unfold State.doorbell
  dsimp only
  repeat' split
  all_goals simp_all

theorem execLaunchDoorbell_mem (ctx : BitVec 12) (v : W64) (s : State) :
    ∀ t, (execLaunchDoorbell ctx v s) = .next t → t.mem = s.mem := by
  intro t ht
  simp only [execLaunchDoorbell] at ht
  cases ht
  simp [*]

@[simp] theorem State.writeTlbic_mem (s : State) (d : Nat) (v : W64) :
    (State.writeTlbic s d v).mem = s.mem := by
  unfold State.writeTlbic
  repeat' split
  all_goals simp_all

@[simp] theorem State.writeCorectl_mem (s : State) (id : Nat) (v : W64) :
    (State.writeCorectl s id v).mem = s.mem := by
  unfold State.writeCorectl
  repeat' split
  all_goals simp_all

@[simp] theorem State.writeCtxcmd_wf (s : State) (v : W64) (hw : Memory.wf s.mem = true) :
    Memory.wf (State.writeCtxcmd s v).mem = true := by
  have h1 : ∀ u : State, Memory.wf u.mem = true → ∀ a b, Memory.wf (u.setOp a b).mem = true := fun u hu _ _ => hu
  have h2 : ∀ p : Bool, Memory.wf (if p then s.setCmd fun c => { c with done := false } else s).mem = true := by
    intro p
    split <;> exact hw
  unfold State.writeCtxcmd
  extract_lets u op ctx w
  have hu : Memory.wf w.mem = true := h1 _ (h2 _) _ _
  repeat' split
  · exact hu
  · exact hu
  · exact State.createCtx_wf _ _ hu
  · exact State.destroyCtx_wf _ _ hu
  · exact hu

@[simp] theorem State.regWrite_wf (s : State) (r : Reg) (v : W64) (hw : Memory.wf s.mem = true) :
    Memory.wf (State.regWrite s r v).mem = true := by
  unfold State.regWrite
  repeat' split
  all_goals simp_all

@[simp] theorem State.hostReg_wf (s : State) (off : Nat) (v : W64) (hw : Memory.wf s.mem = true) :
    Memory.wf (State.hostReg s off v).mem = true := by
  unfold State.hostReg
  split
  · exact hw
  · exact State.regWrite_wf _ _ _ hw

@[simp] theorem State.lateWrites_wf (s : State) (hw : Memory.wf s.mem = true) : Memory.wf (State.lateWrites s).mem = true := by
  unfold State.lateWrites
  split
  · exact hw
  · exact foldl_wf _ (fun u x hu => State.regWrite_wf _ _ _ hu) _ _ hw

theorem execRegisterWrite_wf (a : RegAddr) (v : W64) (s : State) (hw : Memory.wf s.mem = true) :
    ∀ t, (execRegisterWrite a v s) = .next t → Memory.wf t.mem = true := by
  intro t ht
  unfold execRegisterWrite at ht
  split at ht <;> obtain rfl := Host.Outcome.next.inj ht
  · exact hw
  · exact State.orHold_wf _ _ _ _ _ (fun u hu => State.hostReg_wf _ _ _ hu) hw

@[simp] theorem State.hostWrite_wf (s : State) (port : BitVec 1) (a : HostAddr) (bytes : List Byte) (bad : Bool)
    (hw : Memory.wf s.mem = true) : Memory.wf (State.hostWrite s port a bytes bad).mem = true := by
  have h1 : ∀ p, Memory.wf (if bad then s.noteAer p .poisoned else s).mem = true := by
    intro p
    split
    · rw [State.noteAer_mem]; exact hw
    · exact hw
  have h2 : ∀ (u : State) (p : Bool) (n a : Nat), Memory.wf u.mem = true →
      Memory.wf (if p then u else u.portWrite n a bytes bad).mem = true := by
    intro u p n a hu
    split
    · exact hu
    · exact State.portWrite_wf _ _ _ _ _ hu
  unfold State.hostWrite
  extract_lets sp pa a p u v
  have hv : Memory.wf v.mem = true := h2 _ _ _ _ (h1 _)
  repeat' split
  · rw [State.noteAer_mem]; exact hw
  · exact hw
  · exact State.hostReg_wf _ _ _ hw
  · exact hw
  · rw [State.answer_mem]; exact hv
  · exact hv

theorem execHostMemoryWrite_wf (port : BitVec 1) (a : HostAddr) (bytes : List Byte) (bad : Bool) (s : State)
    (hw : Memory.wf s.mem = true) :
    ∀ t, (execHostMemoryWrite port a bytes bad s) = .next t → Memory.wf t.mem = true := by
  intro t ht
  unfold execHostMemoryWrite at ht
  split at ht <;> obtain rfl := Host.Outcome.next.inj ht
  · exact hw
  · exact State.orHold_wf _ _ _ _ _ (fun u hu => State.hostWrite_wf _ _ _ _ _ hu) hw

@[simp] theorem State.denied_mem (s : State) (p : Nat) (r : Reply) (e : AerErr) : (State.denied s p r e).mem = s.mem := by
  rw [State.denied, State.answer_mem, State.noteAer_mem]

@[simp] theorem State.hostRead_mem (s : State) (port : BitVec 1) (a : HostAddr) (len : BitVec 13) (rid : BitVec 16) :
    (State.hostRead s port a len rid).mem = s.mem := by
  unfold State.hostRead
  dsimp only
  repeat' split
  all_goals simp

theorem execHostMemoryRead_wf (port : BitVec 1) (a : HostAddr) (len : BitVec 13) (rid : BitVec 16) (s : State)
    (hw : Memory.wf s.mem = true) : ∀ t, (execHostMemoryRead port a len rid s) = .next t → Memory.wf t.mem = true := by
  intro t ht
  unfold execHostMemoryRead at ht
  split at ht <;> obtain rfl := Host.Outcome.next.inj ht
  · exact hw
  · exact State.orHold_wf _ _ _ _ _ (fun u hu => by rw [State.hostRead_mem]; exact hu) hw

@[simp] theorem State.mantle_wf (s : State) (m : MantleMsg) (hw : Memory.wf s.mem = true) : Memory.wf (State.mantle s m).mem = true := by
  unfold State.mantle
  dsimp only
  repeat' split
  all_goals simp_all

theorem execMantleMessage_wf (m : MantleMsg) (s : State) (hw : Memory.wf s.mem = true) :
    ∀ t, (execMantleMessage m s) = .next t → Memory.wf t.mem = true := by
  intro t ht
  obtain rfl := Host.Outcome.next.inj ht
  exact State.orHold_wf _ _ _ _ _ (fun u hu => State.mantle_wf _ _ hu) hw

theorem execAttestationRequest_mem (nonce : W256) (s : State) :
    ∀ t, (execAttestationRequest nonce s) = .next t → t.mem = s.mem := by
  intro t ht
  simp only [execAttestationRequest] at ht
  cases ht
  simp [*]

theorem execConfigRecordLoad_mem (copyA : ConfigCopy) (copyB : ConfigCopy) (s : State) :
    ∀ t, (execConfigRecordLoad copyA copyB s) = .next t → t.mem = s.mem := by
  intro t ht
  unfold execConfigRecordLoad at ht
  repeat' split at ht
  all_goals cases ht
  all_goals simp_all

@[simp] theorem State.hideTables_mem (s : State) :
    (State.hideTables s).mem = s.mem := by
  rfl

@[simp] theorem State.toLevel_mem (s : State) (l : BitVec 2) :
    (State.toLevel s l).mem = s.mem := by
  unfold State.toLevel
  rw [State.rehome_mem]
  split
  · exact foldl_mem _ (fun u c hu => by rw [State.settleTable_mem]; exact hu) _ _ rfl
  · rw [State.hideTables_mem, State.modSup_mem]

@[simp] theorem State.climb_mem (s : State) (news : LevelNews) :
    (State.climb s news).mem = s.mem := by
  unfold State.climb
  repeat' split
  all_goals simp_all

@[simp] theorem State.drop_mem (s : State) :
    (State.drop s).mem = s.mem := by
  unfold State.drop
  apply foldl_keeps (fun (u : State) => u.mem = s.mem) <;> simp_all

@[simp] theorem State.dropDone_mem (s : State) :
    (State.dropDone s).mem = s.mem := by
  unfold State.dropDone
  repeat' split
  all_goals simp_all

theorem execServiceLevelChange_mem (news : LevelNews) (s : State) :
    ∀ t, (execServiceLevelChange news s) = .next t → t.mem = s.mem := by
  intro t ht
  unfold execServiceLevelChange at ht
  repeat' split at ht
  all_goals cases ht
  all_goals simp_all

@[simp] theorem State.resend_mem (s : State) : (State.resend s).mem = s.mem := by
  unfold State.resend
  refine foldl_mem _ (fun u i hu => ?_) _ _ rfl
  dsimp only
  split
  · exact hu
  · exact foldl_mem _ (fun v x hv => by rw [State.seamSend_mem]; exact hv) _ _ (by rw [State.modLink_mem]; exact hu)

@[simp] theorem State.linkDown_mem (s : State) (l : BitVec 6) : (State.linkDown s l).mem = s.mem := by
  rw [State.linkDown, State.resend_mem, State.alert_mem, State.modLink_mem]

@[simp] theorem State.laneFails_mem (s : State) (l : BitVec 6) (lane : BitVec 5) : (State.laneFails s l lane).mem = s.mem := by
  unfold State.laneFails
  dsimp only
  repeat' split
  all_goals simp

@[simp] theorem State.txFails_mem (s : State) (l : BitVec 6) (lane : BitVec 5) : (State.txFails s l lane).mem = s.mem := by
  unfold State.txFails
  dsimp only
  repeat' split
  all_goals simp

theorem execFlitReplay_mem (link : BitVec 6) (x1 : BitVec 12) (s : State) :
    ∀ t, (execFlitReplay link x1 s) = .next t → t.mem = s.mem := by
  intro t ht
  simp only [execFlitReplay] at ht
  cases ht
  simp [*]

theorem execLinkRetrain_mem (link : BitVec 6) (ok : Bool) (s : State) :
    ∀ t, (execLinkRetrain link ok s) = .next t → t.mem = s.mem := by
  intro t ht
  unfold execLinkRetrain at ht
  dsimp only at ht
  repeat' split at ht
  all_goals obtain rfl := Host.Outcome.next.inj ht
  all_goals simp

theorem execLaneSpare_mem (link : BitVec 6) (lane : SeamLane) (s : State) :
    ∀ t, (execLaneSpare link lane s) = .next t → t.mem = s.mem := by
  intro t ht
  obtain rfl := Host.Outcome.next.inj ht
  split <;> simp

@[simp] theorem State.forgetModule_wf (s : State) (m : Nat) (hw : Memory.wf s.mem = true) :
    Memory.wf (State.forgetModule s m).mem = true := by
  exact memFilter_wf hw _

theorem execSeamLinkUp_wf (link : BitVec 6) (peer : SeamPeer) (plink : BitVec 6) (s : State)
    (hw : Memory.wf s.mem = true) :
    ∀ t, (execSeamLinkUp link peer plink s) = .next t → Memory.wf t.mem = true := by
  intro t ht
  unfold execSeamLinkUp at ht
  dsimp only at ht
  split at ht <;> obtain rfl := Host.Outcome.next.inj ht
  · exact hw
  · split
    · exact State.forgetModule_wf _ _ (by rw [State.resend_mem, State.modLink_mem, State.modSup_mem, State.modLink_mem]; exact hw)
    · rw [State.resend_mem, State.modLink_mem, State.modSup_mem, State.modLink_mem]; exact hw

theorem execWriteIntent_mem (m : BitVec 8) (sectors : List W64) (s : State) :
    ∀ t, (execWriteIntent m sectors s) = .next t → t.mem = s.mem := by
  intro t ht
  unfold execWriteIntent at ht
  dsimp only at ht
  repeat' split at ht
  all_goals cases ht
  all_goals simp_all

@[simp] theorem State.farWrite_wf (s : State) (pa : Nat) (bs : List Byte) (t : Time) (ms : Bool) (ft : Option Nat)
    (hw : Memory.wf s.mem = true) : Memory.wf (State.farWrite s pa bs t ms ft).mem = true := by
  unfold State.farWrite
  split
  · exact hw
  · rw [State.answer_mem]; exact State.engWrite_wf _ _ _ _ _ _ _ hw

@[simp] theorem State.serve_mem (s : State) (r : Reply) : (State.serve s r).mem = s.mem := rfl

@[simp] theorem State.farRead_mem (s : State) (pa n : Nat) (t : Time) (ms : Bool) (ft : Option Nat) :
    (State.farRead s pa n t ms ft).mem = s.mem := by
  unfold State.farRead
  split
  · rw [State.serve_mem]; exact (State.engRead_mem _ _ _ _ _).trans (State.fixHome_mem ..)
  · dsimp only
    rw [State.serve_mem, State.fixHome_mem, State.setLine_mem]

@[simp] theorem State.farAtomic_wf (s : State) (op n pa : Nat) (v v2 : W64) (t : Time) (ms : Bool)
    (hw : Memory.wf s.mem = true) : Memory.wf (State.farAtomic s op n pa v v2 t ms).mem = true := by
  unfold State.farAtomic
  dsimp only
  split
  · exact hw
  · have h1 : Memory.wf (s.fixHome pa n).mem = true := by rw [State.fixHome_mem]; exact hw
    split
    · exact h1
    · rw [State.serve_mem]; exact State.engWrite_wf _ _ _ _ _ _ _ h1

@[simp] theorem State.deliverFlit_wf (s : State) (l : BitVec 6) (m : SeamMsg) (hw : Memory.wf s.mem = true) :
    Memory.wf (State.deliverFlit s l m).mem = true := by
  unfold State.deliverFlit
  repeat' split
  · exact hw
  · rw [State.modLink_mem]; exact hw
  · exact hw
  · rw [State.farRead_mem]; exact hw
  · dsimp only
    split
    · exact hw
    · exact State.farAtomic_wf _ _ _ _ _ _ _ _ hw

@[simp] theorem State.flitBad_mem (s : State) (l : BitVec 6) (lane : BitVec 5) : (State.flitBad s l lane).mem = s.mem := by
  unfold State.flitBad
  dsimp only
  rw [State.answer_mem]
  split <;> simp

theorem execFlitReceive_wf (link : BitVec 6) (num : BitVec 12) (crcOk : Bool) (flit : SeamFlit) (s : State)
    (hw : Memory.wf s.mem = true) :
    ∀ t, (execFlitReceive link num crcOk flit s) = .next t → Memory.wf t.mem = true := by
  intro t ht
  unfold execFlitReceive at ht
  dsimp only at ht
  repeat' split at ht
  all_goals obtain rfl := Host.Outcome.next.inj ht
  · exact hw
  · rw [State.flitBad_mem]; exact hw
  · refine State.orHold_wf _ _ _ _ _ (fun u hu => ?_) hw
    rw [State.answer_mem]
    exact State.deliverFlit_wf _ _ _ (by rw [State.modLink_mem]; exact hu)
  all_goals rw [State.answer_mem, State.modLink_mem]; exact hw

theorem execSectorCommit_wf (m : BitVec 8) (sector : W64) (w : SeamWrite) (s : State)
    (hw : Memory.wf s.mem = true) :
    ∀ t, (execSectorCommit m sector w s) = .next t → Memory.wf t.mem = true := by
  intro t ht
  unfold execSectorCommit at ht
  dsimp only at ht
  split at ht <;> obtain rfl := Host.Outcome.next.inj ht
  · exact hw
  · exact State.orHold_wf _ _ _ _ _ (fun u hu => State.farWrite_wf _ _ _ _ _ _ hu) hw

@[simp] theorem State.spoilSector_mem (s : State) (k : Nat) : (State.spoilSector s k).mem = s.mem := by
  rw [State.spoilSector, State.bump_mem]

@[simp] theorem State.settleIntents_mem (s : State) (m : BitVec 8) :
    (State.settleIntents s m).mem = s.mem := by
  unfold State.settleIntents
  dsimp only
  rw [State.modSup_mem]
  exact foldl_mem _ (fun u c hu => by rw [State.spoilSector_mem]; exact hu) _ _ rfl

theorem execIntentSettle_mem (m : BitVec 8) (s : State) :
    ∀ t, (execIntentSettle m s) = .next t → t.mem = s.mem := by
  intro t ht
  simp only [execIntentSettle] at ht
  cases ht
  simp [*]

theorem execModuleLost_mem (m : BitVec 8) (s : State) :
    ∀ t, (execModuleLost m s) = .next t → t.mem = s.mem := by
  intro t ht
  unfold execModuleLost at ht
  repeat' split at ht
  all_goals cases ht
  all_goals simp_all

theorem execTrayLatchOpen_mem (s : State) :
    ∀ t, (execTrayLatchOpen s) = .next t → t.mem = s.mem := by
  intro t ht
  simp only [execTrayLatchOpen] at ht
  cases ht
  simp [*]

theorem execRset_mem (g : BitVec 3) (b : BitVec 6) (s : State) :
    ∀ t, (execRset g b s) = .next t → t.mem = s.mem := by
  refine issue_mem _ _ s ?_
  intro u
  simp [*]

@[simp] theorem Eng.table_mem (e : Eng) (s : State) (va : W64) :
    (Eng.table e s va).1.s.mem = s.mem := by
  unfold Eng.table
  dsimp only
  repeat' split
  all_goals simp_all

@[simp] theorem State.tableAhead_wf (s : State) (e : Eng) (va : W64) (hw : Memory.wf s.mem = true) :
    Memory.wf (State.tableAhead s e va).1.mem = true := by
  unfold State.tableAhead
  extract_lets ps pas
  split
  · exact hw
  · have h := State.msAhead_wf s s.issuer e false pas hw
    generalize s.msAhead s.issuer e false pas = p at h ⊢
    obtain ⟨u, got⟩ := p
    dsimp only
    split
    · rw [State.sendFar_mem]; exact h
    · exact h

@[simp] theorem State.loadV16_wf (s : State) (g : BitVec 3) (hw : Memory.wf s.mem = true) :
    Memory.wf (State.loadV16 s g).mem = true := by
  unfold State.loadV16
  split
  · extract_lets put e
    have h := State.tableAhead_wf s e ‹_› hw
    split
    · rename_i heq
      rw [heq] at h
      exact h
    · rename_i heq
      rw [heq] at h
      simpa [put] using h
  · exact hw

theorem execV16lTableLoad_wf (g : BitVec 3) (s : State) (hw : Memory.wf s.mem = true) :
    ∀ t, (execV16lTableLoad g s) = .next t → Memory.wf t.mem = true := by
  intro t ht
  simp only [execV16lTableLoad] at ht
  cases ht
  simp [*]

end Sys2Proof.Machine
end

