-- ==== Sys2Proof/Laws/MemInstr.lean ====
section
/-!
SUPPORT. For each operation, what the control-word and wait instructions do to memory:
`X_mem` says that X leaves every byte of memory alone, `X_wf` that X keeps the canonical form of memory.
-/
namespace Sys2Proof.Machine
open Sys2Proof

@[simp] theorem scalarOp_mem (f : SlotOp → Nat → Nat → Nat → W64) (op : Nat) (q : SlotOp) (s : State) :
    (scalarOp f op q s).mem = s.mem := by
  simp [scalarOp]

@[simp] theorem divideOp_mem (f : SlotOp → Nat → Nat → W64) (op : Nat) (q : SlotOp) (s : State) :
    (divideOp f op q s).mem = s.mem := by
  simp [divideOp]

theorem execMov_mem (q : SlotOp) (s : State) :
    ∀ t, (execMov q s) = .next t → t.mem = s.mem := by
  refine runHcw_mem _ _ s ?_
  intro op q u
  simp

theorem execMovl_mem (q : SlotOp) (s : State) :
    ∀ t, (execMovl q s) = .next t → t.mem = s.mem := by
  refine runHcw_mem _ _ s ?_
  intro op q u
  simp

theorem execAdd_mem (q : SlotOp) (s : State) :
    ∀ t, (execAdd q s) = .next t → t.mem = s.mem := by
  refine runHcw_mem _ _ s ?_
  intro op q u
  simp

theorem execSub_mem (q : SlotOp) (s : State) :
    ∀ t, (execSub q s) = .next t → t.mem = s.mem := by
  refine runHcw_mem _ _ s ?_
  intro op q u
  simp

theorem execMul_mem (q : SlotOp) (s : State) :
    ∀ t, (execMul q s) = .next t → t.mem = s.mem := by
  refine runHcw_mem _ _ s ?_
  intro op q u
  simp

theorem execMulh_mem (q : SlotOp) (s : State) :
    ∀ t, (execMulh q s) = .next t → t.mem = s.mem := by
  refine runHcw_mem _ _ s ?_
  intro op q u
  simp

theorem execMulhn_mem (q : SlotOp) (s : State) :
    ∀ t, (execMulhn q s) = .next t → t.mem = s.mem := by
  refine runHcw_mem _ _ s ?_
  intro op q u
  simp

theorem execDiv_mem (q : SlotOp) (s : State) :
    ∀ t, (execDiv q s) = .next t → t.mem = s.mem := by
  refine runHcw_mem _ _ s ?_
  intro op q u
  simp

theorem execDivn_mem (q : SlotOp) (s : State) :
    ∀ t, (execDivn q s) = .next t → t.mem = s.mem := by
  refine runHcw_mem _ _ s ?_
  intro op q u
  simp

theorem execRem_mem (q : SlotOp) (s : State) :
    ∀ t, (execRem q s) = .next t → t.mem = s.mem := by
  refine runHcw_mem _ _ s ?_
  intro op q u
  simp

theorem execRemn_mem (q : SlotOp) (s : State) :
    ∀ t, (execRemn q s) = .next t → t.mem = s.mem := by
  refine runHcw_mem _ _ s ?_
  intro op q u
  simp

theorem execMadd_mem (q : SlotOp) (s : State) :
    ∀ t, (execMadd q s) = .next t → t.mem = s.mem := by
  refine runHcw_mem _ _ s ?_
  intro op q u
  simp

theorem execAbs_mem (q : SlotOp) (s : State) :
    ∀ t, (execAbs q s) = .next t → t.mem = s.mem := by
  refine runHcw_mem _ _ s ?_
  intro op q u
  simp

theorem execNeg_mem (q : SlotOp) (s : State) :
    ∀ t, (execNeg q s) = .next t → t.mem = s.mem := by
  refine runHcw_mem _ _ s ?_
  intro op q u
  simp

theorem execAnd_mem (q : SlotOp) (s : State) :
    ∀ t, (execAnd q s) = .next t → t.mem = s.mem := by
  refine runHcw_mem _ _ s ?_
  intro op q u
  simp

theorem execOr_mem (q : SlotOp) (s : State) :
    ∀ t, (execOr q s) = .next t → t.mem = s.mem := by
  refine runHcw_mem _ _ s ?_
  intro op q u
  simp

theorem execXor_mem (q : SlotOp) (s : State) :
    ∀ t, (execXor q s) = .next t → t.mem = s.mem := by
  refine runHcw_mem _ _ s ?_
  intro op q u
  simp

theorem execAndn_mem (q : SlotOp) (s : State) :
    ∀ t, (execAndn q s) = .next t → t.mem = s.mem := by
  refine runHcw_mem _ _ s ?_
  intro op q u
  simp

theorem execShl_mem (q : SlotOp) (s : State) :
    ∀ t, (execShl q s) = .next t → t.mem = s.mem := by
  refine runHcw_mem _ _ s ?_
  intro op q u
  simp

theorem execShr_mem (q : SlotOp) (s : State) :
    ∀ t, (execShr q s) = .next t → t.mem = s.mem := by
  refine runHcw_mem _ _ s ?_
  intro op q u
  simp

theorem execSar_mem (q : SlotOp) (s : State) :
    ∀ t, (execSar q s) = .next t → t.mem = s.mem := by
  refine runHcw_mem _ _ s ?_
  intro op q u
  simp

theorem execRol_mem (q : SlotOp) (s : State) :
    ∀ t, (execRol q s) = .next t → t.mem = s.mem := by
  refine runHcw_mem _ _ s ?_
  intro op q u
  simp

theorem execClz_mem (q : SlotOp) (s : State) :
    ∀ t, (execClz q s) = .next t → t.mem = s.mem := by
  refine runHcw_mem _ _ s ?_
  intro op q u
  simp

theorem execCtz_mem (q : SlotOp) (s : State) :
    ∀ t, (execCtz q s) = .next t → t.mem = s.mem := by
  refine runHcw_mem _ _ s ?_
  intro op q u
  simp

theorem execPopc_mem (q : SlotOp) (s : State) :
    ∀ t, (execPopc q s) = .next t → t.mem = s.mem := by
  refine runHcw_mem _ _ s ?_
  intro op q u
  simp

theorem execBext_mem (q : SlotOp) (s : State) :
    ∀ t, (execBext q s) = .next t → t.mem = s.mem := by
  refine runHcw_mem _ _ s ?_
  intro op q u
  simp

theorem execBins_mem (q : SlotOp) (s : State) :
    ∀ t, (execBins q s) = .next t → t.mem = s.mem := by
  refine runHcw_mem _ _ s ?_
  intro op q u
  simp

theorem execMin_mem (q : SlotOp) (s : State) :
    ∀ t, (execMin q s) = .next t → t.mem = s.mem := by
  refine runHcw_mem _ _ s ?_
  intro op q u
  simp

theorem execMax_mem (q : SlotOp) (s : State) :
    ∀ t, (execMax q s) = .next t → t.mem = s.mem := by
  refine runHcw_mem _ _ s ?_
  intro op q u
  simp

theorem execMinn_mem (q : SlotOp) (s : State) :
    ∀ t, (execMinn q s) = .next t → t.mem = s.mem := by
  refine runHcw_mem _ _ s ?_
  intro op q u
  simp

theorem execMaxn_mem (q : SlotOp) (s : State) :
    ∀ t, (execMaxn q s) = .next t → t.mem = s.mem := by
  refine runHcw_mem _ _ s ?_
  intro op q u
  simp

theorem execCmpeq_mem (q : SlotOp) (s : State) :
    ∀ t, (execCmpeq q s) = .next t → t.mem = s.mem := by
  refine runHcw_mem _ _ s ?_
  intro op q u
  simp

theorem execCmpne_mem (q : SlotOp) (s : State) :
    ∀ t, (execCmpne q s) = .next t → t.mem = s.mem := by
  refine runHcw_mem _ _ s ?_
  intro op q u
  simp

theorem execCmplt_mem (q : SlotOp) (s : State) :
    ∀ t, (execCmplt q s) = .next t → t.mem = s.mem := by
  refine runHcw_mem _ _ s ?_
  intro op q u
  simp

theorem execCmple_mem (q : SlotOp) (s : State) :
    ∀ t, (execCmple q s) = .next t → t.mem = s.mem := by
  refine runHcw_mem _ _ s ?_
  intro op q u
  simp

theorem execCmpltn_mem (q : SlotOp) (s : State) :
    ∀ t, (execCmpltn q s) = .next t → t.mem = s.mem := by
  refine runHcw_mem _ _ s ?_
  intro op q u
  simp

theorem execCmplen_mem (q : SlotOp) (s : State) :
    ∀ t, (execCmplen q s) = .next t → t.mem = s.mem := by
  refine runHcw_mem _ _ s ?_
  intro op q u
  simp

theorem execSel_mem (q : SlotOp) (s : State) :
    ∀ t, (execSel q s) = .next t → t.mem = s.mem := by
  refine runHcw_mem _ _ s ?_
  intro op q u
  simp

@[simp] theorem scalarSum_mem (f : SlotOp → Nat → Nat → Nat → Nat) (op : Nat) (q : SlotOp) (s : State) :
    (scalarSum f op q s).mem = s.mem := by
  simp [scalarSum]

theorem execFadd_mem (q : SlotOp) (s : State) :
    ∀ t, (execFadd q s) = .next t → t.mem = s.mem := by
  refine runHcw_mem _ _ s ?_
  intro op q u
  simp

theorem execFsub_mem (q : SlotOp) (s : State) :
    ∀ t, (execFsub q s) = .next t → t.mem = s.mem := by
  refine runHcw_mem _ _ s ?_
  intro op q u
  simp

theorem execFmul_mem (q : SlotOp) (s : State) :
    ∀ t, (execFmul q s) = .next t → t.mem = s.mem := by
  refine runHcw_mem _ _ s ?_
  intro op q u
  simp

theorem execFma_mem (q : SlotOp) (s : State) :
    ∀ t, (execFma q s) = .next t → t.mem = s.mem := by
  refine runHcw_mem _ _ s ?_
  intro op q u
  simp

theorem execFmin_mem (q : SlotOp) (s : State) :
    ∀ t, (execFmin q s) = .next t → t.mem = s.mem := by
  refine runHcw_mem _ _ s ?_
  intro op q u
  simp

theorem execFmax_mem (q : SlotOp) (s : State) :
    ∀ t, (execFmax q s) = .next t → t.mem = s.mem := by
  refine runHcw_mem _ _ s ?_
  intro op q u
  simp

theorem execFcmp_mem (q : SlotOp) (s : State) :
    ∀ t, (execFcmp q s) = .next t → t.mem = s.mem := by
  refine runHcw_mem _ _ s ?_
  intro op q u
  simp

theorem execFcvt_mem (q : SlotOp) (s : State) :
    ∀ t, (execFcvt q s) = .next t → t.mem = s.mem := by
  refine runHcw_mem _ _ s ?_
  intro op q u
  simp

theorem execRdcyc_mem (q : SlotOp) (s : State) :
    ∀ t, (execRdcyc q s) = .next t → t.mem = s.mem := by
  refine runHcw_mem _ _ s ?_
  intro op q u
  simp

theorem execRdtc_mem (q : SlotOp) (s : State) :
    ∀ t, (execRdtc q s) = .next t → t.mem = s.mem := by
  refine runHcw_mem _ _ s ?_
  intro op q u
  simp

theorem execRqpop_mem (q : SlotOp) (s : State) :
    ∀ t, (execRqpop q s) = .next t → t.mem = s.mem := by
  refine runHcw_mem _ _ s ?_
  intro op q u
  simp

theorem execVget_mem (q : SlotOp) (s : State) :
    ∀ t, (execVget q s) = .next t → t.mem = s.mem := by
  refine runHcw_mem _ _ s ?_
  intro op q u
  simp

theorem execTenc_mem (a : BitVec 6) (b : BitVec 6) (c : BitVec 6) (fmt : BitVec 3) (v16l : BitVec 1) (auto : BitVec 1) (s : State) :
    ∀ t, (execTenc a b c fmt v16l auto s) = .next t → t.mem = s.mem := by
  refine issue_mem _ _ s ?_
  intro u
  simp [*]

@[simp] theorem State.noteTlbT_mem (s : State) (l : Time) (es : List TlbEntry) :
    (State.noteTlbT s l es).mem = s.mem := by
  simp [State.noteTlbT]

@[simp] theorem State.startTen_wf (s : State) (hw : Memory.wf s.mem = true) :
    Memory.wf (State.startTen s).mem = true := by
  unfold State.startTen
  split
  · exact hw
  · split
    · exact hw
    · rename_i q qs _ _
      extract_lets put e0 e
      split
      · have h := State.tableAhead_wf s e (s.tenTable q) hw
        split
        · rename_i heq
          rw [heq] at h
          exact h
        · rename_i u got heq
          rw [heq] at h
          have h1 : ∀ r : Run, Memory.wf r.s.mem = true → ∀ q' : TenReq, Memory.wf (put (((r.s.engRefused e.xl q.base r.fail r.span).noteTlbT
              q.base r.used).modEng fun e => e.noteTime 5 r.t) q').mem = true := by
            intro r hr q'
            simpa [put] using hr
          have h2 := h1 (Eng.table { e with got } u (u.tenTable q)).1 (by rw [Eng.table_mem]; exact h)
          dsimp only
          split
          · exact h2 _
          · exact h2 _
          · exact h2 q
      · exact hw

theorem execTrellisRequestStart_wf (s : State) (hw : Memory.wf s.mem = true) :
    ∀ t, (execTrellisRequestStart s) = .next t → Memory.wf t.mem = true := by
  intro t ht
  simp only [execTrellisRequestStart] at ht
  cases ht
  simp [*]

@[simp] theorem State.endTen_mem (s : State) (q : TenReq) (x : Nat) :
    (State.endTen s q x).mem = s.mem := by
  simp [State.endTen]

@[simp] theorem State.writePart_wf (s : State) (q : TenReq) (i : Nat) (p : Option Nat × W64 × List Byte) (hw : Memory.wf s.mem = true) :
    Memory.wf (State.writePart s q i p).mem = true := by
  unfold State.writePart
  extract_lets e dst
  have h := State.logUnits_wf s s.issuer 1 ((s.unbreached (s.msPieces e.xl .wr dst)).map s.msPoint) hw
  split
  · exact hw
  · rename_i u heq
    rw [heq] at h
    simp only [State.modEng_mem, State.noteTlbT_mem, Run.cleared_mem]
    exact Run.write_wf _ _ _ _ _ _ (by rw [Run.start_mem, State.sendFar_mem]; exact h)

@[simp] theorem State.writeTen_wf (s : State) (q : TenReq) (block : Nat) (sb : Nat) (hw : Memory.wf s.mem = true) :
    Memory.wf (State.writeTen s q block sb).1.mem = true := by
  refine foldl_wf _ (fun u p hu => ?_) _ _ hw
  split
  · exact hu
  · exact State.writePart_wf _ _ _ _ hu

@[simp] theorem State.finishTen_wf (s : State) (q : TenReq) (hw : Memory.wf s.mem = true) :
    Memory.wf (State.finishTen s q).mem = true := by
  grind [State.finishTen, State.markDst_mem, State.modEng_mem, State.endTen_mem, State.deferFault_mem, State.engRefused_mem, State.writeTen_wf]

theorem execTrellisComplete_wf (s : State) (hw : Memory.wf s.mem = true) :
    ∀ t, (execTrellisComplete s) = .next t → Memory.wf t.mem = true := by
  intro t ht
  unfold execTrellisComplete at ht
  repeat' split at ht
  all_goals cases ht
  all_goals simp_all

@[simp] theorem State.vecResult_mem (s : State) (op : Nat) (q : SlotOp) (w : Nat) (xs : List Nat) (flags : optParam (BitVec 5) 0) :
    (State.vecResult s op q w xs flags).mem = s.mem := by
  simp [State.vecResult]

@[simp] theorem vecOp_mem (f : SlotOp → Nat → Nat → Nat → Nat) (op : Nat) (q : SlotOp) (s : State) :
    (vecOp f op q s).mem = s.mem := by
  simp [vecOp]

@[simp] theorem specialOp_mem (f : Nat → Nat → Val → Val) (x1 : Nat) (x2 : SlotOp) (x3 : State) :
    (specialOp f x1 x2 x3).mem = x3.mem := by
  simp [specialOp]

@[simp] theorem dotOp_mem (f : Int → Int → Int) (op : Nat) (q : SlotOp) (s : State) :
    (dotOp f op q s).mem = s.mem := by
  simp [dotOp]

@[simp] theorem vecSum_mem (f : SlotOp → Nat → Nat → Nat → Nat) (op : Nat) (q : SlotOp) (s : State) :
    (vecSum f op q s).mem = s.mem := by
  simp [vecSum]

theorem execVadd_mem (q : SlotOp) (s : State) :
    ∀ t, (execVadd q s) = .next t → t.mem = s.mem := by
  refine runHcw_mem _ _ s ?_
  intro op q u
  simp

theorem execVsub_mem (q : SlotOp) (s : State) :
    ∀ t, (execVsub q s) = .next t → t.mem = s.mem := by
  refine runHcw_mem _ _ s ?_
  intro op q u
  simp

theorem execVmul_mem (q : SlotOp) (s : State) :
    ∀ t, (execVmul q s) = .next t → t.mem = s.mem := by
  refine runHcw_mem _ _ s ?_
  intro op q u
  simp

theorem execVmulh_mem (q : SlotOp) (s : State) :
    ∀ t, (execVmulh q s) = .next t → t.mem = s.mem := by
  refine runHcw_mem _ _ s ?_
  intro op q u
  simp

theorem execVfma_mem (q : SlotOp) (s : State) :
    ∀ t, (execVfma q s) = .next t → t.mem = s.mem := by
  refine runHcw_mem _ _ s ?_
  intro op q u
  simp

theorem execVfms_mem (q : SlotOp) (s : State) :
    ∀ t, (execVfms q s) = .next t → t.mem = s.mem := by
  refine runHcw_mem _ _ s ?_
  intro op q u
  simp

theorem execVfnma_mem (q : SlotOp) (s : State) :
    ∀ t, (execVfnma q s) = .next t → t.mem = s.mem := by
  refine runHcw_mem _ _ s ?_
  intro op q u
  simp

theorem execVmin_mem (q : SlotOp) (s : State) :
    ∀ t, (execVmin q s) = .next t → t.mem = s.mem := by
  refine runHcw_mem _ _ s ?_
  intro op q u
  simp

theorem execVmax_mem (q : SlotOp) (s : State) :
    ∀ t, (execVmax q s) = .next t → t.mem = s.mem := by
  refine runHcw_mem _ _ s ?_
  intro op q u
  simp

theorem execVabs_mem (q : SlotOp) (s : State) :
    ∀ t, (execVabs q s) = .next t → t.mem = s.mem := by
  refine runHcw_mem _ _ s ?_
  intro op q u
  simp

theorem execVneg_mem (q : SlotOp) (s : State) :
    ∀ t, (execVneg q s) = .next t → t.mem = s.mem := by
  refine runHcw_mem _ _ s ?_
  intro op q u
  simp

theorem execVabd_mem (q : SlotOp) (s : State) :
    ∀ t, (execVabd q s) = .next t → t.mem = s.mem := by
  refine runHcw_mem _ _ s ?_
  intro op q u
  simp

theorem execVclamp_mem (q : SlotOp) (s : State) :
    ∀ t, (execVclamp q s) = .next t → t.mem = s.mem := by
  refine runHcw_mem _ _ s ?_
  intro op q u
  simp

theorem execVimad_mem (q : SlotOp) (s : State) :
    ∀ t, (execVimad q s) = .next t → t.mem = s.mem := by
  refine runHcw_mem _ _ s ?_
  intro op q u
  simp

theorem execVand_mem (q : SlotOp) (s : State) :
    ∀ t, (execVand q s) = .next t → t.mem = s.mem := by
  refine runHcw_mem _ _ s ?_
  intro op q u
  simp

theorem execVor_mem (q : SlotOp) (s : State) :
    ∀ t, (execVor q s) = .next t → t.mem = s.mem := by
  refine runHcw_mem _ _ s ?_
  intro op q u
  simp

theorem execVxor_mem (q : SlotOp) (s : State) :
    ∀ t, (execVxor q s) = .next t → t.mem = s.mem := by
  refine runHcw_mem _ _ s ?_
  intro op q u
  simp

theorem execVnot_mem (q : SlotOp) (s : State) :
    ∀ t, (execVnot q s) = .next t → t.mem = s.mem := by
  refine runHcw_mem _ _ s ?_
  intro op q u
  simp

theorem execVshl_mem (q : SlotOp) (s : State) :
    ∀ t, (execVshl q s) = .next t → t.mem = s.mem := by
  refine runHcw_mem _ _ s ?_
  intro op q u
  simp

theorem execVshr_mem (q : SlotOp) (s : State) :
    ∀ t, (execVshr q s) = .next t → t.mem = s.mem := by
  refine runHcw_mem _ _ s ?_
  intro op q u
  simp

theorem execVsar_mem (q : SlotOp) (s : State) :
    ∀ t, (execVsar q s) = .next t → t.mem = s.mem := by
  refine runHcw_mem _ _ s ?_
  intro op q u
  simp

theorem execVcmp_mem (q : SlotOp) (s : State) :
    ∀ t, (execVcmp q s) = .next t → t.mem = s.mem := by
  refine runHcw_mem _ _ s ?_
  intro op q u
  dsimp only
  repeat' split
  all_goals simp_all

theorem execVsel_mem (q : SlotOp) (s : State) :
    ∀ t, (execVsel q s) = .next t → t.mem = s.mem := by
  refine runHcw_mem _ _ s ?_
  intro op q u
  simp

theorem execVcvt_mem (q : SlotOp) (s : State) :
    ∀ t, (execVcvt q s) = .next t → t.mem = s.mem := by
  refine runHcw_mem _ _ s ?_
  intro op q u
  simp

theorem execVrcp_mem (q : SlotOp) (s : State) :
    ∀ t, (execVrcp q s) = .next t → t.mem = s.mem := by
  refine runHcw_mem _ _ s ?_
  intro op q u
  simp

theorem execVrsq_mem (q : SlotOp) (s : State) :
    ∀ t, (execVrsq q s) = .next t → t.mem = s.mem := by
  refine runHcw_mem _ _ s ?_
  intro op q u
  simp

theorem execVsqrt_mem (q : SlotOp) (s : State) :
    ∀ t, (execVsqrt q s) = .next t → t.mem = s.mem := by
  refine runHcw_mem _ _ s ?_
  intro op q u
  simp

theorem execVexp2_mem (q : SlotOp) (s : State) :
    ∀ t, (execVexp2 q s) = .next t → t.mem = s.mem := by
  refine runHcw_mem _ _ s ?_
  intro op q u
  simp

theorem execVlog2_mem (q : SlotOp) (s : State) :
    ∀ t, (execVlog2 q s) = .next t → t.mem = s.mem := by
  refine runHcw_mem _ _ s ?_
  intro op q u
  simp

theorem execVtanh_mem (q : SlotOp) (s : State) :
    ∀ t, (execVtanh q s) = .next t → t.mem = s.mem := by
  refine runHcw_mem _ _ s ?_
  intro op q u
  simp

theorem execVsmth_mem (q : SlotOp) (s : State) :
    ∀ t, (execVsmth q s) = .next t → t.mem = s.mem := by
  refine runHcw_mem _ _ s ?_
  intro op q u
  simp

theorem execVdp4_mem (q : SlotOp) (s : State) :
    ∀ t, (execVdp4 q s) = .next t → t.mem = s.mem := by
  refine runHcw_mem _ _ s ?_
  intro op q u
  simp

theorem execVsad_mem (q : SlotOp) (s : State) :
    ∀ t, (execVsad q s) = .next t → t.mem = s.mem := by
  refine runHcw_mem _ _ s ?_
  intro op q u
  simp

theorem execVdp2_mem (q : SlotOp) (s : State) :
    ∀ t, (execVdp2 q s) = .next t → t.mem = s.mem := by
  refine runHcw_mem _ _ s ?_
  intro op q u
  simp

theorem execVqnt_mem (q : SlotOp) (s : State) :
    ∀ t, (execVqnt q s) = .next t → t.mem = s.mem := by
  refine runHcw_mem _ _ s ?_
  intro op q u
  simp

theorem execVdqnt_mem (q : SlotOp) (s : State) :
    ∀ t, (execVdqnt q s) = .next t → t.mem = s.mem := by
  refine runHcw_mem _ _ s ?_
  intro op q u
  simp

@[simp] theorem permuteOp_mem (j : SlotOp → Nat → Nat → Nat → Int) (op : Nat) (q : SlotOp) (s : State) :
    (permuteOp j op q s).mem = s.mem := by
  simp [permuteOp]

theorem execVmov_mem (q : SlotOp) (s : State) :
    ∀ t, (execVmov q s) = .next t → t.mem = s.mem := by
  refine runHcw_mem _ _ s ?_
  intro op q u
  simp

theorem execVbcast_mem (q : SlotOp) (s : State) :
    ∀ t, (execVbcast q s) = .next t → t.mem = s.mem := by
  refine runHcw_mem _ _ s ?_
  intro op q u
  dsimp only
  repeat' split
  all_goals simp_all

theorem execViota_mem (q : SlotOp) (s : State) :
    ∀ t, (execViota q s) = .next t → t.mem = s.mem := by
  refine runHcw_mem _ _ s ?_
  intro op q u
  simp

theorem execVperm_mem (q : SlotOp) (s : State) :
    ∀ t, (execVperm q s) = .next t → t.mem = s.mem := by
  refine runHcw_mem _ _ s ?_
  intro op q u
  simp

theorem execVrotl_mem (q : SlotOp) (s : State) :
    ∀ t, (execVrotl q s) = .next t → t.mem = s.mem := by
  refine runHcw_mem _ _ s ?_
  intro op q u
  simp

theorem execVslide_mem (q : SlotOp) (s : State) :
    ∀ t, (execVslide q s) = .next t → t.mem = s.mem := by
  refine runHcw_mem _ _ s ?_
  intro op q u
  simp

theorem execVxlane_mem (q : SlotOp) (s : State) :
    ∀ t, (execVxlane q s) = .next t → t.mem = s.mem := by
  refine runHcw_mem _ _ s ?_
  intro op q u
  simp

theorem execVzip_mem (q : SlotOp) (s : State) :
    ∀ t, (execVzip q s) = .next t → t.mem = s.mem := by
  refine runHcw_mem _ _ s ?_
  intro op q u
  simp

theorem execVunzip_mem (q : SlotOp) (s : State) :
    ∀ t, (execVunzip q s) = .next t → t.mem = s.mem := by
  refine runHcw_mem _ _ s ?_
  intro op q u
  simp

theorem execVcmprs_mem (q : SlotOp) (s : State) :
    ∀ t, (execVcmprs q s) = .next t → t.mem = s.mem := by
  refine runHcw_mem _ _ s ?_
  intro op q u
  simp

theorem execVexpnd_mem (q : SlotOp) (s : State) :
    ∀ t, (execVexpnd q s) = .next t → t.mem = s.mem := by
  refine runHcw_mem _ _ s ?_
  intro op q u
  simp

theorem execVred_mem (q : SlotOp) (s : State) :
    ∀ t, (execVred q s) = .next t → t.mem = s.mem := by
  refine runHcw_mem _ _ s ?_
  intro op q u
  dsimp only
  repeat' split
  all_goals simp_all

@[simp] theorem scanOp_mem (starts : Nat → Nat) (op : Nat) (q : SlotOp) (s : State) :
    (scanOp starts op q s).mem = s.mem := by
  simp [scanOp]

theorem execVscan_mem (q : SlotOp) (s : State) :
    ∀ t, (execVscan q s) = .next t → t.mem = s.mem := by
  refine runHcw_mem _ _ s ?_
  intro op q u
  simp

theorem execVsscan_mem (q : SlotOp) (s : State) :
    ∀ t, (execVsscan q s) = .next t → t.mem = s.mem := by
  refine runHcw_mem _ _ s ?_
  intro op q u
  simp

theorem execVpopc_mem (q : SlotOp) (s : State) :
    ∀ t, (execVpopc q s) = .next t → t.mem = s.mem := by
  refine runHcw_mem _ _ s ?_
  intro op q u
  simp

theorem execVpfx_mem (q : SlotOp) (s : State) :
    ∀ t, (execVpfx q s) = .next t → t.mem = s.mem := by
  refine runHcw_mem _ _ s ?_
  intro op q u
  simp

theorem execVinter_mem (q : SlotOp) (s : State) :
    ∀ t, (execVinter q s) = .next t → t.mem = s.mem := by
  refine runHcw_mem _ _ s ?_
  intro op q u
  simp

theorem execVrnd_mem (q : SlotOp) (s : State) :
    ∀ t, (execVrnd q s) = .next t → t.mem = s.mem := by
  refine runHcw_mem _ _ s ?_
  intro op q u
  simp

theorem execVtrow_mem (q : SlotOp) (s : State) :
    ∀ t, (execVtrow q s) = .next t → t.mem = s.mem := by
  refine runHcw_mem _ _ s ?_
  intro op q u
  simp

theorem execVtcol_mem (q : SlotOp) (s : State) :
    ∀ t, (execVtcol q s) = .next t → t.mem = s.mem := by
  refine runHcw_mem _ _ s ?_
  intro op q u
  simp

@[simp] theorem maskOp_mem (f : Nat → Nat → Nat) (op : Nat) (q : SlotOp) (s : State) :
    (maskOp f op q s).mem = s.mem := by
  simp [maskOp]

theorem execKand_mem (q : SlotOp) (s : State) :
    ∀ t, (execKand q s) = .next t → t.mem = s.mem := by
  refine runHcw_mem _ _ s ?_
  intro op q u
  simp

theorem execKor_mem (q : SlotOp) (s : State) :
    ∀ t, (execKor q s) = .next t → t.mem = s.mem := by
  refine runHcw_mem _ _ s ?_
  intro op q u
  simp

theorem execKxor_mem (q : SlotOp) (s : State) :
    ∀ t, (execKxor q s) = .next t → t.mem = s.mem := by
  refine runHcw_mem _ _ s ?_
  intro op q u
  simp

theorem execKnot_mem (q : SlotOp) (s : State) :
    ∀ t, (execKnot q s) = .next t → t.mem = s.mem := by
  refine runHcw_mem _ _ s ?_
  intro op q u
  simp

theorem execKmov_mem (q : SlotOp) (s : State) :
    ∀ t, (execKmov q s) = .next t → t.mem = s.mem := by
  refine runHcw_mem _ _ s ?_
  intro op q u
  dsimp only
  repeat' split
  all_goals simp_all

theorem execWaitFull_mem (b : BitVec 6) (s : State) :
    ∀ t, (execWaitFull b s) = .next t → t.mem = s.mem := by
  refine issue_mem _ _ s ?_
  intro u
  simp [*]

theorem execWaitFree_mem (b : BitVec 6) (s : State) :
    ∀ t, (execWaitFree b s) = .next t → t.mem = s.mem := by
  refine issue_mem _ _ s ?_
  intro u
  simp [*]

theorem execWaitCyc_mem (a : BitVec 6) (s : State) :
    ∀ t, (execWaitCyc a s) = .next t → t.mem = s.mem := by
  refine issue_mem _ _ s ?_
  intro u
  simp [*]

theorem execWaitCycLiteral_mem (l : BitVec 2) (s : State) :
    ∀ t, (execWaitCycLiteral l s) = .next t → t.mem = s.mem := by
  refine issue_mem _ _ s ?_
  intro u
  simp [*]

theorem execWaitReg_mem (k : BitVec 2) (n : BitVec 6) (s : State) :
    ∀ t, (execWaitReg k n s) = .next t → t.mem = s.mem := by
  refine issue_mem _ _ s ?_
  intro u
  simp [*]

@[simp] theorem State.acquire_mem (s : State) (t : Option Time) : (State.acquire s t).mem = s.mem := rfl

theorem execWaitBar_mem (p : BitVec 1) (b : BitVec 6) (s : State) :
    ∀ t, (execWaitBar p b s) = .next t → t.mem = s.mem := by
  refine issue_mem _ _ s ?_
  intro u
  simp [*]

theorem execWaitBarGang_mem (p : BitVec 1) (l : BitVec 2) (s : State) :
    ∀ t, (execWaitBarGang p l s) = .next t → t.mem = s.mem := by
  refine issue_mem _ _ s ?_
  intro u
  simp [*]

theorem execWaitGroup_mem (g : BitVec 6) (s : State) :
    ∀ t, (execWaitGroup g s) = .next t → t.mem = s.mem := by
  refine issue_mem _ _ s ?_
  intro u
  simp [*]

theorem execWaitRing_mem (g : BitVec 3) (n : BitVec 9) (s : State) :
    ∀ t, (execWaitRing g n s) = .next t → t.mem = s.mem := by
  refine issue_mem _ _ s ?_
  intro u
  simp [*]

theorem execWaitSpace_mem (g : BitVec 3) (s : State) :
    ∀ t, (execWaitSpace g s) = .next t → t.mem = s.mem := by
  refine issue_mem _ _ s ?_
  intro u
  simp [*]

theorem execWaitTrellis_mem (s : State) :
    ∀ t, (execWaitTrellis s) = .next t → t.mem = s.mem := by
  refine issue_mem _ _ s ?_
  intro u
  simp [*]

theorem execWaitYslot_mem (slot : BitVec 4) (s : State) :
    ∀ t, (execWaitYslot slot s) = .next t → t.mem = s.mem := by
  refine issue_mem _ _ s ?_
  intro u
  simp [*]

theorem wf_of_mem {o : Host.Outcome State Fault Refusal} {s : State} (h : ∀ t, o = .next t → t.mem = s.mem)
    (hw : Memory.wf s.mem = true) : ∀ t, o = .next t → Memory.wf t.mem = true :=
  fun t ht => by rw [h t ht]; exact hw

end Sys2Proof.Machine
end

