-- ==== Sys2Proof/Laws/MemStep.lean ====
section
/-!
SUPPORT. For each operation, what an instruction and the parts of a turn do to memory:
`X_mem` says that X leaves every byte of memory alone, `X_wf` that X keeps the canonical form of memory.
-/
namespace Sys2Proof.Machine
open Sys2Proof

theorem exec_wf (i : Instr) (s : State) (hw : Memory.wf s.mem = true) :
    ∀ t, exec i s = .next t → Memory.wf t.mem = true := by
  cases i with
  | nop => exact wf_of_mem (execNop_mem s) hw
  | br cond a off => exact wf_of_mem (execBr_mem cond a off s) hw
  | jmp off => exact wf_of_mem (execJmp_mem off s) hw
  | jmpr b imm => exact wf_of_mem (execJmpr_mem b imm s) hw
  | call off => exact wf_of_mem (execCall_mem off s) hw
  | callr off => exact wf_of_mem (execCallr_mem off s) hw
  | ret b => exact wf_of_mem (execRet_mem b s) hw
  | loop a off => exact wf_of_mem (execLoop_mem a off s) hw
  | ld a b imm => exact wf_of_mem (execLd_mem a b imm s) hw
  | ldx a b c sz sh => exact wf_of_mem (execLdx_mem a b c sz sh s) hw
  | lds a b imm => exact wf_of_mem (execLds_mem a b imm s) hw
  | chkp a b => exact wf_of_mem (execChkp_mem a b s) hw
  | st a b imm => exact wf_of_mem (execSt_mem a b imm s) hw
  | stx a b c sz sh => exact wf_of_mem (execStx_mem a b c sz sh s) hw
  | pref lvl b imm => exact wf_of_mem (execPref_mem lvl b imm s) hw
  | ipref off => exact wf_of_mem (execIpref_mem off s) hw
  | vld a b w buf off => exact wf_of_mem (execVld_mem a b w buf off s) hw
  | vst a b w buf off => exact wf_of_mem (execVst_mem a b w buf off s) hw
  | vldh a b c w => exact wf_of_mem (execVldh_mem a b c w s) hw
  | vsth a b c w => exact wf_of_mem (execVsth_mem a b c w s) hw
  | vgath a b c k w sc e => exact wf_of_mem (execVgath_mem a b c k w sc e s) hw
  | vscat a b c k w sc e => exact wf_of_mem (execVscat_mem a b c k w sc e s) hw
  | vlds a b w buf off => exact wf_of_mem (execVlds_mem a b w buf off s) hw
  | vchkp a b w => exact wf_of_mem (execVchkp_mem a b w s) hw
  | amoAdd a b c sz => exact wf_of_mem (execAmoAdd_mem a b c sz s) hw
  | amoAnd a b c sz => exact wf_of_mem (execAmoAnd_mem a b c sz s) hw
  | amoOr a b c sz => exact wf_of_mem (execAmoOr_mem a b c sz s) hw
  | amoXor a b c sz => exact wf_of_mem (execAmoXor_mem a b c sz s) hw
  | amoMin a b c sz => exact wf_of_mem (execAmoMin_mem a b c sz s) hw
  | amoMax a b c sz => exact wf_of_mem (execAmoMax_mem a b c sz s) hw
  | amoMinn a b c sz => exact wf_of_mem (execAmoMinn_mem a b c sz s) hw
  | amoMaxn a b c sz => exact wf_of_mem (execAmoMaxn_mem a b c sz s) hw
  | amoSwap a b c sz => exact wf_of_mem (execAmoSwap_mem a b c sz s) hw
  | amoCas a b c sz => exact wf_of_mem (execAmoCas_mem a b c sz s) hw
  | amoIncw a b c sz => exact wf_of_mem (execAmoIncw_mem a b c sz s) hw
  | amoFaddb a b c sz => exact wf_of_mem (execAmoFaddb_mem a b c sz s) hw
  | amoFadd a b c sz => exact wf_of_mem (execAmoFadd_mem a b c sz s) hw
  | redAdd b c sz => exact wf_of_mem (execRedAdd_mem b c sz s) hw
  | redAnd b c sz => exact wf_of_mem (execRedAnd_mem b c sz s) hw
  | redOr b c sz => exact wf_of_mem (execRedOr_mem b c sz s) hw
  | redXor b c sz => exact wf_of_mem (execRedXor_mem b c sz s) hw
  | redMin b c sz => exact wf_of_mem (execRedMin_mem b c sz s) hw
  | redMax b c sz => exact wf_of_mem (execRedMax_mem b c sz s) hw
  | redMinn b c sz => exact wf_of_mem (execRedMinn_mem b c sz s) hw
  | redMaxn b c sz => exact wf_of_mem (execRedMaxn_mem b c sz s) hw
  | redIncw b c sz => exact wf_of_mem (execRedIncw_mem b c sz s) hw
  | redFaddb b c sz => exact wf_of_mem (execRedFaddb_mem b c sz s) hw
  | redFadd b c sz => exact wf_of_mem (execRedFadd_mem b c sz s) hw
  | amov b c sz => exact wf_of_mem (execAmov_mem b c sz s) hw
  | depdec b imm => exact wf_of_mem (execDepdec_mem b imm s) hw
  | copy a b c h => exact wf_of_mem (execCopy_mem a b c h s) hw
  | copyx a b c => exact wf_of_mem (execCopyx_mem a b c s) hw
  | copyo a b c h => exact wf_of_mem (execCopyo_mem a b c h s) hw
  | brel a => exact wf_of_mem (execBrel_mem a s) hw
  | bset a b c => exact wf_of_mem (execBset_mem a b c s) hw
  | stage b imm => exact wf_of_mem (execStage_mem b imm s) hw
  | expect a b m g => exact execExpect_wf a b m g s hw
  | arrive a m g => exact execArrive_wf a m g s hw
  | arriveInit a b m g => exact execArriveInit_wf a b m g s hw
  | join a => exact execJoin_wf a s hw
  | leave a => exact execLeave_wf a s hw
  | gbar a => exact execGbar_wf a s hw
  | ysend a slot => exact execYsend_wf a slot s hw
  | yrecv b slot => exact execYrecv_wf b slot s hw
  | yokeLatchWrite => exact execYokeLatchWrite_wf s hw
  | fence scope t => exact wf_of_mem (execFence_mem scope t s) hw
  | fencep scope p q => exact wf_of_mem (execFencep_mem scope p q s) hw
  | prmx a b imm => exact wf_of_mem (execPrmx_mem a b imm s) hw
  | spawn b => exact wf_of_mem (execSpawn_mem b s) hw
  | endTask => exact wf_of_mem (execEndTask_mem s) hw
  | phase a => exact wf_of_mem (execPhase_mem a s) hw
  | ctopen a off => exact wf_of_mem (execCtopen_mem a off s) hw
  | ctclose => exact wf_of_mem (execCtclose_mem s) hw
  | trap b imm => exact wf_of_mem (execTrap_mem b imm s) hw
  | eret => exact wf_of_mem (execEret_mem s) hw
  | hset b c => exact wf_of_mem (execHset_mem b c s) hw
  | rlay b c tag => exact execRlay_wf b c tag s hw
  | tenc a b c fmt v16l auto => exact wf_of_mem (execTenc_mem a b c fmt v16l auto s) hw
  | rset g b => exact wf_of_mem (execRset_mem g b s) hw
  | mfs a n => exact wf_of_mem (execMfs_mem a n s) hw
  | mts a n => exact wf_of_mem (execMts_mem a n s) hw
  | hsnap a => exact wf_of_mem (execHsnap_mem a s) hw
  | mzero op hold i32 => exact wf_of_mem (execMzero_mem op hold i32 s) hw
  | mpush g => exact wf_of_mem (execMpush_mem g s) hw
  | mflip => exact wf_of_mem (execMflip_mem s) hw
  | mstrm g op hold => exact wf_of_mem (execMstrm_mem g op hold s) hw
  | mdrain adv scl fmt clr quad part => exact wf_of_mem (execMdrain_mem adv scl fmt clr quad part s) hw
  | mret g => exact wf_of_mem (execMret_mem g s) hw
  | mskip g n => exact wf_of_mem (execMskip_mem g n s) hw
  | mpad kv => exact wf_of_mem (execMpad_mem kv s) hw
  | mscl g => exact wf_of_mem (execMscl_mem g s) hw
  | waitFull b => exact wf_of_mem (execWaitFull_mem b s) hw
  | waitFree b => exact wf_of_mem (execWaitFree_mem b s) hw
  | waitCyc a => exact wf_of_mem (execWaitCyc_mem a s) hw
  | waitCycLiteral l => exact wf_of_mem (execWaitCycLiteral_mem l s) hw
  | waitReg k n => exact wf_of_mem (execWaitReg_mem k n s) hw
  | waitBar p b => exact wf_of_mem (execWaitBar_mem p b s) hw
  | waitBarGang p l => exact wf_of_mem (execWaitBarGang_mem p l s) hw
  | waitRing g n => exact wf_of_mem (execWaitRing_mem g n s) hw
  | waitSpace g => exact wf_of_mem (execWaitSpace_mem g s) hw
  | waitGroup g => exact wf_of_mem (execWaitGroup_mem g s) hw
  | waitTrellis => exact wf_of_mem (execWaitTrellis_mem s) hw
  | waitYslot slot => exact wf_of_mem (execWaitYslot_mem slot s) hw
  | mov q => exact wf_of_mem (execMov_mem q s) hw
  | movl q => exact wf_of_mem (execMovl_mem q s) hw
  | add q => exact wf_of_mem (execAdd_mem q s) hw
  | sub q => exact wf_of_mem (execSub_mem q s) hw
  | mul q => exact wf_of_mem (execMul_mem q s) hw
  | mulh q => exact wf_of_mem (execMulh_mem q s) hw
  | mulhn q => exact wf_of_mem (execMulhn_mem q s) hw
  | div q => exact wf_of_mem (execDiv_mem q s) hw
  | divn q => exact wf_of_mem (execDivn_mem q s) hw
  | rem q => exact wf_of_mem (execRem_mem q s) hw
  | remn q => exact wf_of_mem (execRemn_mem q s) hw
  | and q => exact wf_of_mem (execAnd_mem q s) hw
  | or q => exact wf_of_mem (execOr_mem q s) hw
  | xor q => exact wf_of_mem (execXor_mem q s) hw
  | andn q => exact wf_of_mem (execAndn_mem q s) hw
  | shl q => exact wf_of_mem (execShl_mem q s) hw
  | shr q => exact wf_of_mem (execShr_mem q s) hw
  | sar q => exact wf_of_mem (execSar_mem q s) hw
  | rol q => exact wf_of_mem (execRol_mem q s) hw
  | min q => exact wf_of_mem (execMin_mem q s) hw
  | max q => exact wf_of_mem (execMax_mem q s) hw
  | minn q => exact wf_of_mem (execMinn_mem q s) hw
  | maxn q => exact wf_of_mem (execMaxn_mem q s) hw
  | abs q => exact wf_of_mem (execAbs_mem q s) hw
  | neg q => exact wf_of_mem (execNeg_mem q s) hw
  | cmpeq q => exact wf_of_mem (execCmpeq_mem q s) hw
  | cmpne q => exact wf_of_mem (execCmpne_mem q s) hw
  | cmplt q => exact wf_of_mem (execCmplt_mem q s) hw
  | cmple q => exact wf_of_mem (execCmple_mem q s) hw
  | cmpltn q => exact wf_of_mem (execCmpltn_mem q s) hw
  | cmplen q => exact wf_of_mem (execCmplen_mem q s) hw
  | sel q => exact wf_of_mem (execSel_mem q s) hw
  | clz q => exact wf_of_mem (execClz_mem q s) hw
  | ctz q => exact wf_of_mem (execCtz_mem q s) hw
  | popc q => exact wf_of_mem (execPopc_mem q s) hw
  | bext q => exact wf_of_mem (execBext_mem q s) hw
  | bins q => exact wf_of_mem (execBins_mem q s) hw
  | madd q => exact wf_of_mem (execMadd_mem q s) hw
  | fadd q => exact wf_of_mem (execFadd_mem q s) hw
  | fsub q => exact wf_of_mem (execFsub_mem q s) hw
  | fmul q => exact wf_of_mem (execFmul_mem q s) hw
  | fma q => exact wf_of_mem (execFma_mem q s) hw
  | fmin q => exact wf_of_mem (execFmin_mem q s) hw
  | fmax q => exact wf_of_mem (execFmax_mem q s) hw
  | fcmp q => exact wf_of_mem (execFcmp_mem q s) hw
  | fcvt q => exact wf_of_mem (execFcvt_mem q s) hw
  | rdcyc q => exact wf_of_mem (execRdcyc_mem q s) hw
  | rdtc q => exact wf_of_mem (execRdtc_mem q s) hw
  | rqpop q => exact wf_of_mem (execRqpop_mem q s) hw
  | vget q => exact wf_of_mem (execVget_mem q s) hw
  | vadd q => exact wf_of_mem (execVadd_mem q s) hw
  | vsub q => exact wf_of_mem (execVsub_mem q s) hw
  | vmul q => exact wf_of_mem (execVmul_mem q s) hw
  | vmulh q => exact wf_of_mem (execVmulh_mem q s) hw
  | vfma q => exact wf_of_mem (execVfma_mem q s) hw
  | vfms q => exact wf_of_mem (execVfms_mem q s) hw
  | vfnma q => exact wf_of_mem (execVfnma_mem q s) hw
  | vmin q => exact wf_of_mem (execVmin_mem q s) hw
  | vmax q => exact wf_of_mem (execVmax_mem q s) hw
  | vabs q => exact wf_of_mem (execVabs_mem q s) hw
  | vneg q => exact wf_of_mem (execVneg_mem q s) hw
  | vabd q => exact wf_of_mem (execVabd_mem q s) hw
  | vclamp q => exact wf_of_mem (execVclamp_mem q s) hw
  | vand q => exact wf_of_mem (execVand_mem q s) hw
  | vor q => exact wf_of_mem (execVor_mem q s) hw
  | vxor q => exact wf_of_mem (execVxor_mem q s) hw
  | vnot q => exact wf_of_mem (execVnot_mem q s) hw
  | vshl q => exact wf_of_mem (execVshl_mem q s) hw
  | vshr q => exact wf_of_mem (execVshr_mem q s) hw
  | vsar q => exact wf_of_mem (execVsar_mem q s) hw
  | vcmp q => exact wf_of_mem (execVcmp_mem q s) hw
  | vsel q => exact wf_of_mem (execVsel_mem q s) hw
  | vcvt q => exact wf_of_mem (execVcvt_mem q s) hw
  | vrcp q => exact wf_of_mem (execVrcp_mem q s) hw
  | vrsq q => exact wf_of_mem (execVrsq_mem q s) hw
  | vsqrt q => exact wf_of_mem (execVsqrt_mem q s) hw
  | vexp2 q => exact wf_of_mem (execVexp2_mem q s) hw
  | vlog2 q => exact wf_of_mem (execVlog2_mem q s) hw
  | vtanh q => exact wf_of_mem (execVtanh_mem q s) hw
  | vdp4 q => exact wf_of_mem (execVdp4_mem q s) hw
  | vdp2 q => exact wf_of_mem (execVdp2_mem q s) hw
  | vqnt q => exact wf_of_mem (execVqnt_mem q s) hw
  | vdqnt q => exact wf_of_mem (execVdqnt_mem q s) hw
  | vsmth q => exact wf_of_mem (execVsmth_mem q s) hw
  | vimad q => exact wf_of_mem (execVimad_mem q s) hw
  | vsad q => exact wf_of_mem (execVsad_mem q s) hw
  | vmov q => exact wf_of_mem (execVmov_mem q s) hw
  | vbcast q => exact wf_of_mem (execVbcast_mem q s) hw
  | viota q => exact wf_of_mem (execViota_mem q s) hw
  | vperm q => exact wf_of_mem (execVperm_mem q s) hw
  | vrotl q => exact wf_of_mem (execVrotl_mem q s) hw
  | vslide q => exact wf_of_mem (execVslide_mem q s) hw
  | vxlane q => exact wf_of_mem (execVxlane_mem q s) hw
  | vzip q => exact wf_of_mem (execVzip_mem q s) hw
  | vunzip q => exact wf_of_mem (execVunzip_mem q s) hw
  | vred q => exact wf_of_mem (execVred_mem q s) hw
  | vscan q => exact wf_of_mem (execVscan_mem q s) hw
  | vsscan q => exact wf_of_mem (execVsscan_mem q s) hw
  | vcmprs q => exact wf_of_mem (execVcmprs_mem q s) hw
  | vexpnd q => exact wf_of_mem (execVexpnd_mem q s) hw
  | vpopc q => exact wf_of_mem (execVpopc_mem q s) hw
  | vpfx q => exact wf_of_mem (execVpfx_mem q s) hw
  | vinter q => exact wf_of_mem (execVinter_mem q s) hw
  | vrnd q => exact wf_of_mem (execVrnd_mem q s) hw
  | vtrow q => exact wf_of_mem (execVtrow_mem q s) hw
  | vtcol q => exact wf_of_mem (execVtcol_mem q s) hw
  | kand q => exact wf_of_mem (execKand_mem q s) hw
  | kor q => exact wf_of_mem (execKor_mem q s) hw
  | kxor q => exact wf_of_mem (execKxor_mem q s) hw
  | knot q => exact wf_of_mem (execKnot_mem q s) hw
  | kmov q => exact wf_of_mem (execKmov_mem q s) hw
  | resultLanding => exact execResultLanding_wf s hw
  | accumulatorRowLanding => exact execAccumulatorRowLanding_wf s hw
  | planeSwap => exact execPlaneSwap_wf s hw
  | loadReturn => exact execLoadReturn_wf s hw
  | divideComplete => exact wf_of_mem (execDivideComplete_mem s) hw
  | amoReturn a b c sz => exact execAmoReturn_wf a b c sz s hw
  | randomQueueFill => exact execRandomQueueFill_wf s hw
  | postedOperationPerform => exact execPostedOperationPerform_wf s hw
  | pageWalk va => exact wf_of_mem (execPageWalk_mem va s) hw
  | copyRequestStart => exact wf_of_mem (execCopyRequestStart_mem s) hw
  | copyCompletion tag peer => exact execCopyCompletion_wf tag peer s hw
  | promiseMiss tag => exact wf_of_mem (execPromiseMiss_mem tag s) hw
  | scheduleEntryRelease => exact execScheduleEntryRelease_wf s hw
  | v16lTableLoad g => exact execV16lTableLoad_wf g s hw
  | trellisRequestStart => exact execTrellisRequestStart_wf s hw
  | trellisComplete => exact execTrellisComplete_wf s hw
  | topiaryTileConvert die => exact execTopiaryTileConvert_wf die s hw
  | topiaryDrop die => exact execTopiaryDrop_wf die s hw
  | substitutionLookup => exact wf_of_mem (execSubstitutionLookup_mem s) hw
  | nativeReturn => exact execNativeReturn_wf s hw
  | containmentUnwind => exact wf_of_mem (execContainmentUnwind_mem s) hw
  | taskRetirement => exact execTaskRetirement_wf s hw
  | taskSubmit rcd ctx t => exact execTaskSubmit_wf rcd ctx t s hw
  | dependencyDecrement pa die t => exact execDependencyDecrement_wf pa die t s hw
  | launchEntryConsume ctx q => exact execLaunchEntryConsume_wf ctx q s hw
  | readyAgeing die => exact wf_of_mem (execReadyAgeing_mem die s) hw
  | taskPlacement die => exact execTaskPlacement_wf die s hw
  | gangReservation die => exact wf_of_mem (execGangReservation_mem die s) hw
  | phaseCommit ctx => exact execPhaseCommit_wf ctx s hw
  | preEmptRequest core => exact wf_of_mem (execPreEmptRequest_mem core s) hw
  | contextSave => exact execContextSave_wf s hw
  | taskResume die => exact execTaskResume_wf die s hw
  | placketReplay => exact execPlacketReplay_wf s hw
  | tlbiGranule ctx gran => exact wf_of_mem (execTlbiGranule_mem ctx gran s) hw
  | tlbiContext ctx => exact wf_of_mem (execTlbiContext_mem ctx s) hw
  | tlbiAll => exact wf_of_mem (execTlbiAll_mem s) hw
  | tlbiComplete => exact wf_of_mem (execTlbiComplete_mem s) hw
  | contextCreate ctx => exact execContextCreate_wf ctx s hw
  | contextDestroy ctx => exact execContextDestroy_wf ctx s hw
  | contextDestroyComplete => exact execContextDestroyComplete_wf s hw
  | launchDoorbell ctx v => exact wf_of_mem (execLaunchDoorbell_mem ctx v s) hw
  | registerWrite a v => exact execRegisterWrite_wf a v s hw
  | hostMemoryWrite port a bytes bad => exact execHostMemoryWrite_wf port a bytes bad s hw
  | hostMemoryRead port a len rid => exact execHostMemoryRead_wf port a len rid s hw
  | ltAdvance => exact wf_of_mem (execLtAdvance_mem s) hw
  | domainFloorExchange peers => exact wf_of_mem (execDomainFloorExchange_mem peers s) hw
  | domainFloorJoin f => exact wf_of_mem (execDomainFloorJoin_mem f s) hw
  | powerOn => exact execPowerOn_wf s hw
  | configRecordLoad copyA copyB => exact wf_of_mem (execConfigRecordLoad_mem copyA copyB s) hw
  | serviceLevelChange ok => exact wf_of_mem (execServiceLevelChange_mem ok s) hw
  | substTableLoad die image signed => exact wf_of_mem (execSubstTableLoad_mem die image signed s) hw
  | mantleMessage m => exact execMantleMessage_wf m s hw
  | attestationRequest nonce => exact wf_of_mem (execAttestationRequest_mem nonce s) hw
  | lateEdgeReplay second => exact execLateEdgeReplay_wf second s hw
  | eccUncorrectable place => exact wf_of_mem (execEccUncorrectable_mem place s) hw
  | scrub slice => exact wf_of_mem (execScrub_mem slice s) hw
  | dieLoss die => exact execDieLoss_wf die s hw
  | writeIntent m sectors => exact wf_of_mem (execWriteIntent_mem m sectors s) hw
  | sectorCommit m sector w => exact execSectorCommit_wf m sector w s hw
  | intentSettle m => exact wf_of_mem (execIntentSettle_mem m s) hw
  | flitReceive link num crcOk flit => exact execFlitReceive_wf link num crcOk flit s hw
  | flitReplay link num => exact wf_of_mem (execFlitReplay_mem link num s) hw
  | linkRetrain link ok => exact wf_of_mem (execLinkRetrain_mem link ok s) hw
  | laneSpare link lane => exact wf_of_mem (execLaneSpare_mem link lane s) hw
  | moduleLost m => exact wf_of_mem (execModuleLost_mem m s) hw
  | powerCapTick avg order calm => exact wf_of_mem (execPowerCapTick_mem avg order calm s) hw
  | thermalThreshold group deg115 => exact execThermalThreshold_wf group deg115 s hw
  | trayLatchOpen => exact wf_of_mem (execTrayLatchOpen_mem s) hw
  | replayRelease point => exact execReplayRelease_wf point s hw
  | hashIntervalEnd => exact execHashIntervalEnd_wf s hw
  | powerOff => exact execPowerOff_wf s hw
  | surpriseDown port => exact wf_of_mem (execSurpriseDown_mem port s) hw
  | hostLinkTraining port cxl width => exact wf_of_mem (execHostLinkTraining_mem port cxl width s) hw
  | seamLinkUp link peer plink => exact execSeamLinkUp_wf link peer plink s hw
  | mappedPoint => exact execMappedPoint_wf s hw

theorem State.withLine_mem (s : State) :
    ∀ t l, (State.withLine s) = .ok (t, l) → t.mem = s.mem := by
  unfold State.withLine
  dsimp only
  repeat' split
  all_goals simp_all

@[simp] theorem State.bundleAt_mem (s : State) (line : Sp Byte) :
    (State.bundleAt s line).1.mem = s.mem := by
  unfold State.bundleAt
  dsimp only
  repeat' split
  all_goals simp_all

@[simp] theorem State.startBundle_mem (s : State) (b : Bundle) :
    (State.startBundle s b).mem = s.mem := by
  rfl

@[simp] theorem afterExec_wf (i : Instr) (s : State) (hw : Memory.wf s.mem = true) :
    Memory.wf (afterExec i s).mem = true := by
  grind [afterExec, exec_wf]

@[simp] theorem State.fixReads_mem (s : State) (ops : List BundleOp) : (State.fixReads s ops).mem = s.mem := by
  unfold State.fixReads
  split
  · rfl
  · rw [State.correct_mem]

@[simp] theorem State.runOps_wf (s : State) (ops : List BundleOp) (hw : Memory.wf s.mem = true) :
    Memory.wf (State.runOps s ops).mem = true := by
  unfold State.runOps
  extract_lets u go
  have hu : Memory.wf u.mem = true := by rw [State.modBun_mem, State.fixReads_mem]; exact hw
  clear_value u
  have hg : ∀ v c, Memory.wf v.mem = true → Memory.wf (go v c).mem = true := by
    intro v c hv
    show Memory.wf (match c.i with
      | some i => afterExec i v
      | none => v).mem = true
    split
    · exact afterExec_wf _ _ hv
    · exact hv
  exact ite_wf (afterExec_wf _ _ hu) (foldl_wf _ hg _ _ (foldl_wf _ hg _ _ hu))

theorem afterSubst_mem (s : State) : (afterExec .substitutionLookup s).mem = s.mem := by
  unfold afterExec
  split
  · rename_i u hu
    exact execSubstitutionLookup_mem s u hu
  · rfl

@[simp] theorem State.settleLink_mem (s : State) (last : Bool) : (State.settleLink s last).mem = s.mem := by
  unfold State.settleLink
  repeat' split
  all_goals simp

@[simp] theorem State.finish_mem (s : State) (x : Option Xfer) :
    (State.finish s x).mem = s.mem := by
  unfold State.finish
  dsimp only
  repeat' split
  all_goals simp [afterSubst_mem]

@[simp] theorem State.noteSlip_mem (s : State) (ops : List BundleOp) : (State.noteSlip s ops).mem = s.mem := by
  unfold State.noteSlip
  dsimp only
  split <;> simp

@[simp] theorem State.zeroBits_wf (s : State) (ops : List BundleOp) (gs : List Gate) (hw : Memory.wf s.mem = true) :
    Memory.wf (State.zeroBits s ops gs).mem = true := by
  unfold State.zeroBits
  dsimp only
  repeat' split
  · exact hw
  · exact State.zeroAhead_wf _ _ _ _ hw
  · exact hw

/-- The state that a try to issue leaves. -/
def Issued.state : Issued → State
  | .done s | .trapped s | .held s | .later s _ => s

@[simp] theorem State.tryBundle_wf (s : State) (b : Bundle) (hw : Memory.wf s.mem = true) :
    Memory.wf (State.tryBundle s b).state.mem = true := by
  unfold State.tryBundle
  split
  · exact hw
  · dsimp only
    split
    · show Memory.wf (State.noteSlip _ _).mem = true
      rw [State.noteSlip_mem]
      exact State.zeroBits_wf (s.startBundle b) _ _ hw
    · show Memory.wf (State.raise _ _ _).mem = true
      exact (State.raise_mem (s.startBundle b) _ _).symm ▸ hw
    · show Memory.wf (State.finish _ _).mem = true
      rw [State.finish_mem]; exact State.runOps_wf _ _ hw

@[simp] theorem State.tryIssue_wf (s : State) (hw : Memory.wf s.mem = true) :
    Memory.wf (State.tryIssue s).state.mem = true := by
  unfold State.tryIssue
  split
  · show Memory.wf (State.deliver _ _ _).mem = true
    rw [State.deliver_mem, State.noteTrap_mem]; exact hw
  · rename_i u line h
    have h1 := State.bundleAt_mem u line
    rw [State.withLine_mem s u line h] at h1
    split <;> rename_i v x hx <;> rw [hx] at h1
    · show Memory.wf (State.deliver _ _ _).mem = true
      rw [State.deliver_mem, h1]; exact hw
    · exact State.tryBundle_wf _ _ (by rw [h1]; exact hw)

theorem State.preTrap_mem (s : State) :
    ∀ t, (State.preTrap s) = some t → t.mem = s.mem := by
  unfold State.preTrap
  dsimp only
  repeat' split
  all_goals simp_all

@[simp] theorem State.performDue_wf (s : State) (hw : Memory.wf s.mem = true) :
    Memory.wf (State.performDue s).mem = true := by
  unfold State.performDue
  repeat' split
  all_goals simp_all

@[simp] theorem State.endCopies_wf (s : State) (hw : Memory.wf s.mem = true) :
    Memory.wf (State.endCopies s).mem = true := by
  refine foldl_wf _ (fun u tag hu => ?_) _ _ hw
  split
  · exact ite_wf (State.completeCopy_wf _ _ _ hu) hu
  · exact hu

@[simp] theorem State.endTenc_wf (s : State) (hw : Memory.wf s.mem = true) :
    Memory.wf (State.endTenc s).mem = true := by
  unfold State.endTenc
  repeat' split
  all_goals simp_all

@[simp] theorem State.engines_wf (s : State) (hw : Memory.wf s.mem = true) :
    Memory.wf (State.engines s).mem = true := by
  unfold State.engines
  extract_lets s1 s2 s3
  have h1 : Memory.wf s1.mem = true := State.startTen_wf _ (State.endTenc_wf _ (State.payOwed_wf _
    (by rw [State.startCopy_mem]; exact State.performDue_wf _ hw)))
  have h2 : Memory.wf s2.mem = true := foldl_wf _ (fun u c hu => State.loadV16_wf _ _ hu) _ _ h1
  have h3 : Memory.wf s3.mem = true := State.endInterval_wf _ h2
  clear_value s3
  exact ite_wf (by rw [State.finishDivide_mem]; exact h3) h3

@[simp] theorem State.saveIf_wf (s : State) (hw : Memory.wf s.mem = true) :
    Memory.wf (State.saveIf s).mem = true := by
  unfold State.saveIf
  repeat' split
  all_goals simp_all

@[simp] theorem State.unwindIf_mem (s : State) :
    (State.unwindIf s).mem = s.mem := by
  unfold State.unwindIf
  repeat' split
  all_goals simp_all

@[simp] theorem State.stoppedTurn_wf (s : State) (hw : Memory.wf s.mem = true) :
    Memory.wf (State.stoppedTurn s).mem = true := by
  unfold State.stoppedTurn
  repeat' split
  all_goals simp_all

@[simp] theorem State.runReps_wf (s : State) (hw : Memory.wf s.mem = true) :
    Memory.wf (State.runReps s).mem = true := by
  unfold State.runReps
  apply foldl_keeps (fun (u : State) => Memory.wf u.mem = true) <;> simp_all

@[simp] theorem State.skim_wf (s : State) (hw : Memory.wf s.mem = true) :
    Memory.wf (State.skim s).mem = true := by
  unfold State.skim
  extract_lets e near s1 s2 s3
  have h2 : Memory.wf s2.mem = true := State.rqFill_wf _ (by rw [State.replayPlacket_mem]; exact hw)
  have h3 : Memory.wf s3.mem = true := State.land_wf _ (by rw [State.noteWriters_mem]; exact h2)
  clear_value s3
  exact State.runReps_wf _ (ite_wf (by rw [State.finishDivide_mem]; exact h3) h3)

@[simp] theorem State.oldestWork_wf (s : State) (hw : Memory.wf s.mem = true) :
    Memory.wf (State.oldestWork s).mem = true := by
  unfold State.oldestWork
  dsimp only
  repeat' split
  all_goals first | exact hw | exact State.performHead_wf _ hw | exact State.completeCopy_wf _ _ _ hw

@[simp] theorem State.nativeUnits_wf (s : State) (hw : Memory.wf s.mem = true) :
    Memory.wf (State.nativeUnits s).mem = true := by
  unfold State.nativeUnits
  extract_lets s1
  have h1 : Memory.wf s1.mem = true := State.startTen_wf _ (State.endTenc_wf _ (State.payOwed_wf _
    (by rw [State.startCopy_mem]; exact hw)))
  exact State.releaseAll_wf _ _ (State.oldestWork_wf _ (foldl_wf _ (fun u c hu => State.loadV16_wf _ _ hu) _ _ h1))

@[simp] theorem State.driveUnits_wf (s : State) (n : Nat) (hw : Memory.wf s.mem = true) :
    Memory.wf (State.driveUnits s n).mem = true :=
  foldl_wf _ (fun u _ hu => State.nativeUnits_wf u hu) _ _ hw

theorem State.atNext_wf (s : State) (n : Native) (hw : Memory.wf s.mem = true) :
    ∀ t, State.atNext s n = .reached t → Memory.wf t.mem = true := by
  intro t ht
  unfold State.atNext at ht
  extract_lets v u at ht
  have hu : Memory.wf u.mem = true := by rw [State.setNative_mem]; exact State.driveUnits_wf _ _ hw
  repeat' split at ht
  · cases ht
  all_goals
    obtain rfl := Segment.reached.inj ht
    exact afterExec_wf _ _ hu

@[simp] theorem State.tryNative_wf (s : State) (n : Native) (hw : Memory.wf s.mem = true) :
    Memory.wf (State.tryNative s n).state.mem = true := by
  unfold State.tryNative
  dsimp only
  split
  · split
    · exact hw
    · have h : ∀ l c, Memory.wf (State.tryBundle (s.modT fun t => { t with hcwBad := s.listingBad l c }) c).state.mem = true :=
        fun l c => State.tryBundle_wf _ _ hw
      rename_i c _
      generalize hq : State.tryBundle _ c = q
      have h : Memory.wf q.state.mem = true := hq ▸ h _ c
      clear hq
      cases q <;> exact h
  · exact hw

theorem State.runSegment_wf (k : Nat) : ∀ (d : Nat) (s : State), Memory.wf s.mem = true →
    ∀ t, State.runSegment k d s = .reached t → Memory.wf t.mem = true := by
  induction k with
  | zero => intro d s hw t ht; cases ht
  | succ k ih =>
    intro d s hw t ht
    unfold State.runSegment at ht
    split at ht
    · cases ht
    · rename_i n hn
      split at ht
      · exact ih _ _ (State.skim_wf _ hw) t ht
      · have h := State.tryNative_wf s n hw
        split at ht
        · rename_i u _ hu
          rw [hu] at h
          extract_lets v m at ht
          have hv : Memory.wf v.mem = true := by rw [State.dropWriters_mem]; exact h
          split at ht
          · exact State.atNext_wf _ _ hv t ht
          · exact ih _ _ hv t ht
        · exact ih _ _ (State.driveUnits_wf _ _ (State.skim_wf _ hw)) t ht
        · cases ht
        · cases ht

theorem State.segment_wf (s : State) (n : Native) (hw : Memory.wf s.mem = true) :
    ∀ t, State.segment s n = .reached t → Memory.wf t.mem = true := by
  intro t ht
  unfold State.segment at ht
  split at ht
  · rename_i u hu
    split at ht
    · cases ht
    · obtain rfl := Segment.reached.inj ht
      exact State.runSegment_wf _ _ _ (by rw [State.ownResults_mem]; exact hw) _ hu
  · rename_i r hr
    exact absurd ht (hr t)

@[simp] theorem State.nativeGo_wf (s : State) (n : Native) (hw : Memory.wf s.mem = true) :
    Memory.wf (State.nativeGo s n).mem = true := by
  unfold State.nativeGo
  split
  · rename_i u hu
    have h := State.segment_wf s n hw u hu
    repeat' split
    all_goals exact h
  · rw [State.dropNative_mem]; exact hw
  · split
    · rw [State.dropNative_mem]; exact hw
    · exact hw
  · rw [State.setNative_mem]; exact hw

@[simp] theorem State.nativeTurn_wf (s : State) (n : Native) (hw : Memory.wf s.mem = true) :
    Memory.wf (State.nativeTurn s n).mem = true := by
  unfold State.nativeTurn
  repeat' split
  · rename_i hu
    rw [State.preTrap_mem _ _ hu]; exact hw
  · rw [State.stopNative_mem]; exact hw
  · rename_i u x hu
    have h := State.free_mem s
    rw [hu] at h
    rw [State.setNative_mem, h]; exact hw
  · exact hw
  · exact State.nativeGo_wf _ _ hw
  · exact hw
  · exact State.nativeGo_wf _ _ hw
  · exact hw

@[simp] theorem State.takeTurn_wf (s : State) (auto : Bool) (hw : Memory.wf s.mem = true) :
    Memory.wf (State.takeTurn s auto).1.mem = true := by
  unfold State.takeTurn
  extract_lets u
  have hu : Memory.wf u.mem = true := ite_wf hw (State.readRows_wf _ hw)
  clear_value u
  have h := State.tryIssue_wf u hu
  split
  · exact hu
  · split
    · dsimp only
      split
      · exact State.stoppedTurn_wf _ hu
      · exact hu
    · split
      · exact State.nativeTurn_wf _ _ hu
      · split
        · exact hu
        · split
          · rename_i hv
            show Memory.wf _ = true
            rw [State.preTrap_mem _ _ hv]; exact hu
          · split <;> rename_i hv <;> rw [hv] at h <;> exact h

@[simp] theorem State.rqFillAlone_wf (s : State) (hw : Memory.wf s.mem = true) : Memory.wf (State.rqFillAlone s).mem = true := by
  have h := State.rqFill_wf s hw
  unfold State.rqFillAlone
  dsimp only
  rw [State.modQ_mem]
  exact foldl_wf _ (fun u f hu => by rw [State.orFlags_mem]; exact hu) _ _ h

@[simp] theorem State.pipeHeld_wf (s : State) (hw : Memory.wf s.mem = true) : Memory.wf (State.pipeHeld s).mem = true :=
  State.rqFillAlone_wf _ hw

@[simp] theorem State.coreCycle_wf (s : State) (hw : Memory.wf s.mem = true) :
    Memory.wf (State.coreCycle s).mem = true := by
  unfold State.coreCycle
  dsimp only
  repeat' split
  · rw [State.noteMiss_mem, State.overdueDivides_mem]
    exact State.rqFill_wf _ (State.landLatch_wf _ hw)
  · refine State.releaseAll_wf _ _ ?_
    rw [State.noteMiss_mem, State.overdueDivides_mem]
    exact State.rqFillAlone_wf _ hw
  · refine State.releaseAll_wf _ _ ?_
    rw [State.noteMiss_mem, State.overdueDivides_mem]
    exact State.pipeHeld_wf _ hw
  · refine State.releaseAll_wf _ _ ?_
    rw [State.noteMiss_mem]
    refine State.runReps_wf _ ?_
    rw [State.overdueDivides_mem]
    exact State.land_wf _ (State.rqFill_wf _ hw)

@[simp] theorem State.placeNext_wf (s : State) (die : Nat) (hw : Memory.wf s.mem = true) :
    Memory.wf (State.placeNext s die).mem = true := by
  have h : Memory.wf (s.reserve die).mem = true := by rw [State.reserve_mem]; exact hw
  unfold State.placeNext
  dsimp only
  repeat' split
  · exact State.loseRecord_wf _ _ _ h
  · exact State.resume_wf _ _ _ h
  · exact State.placeFresh_wf _ _ _ h
  · exact h

@[simp] theorem State.imageSteps_wf (s : State) (hw : Memory.wf s.mem = true) : Memory.wf (State.imageSteps s).mem = true :=
  foldl_wf _ (fun _ _ hu => State.imageStep_wf _ _ hu) _ _ hw

@[simp] theorem State.askToken_mem (s : State) (die : Nat) : (State.askToken s die).mem = s.mem := rfl

@[simp] theorem State.spillOne_wf (s : State) (e : RqEntry) (hw : Memory.wf s.mem = true) :
    Memory.wf (State.spillOne s e).mem = true := by
  unfold State.spillOne
  dsimp only
  repeat' split
  all_goals first | exact hw | exact State.wr64_wf _ _ _ hw | exact State.hwWr_wf _ _ _ hw | exact State.wrWords_wf _ _ _ hw

@[simp] theorem State.settleQueue_wf (s : State) (d p : Nat) (hw : Memory.wf s.mem = true) :
    Memory.wf (State.settleQueue s d p).mem = true := by
  unfold State.settleQueue
  exact ite_wf hw (foldl_wf _ (fun _ _ hu => State.spillOne_wf _ _ hu) _ _ hw)

@[simp] theorem State.settleQueues_wf (s : State) (hw : Memory.wf s.mem = true) : Memory.wf (State.settleQueues s).mem = true :=
  ite_wf hw (foldl_wf _ (fun _ _ hu => foldl_wf _ (fun _ _ hv => State.settleQueue_wf _ _ _ hv) _ _ hu) _ _ hw)

@[simp] theorem State.units_wf (s : State) (hw : Memory.wf s.mem = true) :
    Memory.wf (State.units s).mem = true := by
  unfold State.units
  extract_lets s0 s1 s2 s3 s4 s5
  have h0 : Memory.wf s0.mem = true := State.imageSteps_wf _ hw
  have h1 : Memory.wf s1.mem = true := foldl_wf _ (fun u c hu => State.launch_wf _ _ _ hu) _ _ h0
  have h2 : Memory.wf s2.mem = true := foldl_wf _ (fun u c hu => State.commit_wf _ _ hu) _ _ h1
  have h3 : Memory.wf s3.mem = true :=
    ite_wf (foldl_wf _ (fun u c hu => State.topDrop_wf _ _ (State.topTile_wf _ _ hu)) _ _ h2) h2
  have h4 : Memory.wf s4.mem = true := by
    show Memory.wf (s3.destroyDone.tlbiDone.dropDone).mem = true
    rw [State.dropDone_mem, State.tlbiDone_mem]
    exact State.destroyDone_wf _ h3
  have h5 : Memory.wf s5.mem = true := State.settleQueues_wf _ h4
  exact ite_wf h5 (foldl_wf _ (fun u c hu => State.placeNext_wf _ _ hu) _ _
    (foldl_wf _ (fun u c hu => by rw [State.askToken_mem]; exact hu) _ _ h5))

@[simp] theorem State.ownFloor_mem (s : State) : (State.ownFloor s).mem = s.mem := by
  unfold State.ownFloor
  split
  · unfold State.exchangeFloor
    rfl
  · rfl

@[simp] theorem State.scrubIdle_mem (s : State) : (State.scrubIdle s).mem = s.mem := by
  rw [State.scrubIdle, State.correct_mem]

@[simp] theorem State.countUnplaceable_mem (s : State) : (State.countUnplaceable s).mem = s.mem := rfl

@[simp] theorem State.outAcc_wf (s : State) (x : OutAcc) (hw : Memory.wf s.mem = true) :
    Memory.wf (State.outAcc s x).mem = true := by
  unfold State.outAcc
  extract_lets r
  have h : ∀ t, r = .next t → Memory.wf t.mem = true := by
    cases x with
    | register a v => exact execRegisterWrite_wf a v s hw
    | write port a bytes bad => exact execHostMemoryWrite_wf port a bytes bad s hw
    | read port a len rid => exact execHostMemoryRead_wf port a len rid s hw
    | mantle m => exact execMantleMessage_wf m s hw
    | flit link num flit => exact execFlitReceive_wf link num true flit s hw
    | sector m sector w => exact execSectorCommit_wf m sector w s hw
  clear_value r
  split
  · exact h _ rfl
  · exact hw

@[simp] theorem State.retryOut_wf (s : State) (hw : Memory.wf s.mem = true) :
    Memory.wf (State.retryOut s).mem = true :=
  ite_wf hw (foldl_wf _ (fun u x hu => State.outAcc_wf u x hu) _ _ hw)

@[simp] theorem State.tick_wf (s : State) (auto : Bool) (hw : Memory.wf s.mem = true) :
    Memory.wf (State.tick s auto).mem = true := by
  unfold State.tick
  extract_lets s0 s1 s2 s3 s4 s5 ids sn s6 s7 s8
  have h0 : Memory.wf s0.mem = true := foldl_wf _ (fun u c hu => by rw [State.startFreeze_mem]; exact hu) _ _ hw
  have h1 : Memory.wf s1.mem = true := ite_wf
    (foldl_wf _ (fun u c hu => State.onCore_wf _ _ _ (fun v hv => State.engines_wf v hv) hu) _ _ h0) h0
  have h2 : Memory.wf s2.mem = true := State.retryOut_wf _ (State.lateWrites_wf _ h1)
  have h3 : Memory.wf s3.mem = true := ite_wf (by rw [State.ltUp_mem]; exact h2) h2
  have h4 : Memory.wf s4.mem = true := by
    show Memory.wf (s3.ownFloor.scrubIdle.countUnplaceable).mem = true
    rw [State.countUnplaceable_mem, State.scrubIdle_mem, State.ownFloor_mem]; exact h3
  have h5 : Memory.wf s5.mem = true := foldl_wf _ (fun u c hu => by rw [State.ageDie_mem]; exact hu) _ _ h4
  have hn : Memory.wf sn.mem = true := h5
  have h6 : Memory.wf s6.mem = true := ite_wf
    (foldl_wf _ (fun u c hu => State.onCore_wf _ _ _ (fun v hv => State.endCopies_wf v hv) hu) _ _ hn) hn
  have h7 : Memory.wf s7.mem = true :=
    foldl_wf _ (fun u c hu => State.onCore_wf _ _ _ (fun v hv => State.coreCycle_wf v hv) hu) _ _ h6
  have h8 : Memory.wf s8.mem = true := ite_wf (State.units_wf _ h7) h7
  exact foldl_wf _ (fun u c hu => by rw [State.settleTable_mem]; exact hu) _ _ h8

@[simp] theorem State.pass_wf (s : State) (auto : Bool) (hw : Memory.wf s.mem = true) :
    Memory.wf (State.pass s auto).mem = true := by
  unfold State.pass
  dsimp only
  repeat' split
  all_goals simp_all

@[simp] theorem State.acted_mem (s : State) :
    (State.acted s).mem = s.mem := by
  rfl

@[simp] theorem State.turn_wf (s : State) (auto : Bool) (hw : Memory.wf s.mem = true) :
    Memory.wf (State.turn s auto).mem = true := by
  grind [State.turn, State.pass_wf, State.takeTurn_wf, State.acted_mem]

@[simp] theorem State.event_wf (s : State) (i : Instr) (hw : Memory.wf s.mem = true) :
    Memory.wf (State.event s i).mem = true := by
  unfold State.event
  repeat' split
  all_goals simp_all

@[simp] theorem State.arise_mem (s : State) (id : Nat) (p : EccPlace) : (State.arise s id p).mem = s.mem := rfl

@[simp] theorem State.unitLoad_wf (s : State) (dst : LoadDst) (addr : W64) (len : Nat) (keep : Bool) (elems : List LdElem)
    (spec : Bool) (k : Nat) (hw : Memory.wf s.mem = true) :
    Memory.wf (State.unitLoad s dst addr len keep elems spec k).mem = true := by
  unfold State.unitLoad
  dsimp only
  repeat' split
  all_goals first | exact hw | rw [State.setHead_mem]
  all_goals
    refine foldl_pair_wf _ (fun u d l hu => ?_) _ _ (by rw [State.sendFar_mem]; exact hw)
    dsimp only
    split
    · have hb := State.askBits_wf u [l] hu
      generalize u.askBits [l] = q at hb ⊢
      obtain ⟨v, es, ok⟩ := q
      refine foldl_pair_wf _ (fun w d l hw => ?_) _ _ hb
      dsimp only
      rw [State.readElem_mem]; exact hw
    · exact hu

@[simp] theorem State.unitStore_wf (s : State) (e : CqEntry) (xs : List StElem) (scalar : Bool) (k : Nat)
    (hw : Memory.wf s.mem = true) : Memory.wf (State.unitStore s e xs scalar k).mem = true := by
  unfold State.unitStore
  dsimp only
  repeat' split
  all_goals first | exact hw | skip
  all_goals
    rw [State.setHead_mem]
    exact foldl_wf _ (fun u x hu => State.storeElem_wf _ _ _ _ hu) _ _ (by rw [State.sendFar_mem]; exact hw)

@[simp] theorem State.unitHstore_wf (s : State) (e : CqEntry) (img : Nat) (ws : List W64) (xs : List (List Nat × List Byte)) (k : Nat)
    (hw : Memory.wf s.mem = true) : Memory.wf (State.unitHstore s e img ws xs k).mem = true := by
  unfold State.unitHstore
  dsimp only
  repeat' split
  all_goals first | exact hw | skip
  all_goals
    rw [State.setHead_mem]
    exact State.hstoreSome_wf _ _ _ _ _ hw

@[simp] theorem State.vecUnit_wf (s : State) (k : Nat) (hw : Memory.wf s.mem = true) :
    Memory.wf (State.vecUnit s k).mem = true := by
  unfold State.vecUnit
  repeat' split
  all_goals first
    | exact hw | exact State.unitLoad_wf _ _ _ _ _ _ _ _ hw | exact State.unitStore_wf _ _ _ _ _ hw
    | exact State.unitHstore_wf _ _ _ _ _ _ hw

@[simp] theorem State.act_wf (s : State) (a : Act) (hw : Memory.wf s.mem = true) :
    Memory.wf (State.act s a).mem = true := by
  unfold State.act
  split
  · exact ite_wf (State.turn_wf _ _ hw) hw
  · exact State.event_wf _ _ hw
  · exact State.onCore_wf _ _ _ (fun v hv => State.event_wf _ _ hv) hw
  · rw [State.evictLine_mem]; exact hw
  · exact State.onCore_wf _ _ _ (fun v hv => hv) hw
  · exact State.onCore_wf _ _ _ (fun v hv => hv) hw
  · exact State.onCore_wf _ _ _ (fun v hv => hv) hw
  · rw [State.arise_mem]; exact hw
  · rw [State.correct_mem]; exact hw
  · exact hw
  · rw [State.seamSend_mem]; exact hw
  · exact State.onCore_wf _ _ _ (fun v hv => State.vecUnit_wf _ _ hv) hw
  · exact State.onCore_wf _ _ _ (fun v hv => State.copyUnit_wf _ _ _ hv) hw
  · exact State.onCore_wf _ _ _ (fun v hv => State.copyPiece_wf _ _ _ hv) hw
  · exact State.tileUnit_wf _ _ _ hw

@[simp] theorem State.soloBundle_mem (s : State) (nbits : Nat) (w : Nat) :
    (State.soloBundle s nbits w).mem = s.mem := by
  rfl

@[simp] theorem State.withFetchWord_mem (s : State) (nbits : Nat) (w : Nat) :
    (State.withFetchWord s nbits w).mem = s.mem := by
  rfl

end Sys2Proof.Machine
end

