-- ==== Sys2Proof/Tests/Slice0.lean ====
section
/-!
SUPPORT. Tests: words written out from the spec's encodings, ill-formed terms that the checks refuse, single steps of the spec's
worked examples, and states that meet the hypotheses of the statements.
-/
namespace Sys2Proof.Tests
open Sys2Proof Sys2Proof.Machine

/-! ## Words of the spec's encodings -/

def unused : Src := { kind := 0, num := 0, pol := 0, neg := 0, abs := 0 }
def src (kind : BitVec 2) (num : BitVec 6) (pol : BitVec 1) : Src := { unused with kind, num, pol }

/-- A control word with nothing set but its type, destination and sources. -/
def word (ty : BitVec 5) (dk : BitVec 2) (dn : BitVec 6) (a b c : Src) : Hcw :=
  { ty, width := 0, base := 0, rm := 0, sat := 0, mask := 0, z := 0, dk, dn, a, b, c, ty2 := 0, rep := 0, stride := 0, aux := 0 }

/-- Index 9, bank 4, no override. -/
def at_ (slot : Slot) (h : Hcw) : SlotOp := { slot, idx := 9, bank := 4, ovr := 0, h }

/-! ## Worked words of the spec, and ill-formed terms -/

/-- Words that chapters 02, 08, 09, 10 and 21 work out (R28, R33-R35, R149, R168, R171, R175, R183, R187, R213, R217, R316). -/
theorem test_worked_c : ([
    (0x48AFFFA, .br 2 10 0xFFFA), (0x1C03FFF8, .loop 3 0xFFF8), (0x14000040, .callr 0x40), (0x40804800, .vld 8 1 1 0 0),
    (0x40005002, .vld 0 1 2 0 2), (0x24604501, .ldx 6 1 5 1 0), (0x64061980, .redAdd 24 25 1), (0x8070CA02, .copy 7 3 10 2),
    (0x98524000, .expect 5 9 0 0), (0xB8304002, .fencep 3 2 1), (0xE4010540, .rlay 4 5 2), (0xE0010600, .hset 4 6),
    (0xE8910622, .tenc 9 4 6 1 0 1)] : List (W32 × Instr)).all (fun p => decodeC p.1 == some p.2) = true := by decide

theorem test_worked_c2 : ([
    (0xF8700000, .hsnap 7), (0xD4014002, .trap 5 { l := 0, imm := 2 }), (0xF4100000, .mts 1 0), (0xC4000000, .endTask),
    (0xA4500000, .leave 5), (0xA8500000, .gbar 5), (0xAC400005, .ysend 4 5), (0xB0068005, .yrecv 26 5),
    (0x90045200, .bset 0 17 18)] : List (W32 × Instr)).all (fun p => decodeC p.1 == some p.2) = true := by decide

theorem test_worked_mw : ([
    (0x1040, .mzero 0 1 0), (0x2000, .mpush 0), (0x3000, .mflip), (0x4200, .mstrm 1 0 0), (0x6200, .mret 1),
    (0x5008, .mdrain 0 0 0 0 2 0)] : List (BitVec 16 × Instr)).all (fun p => decodeM p.1 == some p.2) = true ∧
    decodeW 0x3007 = some (.waitCyc 7) ∧ decodeW 0x6000 = some (.waitBar 0 0) ∧ decodeW 0xB005 = some (.waitYslot 5) := by decide

/-- `madd.i32.sat` of R62's example, and `vadd.f32.w512` under a slot at bank 2 with mask k5. -/
theorem test_worked_hcw :
    (match decodeH .s 0x0080 (0x26200802#256 <<< 224 ||| 0x83007010#256 <<< 192) with
      | some (.madd q) => q.h.sat == 1 && q.h.ty == 4
      | _ => false) = true ∧
    (match decodeH .v0 0x0495 (0x40430224#256 <<< 224 ||| 0x00004000#256 <<< 192) with
      | some (.vadd q) => q.h.ty == 8 && q.group == 2 && q.maskReg == 5 && q.dst 0 == 16
      | _ => false) = true := by decide

/-- Fields beyond an entry's limits (R167-R203, R205-R218): each term fails one check. -/
theorem test_ill_c : ([
    .br 8 0 0, .br 0 1 0, .loop 0 0, .jmpr 1 { l := 1, imm := 4 }, .ld 1 2 { l := 1, imm := 4 }, .pref 2 1 { l := 0, imm := 0 },
    .pref 0 1 { l := 1, imm := 4 }, .ldx 1 2 3 7 0, .stx 1 2 3 1 0, .vld 0 1 3 0 0, .vld 1 1 1 0 0, .vst 2 1 2 0 0,
    .vlds 0 1 0 1 0, .vlds 0 1 3 0 0, .vlds 1 1 1 0 0, .vldh 0 1 2 3, .vldh 1 1 2 1, .vsth 0 1 3 0] : List Instr).all
    (fun i => !i.wf) = true := by decide

theorem test_ill_c2 : ([
    .vgath 0 1 0 0 3 0 2, .vgath 1 1 0 0 1 0 2, .vgath 0 1 0 0 2 0 0, .vscat 0 1 1 0 1 0 2, .vchkp 1 0 3, .vchkp 1 1 1,
    .amoCas 1 2 3 0, .amoFaddb 1 2 4 1, .amoFaddb 1 2 3 0, .redFaddb 2 4 1, .amoFadd 1 2 4 1, .redFadd 2 4 1, .copy 1 0 3 0,
    .copyo 1 0 3 0, .copyx 1 0 0, .copyx 1 2 0, .ysend 2 0, .fence 6 0] : List Instr).all (fun i => !i.wf) = true := by decide

theorem test_ill_c3 : ([
    .fencep 6 1 1, .fencep 0 0 1, .fencep 0 1 0, .ctopen 3 0, .tenc 1 3 4 0 0 0, .tenc 1 2 4 3 0 0, .mfs 1 14, .mts 1 14,
    .mdrain 0 0 3 0 0 0, .mdrain 0 0 1 0 0 2, .mpad 65, .waitReg 3 0, .waitReg 2 8] : List Instr).all
    (fun i => !i.wf) = true := by decide

def op (h : Hcw) : SlotOp := { slot := .s, idx := 1, bank := 0, ovr := 0, h }
def vop (h : Hcw) : SlotOp := { slot := .v0, idx := 1, bank := 0, ovr := 0, h }
def sreg (n : BitVec 6) : Src := src 0 n 0
def lit (n : BitVec 6) : Src := src 1 n 0

/-- A scalar word s3 := op s1, s2. -/
def s3 (ty : BitVec 5) : Hcw := word ty 0 3 (sreg 1) (sreg 2) unused
/-- A vector word v8 := op v0, v4. -/
def v8 (ty : BitVec 5) : Hcw := word ty 1 8 (sreg 0) (sreg 4) unused

theorem test_well_formed_words : (Instr.add (op (s3 4))).wf = true ∧ (Instr.vadd (vop (v8 8))).wf = true := by decide

/-- The checks of R60 to R76 on a control word: each term fails one. -/
theorem test_ill_hcw : ([
    .add (vop (s3 4)), .vadd (op (v8 8)), .add (op (s3 8)), .add (op { s3 4 with ty2 := 1 }), .vadd (vop { v8 8 with width := 3 }),
    .vadd (vop { v8 8 with rm := 5 }), .add (op { s3 4 with width := 1 }), .add (op { s3 4 with base := 1 }),
    .add (op { s3 4 with mask := 1 }), .add (op { s3 4 with z := 1 }), .add { op (s3 4) with ovr := 1 },
    .vadd (vop { v8 8 with width := 1, base := 1 }), .vadd (vop { v8 8 with sat := 1 }), .and (op { s3 4 with sat := 1 }),
    .vadd (vop { v8 4 with rm := 1 }), .add (op { s3 4 with dk := 1 }), .vadd (vop { v8 8 with dk := 2, dn := 1 }),
    .add (op { s3 4 with aux := 1 })] : List Instr).all (fun i => !i.wf) = true := by decide

theorem test_ill_hcw2 : ([
    .add (op { s3 4 with c := sreg 1 }), .add (op { s3 4 with b := lit 4 }), .add (op { s3 4 with b := src 2 1 0 }),
    .add (op { s3 4 with b := src 3 9 0 }), .add (op { s3 5 with a := { sreg 1 with neg := 1 } }),
    .and (op { s3 4 with a := { sreg 1 with abs := 1 } }), .add (op { s3 4 with a := src 2 0 0, b := src 2 0 0 }),
    .vadd (vop { v8 8 with width := 1, dn := 9 }), .vadd (vop { v8 8 with width := 1, a := sreg 1 }),
    .vcmp (vop { v8 8 with dk := 2, dn := 8 }), .vadd (vop { v8 8 with width := 1, a := sreg 8, dn := 8, rep := 1, stride := 0, b := src 0 3 0 }),
    .vred (vop { v8 8 with b := unused, dk := 1, dn := 1, width := 1 }), .bext (op { s3 7 with b := unused, aux := 0xFFF }),
    .fcmp (op { s3 8 with aux := 8 }), .vcmp (vop { v8 4 with dk := 2, dn := 1, aux := 6 }), .movl (op { s3 7 with a := sreg 1 }),
    .fadd (op { s3 8 with a := src 3 3 0 }), .vrotl (vop { v8 4 with b := src 2 0 0 })] : List Instr).all
    (fun i => !i.wf) = true := by decide

/-- Unassigned encodings (R38) decode to nothing: the all-zero word, free majors, beats and kinds, and set unused bits. -/
theorem test_unassigned : decodeC 0 = none ∧ decodeC 0x70000000 = none ∧ decodeC 0xDC000000 = none ∧ decodeC 0xFC000000 = none ∧
    decodeC 0xD8000001 = none ∧ decodeC 0x20502004 = none ∧ decodeM 0 = none ∧ decodeM 0xA000 = none ∧ decodeM 0x3001 = none ∧
    decodeW 0 = none ∧ decodeW 0xC000 = none ∧ decodeW 0x50C0 = none ∧ decodeW 0x1040 = none ∧ decodeH .s 0 0 = none ∧
    decodeH .s 0 (0x33#256 <<< 248) = none := by decide

/-- C words written out from the formats of R32 and the tables of R167 and R187. -/
theorem test_decode_c1 : ([
    (0x554FFF9, .br 5 0x14 0xfff9),
    (0x800FFF9, .jmp 0xfff9),
    (0xC0344D2, .jmpr 0xd { l := 0, imm := 1234 }),
    (0x1000FFF9, .call 0xfff9),
    (0x1400FFF9, .callr 0xfff9),
    (0x18034000, .ret 0xd),
    (0x1C14FFF9, .loop 0x14 0xfff9),
    (0x214344D2, .ld 0x14 0xd { l := 0, imm := 1234 }),
    (0x25434614, .ldx 0x14 0xd 6 4 2),
    (0x294344D2, .lds 0x14 0xd { l := 0, imm := 1234 }),
    (0x2D434000, .chkp 0x14 0xd),
    (0x314344D2, .st 0x14 0xd { l := 0, imm := 1234 })] : List (W32 × Instr)).all (fun p => decodeC p.1 == some p.2) = true := by decide

/-- C words written out from the formats of R32 and the tables of R167 and R187. -/
theorem test_decode_c2 : ([
    (0x35434614, .stx 0x14 0xd 6 4 2),
    (0x381344D2, .pref 1 0xd { l := 0, imm := 1234 }),
    (0x3C00FFF9, .ipref 0xfff9),
    (0x41434EF1, .vld 0x14 0xd 1 1 0x2f1),
    (0x45434EF1, .vst 0x14 0xd 1 1 0x2f1),
    (0x49434640, .vldh 0x14 0xd 6 1),
    (0x4D434640, .vsth 0x14 0xd 6 1),
    (0x514346AE, .vgath 0x14 0xd 6 5 1 1 2),
    (0x554346AE, .vscat 0x14 0xd 6 5 1 1 2),
    (0x59434AF1, .vlds 0x14 0xd 1 0 0x2f1),
    (0x5D438001, .vchkp 0x14 0xe 1),
    (0x61434680, .amoAdd 0x14 0xd 6 1)] : List (W32 × Instr)).all (fun p => decodeC p.1 == some p.2) = true := by decide

/-- C words written out from the formats of R32 and the tables of R167 and R187. -/
theorem test_decode_c3 : ([
    (0x61434681, .amoAnd 0x14 0xd 6 1),
    (0x61434682, .amoOr 0x14 0xd 6 1),
    (0x61434683, .amoXor 0x14 0xd 6 1),
    (0x61434684, .amoMin 0x14 0xd 6 1),
    (0x61434685, .amoMax 0x14 0xd 6 1),
    (0x61434686, .amoMinn 0x14 0xd 6 1),
    (0x61434687, .amoMaxn 0x14 0xd 6 1),
    (0x61434688, .amoSwap 0x14 0xd 6 1),
    (0x61434689, .amoCas 0x14 0xd 6 1),
    (0x6143468A, .amoIncw 0x14 0xd 6 1),
    (0x6143460B, .amoFaddb 0x14 0xd 6 0),
    (0x6143460C, .amoFadd 0x14 0xd 6 0)] : List (W32 × Instr)).all (fun p => decodeC p.1 == some p.2) = true := by decide

/-- C words written out from the formats of R32 and the tables of R167 and R187. -/
theorem test_decode_c4 : ([
    (0x64034680, .redAdd 0xd 6 1),
    (0x64034681, .redAnd 0xd 6 1),
    (0x64034682, .redOr 0xd 6 1),
    (0x64034683, .redXor 0xd 6 1),
    (0x64034684, .redMin 0xd 6 1),
    (0x64034685, .redMax 0xd 6 1),
    (0x64034686, .redMinn 0xd 6 1),
    (0x64034687, .redMaxn 0xd 6 1),
    (0x6403468A, .redIncw 0xd 6 1),
    (0x6403460B, .redFaddb 0xd 6 0),
    (0x6403460C, .redFadd 0xd 6 0),
    (0x68034680, .amov 0xd 6 1)] : List (W32 × Instr)).all (fun p => decodeC p.1 == some p.2) = true := by decide

/-- C words written out from the formats of R32 and the tables of R167 and R187. -/
theorem test_decode_c5 : ([
    (0x6C0344D2, .depdec 0xd { l := 0, imm := 1234 }),
    (0x814346C3, .copy 0x14 0xd 6 0xc3),
    (0x85430600, .copyx 0x14 0xc 6),
    (0x894346C3, .copyo 0x14 0xd 6 0xc3),
    (0x8D400000, .brel 0x14),
    (0x91434600, .bset 0x14 0xd 6),
    (0x940344D2, .stage 0xd { l := 0, imm := 1234 }),
    (0x99434065, .expect 0x14 0xd 0x25 1),
    (0x9D400065, .arrive 0x14 0x25 1),
    (0x9D4340E5, .arriveInit 0x14 0xd 0x25 1),
    (0xA1400000, .join 0x14),
    (0xA5400000, .leave 0x14)] : List (W32 × Instr)).all (fun p => decodeC p.1 == some p.2) = true := by decide

/-- C words written out from the formats of R32 and the tables of R167 and R187. -/
theorem test_decode_c6 : ([
    (0xA9400000, .gbar 0x14),
    (0xAD40000B, .ysend 0x14 0xb),
    (0xB003400B, .yrecv 0xd 0xb),
    (0xB400000C, .fence 4 1),
    (0xB8414102, .fencep 4 2 69),
    (0xBD4344D2, .prmx 0x14 0xd { l := 0, imm := 1234 }),
    (0xC0034000, .spawn 0xd),
    (0xC4000000, .endTask),
    (0xC9400000, .phase 0x14),
    (0xCC10FFF9, .ctopen 0x10 0xfff9),
    (0xD0000000, .ctclose),
    (0xD40344D2, .trap 0xd { l := 0, imm := 1234 })] : List (W32 × Instr)).all (fun p => decodeC p.1 == some p.2) = true := by decide

/-- C words written out from the formats of R32 and the tables of R167 and R187. -/
theorem test_decode_c7 : ([
    (0xD8000000, .eret),
    (0xE0034600, .hset 0xd 6),
    (0xE40346A0, .rlay 0xd 6 5),
    (0xE9438622, .tenc 0x14 0xe 6 1 0 1),
    (0xEC534000, .rset 5 0xd),
    (0xF140000A, .mfs 0x14 0xa),
    (0xF540000A, .mts 0x14 0xa),
    (0xF9400000, .hsnap 0x14)] : List (W32 × Instr)).all (fun p => decodeC p.1 == some p.2) = true := by decide

/-- M halfwords written out from R149. -/
theorem test_decode_m : ([
    (0x11C1, .mzero 3 1 1),
    (0x2A00, .mpush 5),
    (0x3000, .mflip),
    (0x4B40, .mstrm 5 2 1),
    (0x54E5, .mdrain 1 0 1 1 9 1),
    (0x6A00, .mret 5),
    (0x7A64, .mskip 5 0x64),
    (0x8030, .mpad 0x30),
    (0x9A00, .mscl 5)] : List (BitVec 16 × Instr)).all (fun p => decodeM p.1 == some p.2) = true := by decide

/-- W halfwords written out from R35. -/
theorem test_decode_w : ([
    (0x1027, .waitFull 0x27),
    (0x2027, .waitFree 0x27),
    (0x3027, .waitCyc 0x27),
    (0x4003, .waitCycLiteral 3),
    (0x5049, .waitReg 1 9),
    (0x6067, .waitBar 1 0x27),
    (0x60C3, .waitBarGang 1 3),
    (0x7B2C, .waitRing 5 0x12c),
    (0x8A00, .waitSpace 5),
    (0x9029, .waitGroup 0x29),
    (0xA000, .waitTrellis),
    (0xB00B, .waitYslot 0xb)] : List (BitVec 16 × Instr)).all (fun p => decodeW p.1 == some p.2) = true := by decide

/-- Control words written out from R62 and the opcodes of R78 to R80, indexed by slot 0x04A0 (index 9, bank 4: every register number
of kind s or v moves by 16). -/
theorem test_decode_h1 : ([
    (0x012000048A400000000000000000000000000000000000000000000000000000,
      .s, .mov (at_ .s (word 4 0 9 (src 0 20 1) unused unused))),
    (0x02380004A0042000000000000000000000000000000000000000000000000000,
      .s, .movl (at_ .s (word 7 0 9 (src 1 0 0) (src 1 2 0) unused))),
    (0x032000048A41E800000000000000000000000000000000000000000000000000,
      .s, .add (at_ .s (word 4 0 9 (src 0 20 1) (src 0 30 1) unused))),
    (0x042000048A41E800000000000000000000000000000000000000000000000000,
      .s, .sub (at_ .s (word 4 0 9 (src 0 20 1) (src 0 30 1) unused))),
    (0x052000048A41E800000000000000000000000000000000000000000000000000,
      .s, .mul (at_ .s (word 4 0 9 (src 0 20 1) (src 0 30 1) unused))),
    (0x062000048A41E800000000000000000000000000000000000000000000000000,
      .s, .mulh (at_ .s (word 4 0 9 (src 0 20 1) (src 0 30 1) unused))),
    (0x072800048A41E800000000000000000000000000000000000000000000000000,
      .s, .mulhn (at_ .s (word 5 0 9 (src 0 20 1) (src 0 30 1) unused))),
    (0x082000048A41E800000000000000000000000000000000000000000000000000,
      .s, .div (at_ .s (word 4 0 9 (src 0 20 1) (src 0 30 1) unused))),
    (0x092800048A41E800000000000000000000000000000000000000000000000000,
      .s, .divn (at_ .s (word 5 0 9 (src 0 20 1) (src 0 30 1) unused))),
    (0x0A2000048A41E800000000000000000000000000000000000000000000000000,
      .s, .rem (at_ .s (word 4 0 9 (src 0 20 1) (src 0 30 1) unused))),
    (0x0B2800048A41E800000000000000000000000000000000000000000000000000,
      .s, .remn (at_ .s (word 5 0 9 (src 0 20 1) (src 0 30 1) unused))),
    (0x0C2000048A41E800000000000000000000000000000000000000000000000000,
      .s, .and (at_ .s (word 4 0 9 (src 0 20 1) (src 0 30 1) unused)))] : List (W256 × Slot × Instr)).all (fun p => decodeH p.2.1 0x04A0 p.1 == some p.2.2) = true := by decide

/-- Control words written out from R62 and the opcodes of R78 to R80, indexed by slot 0x04A0 (index 9, bank 4: every register number
of kind s or v moves by 16). -/
theorem test_decode_h2 : ([
    (0x0D2000048A41E800000000000000000000000000000000000000000000000000,
      .s, .or (at_ .s (word 4 0 9 (src 0 20 1) (src 0 30 1) unused))),
    (0x0E2000048A41E800000000000000000000000000000000000000000000000000,
      .s, .xor (at_ .s (word 4 0 9 (src 0 20 1) (src 0 30 1) unused))),
    (0x0F2000048A41E800000000000000000000000000000000000000000000000000,
      .s, .andn (at_ .s (word 4 0 9 (src 0 20 1) (src 0 30 1) unused))),
    (0x102000048A41E800000000000000000000000000000000000000000000000000,
      .s, .shl (at_ .s (word 4 0 9 (src 0 20 1) (src 0 30 1) unused))),
    (0x112000048A41E800000000000000000000000000000000000000000000000000,
      .s, .shr (at_ .s (word 4 0 9 (src 0 20 1) (src 0 30 1) unused))),
    (0x122000048A41E800000000000000000000000000000000000000000000000000,
      .s, .sar (at_ .s (word 4 0 9 (src 0 20 1) (src 0 30 1) unused))),
    (0x132000048A41E800000000000000000000000000000000000000000000000000,
      .s, .rol (at_ .s (word 4 0 9 (src 0 20 1) (src 0 30 1) unused))),
    (0x142000048A41E800000000000000000000000000000000000000000000000000,
      .s, .min (at_ .s (word 4 0 9 (src 0 20 1) (src 0 30 1) unused))),
    (0x152000048A41E800000000000000000000000000000000000000000000000000,
      .s, .max (at_ .s (word 4 0 9 (src 0 20 1) (src 0 30 1) unused))),
    (0x162800048A41E800000000000000000000000000000000000000000000000000,
      .s, .minn (at_ .s (word 5 0 9 (src 0 20 1) (src 0 30 1) unused))),
    (0x172800048A41E800000000000000000000000000000000000000000000000000,
      .s, .maxn (at_ .s (word 5 0 9 (src 0 20 1) (src 0 30 1) unused))),
    (0x182000048A400000000000000000000000000000000000000000000000000000,
      .s, .abs (at_ .s (word 4 0 9 (src 0 20 1) unused unused)))] : List (W256 × Slot × Instr)).all (fun p => decodeH p.2.1 0x04A0 p.1 == some p.2.2) = true := by decide

/-- Control words written out from R62 and the opcodes of R78 to R80, indexed by slot 0x04A0 (index 9, bank 4: every register number
of kind s or v moves by 16). -/
theorem test_decode_h3 : ([
    (0x192000048A400000000000000000000000000000000000000000000000000000,
      .s, .neg (at_ .s (word 4 0 9 (src 0 20 1) unused unused))),
    (0x1A2000048A41E800000000000000000000000000000000000000000000000000,
      .s, .cmpeq (at_ .s (word 4 0 9 (src 0 20 1) (src 0 30 1) unused))),
    (0x1B2000048A41E800000000000000000000000000000000000000000000000000,
      .s, .cmpne (at_ .s (word 4 0 9 (src 0 20 1) (src 0 30 1) unused))),
    (0x1C2000048A41E800000000000000000000000000000000000000000000000000,
      .s, .cmplt (at_ .s (word 4 0 9 (src 0 20 1) (src 0 30 1) unused))),
    (0x1D2000048A41E800000000000000000000000000000000000000000000000000,
      .s, .cmple (at_ .s (word 4 0 9 (src 0 20 1) (src 0 30 1) unused))),
    (0x1E2800048A41E800000000000000000000000000000000000000000000000000,
      .s, .cmpltn (at_ .s (word 5 0 9 (src 0 20 1) (src 0 30 1) unused))),
    (0x1F2800048A41E800000000000000000000000000000000000000000000000000,
      .s, .cmplen (at_ .s (word 5 0 9 (src 0 20 1) (src 0 30 1) unused))),
    (0x202000048A41E851000000000000000000000000000000000000000000000000,
      .s, .sel (at_ .s (word 4 0 9 (src 0 20 1) (src 0 30 1) (src 0 40 1)))),
    (0x212000048A400000000000000000000000000000000000000000000000000000,
      .s, .clz (at_ .s (word 4 0 9 (src 0 20 1) unused unused))),
    (0x222000048A400000000000000000000000000000000000000000000000000000,
      .s, .ctz (at_ .s (word 4 0 9 (src 0 20 1) unused unused))),
    (0x232000048A400000000000000000000000000000000000000000000000000000,
      .s, .popc (at_ .s (word 4 0 9 (src 0 20 1) unused unused))),
    (0x243800048A4000000000000B2000000000000000000000000000000000000000,
      .s, .bext (at_ .s ({ word 7 0 9 (src 0 20 1) unused unused with aux := 712 })))] : List (W256 × Slot × Instr)).all (fun p => decodeH p.2.1 0x04A0 p.1 == some p.2.2) = true := by decide

/-- Control words written out from R62 and the opcodes of R78 to R80, indexed by slot 0x04A0 (index 9, bank 4: every register number
of kind s or v moves by 16). -/
theorem test_decode_h4 : ([
    (0x253800048A41E8000000000B2000000000000000000000000000000000000000,
      .s, .bins (at_ .s ({ word 7 0 9 (src 0 20 1) (src 0 30 1) unused with aux := 712 }))),
    (0x262000048A41E851000000000000000000000000000000000000000000000000,
      .s, .madd (at_ .s (word 4 0 9 (src 0 20 1) (src 0 30 1) (src 0 40 1)))),
    (0x274000048A41E800000000000000000000000000000000000000000000000000,
      .s, .fadd (at_ .s (word 8 0 9 (src 0 20 1) (src 0 30 1) unused))),
    (0x284000048A41E800000000000000000000000000000000000000000000000000,
      .s, .fsub (at_ .s (word 8 0 9 (src 0 20 1) (src 0 30 1) unused))),
    (0x294000048A41E800000000000000000000000000000000000000000000000000,
      .s, .fmul (at_ .s (word 8 0 9 (src 0 20 1) (src 0 30 1) unused))),
    (0x2A4000048A41E851000000000000000000000000000000000000000000000000,
      .s, .fma (at_ .s (word 8 0 9 (src 0 20 1) (src 0 30 1) (src 0 40 1)))),
    (0x2B4000048A41E800000000000000000000000000000000000000000000000000,
      .s, .fmin (at_ .s (word 8 0 9 (src 0 20 1) (src 0 30 1) unused))),
    (0x2C4000048A41E800000000000000000000000000000000000000000000000000,
      .s, .fmax (at_ .s (word 8 0 9 (src 0 20 1) (src 0 30 1) unused))),
    (0x2D4000048A41E800000000001400000000000000000000000000000000000000,
      .s, .fcmp (at_ .s ({ word 8 0 9 (src 0 20 1) (src 0 30 1) unused with aux := 5 }))),
    (0x2E2000048A400000010000000000000000000000000000000000000000000000,
      .s, .fcvt (at_ .s ({ word 4 0 9 (src 0 20 1) unused unused with ty2 := 4 }))),
    (0x2F38000480000000000000000000000000000000000000000000000000000000,
      .s, .rdcyc (at_ .s (word 7 0 9 unused unused unused))),
    (0x3038000480000000000000000800000000000000000000000000000000000000,
      .s, .rdtc (at_ .s ({ word 7 0 9 unused unused unused with aux := 2 })))] : List (W256 × Slot × Instr)).all (fun p => decodeH p.2.1 0x04A0 p.1 == some p.2.2) = true := by decide

/-- Control words written out from R62 and the opcodes of R78 to R80, indexed by slot 0x04A0 (index 9, bank 4: every register number
of kind s or v moves by 16). -/
theorem test_decode_h5 : ([
    (0x3138000480000000000000000000000000000000000000000000000000000000,
      .s, .rqpop (at_ .s (word 7 0 9 unused unused unused))),
    (0x322000048A41E800000000000000000000000000000000000000000000000000,
      .s, .vget (at_ .s (word 4 0 9 (src 0 20 1) (src 0 30 1) unused))),
    (0x402083A40A41E800000000000000000000000000000000000000000000000000,
      .v1, .vadd (at_ .v1 ({ word 4 1 8 (src 0 20 1) (src 0 30 1) unused with base := 1, mask := 3, z := 1 }))),
    (0x412083A40A41E800000000000000000000000000000000000000000000000000,
      .v1, .vsub (at_ .v1 ({ word 4 1 8 (src 0 20 1) (src 0 30 1) unused with base := 1, mask := 3, z := 1 }))),
    (0x422083A40A41E800000000000000000000000000000000000000000000000000,
      .v1, .vmul (at_ .v1 ({ word 4 1 8 (src 0 20 1) (src 0 30 1) unused with base := 1, mask := 3, z := 1 }))),
    (0x432083A40A41E800000000000000000000000000000000000000000000000000,
      .v1, .vmulh (at_ .v1 ({ word 4 1 8 (src 0 20 1) (src 0 30 1) unused with base := 1, mask := 3, z := 1 }))),
    (0x444883A40A41E851000000000000000000000000000000000000000000000000,
      .v1, .vfma (at_ .v1 ({ word 9 1 8 (src 0 20 1) (src 0 30 1) (src 0 40 1) with base := 1, mask := 3, z := 1 }))),
    (0x454883A40A41E851000000000000000000000000000000000000000000000000,
      .v1, .vfms (at_ .v1 ({ word 9 1 8 (src 0 20 1) (src 0 30 1) (src 0 40 1) with base := 1, mask := 3, z := 1 }))),
    (0x464883A40A41E851000000000000000000000000000000000000000000000000,
      .v1, .vfnma (at_ .v1 ({ word 9 1 8 (src 0 20 1) (src 0 30 1) (src 0 40 1) with base := 1, mask := 3, z := 1 }))),
    (0x472083A40A41E800000000000000000000000000000000000000000000000000,
      .v1, .vmin (at_ .v1 ({ word 4 1 8 (src 0 20 1) (src 0 30 1) unused with base := 1, mask := 3, z := 1 }))),
    (0x482083A40A41E800000000000000000000000000000000000000000000000000,
      .v1, .vmax (at_ .v1 ({ word 4 1 8 (src 0 20 1) (src 0 30 1) unused with base := 1, mask := 3, z := 1 }))),
    (0x492083A40A400000000000000000000000000000000000000000000000000000,
      .v1, .vabs (at_ .v1 ({ word 4 1 8 (src 0 20 1) unused unused with base := 1, mask := 3, z := 1 })))] : List (W256 × Slot × Instr)).all (fun p => decodeH p.2.1 0x04A0 p.1 == some p.2.2) = true := by decide

/-- Control words written out from R62 and the opcodes of R78 to R80, indexed by slot 0x04A0 (index 9, bank 4: every register number
of kind s or v moves by 16). -/
theorem test_decode_h6 : ([
    (0x4A2083A40A400000000000000000000000000000000000000000000000000000,
      .v1, .vneg (at_ .v1 ({ word 4 1 8 (src 0 20 1) unused unused with base := 1, mask := 3, z := 1 }))),
    (0x4B2083A40A41E800000000000000000000000000000000000000000000000000,
      .v1, .vabd (at_ .v1 ({ word 4 1 8 (src 0 20 1) (src 0 30 1) unused with base := 1, mask := 3, z := 1 }))),
    (0x4C2083A40A41E851000000000000000000000000000000000000000000000000,
      .v1, .vclamp (at_ .v1 ({ word 4 1 8 (src 0 20 1) (src 0 30 1) (src 0 40 1) with base := 1, mask := 3, z := 1 }))),
    (0x4D2083A40A41E800000000000000000000000000000000000000000000000000,
      .v1, .vand (at_ .v1 ({ word 4 1 8 (src 0 20 1) (src 0 30 1) unused with base := 1, mask := 3, z := 1 }))),
    (0x4E2083A40A41E800000000000000000000000000000000000000000000000000,
      .v1, .vor (at_ .v1 ({ word 4 1 8 (src 0 20 1) (src 0 30 1) unused with base := 1, mask := 3, z := 1 }))),
    (0x4F2083A40A41E800000000000000000000000000000000000000000000000000,
      .v1, .vxor (at_ .v1 ({ word 4 1 8 (src 0 20 1) (src 0 30 1) unused with base := 1, mask := 3, z := 1 }))),
    (0x502083A40A400000000000000000000000000000000000000000000000000000,
      .v1, .vnot (at_ .v1 ({ word 4 1 8 (src 0 20 1) unused unused with base := 1, mask := 3, z := 1 }))),
    (0x512083A40A41E800000000000000000000000000000000000000000000000000,
      .v1, .vshl (at_ .v1 ({ word 4 1 8 (src 0 20 1) (src 0 30 1) unused with base := 1, mask := 3, z := 1 }))),
    (0x522083A40A41E800000000000000000000000000000000000000000000000000,
      .v1, .vshr (at_ .v1 ({ word 4 1 8 (src 0 20 1) (src 0 30 1) unused with base := 1, mask := 3, z := 1 }))),
    (0x532083A40A41E800000000000000000000000000000000000000000000000000,
      .v1, .vsar (at_ .v1 ({ word 4 1 8 (src 0 20 1) (src 0 30 1) unused with base := 1, mask := 3, z := 1 }))),
    (0x542083C28A41E800000000001400000000000000000000000000000000000000,
      .v1, .vcmp (at_ .v1 ({ word 4 2 5 (src 0 20 1) (src 0 30 1) unused with base := 1, mask := 3, z := 1, aux := 5 }))),
    (0x552083A40A41E851000000000000000000000000000000000000000000000000,
      .v1, .vsel (at_ .v1 ({ word 4 1 8 (src 0 20 1) (src 0 30 1) (src 0 40 1) with base := 1, mask := 3, z := 1 })))] : List (W256 × Slot × Instr)).all (fun p => decodeH p.2.1 0x04A0 p.1 == some p.2.2) = true := by decide

/-- Control words written out from R62 and the opcodes of R78 to R80, indexed by slot 0x04A0 (index 9, bank 4: every register number
of kind s or v moves by 16). -/
theorem test_decode_h7 : ([
    (0x562083A40A400000010000000000000000000000000000000000000000000000,
      .v1, .vcvt (at_ .v1 ({ word 4 1 8 (src 0 20 1) unused unused with base := 1, mask := 3, z := 1, ty2 := 4 }))),
    (0x574083A40A400000000000000000000000000000000000000000000000000000,
      .v1, .vrcp (at_ .v1 ({ word 8 1 8 (src 0 20 1) unused unused with base := 1, mask := 3, z := 1 }))),
    (0x584083A40A400000000000000000000000000000000000000000000000000000,
      .v1, .vrsq (at_ .v1 ({ word 8 1 8 (src 0 20 1) unused unused with base := 1, mask := 3, z := 1 }))),
    (0x594083A40A400000000000000000000000000000000000000000000000000000,
      .v1, .vsqrt (at_ .v1 ({ word 8 1 8 (src 0 20 1) unused unused with base := 1, mask := 3, z := 1 }))),
    (0x5A4083A40A400000000000000000000000000000000000000000000000000000,
      .v1, .vexp2 (at_ .v1 ({ word 8 1 8 (src 0 20 1) unused unused with base := 1, mask := 3, z := 1 }))),
    (0x5B4083A40A400000000000000000000000000000000000000000000000000000,
      .v1, .vlog2 (at_ .v1 ({ word 8 1 8 (src 0 20 1) unused unused with base := 1, mask := 3, z := 1 }))),
    (0x5C4083A40A400000000000000000000000000000000000000000000000000000,
      .v1, .vtanh (at_ .v1 ({ word 8 1 8 (src 0 20 1) unused unused with base := 1, mask := 3, z := 1 }))),
    (0x5D0083A40A41E851000000000000000000000000000000000000000000000000,
      .v1, .vdp4 (at_ .v1 ({ word 0 1 8 (src 0 20 1) (src 0 30 1) (src 0 40 1) with base := 1, mask := 3, z := 1 }))),
    (0x5E4883A40A41E851000000000000000000000000000000000000000000000000,
      .v1, .vdp2 (at_ .v1 ({ word 9 1 8 (src 0 20 1) (src 0 30 1) (src 0 40 1) with base := 1, mask := 3, z := 1 }))),
    (0x5F4403240A400000000000000000000000000000000000000000000000000000,
      .v1, .vqnt (at_ .v1 ({ word 8 1 8 (src 0 20 1) unused unused with width := 2, mask := 3 }))),
    (0x604403A40A400000000000000000000000000000000000000000000000000000,
      .v1, .vdqnt (at_ .v1 ({ word 8 1 8 (src 0 20 1) unused unused with width := 2, mask := 3, z := 1 }))),
    (0x614083A40A41E800000000000000000000000000000000000000000000000000,
      .v1, .vsmth (at_ .v1 ({ word 8 1 8 (src 0 20 1) (src 0 30 1) unused with base := 1, mask := 3, z := 1 })))] : List (W256 × Slot × Instr)).all (fun p => decodeH p.2.1 0x04A0 p.1 == some p.2.2) = true := by decide

/-- Control words written out from R62 and the opcodes of R78 to R80, indexed by slot 0x04A0 (index 9, bank 4: every register number
of kind s or v moves by 16). -/
theorem test_decode_h8 : ([
    (0x622083A40A41E851000000000000000000000000000000000000000000000000,
      .v1, .vimad (at_ .v1 ({ word 4 1 8 (src 0 20 1) (src 0 30 1) (src 0 40 1) with base := 1, mask := 3, z := 1 }))),
    (0x630083A40A41E851000000000000000000000000000000000000000000000000,
      .v1, .vsad (at_ .v1 ({ word 0 1 8 (src 0 20 1) (src 0 30 1) (src 0 40 1) with base := 1, mask := 3, z := 1 }))),
    (0x802083A40A400000000000000000000000000000000000000000000000000000,
      .v1, .vmov (at_ .v1 ({ word 4 1 8 (src 0 20 1) unused unused with base := 1, mask := 3, z := 1 }))),
    (0x812083A40A41E884000000000C00000000000000000000000000000000000000,
      .v1, .vbcast (at_ .v1 ({ word 4 1 8 (src 0 20 1) (src 0 30 1) (src 1 2 0) with base := 1, mask := 3, z := 1, aux := 3 }))),
    (0x822083A40A41E800000000000000000000000000000000000000000000000000,
      .v1, .viota (at_ .v1 ({ word 4 1 8 (src 0 20 1) (src 0 30 1) unused with base := 1, mask := 3, z := 1 }))),
    (0x832083A40A41E884000000000C00000000000000000000000000000000000000,
      .v1, .vperm (at_ .v1 ({ word 4 1 8 (src 0 20 1) (src 0 30 1) (src 1 2 0) with base := 1, mask := 3, z := 1, aux := 3 }))),
    (0x842083A40A41E884000000000C00000000000000000000000000000000000000,
      .v1, .vrotl (at_ .v1 ({ word 4 1 8 (src 0 20 1) (src 0 30 1) (src 1 2 0) with base := 1, mask := 3, z := 1, aux := 3 }))),
    (0x852083A40A41E884000000000C00000000000000000000000000000000000000,
      .v1, .vslide (at_ .v1 ({ word 4 1 8 (src 0 20 1) (src 0 30 1) (src 1 2 0) with base := 1, mask := 3, z := 1, aux := 3 }))),
    (0x862083A40A41E884000000000C00000000000000000000000000000000000000,
      .v1, .vxlane (at_ .v1 ({ word 4 1 8 (src 0 20 1) (src 0 30 1) (src 1 2 0) with base := 1, mask := 3, z := 1, aux := 3 }))),
    (0x872083A40A41E884000000000C00000000000000000000000000000000000000,
      .v1, .vzip (at_ .v1 ({ word 4 1 8 (src 0 20 1) (src 0 30 1) (src 1 2 0) with base := 1, mask := 3, z := 1, aux := 3 }))),
    (0x882083A40A41E884000000000C00000000000000000000000000000000000000,
      .v1, .vunzip (at_ .v1 ({ word 4 1 8 (src 0 20 1) (src 0 30 1) (src 1 2 0) with base := 1, mask := 3, z := 1, aux := 3 }))),
    (0x892083240A400000000000000800000000000000000000000000000000000000,
      .v1, .vred (at_ .v1 ({ word 4 1 8 (src 0 20 1) unused unused with base := 1, mask := 3, aux := 2 })))] : List (W256 × Slot × Instr)).all (fun p => decodeH p.2.1 0x04A0 p.1 == some p.2.2) = true := by decide

/-- Control words written out from R62 and the opcodes of R78 to R80, indexed by slot 0x04A0 (index 9, bank 4: every register number
of kind s or v moves by 16). -/
theorem test_decode_h9 : ([
    (0x8A2083A40A400000000000000800000000000000000000000000000000000000,
      .v1, .vscan (at_ .v1 ({ word 4 1 8 (src 0 20 1) unused unused with base := 1, mask := 3, z := 1, aux := 2 }))),
    (0x8B2083A40A436800000000000800000000000000000000000000000000000000,
      .v1, .vsscan (at_ .v1 ({ word 4 1 8 (src 0 20 1) (src 0 54 1) unused with base := 1, mask := 3, z := 1, aux := 2 }))),
    (0x8C2083240A400084000000000000000000000000000000000000000000000000,
      .v1, .vcmprs (at_ .v1 ({ word 4 1 8 (src 0 20 1) unused (src 1 2 0) with base := 1, mask := 3 }))),
    (0x8D2083A40A400000000000000000000000000000000000000000000000000000,
      .v1, .vexpnd (at_ .v1 ({ word 4 1 8 (src 0 20 1) unused unused with base := 1, mask := 3, z := 1 }))),
    (0x8E2083A40A400000000000000000000000000000000000000000000000000000,
      .v1, .vpopc (at_ .v1 ({ word 4 1 8 (src 0 20 1) unused unused with base := 1, mask := 3, z := 1 }))),
    (0x8F2083A40A41E800000000000000000000000000000000000000000000000000,
      .v1, .vpfx (at_ .v1 ({ word 4 1 8 (src 0 20 1) (src 0 30 1) unused with base := 1, mask := 3, z := 1 }))),
    (0x900880240A41E851000000000000000000000000000000000000000000000000,
      .v1, .vinter (at_ .v1 ({ word 1 1 8 (src 0 20 1) (src 0 30 1) (src 0 40 1) with base := 1 }))),
    (0x912083A40A41E800000000000000000000000000000000000000000000000000,
      .v1, .vrnd (at_ .v1 ({ word 4 1 8 (src 0 20 1) (src 0 30 1) unused with base := 1, mask := 3, z := 1 }))),
    (0x922083EC0A41E800010000000000000000000000000000000000000000000000,
      .v1, .vtrow (at_ .v1 ({ word 4 3 24 (src 0 20 1) (src 0 30 1) unused with base := 1, mask := 3, z := 1, ty2 := 4 }))),
    (0x930083A40001E800000000000000000000000000000000000000000000000000,
      .v1, .vtcol (at_ .v1 ({ word 0 1 8 unused (src 0 30 1) unused with base := 1, mask := 3, z := 1 }))),
    (0x940080429A436800000000000000000000000000000000000000000000000000,
      .v1, .kand (at_ .v1 ({ word 0 2 5 (src 0 52 1) (src 0 54 1) unused with base := 1 }))),
    (0x950080429A436800000000000000000000000000000000000000000000000000,
      .v1, .kor (at_ .v1 ({ word 0 2 5 (src 0 52 1) (src 0 54 1) unused with base := 1 })))] : List (W256 × Slot × Instr)).all (fun p => decodeH p.2.1 0x04A0 p.1 == some p.2.2) = true := by decide

/-- Control words written out from R62 and the opcodes of R78 to R80, indexed by slot 0x04A0 (index 9, bank 4: every register number
of kind s or v moves by 16). -/
theorem test_decode_h10 : ([
    (0x960080429A436800000000000000000000000000000000000000000000000000,
      .v1, .kxor (at_ .v1 ({ word 0 2 5 (src 0 52 1) (src 0 54 1) unused with base := 1 }))),
    (0x970080429A400000000000000000000000000000000000000000000000000000,
      .v1, .knot (at_ .v1 ({ word 0 2 5 (src 0 52 1) unused unused with base := 1 }))),
    (0x980080429A400000000000000000000000000000000000000000000000000000,
      .v1, .kmov (at_ .v1 ({ word 0 2 5 (src 0 52 1) unused unused with base := 1 })))] : List (W256 × Slot × Instr)).all (fun p => decodeH p.2.1 0x04A0 p.1 == some p.2.2) = true := by decide
/-! ## Single steps -/

/-- A bundle at 0x1000, four words long, with a literal pool, whose slots have passed every check. -/
def issuing (lits : List W32) : State :=
  State.reset.modBun fun b => { b with issuing := true, lits, addr := 0x1000, next := 0x1010 }

/-- What a next state holds. -/
def after {α : Type} (o : Host.Outcome State Fault Refusal) (f : State → α) : Option α :=
  match o with
  | .next t => some (f t)
  | _ => none

/-- The effects in flight. -/
def sent (t : State) : List Effect := t.t.q.fly.map (·.eff)

def withS (l : List (BitVec 6 × W64)) (lits : List W32 := []) : State := l.foldl (fun s p => s.sPut p.1 p.2) (issuing lits)
def withV (l : List (BitVec 6 × W256)) (s : State) : State := l.foldl (fun s p => s.vPut p.1 p.2) s

def x1 (a : Src) (ty : BitVec 5) : Hcw := word ty 0 3 a unused unused
def x2 (a b : Src) (ty : BitVec 5) : Hcw := word ty 0 3 a b unused

/-! ### Scalar operations (05) -/

/-- R66: `add s3, s1, #0x1234` adds 0x1234, and with #0xFFFF_FFFF subtracts 1. -/
theorem test_add_literal : after (exec (.add (op (x2 (sreg 1) (lit 0) 6))) (withS [(1, 5)] [0x1234])) sent = some [.s 3 0x1239] ∧
    after (exec (.add (op (x2 (sreg 1) (lit 0) 6))) (withS [(1, 5)] [0xFFFFFFFF])) sent = some [.s 3 4] := by decide
/-- R86: `sub.sat` of nN that would be negative becomes 0; it wraps otherwise. -/
theorem test_sub : after (exec (.sub (op { s3 1 with sat := 1 })) (withS [(1, 3), (2, 5)])) sent = some [.s 3 0] ∧
    after (exec (.sub (op (s3 1))) (withS [(1, 3), (2, 5)])) sent = some [.s 3 0xFE] := by decide
/-- R86: `abs` and `neg` of min(i8) wrap to it and saturate at 127. -/
theorem test_abs_min : after (exec (.abs (op (x1 (sreg 1) 0))) (withS [(1, 0x80)])) sent = some [.s 3 0xFFFFFFFFFFFFFF80] ∧
    after (exec (.abs (op { x1 (sreg 1) 0 with sat := 1 })) (withS [(1, 0x80)])) sent = some [.s 3 127] ∧
    after (exec (.neg (op { x1 (sreg 1) 0 with sat := 1 })) (withS [(1, 0x80)])) sent = some [.s 3 127] := by decide
/-- R87: for i8 the high half of -1 × 1 is -1. -/
theorem test_mulh : after (exec (.mulh (op (s3 0))) (withS [(1, 0xFF), (2, 1)])) sent = some [.s 3 0xFFFFFFFFFFFFFFFF] ∧
    after (exec (.mulhn (op (s3 1))) (withS [(1, 0xFF), (2, 0xFF)])) sent = some [.s 3 0xFE] := by decide
/-- R90: a shift by 4,294,967,295 yields 0; `sar` fills with the sign; `rol` turns by c mod N. -/
theorem test_shifts :
    after (exec (.shl (op (x2 (sreg 1) (lit 0) 4))) (withS [(1, 7)] [0xFFFFFFFF])) sent = some [.s 3 0] ∧
    after (exec (.sar (op (x2 (sreg 1) (lit 0) 4))) (withS [(1, 0x80000000)] [40])) sent = some [.s 3 0xFFFFFFFFFFFFFFFF] ∧
    after (exec (.rol (op (x2 (sreg 1) (lit 0) 1))) (withS [(1, 0x81)] [9])) sent = some [.s 3 3] := by decide
/-- R91: `bext.i64 s4, s9, 8, 12`. -/
theorem test_bext : after (exec (.bext (op { x1 (sreg 9) 6 with dn := 4, aux := 0x02C8 })) (withS [(9, 0x00FABC00)])) sent =
    some [.s 4 0xFFFFFFFFFFFFFABC] := by decide
/-- R91: leading and trailing zeros of zero are N. -/
theorem test_counts : after (exec (.clz (op (x1 (sreg 1) 2))) (withS [(1, 0)])) sent = some [.s 3 16] ∧
    after (exec (.ctz (op (x1 (sreg 1) 2))) (withS [(1, 8)])) sent = some [.s 3 3] ∧
    after (exec (.popc (op (x1 (sreg 1) 2))) (withS [(1, 0x1F00F)])) sent = some [.s 3 8] := by decide
/-- R92: `cmpeq.i8 s1, |s2|, #128` is 0 with s2 = 0x80, and `cmpeq.i16` is 1 with s2 = 0xFF80. -/
theorem test_cmpeq_abs :
    after (exec (.cmpeq (op (x2 { sreg 2 with abs := 1 } (lit 0) 0))) (withS [(2, 0x80)] [128])) sent = some [.s 3 0] ∧
    after (exec (.cmpeq (op (x2 { sreg 2 with abs := 1 } (lit 0) 2))) (withS [(2, 0xFF80)] [128])) sent = some [.s 3 1] := by decide
/-- R88: a zero divisor gives all ones and A; min ÷ -1 gives min, max with sat, and remainder 0. -/
theorem test_divide : after (exec (.div (op (s3 0))) (withS [(1, 7), (2, 0)])) (fun t => t.t.q.divs.map (·.val)) =
      some [0xFFFFFFFFFFFFFFFF] ∧
    after (exec (.rem (op (s3 0))) (withS [(1, 7), (2, 0)])) (fun t => t.t.q.divs.map (·.val)) = some [7] ∧
    after (exec (.div (op { s3 0 with sat := 1 })) (withS [(1, 0x80), (2, 0xFF)])) (fun t => t.t.q.divs.map (·.val)) = some [127] ∧
    after (exec (.rem (op (s3 0))) (withS [(1, 0xF9), (2, 2)])) (fun t => t.t.q.divs.map (·.val)) =
      some [0xFFFFFFFFFFFFFFFF] := by decide
/-- R59: -(1 + 2^-23) + ... a float add rounds once: 1 + 2^-24 ties to even. -/
theorem test_fadd_tie : after (exec (.fadd (op (s3 8))) (withS [(1, 0x3F800000), (2, 0x33800000)])) sent =
    some [.s 3 0x3F800000] := by decide

/-! ### Conversions (R51) and functions of R279, R188, R240 -/

/-- The table of R51. -/
theorem test_cvt_table : (cvt (valOf 8 0x43F00000) 11 0 0 0 0).1 = 0x7E ∧ (cvt (valOf 8 0x43E80000) 11 0 0 0 0) = (0x7E, 0) ∧
    (cvt (valOf 8 0x3A800000) 11 0 0 0 0).1 = 0 ∧ (cvt (valOf 8 0x3F808000) 9 0 0 0 0) = (0x3F80, 0) ∧
    (cvt (valOf 8 0xC0400000) 1 0 0 0 0).1 = 0 ∧ (cvt (valOf 8 0x7F800000) 11 0 0 1 0).1 = 0 ∧
    (cvt (valOf 8 0x3E99999A) 0 0 0 0 0) = (0, 0) := by decide
/-- R279: the worked decode of an ft1 block, weights 0, 1, 241, 254 and 255. -/
theorem test_fertite : ([0, 1, 241, 254, 255].map fun i => v16h (ftWin 0x0F 1 i)) = [3, -11, -3, 13, 1] ∧
    ftWin 0x0F 1 255 = 2 ∧ ftWin 0x0F 1 254 = 4 := by decide
/-- The bounds of R190. -/
theorem test_atomic_bounds : amoNew 10 4 5 0 0 = some 0 ∧ amoNew 10 4 0xFFFFFFFE 0xFFFFFFFF 0 = some 0xFFFFFFFF ∧
    amoNew 10 4 0xFFFFFFFF 0xFFFFFFFF 0 = some 0 ∧ amoNew 11 4 95 10 100 = some 100 ∧ amoNew 11 4 100 10 100 = none ∧
    amoOld 11 4 100 100 = 0x8000000000000064 ∧ amoOld 11 4 95 100 = 95 ∧ amoOld 11 4 0 0 = 0x8000000000000000 := by decide
/-- The worked offsets of R241. -/
theorem test_layout :
    let h := handleOf [0, 0x8109, 0x0000010000000100, 0, 0, 0, 0, 0]
    let q := handleOf [0, 0x818D, 0x0000000400000064, 0, 0, 0, 0, 0]
    h.off 0 [130, 20] = 10500 ∧ h.off 2 [130, 20] = 37892 ∧ h.off 3 [130, 20] = 38404 ∧ q.block 4 [70, 3] = 14 ∧
      blockOff 4 0x0D 14 = 224 := by decide
/-- The promises of R254: λ = 1,200, 16,384 bytes, entering in cycles 5,000 and 5,001. -/
theorem test_promise : ({ State.reset with cyc := 5000 } : State).promise 1200 16384 = 6458 ∧
    ({ State.reset with cyc := 5001 } : State).promise 1200 16384 = 6459 := by decide
/-- R391: at hold step 3, cycles 1,093 and 1,109 are held and 1,125 is not. -/
theorem test_hold_step : ([1093, 1109, 1125].map fun c =>
    (({ State.reset with cyc := c } : State).modSup fun u => { u with steps := [(0, 3)] }).heldNow State.reset.core) =
    [true, true, false] := by decide

/-! ### Vector operations (06, 07) -/

def vw (ty : BitVec 5) (dn a b : BitVec 6) : Hcw := word ty 1 dn (sreg a) (sreg b) unused

/-- R103, R100: i8 lanes wrap, lanes without their mask bit keep their value. -/
theorem test_vadd_mask : after (exec (.vadd (vop { vw 0 8 0 4 with mask := 1 }))
    ((withV [(0, 0x7F7F), (4, 0x0101), (8, 0x5555)] (issuing [])).kPut 1 1)) sent = some [.v 8 0x5580] := by decide
/-- The example of R115: four bf16 elements quantised into q4, code type E2M1. -/
theorem test_vqnt : after (exec (.vqnt (vop { word 9 1 10 (sreg 0) unused unused with width := 1, mask := 1, ty2 := 13, aux := 1 }))
    ((withV [(0, 0x3F303EC0BFA040A0)] (issuing [])).kPut 1 0x55)) sent = some [.v 10 0x11A6, .v 11 0x60] := by decide
/-- And back: `vdqnt` recovers 4.0, -1.0, 0.5 and 0.5. -/
theorem test_vdqnt : after (exec (.vdqnt (vop { word 9 1 20 (sreg 10) unused unused with width := 1, mask := 1, ty2 := 13, z := 1 }))
    ((withV [(10, 0x11A6), (11, 0x60)] (issuing [])).kPut 1 0x55)) sent = some [.v 20 0x3F003F00BF804080, .v 21 0] := by decide
/-- The slide with unreadable lanes of R123. -/
theorem test_vslide : after (exec (.vslide (vop { word 4 1 6 (sreg 2) (lit 0) (lit 1) with aux := 3 }))
    ((withV [(2, 0x00000011000000100000000F0000000E0000000D0000000C0000000B0000000A)] (issuing [2, 0xFFFFFFFF])).kPut 3 0x00101111))
    sent = some [.v 6 0xFFFFFFFFFFFFFFFF0000000F0000000F0000000F0000000D0000000D0000000C] := by decide

/-! ### Control, system and synchronisation (09, 10, 23) -/

/-- R168: `br.nz s4` six words back is taken on a set register. -/
theorem test_br : after (exec (.br 2 4 0xFFFA) (withS [(4, 1)])) (fun t => t.t.ctl.xfer) =
    some (some { taken := true, target := 0xFE8, left := 2, callr := none }) := by decide
/-- R171: a loop on s_a = 1 falls through and writes 0; on 0 it is taken and writes 2^64 - 1. -/
theorem test_loop : after (exec (.loop 3 0xFFF8) (withS [(3, 1)])) (fun t => (sent t, t.t.ctl.xfer.map (·.taken))) =
      some ([.s 3 0], some false) ∧
    after (exec (.loop 3 0xFFF8) (withS [(3, 0)])) (fun t => (sent t, t.t.ctl.xfer.map (·.taken))) =
      some ([.s 3 0xFFFFFFFFFFFFFFFF], some true) := by decide
/-- A task whose trap vector is set; its bundle at 0x1000 has not issued. -/
def task (vec : W64) : State :=
  (State.reset.modT fun t => { t with task := some TaskId.minimal, sys := { t.sys with trapvec := vec } }).modBun fun b =>
    { b with addr := 0x1000, next := 0x1008 }
/-- The example of R340: `trap s5, 2` with s5 = 40 delivers cause 0x16 with value 42 at its own bundle. -/
theorem test_trap : after (exec (.trap 5 { l := 0, imm := 2 }) ((task 0x2000).sPut 5 40))
    (fun t => (t.t.sys.cause, t.t.sys.epc, t.t.sys.tval, t.t.sys.h, t.t.ctl.pc)) = some (0x16, 0x1000, 42, true, 0x2000) := by decide
/-- R340: without a vector the task is faulted out. -/
theorem test_trap_fault_out : after (exec (.trap 5 { l := 0, imm := 2 }) (task 0)) (fun t => t.t.ctl.freeze.isSome) =
    some true := by decide
/-- R217: `mts` of a read-only register traps with 0x15. -/
theorem test_mts_readonly : after (exec (.mts 1 10) (task 0x2000)) (fun t => (t.t.sys.cause, t.t.sys.tval)) = some (0x15, 10) := by
  decide
/-- R339: `eret` with H = 0 is illegal. -/
theorem test_eret_illegal : after (exec .eret (task 0x2000)) (fun t => (t.t.sys.cause, t.t.sys.tval)) = some (0x02, 0xD8000000) := by
  decide
/-- R205: the last expected arrival flips PAR; an arrival fewer does not. -/
theorem test_arrive : ((({ Bar.zero with exp := 1 } : Bar).arrive 7).par, (({ Bar.zero with exp := 2 } : Bar).arrive 7).par) =
    (true, false) := by decide
/-- R203: `sys.stage` saturates, in the next cycle. -/
theorem test_stage : after (exec (.stage 1 { l := 0, imm := 2 }) ((withS [(1, 5)]).modSys fun y => { y with stage := 0xFFFFFFFE }))
    (fun t => (sent t, t.t.sys.stage)) = some ([.sys 6 0xFFFFFFFF], 0xFFFFFFFE) := by decide
/-- R181, R182: with s3 = 0, `lds` reads an unmapped address: s8 takes zero and tag 2. -/
theorem test_lds_unmapped : after (exec (.lds 8 3 { l := 0, imm := 0 }) (issuing [])) sent = some [.tagged (.s 8) 2] := by decide
/-- R151: `mzero.hold` sends row 0 the f32 value -0 and leaves SA at 0; `mflip` clears RP. -/
theorem test_mzero : after (exec (.mzero 0 1 0) (issuing [])) (fun t => (t.t.q.fly.map (·.due), t.t.sys.sa)) = some ([12], 0) := by
  decide
/-- R35: a wait on a buffer that is not FULL holds the bundle. -/
theorem test_wait_full : after (exec (.waitFull 3) (task 0x2000)) (fun t => t.t.ctl.bun.st) = some .held := by decide

/-! ### Steps (01, 02, 12, 14) -/

set_option maxRecDepth 4000 in
/-- A step fetches, decodes and runs `ld`-free words: `jmp` two words on is latched, and the pc moves past its bundle. -/
theorem test_step_jmp : after (step (State.reset.withFetchWord 32 0x08000010)) (fun t => (t.t.ctl.pc, t.t.ctl.xfer.map (·.target))) =
    some (8, some 64) := by decide
set_option maxRecDepth 4000 in
/-- A no-op bundle is one word. -/
theorem test_step_nop : after (step (State.reset.withFetchWord 32 0x40000000)) (fun t => t.t.ctl.pc) = some 4 := by decide
set_option maxRecDepth 4000 in
/-- R14, R38: zeroed memory traps with cause 0x01 at the first bundle. -/
theorem test_step_zero : after (step ((State.reset.withFetchWord 32 0x40000000).modCtl fun c => { c with pc := 8 }))
    (fun t => t.t.sys.cause.setWidth 8) = some (0x01 : BitVec 8) := by decide
/-- R229: a write takes a time above the lease of every read before it. -/
theorem test_lease : (({ State.reset with lines := [(0, { wts := 0, rts := 16, ft := none, valid := 0, dirty := 0 })] } : State).engTime 3 0 false true).2 = 17 :=
  by decide

/-! ## States that meet the hypotheses of the statements

One theorem for each statement with hypotheses, named after it: every clause's hypotheses hold together, at the end of their range
where there is one. -/

def iss : State := issuing []
/-- A task whose bundle has not issued. -/
def fresh : State := task 0x2000
/-- A task with one page of translations and its own scratchpad, issuing. -/
def home : State :=
  let s := (task 0x2000).modBun fun b => { b with issuing := true }
  { s with core := { s.core with
      tlb := [{ ctx := 0, va := 0, lg := 16, pa := 0, ms := false, u := true, x := false, w := true, rd := true }] } }

theorem witness_TransfersLatch : iss.bun.issuing = true ∧ (7 : BitVec 4).toNat < 8 := by decide
theorem witness_SlotTraps : fresh.bun.issuing = false ∧ fresh.markOf (.s 1) = none ∧ fresh.tagOf (.s 1) = 0 ∧
    fresh.emptyAt (.s 1) = false ∧ fresh.inDelay = false ∧ (fresh.sGet 1 + fresh.immOf { l := 0, imm := 3 }).toNat % 4 ≠ 0 := by decide
theorem witness_NopsHintsStreamEnds : iss.bun.issuing = true ∧ (1 : BitVec 2).toNat < 2 := by decide
theorem witness_CallrLatches :
    let s := { iss with core := { iss.core with icache := [(16, [])] } }
    s.bun.issuing = true ∧ (s.callOf 16).isSome = true := by decide
theorem witness_SystemRegistersTagsPhases : iss.bun.issuing = true ∧ (13 : BitVec 13).toNat ≤ 13 ∧ fresh.bun.issuing = false ∧
    fresh.markOf (.s 63) = none ∧ fresh.tagOf (.s 63) = 0 ∧ fresh.emptyAt (.s 63) = false ∧ fresh.t.sys.prv = false ∧
    (10 ≤ (13 : BitVec 13).toNat ∧ (13 : BitVec 13).toNat ≤ 13) ∧ 14 ≤ (14 : BitVec 13).toNat := by decide
def region : Region := { handler := 0, first := 16, vals := List.replicate 16 0, rings := [] }
theorem witness_Regions : iss.bun.issuing = true ∧ fresh.bun.issuing = false ∧ fresh.t.ctl.regions = [] ∧
    (fresh.modSys fun y => { y with h := true }).t.sys.h = true ∧
    4 ≤ (fresh.modCtl fun c => { c with regions := List.replicate 4 region }).t.ctl.regions.length := by decide
theorem witness_LoadsJoinCorePath : home.bun.issuing = true ∧ (6 : BitVec 3) ≠ 7 ∧ (2 : BitVec 2) ≠ 3 ∧
    (let s := home.sPut 2 0x8000
     s.readTrap (scalarAcc .rd 8) (s.sGet 2 + s.immOf { l := 0, imm := 8 }) 8 = none ∧ (s.sGet 2 + off32 0).toNat % 32 = 0 ∧
       s.readTrap (vectorAcc .rd) (s.sGet 2 + off32 0) 128 = none) := by decide
theorem witness_SpeculativeLoadsTag :
    (iss.readTrap (scalarAcc .rd 8) (iss.sGet 3 + iss.immOf { l := 0, imm := 0 }) 8).map (·.cause) = some 0x08 ∧
    (let s := iss.sPut 2 4
     (s.sGet 2 + off32 0).toNat % 32 ≠ 0 ∧ (0x06 : BitVec 8) = 0x06) ∧
    (iss.sGet 3 + off32 0).toNat % 32 = 0 ∧ (iss.readTrap (vectorAcc .rd) (iss.sGet 3 + off32 0) 128).map (·.cause) = some 0x08 := by
  decide
theorem witness_ElementLoadsJoinCorePath : iss.bun.issuing = true ∧ (2 : BitVec 2) ≠ 3 := by decide
theorem witness_StoresArePosted : iss.bun.issuing = true ∧ (6 : BitVec 3).toNat % 2 = 0 ∧ (2 : BitVec 2) ≠ 3 := by decide
theorem witness_AtomicsJoinCorePath :
    let s := home.sPut 2 0x8000
    s.bun.issuing = true ∧ ((s.readPieces (scalarAcc .wr 8) (s.sGet 2) 8).length = 1) := by decide
theorem witness_CopiesEnterQueue : iss.bun.issuing = true ∧ (iss.buf 0).rl = false ∧
    ((iss.setBuf 0 { Buf.zero with w0 := 0x0008000000000000 }).buf 0).rl = true := by decide
/-- A copy that has not started. -/
def copy1 : CopyReq :=
  { tag := 0, kind := .fetch, active := false, granted := false, base := 0, promise := 6458, chk := true, missed := false, buf := 0, w0 := 0, w1 := 0
    handle := [], xs := [], desc := [], rcd := none, bytes := 16384, bar := none, bun := 0, seq := 0 }
def copying (c : CopyReq) (s : State) : State := s.modEng fun e => { e with cpq := [c] }
theorem witness_BuffersAndPromises : iss.bun.issuing = true ∧ (∀ q ∈ iss.t.eng.cpq, q.tag ≠ (iss.sGet 1).setWidth 16) ∧
    (copying copy1 iss).t.eng.cpq = [] ++ copy1 :: [] ∧ copy1.tag = ((copying copy1 iss).sGet 1).setWidth 16 ∧
    (let s := (copying copy1 iss).modEng fun e => { e with nextTag := 4 }
     copy1 ∈ s.t.eng.cpq ∧ copy1.tag = s.t.eng.nextTag - 4) := by decide
theorem witness_BarriersAndGroups : iss.bun.issuing = true := by decide
theorem witness_PhasesAndGenerations : (Bar.zero.arr = Bar.zero.exp ∧ Bar.zero.pend = 0) ∧
    ¬({ Bar.zero with exp := 1 } : Bar).arr = ({ Bar.zero with exp := 1 } : Bar).exp ∧
    (let g := Group.zero.join 1 0
     let h := g.join 1 1
     Group.zero.find 1 0 = none ∧ Group.zero.elig = 0 ∧ g.elig = 1 ∧ g.arr ≠ g.elig ∧ (g.find 1 0).map (·.later) = some false ∧
       (g.find 1 1).isNone = true ∧ (h.find 1 1).map (·.later) = some true ∧ 0 < h.elig ∧ ((h.gbar 1 0 5).1.gen, (h.gbar 1 0 5).1.elig) = (1, 2)) := by
  decide
/-- A store waiting on the core path. -/
def stored (op : CoreOp) (s : State) : State :=
  s.modQ fun q => { q with cq := [{ op, bun := 0, seq := 0, lt := 0, start := 0 }] }
def store1 : StElem := { addr := BitVec.ofNat 64 (ownBase + 64), bytes := [1, 2, 3, 4, 5, 6, 7, 8] }
theorem witness_Fences : iss.bun.issuing = true ∧ (5 : BitVec 3).toNat < 6 ∧ (0x7F : BitVec 7) ≠ 0 ∧ fresh.bun.issuing = false ∧
    (stored (.store [store1] true) fresh).t.q.cq.any (·.op.posted) = true ∧ fresh.t.q.cq.any (·.op.posted) = false ∧
    (fresh.modCtl fun c => { c with dpf := some { addr := 0, sub := 0, bun := 0, more := false, seq := 0 } }).t.ctl.dpf.isSome = true := by decide
def beat : YBeat := { die := 0, rcd := 0, member := 0, slot := 5, x := 0, bad := false, lt := 0 }
theorem witness_YokeBeats : home.bun.issuing = true ∧ home.t.task = some TaskId.minimal ∧ TaskId.minimal.n ≠ 0 ∧
    home.t.sys.log = false ∧ home.t.sys.rpl = false ∧ (({ home with yoke := [beat] } : State).beatOn 5).isSome = true := by decide
theorem witness_HandlesAndRequests : iss.bun.issuing = true := by decide
/-- Handle 1 of one KB32 block at 0x5000, its bitmap at 0x8000, under `mem`'s page tables. -/
def relaying (mem : Sp Byte) : State :=
  { iss.modT fun t => { t with task := some TaskId.minimal, regs := { t.regs with s := [(4, 1), (5, 0x6000)] } } with
    mem := memWrite (memWrite mem 64 (leBytes 40 (0x5000 + 2 ^ 64 * 0x8080 + 2 ^ 128 * 0x0000000100000001))) 104 (leBytes 8 0x8000) }
/-- The bitmap of `relaying` is written, or refused. -/
def clearing (s : State) : Option Bool :=
  let u := s.readHandle 1
  (u.topReq (s.handleAt 1)).map fun q => (u.zeroBitmap 0 q (s.handle 1)).fail.isNone
set_option maxRecDepth 4000 in
theorem witness_RelayoutStartsOrResumes :
    (let s := { home with mem := memWrite [] 8 (leBytes 8 0x00180000) }
     s.bun.issuing = true ∧ s.t.task = some TaskId.minimal ∧ (s.handle 0).resumes (s.sGet 4) 0 = true) ∧
    (let s := relaying (memWrite (memWrite (memWrite [] 0 (leBytes 8 0x1001)) 0x1000 (leBytes 8 0x2001)) 0x2000 (leBytes 8 0x2F))
     s.bun.issuing = true ∧ s.t.task = some TaskId.minimal ∧ s.t.sys.log = false ∧ s.t.sys.rpl = false ∧ s.t.ctl.zeroed = [] ∧ (s.sGet 4).toNat = 1 ∧
       (s.handle 1).resumes (s.sGet 5) 4 = false ∧ clearing s = some true) ∧
    clearing (relaying []) = some false := by decide
theorem witness_MatrixControl : iss.bun.issuing = true := by decide
theorem witness_RingBeats : iss.bun.issuing = true := by decide
theorem witness_MdrainDrains : iss.bun.issuing = true ∧ (3 : BitVec 2).toNat * (32 * 2 ^ (0 : BitVec 2).toNat) + 32 * 2 ^ (0 : BitVec 2).toNat ≤ 128 := by
  decide
theorem witness_WaitsAcquire : iss.bun.issuing = true ∧ (2 : BitVec 2) ≠ 3 := by decide
def ten1 : TenReq :=
  { dst := 9, fmt := 0x10, v16l := false, auto := true, e := 0, targets := [0x7F800000], block := 0, scale := 0, base := 0, bun := 0
    seq := 0, running := false, table := none, bad := 0 }
theorem witness_WaitsHold : fresh.bun.issuing = false ∧ (fresh.buf 0).st ≠ .full ∧
    ((fresh.setBufSt 0 .full).buf 0).st ≠ .free ∧ (fresh.ring 0).cnt < (1 : BitVec 9).toNat ∧
    (fresh.modEng fun e => { e with ten := [ten1] }).t.eng.ten ≠ [] ∧ fresh.cyc % 16 ≠ (15 : BitVec 4).toNat ∧
    (fresh.barAt none 63).par = ((0 : BitVec 1) == 1) ∧
    (fresh.sPut 63 1).markOf (.s 63) = none ∧ (fresh.sPut 63 1).tagOf (.s 63) = 0 ∧
    (fresh.sPut 63 1).emptyAt (.s 63) = false ∧ (fresh.sPut 63 1).cyc < ((fresh.sPut 63 1).sGet 63).toNat ∧
    2 ^ 31 ≤ (BitVec.ofNat 32 fresh.cyc - (fresh.modBun fun b => { b with lits := [1] }).bun.lits.getD 0 0).toNat ∧
    (fresh.setEmpty (.s 63) true).emptyAt (.s 63) = true ∧ (fresh.setEmpty (.v 63) true).emptyAt (.v 63) = true ∧
    (fresh.setEmpty (.k 7) true).emptyAt (.k ((7 : BitVec 6).setWidth 3)) = true ∧ (7 : BitVec 6).toNat < 8 ∧
    (let s := fresh.setRing 7 (ringWith 0 0 1 0)
     (s.ring 7).nt ≤ (s.ring 7).cnt + (s.t.eng.cpq.filter fun q => match q.kind with
      | .ring g' _ _ => g' == 7
      | _ => false).length) := by decide
/-- A gang of two cores, member 1 placed beside this task or PARKED. -/
def paired (parked : Bool) : State :=
  let k : TaskId := { TaskId.minimal with n := 2, cores := [0, 1], save := 0x1000000 }
  let k1 : TaskId := { k with member := 1 }
  let s := (fresh.modT fun t => { t with task := some k }).modBun fun b => { b with lits := [0x7F] }
  if parked then { s with images := [(k.imageOf 1, { TaskSpan.fresh with task := some k1 })] }
  else { s with others := [{ Core.reset 1 with t := { TaskSpan.fresh with task := some k1 } }] }
theorem witness_WaitsHold_gang : (0x7F : W32).toNat < 2 ^ 12 ∧ (0x7F : W32).toNat / 64 = 1 ∧ (paired false).hasMember 1 = true ∧
    ((paired false).barAt (some 1) 0x3F).par = ((0 : BitVec 1) == 1) ∧ (paired true).hasMember 1 = true ∧
    (paired true).memberParked 1 = true ∧
    (let s := fresh.modEng fun e => { e with groups := spPut e.groups 63 { await := some 0 } }
     (spGet { await := none } s.t.eng.groups 63).await = some 0 ∧
       (s.group (s.myGroup 63).1).gen + (s.group (s.myGroup 63).1).skip ≤ 0) := by decide
theorem witness_HardWiredRegisters : (63 : BitVec 6) ≠ 0 ∧ (7 : BitVec 3) ≠ 0 := by decide
theorem witness_MemoryReadsWhatWasWritten : Memory.wf (memWrite [] 7 [1, 0, 2]) = true ∧ 6 < 7 ∧ 7 + [1, 0, 2].length ≤ 10 := by decide

/-- The premises of StorePerforms on a store at the head of the core path. -/
def storable (s : State) (x : StElem) : Bool :=
  let n := x.bytes.length
  match s.access s.xl { acc := .wr, align := some n, eng := false } x.addr n with
  | .ok ps => !(bare ps).any s.breach && !(bare ps).any s.pieceWaits && !(bare ps).any s.pieceBusy && !s.quiesced (bare ps) && (bare ps).all (fun p => (s.writeFails p.at_).isNone) &&
      !s.t.sys.log && !s.t.sys.rpl
  | .error _ => false
theorem witness_StorePerforms : storable (stored (.store [store1] true) home) store1 = true ∧
    storable (stored (.store [{ store1 with addr := 0x8000 }] true) home) { store1 with addr := 0x8000 } = true := by decide
def piecesOfStore (s : State) (x : StElem) : List Piece :=
  match s.access s.xl { acc := .wr, align := none, eng := false } x.addr x.bytes.length with
  | .ok ps => bare ps
  | .error _ => []
/-- A vector store over the end of a 256-byte sector performs as two pieces. -/
theorem witness_StorePerforms_pieces :
    let x := { store1 with addr := 0x80FC }
    let s := stored (.store [x] false) home
    s.t.q.cq.length = 1 ∧ (piecesOfStore s x).map (·.len) = [4, 4] ∧ (piecesOfStore s x).any s.breach = false ∧
      (piecesOfStore s x).all (fun p => !s.pieceWaits p && !s.pieceBusy p) = true ∧ s.quiesced (piecesOfStore s x) = false ∧
      (piecesOfStore s x).all (fun p => (s.writeFails p.at_).isNone) = true := by decide
/-- A gang of two, the other member on core 1. -/
def ganged : State :=
  let k (c : Core) (id m : Nat) : Core :=
    { c with id, t := { c.t with task := some { TaskId.minimal with n := 2, cores := [0, 1], member := m } } }
  { home with core := k home.core 0 0, others := [k home.core 1 1] }
theorem witness_StorePerforms_gang :
    let x := { store1 with addr := BitVec.ofNat 64 (gangBase + 0x800000 + 64) }
    let s := stored (.store [x] true) ganged
    s.memberId 1 = some 1 ∧ piecesOfStore s x = [{ at_ := .gang 1 64, len := 8 }] ∧ storable s x = true := by decide
theorem witness_DecodeEncode : (Instr.mpad 64).wf = true ∧ encode (.mpad 64) = some (.m 0x8040) := by decide
theorem witness_UnassignedRefused : decodeC 0x1C020000 = some (.loop 2 0) ∧ decodeM 0x2E00 = some (.mpush 7) ∧
    decodeW 0xB00F = some (.waitYslot 15) ∧ (0 : W32).toNat / 2 ^ 26 = 0 ∧ (0x7FFFFFFF : W32).toNat / 2 ^ 26 = 0x1F ∧
    (0xFFFF : BitVec 16).toNat / 2 ^ 12 = 15 ∧ (0 : W32).toNat / 2 ^ 30 ≠ 1 := by decide
/-- The premises of StepRunsInstruction, with how the bundle is judged. -/
def runs (s : State) (j : State → Gate → Bool) : Bool :=
  match s.iline s.t.ctl.pc.toNat with
  | some l =>
    match s.bundleAt l with
    | (u, .bundle b) =>
      decide (u = s) && (match b.ops with
        | [o] =>
          match o.i with
          | some i => j (s.startBundle b) (gateOf i (s.startBundle b))
          | none => false
        | _ => false)
    | _ => false
  | none => false
def ready (s : State) : Bool :=
  s.power && s.agenda.isEmpty && !s.core.acted && s.t.task.isSome && s.t.hcwLeft.isEmpty && !s.t.ctl.stopped s.cyc &&
    decide (s.eAt ≤ s.cyc) && decide (s.preTrap = none) && s.t.ctl.native.isNone && decide (s.core.defer = 2)
set_option maxRecDepth 4000 in
theorem witness_StepRunsInstruction :
    (let s := State.reset.withFetchWord 32 0x08000010
     ready s = true ∧ runs s (fun u g => match u.judge [g] with | .go => true | _ => false) = true) ∧
    (let s := (State.reset.withFetchWord 16 0x1003)
     ready s = true ∧ runs s (fun u g => match u.judge [g] with | .hold => true | _ => false) = true) ∧
    (let s := (State.reset.withFetchWord 32 0xD4014002)
     ready s = true ∧ runs s (fun u g => match u.judge [g] with | .trap .. => true | _ => false) = true) := by decide
def moved (n : Nat) : Xfer := { taken := true, target := 0x2000, left := n, callr := none }
theorem witness_FinishMovesPc : 1 < (moved 2).left ∧ (moved 1).left ≤ 1 ∧ (moved 1).callr = none ∧
    (fresh.modCtl fun c => { c with xfer := some (moved 1) }).t.ctl.xfer = some (moved 1) ∧ fresh.t.ctl.owed63 = none ∧
    (let s := fresh.modCtl fun c => { c with owed63 := some (0, 0x1000) }
     s.t.ctl.owed63 = some (0, s.bun.addr) ∧ s.sGet 63 = 0) := by decide
theorem witness_StepStopsWithoutPower : ({ State.reset with power := false } : State).power = false ∧ State.reset.agenda = [] ∧
    State.reset.power = true := by decide
set_option maxRecDepth 4000 in
theorem witness_StepKeepsMemory : Memory.wf (State.reset.withFetchWord 32 0x08000010).mem = true ∧
    (after (step (State.reset.withFetchWord 32 0x08000010)) fun _ => ()) = some () := by decide
/-- A gate that passes every check, and gates that fail one. -/
def gate0 : Gate := Gate.c .endTask [] []
def trap0 : Trap := { cause := 0x02, slot := .c, tval := 0, sub := 0 }
theorem witness_JudgeOrder : ({ gate0 with bad := true } : Gate).bad = true ∧ gate0.bad = false ∧ gate0.badTrap = none ∧
    ({ gate0 with badTrap := some trap0 } : Gate).badTrap = some trap0 ∧ (fresh.poisonTrap { gate0 with poison := true }).isSome = true ∧
    ({ gate0 with reads := [(.s 5, true)] } : Gate).reads = [] ++ (.s 5, true) :: [] ∧ ({ gate0 with early := some trap0 } : Gate).early =
      some trap0 ∧ ({ gate0 with trap := some trap0 } : Gate).trap = some trap0 ∧
    (fresh.modCtl fun c => { c with xfer := some (moved 1) }).inDelay = true ∧ ({ gate0 with xfer := true } : Gate).xfer = true ∧
    fresh.inDelay = false ∧ fresh.poisonTrap gate0 = none ∧ (fresh.setEmpty (.s 5) true).emptyAt (.s 5) = true ∧
    (fresh.setEmpty (.s 5) true).poisonTrap { gate0 with writes := [.s 5] } = none ∧ gate0.early = none ∧
    ({ gate0 with hold := true } : Gate).hold = true ∧ gate0.hold = false ∧ gate0.trap = none ∧
    ((fresh.setEmpty (.s 5) true).resultReg (.s 5)) = false := by decide
theorem witness_TrapDelivery : fresh.faultsOut 0x16 = false ∧ (task 0).faultsOut 0x16 = true ∧
    (fresh.modSys fun y => { y with h := true }).faultsOut 0x16 = true := by decide
def inst (l : List Instr) : Bool := l.all fun i => i.wf && i.hcw?.isSome
theorem witness_ControlWordsComplete : iss.bun.issuing = true ∧ inst [.add (op (s3 4)), .add (op { s3 4 with rep := 2 })] = true ∧
    (issuing []).bun.rep = 0 ∧ ((issuing []).modBun fun b => { b with rep := 1 }).bun.rep ≠ 0 := by decide
theorem witness_IntegerResults : iss.bun.issuing = true ∧ inst [.add (op (s3 4)), .sub (op (s3 5)), .mul (op (s3 6)),
    .madd (op { s3 7 with c := sreg 3 }), .neg (op (x1 (sreg 1) 0)), .abs (op (x1 (sreg 1) 0)), .min (op (s3 4)), .max (op (s3 4)),
    .minn (op (s3 5)), .maxn (op (s3 5)), .mulh (op (s3 0)), .mulhn (op (s3 1)), .cmpeq (op (s3 7)), .cmpne (op (s3 4)),
    .cmplt (op (s3 4)), .cmple (op (s3 4)), .cmpltn (op (s3 5)), .cmplen (op (s3 5))] = true := by decide
theorem witness_DividesTakeStations : inst [.div (op (s3 0)), .divn (op (s3 1)), .rem (op (s3 6)), .remn (op (s3 7))] = true := by
  decide
theorem witness_BitResults : inst [.and (op (s3 4)), .or (op (s3 5)), .xor (op (s3 4)), .andn (op (s3 4)), .shl (op (s3 4)),
    .shr (op (s3 4)), .sar (op (s3 4)), .rol (op (s3 4)), .clz (op (x1 (sreg 1) 4)), .ctz (op (x1 (sreg 1) 4)),
    .popc (op (x1 (sreg 1) 4)), .bext (op { x1 (sreg 1) 6 with aux := 0xFC0 }), .bins (op { s3 7 with aux := 0x3F })] = true := by
  decide
theorem witness_ScalarResults : iss.t.ctl.native = none ∧ inst [.mov (op (x1 (sreg 1) 8)), .movl (op (x1 (lit 0) 7)),
    .movl (op (x2 (lit 0) (lit 1) 7)), .sel (op { s3 4 with c := sreg 3 }), .vget (op (x2 (sreg 1) (sreg 2) 12)), .fadd (op (s3 8)),
    .fsub (op (s3 8)), .fmul (op (s3 8)), .fma (op { s3 10 with c := sreg 3 }), .fcmp (op { s3 8 with aux := 7 }),
    .fmin (op (s3 8)), .fmax (op (s3 9)), .fcvt (op { x1 (sreg 1) 12 with ty2 := 8, aux := 0x15 }),
    .rqpop (op (word 7 0 3 unused unused unused)), .rdcyc (op (word 7 0 3 unused unused unused)), .rdtc (op { word 7 0 3 unused unused unused with aux := 2 })] = true := by decide
theorem witness_VectorLanes : iss.t.ctl.native = none ∧ inst [.vadd (vop (v8 4)), .vsub (vop (v8 8)), .vmul (vop (v8 12)),
    .vfma (vop { v8 8 with c := sreg 12 }), .vimad (vop { v8 4 with c := sreg 12 }), .vmin (vop (v8 8)), .vmax (vop (v8 4)),
    .vabs (vop { v8 8 with b := unused }), .vneg (vop { v8 4 with b := unused }), .vand (vop (v8 4)), .vor (vop (v8 4)),
    .vxor (vop (v8 4)), .vnot (vop { v8 4 with b := unused }), .vshr (vop (v8 4)), .vsel (vop { v8 8 with c := sreg 12 }),
    .vmov (vop { v8 4 with b := unused }), .vcmp (vop { v8 4 with aux := 5 }), .vcmp (vop { v8 8 with dk := 2, dn := 7, aux := 7 }),
    .vpopc (vop { v8 4 with b := unused }), .vpfx (vop (v8 5)), .vrcp (vop { v8 8 with b := unused }), .vsqrt (vop { v8 9 with b := unused })] = true := by
  decide
theorem witness_VectorLanes_more : inst [.vmulh (vop (v8 4)), .vfms (vop { v8 9 with c := sreg 12 }), .vfnma (vop { v8 9 with c := sreg 12 }),
    .vabd (vop (v8 4)), .vclamp (vop { v8 4 with c := sreg 12 }), .vshl (vop (v8 4)), .vsar (vop (v8 4)), .viota (vop (v8 4)),
    .vbcast (vop { v8 4 with b := unused, aux := 8 }), .vexpnd (vop { v8 4 with b := unused }), .vrnd (vop (v8 4)),
    .vrsq (vop { v8 8 with b := unused }), .vexp2 (vop { v8 8 with b := unused }), .vlog2 (vop { v8 8 with b := unused }),
    .vtanh (vop { v8 8 with b := unused }), .vsmth (vop (v8 8))] = true := by decide
theorem witness_PermutesTilesMasks : iss.t.ctl.native = none ∧ inst [.vperm (vop (v8 4)), .vrotl (vop (v8 4)),
    .vslide (vop { v8 4 with aux := 8 }), .vxlane (vop (v8 4)), .vbcast (vop { v8 4 with c := lit 2, aux := 3 }),
    .vzip (vop { v8 4 with c := lit 2, aux := 3 }), .vunzip (vop { v8 4 with c := lit 2, aux := 11 }),
    .vcmprs (vop { v8 4 with b := unused, c := lit 2 }), .vinter (vop { v8 1 with c := sreg 12 }),
    .vtrow (vop { word 4 3 24 (sreg 0) (sreg 1) unused with ty2 := 4 }), .vtcol (vop (word 0 1 8 unused (sreg 30) unused)),
    .kand (vop (word 0 2 3 (sreg 1) (sreg 2) unused)), .kor (vop (word 0 2 3 (sreg 1) (sreg 2) unused)),
    .kxor (vop (word 0 2 3 (sreg 1) (sreg 2) unused)), .knot (vop (word 0 2 3 (sreg 1) unused unused)),
    .kmov (vop (word 0 2 5 (sreg 2) unused unused)), .kmov (vop (word 0 0 5 (sreg 2) unused unused))] = true := by decide
theorem witness_DotsReductionsConversions : iss.t.ctl.native = none ∧ inst [.vcvt (vop { v8 4 with b := unused, ty2 := 4 }),
    .vdqnt (vop { v8 8 with b := unused, width := 2 }), .vdp4 (vop { v8 0 with c := sreg 12 }), .vsad (vop { v8 0 with c := sreg 12 }),
    .vdp2 (vop { v8 9 with c := sreg 12 }), .vqnt (vop { v8 8 with b := unused, width := 2 }),
    .vred (vop { v8 4 with b := unused, aux := 2 }), .vred (vop { v8 8 with b := unused, dk := 0, dn := 3 }),
    .vscan (vop { v8 4 with b := unused, aux := 10 }), .vsscan (vop { v8 4 with b := sreg 6, aux := 2 })] = true := by decide

def flight (e : Effect) : Flight := { due := 0, seq := 0, slot := 0, rep := 0, eff := e, flags := 0 }
def flying (e : Effect) : State := iss.modQ fun q => { q with fly := [flight e] }
theorem witness_ResultsLand_native : iss.t.ctl.native = none := rfl
theorem witness_ResultsLand (e : Effect) : (flying e).t.q.fly = [flight e] ∧ (flight e).due ≤ (flying e).cyc ∧
    (flight e).due < ({ flying e with cyc := 1 } : State).cyc := ⟨rfl, Nat.le_refl 0, Nat.zero_lt_one⟩
theorem witness_ResultsLand_latch : ({ flying (.latch 0 0 false 0) with cyc := 1 } : State).latchWaits (.latch 0 0 false 0) = false := by decide
/-- A load of n bytes at a place. -/
def loadAt (dst : LoadDst) (at_ : Place) (n : Nat) : CoreOp :=
  .load dst 0x8000 n false [{ off := 0, addr := 0x8000, pieces := [{ at_, len := n }], alt := none }] false
def load1 (n : Nat) : CoreOp := loadAt (.s 9 false) (.own 0) n
def dividing (c : Nat) : State :=
  let s := iss.modQ fun q => { q with divs := [{ start := 0, reg := 9, val := 7, ready := 0 }] }
  { s with cyc := c }
/-- Nothing at a place makes an access of n bytes wait or refuses it. -/
def openAt (s : State) (at_ : Place) (n : Nat) : Bool :=
  let p : Piece := { at_, len := n }
  !s.pieceWaits p && !s.pieceBusy p && !s.breach p && (s.writeFails at_).isNone && !s.t.sys.log && !s.t.sys.rpl
/-- The sector at 0x8000 in the L1 under a lease. -/
def leased (lt : Time) : State :=
  { home with core := { home.core with lt, l1 := [{ sector := 0x80, w := 0, r := 5, data := [], bad := false, ft := none }] } }
theorem witness_LongResultsReturn : (0 + 6 ≤ (dividing 6).cyc) ∧ (dividing 5).cyc < 0 + 6 ∧ fresh.t.sys.log = false ∧ fresh.t.sys.rpl = false ∧
    (stored (load1 8) fresh).t.q.cq.length = 1 ∧ (stored (load1 8) fresh).core.scrBad 0 8 = false ∧ fresh.t.q.rqPend = [] ∧
    (0 : Nat) ≤ (dividing 6).t.q.rqGen ∧ (dividing 6).t.q.rqCyc < (dividing 6).cyc ∧ fresh.cyc ≤ fresh.t.q.rqCyc := by decide
theorem witness_LongResultsReturn_places : openAt (stored (load1 8) home) (.own 0) 8 = true ∧ ganged.memberId 1 = some 1 ∧
    openAt (stored (loadAt (.v 8 4) (.gang 1 64) 128) ganged) (.gang 1 64) 128 = true ∧
    openAt (stored (loadAt (.v 60 4) (.glob 0x8080 false none) 128) home) (.glob 0x8080 false none) 128 = true ∧ 0x8080 % 256 + 128 ≤ 256 ∧
    openAt home (.glob 0x8000 true none) 8 = true ∧ home.badAt 0x8000 256 = false ∧ l1Find home.core.l1 0x80 = none ∧
    (l1Find (leased 5).core.l1 0x80).isSome = true ∧ tle (leased 5).core.lt 5 = true ∧ tle (leased 6).core.lt 5 = false ∧
    0 = ((leased 6).line 0x8000).wts ∧ (leased 6).lostAt 0x8000 = false := by decide
def amoAt (op : Nat) (at_ : Place) (n : Nat) : State → State := stored (.amo op 9 0x8000 at_ n 1 0)
theorem witness_AtomicsPerform : openAt (amoAt 9 (.own 0) 8 home) (.own 0) 8 = true ∧
    openAt (amoAt 11 (.gang 1 64) 4 ganged) (.gang 1 64) 4 = true ∧ ((ganged.memberId 1).bind ganged.coreById).isSome = true ∧
    openAt (amoAt 12 (.glob 0x8000 false none) 4 home) (.glob 0x8000 false none) 4 = true ∧ home.badAt 0x8000 4 = false ∧
    (let s := stored (.red 8 0x8000 8 7 0) home
     match s.access s.xl (scalarAcc .amo 8) 0x8000 8 with
      | .ok [(p, _)] => p.len == 8 && openAt s p.at_ 8
      | _ => false) = true := by decide
/-- Rows of R188: what is stored, and what is answered, in the own scratchpad: the signed minimum of -1 and 1, a compare that differs. -/
theorem test_amo_perform :
    (let s := { home with core := home.core.scrWrite 0 (leBytes 8 0xFFFFFFFF) false 0 }
     after (exec (.amoReturn 9 0 0 0) (amoAt 4 (.own 0) 4 s)) (fun t => (ofLe (t.core.scrRead 0 4), t.sGet 9)) = some (0xFFFFFFFF, 0xFFFFFFFF) ∧
     after (exec (.amoReturn 9 0 0 1) (amoAt 9 (.own 0) 8 s)) (fun t => (ofLe (t.core.scrRead 0 8), t.sGet 9)) = some (0xFFFFFFFF, 0xFFFFFFFF)) := by
  decide
/-- Tables of three levels that map the first gigabyte to itself. -/
def mapped : State :=
  { fresh with mem := memWrite (memWrite (memWrite [] 0 (leBytes 8 0x1001)) 0x1000 (leBytes 8 0x2001)) 0x2000 (leBytes 8 0x2F) }
def isOk {ε α : Type} (x : Except ε α) : Bool :=
  match x with
  | .ok _ => true
  | .error _ => false
theorem witness_TranslationEvents : isOk (mapped.walk mapped.xl.ctx mapped.xl.root 0x8000) = true ∧
    isOk (fresh.walk fresh.xl.ctx fresh.xl.root 0x8000) = false ∧ (fresh.tlbiOf fresh.pilotDie).busy = false ∧
    ((fresh.setTlbi 0 { Tlbi.zero with busy := true }).tlbiOf fresh.pilotDie).busy = true ∧ fresh.translated = false ∧
    (stored (load1 8) fresh).translated = true := by decide
def sched1 : State :=
  let s := mapped.modT fun t => { t with task := some { TaskId.minimal with schn := 1, sched := 0x3000 } }
  { s with mem := memWrite s.mem 8 (leBytes 8 0x8000) }
theorem witness_CopyEvents : (∀ p ∈ (copying copy1 fresh).t.eng.cpq, p = copy1) ∧ copy1.active = false ∧
    ((copying copy1 fresh).t.eng.cpq.filter (·.active)).length < 4 ∧ fresh.t.ctl.freeze = none ∧ copy1.chk = true ∧
    copy1.missed = false ∧ copy1.promise < ({ copying copy1 fresh with cyc := 6459 } : State).cyc ∧
    (copying { copy1 with active := true } fresh).mayComplete { copy1 with active := true } = true ∧
    (copying { copy1 with active := true } fresh).copyWaits { copy1 with active := true } = false ∧ fresh.t.ctl.rho ≤ fresh.cyc ∧
    fresh.issuer.log = false ∧ fresh.issuer.rpl = false ∧ (∀ q ∈ fresh.t.eng.cpq, q.tag ≠ 7) := by decide
/-- The premises of the release of a copy schedule's entry, a fetch's or a write-back's. -/
def releasable (s : State) (back : Nat) : Bool :=
  s.t.task.isSome && !s.t.eng.relStop && decide (s.t.eng.relp < 1) && !s.copyFull && s.t.ctl.freeze.isNone && s.t.ctl.ending.isNone &&
    decide (s.t.ctl.rho ≤ s.cyc) && !s.issuer.log && !s.issuer.rpl &&
    !s.farWaits (s.engPieces (engAcc .rd) [(0x3000 + BitVec.ofNat 64 (32 * s.t.eng.relp), 32)]) &&
    (match s.entryWords (0x3000 + BitVec.ofNat 64 (32 * s.t.eng.relp)) with
      | .ok ws =>
        let u := s.modBun fun b => { b with mret := none }
        let b := BitVec.ofNat 6 (field (wordAt ws 0) 18 6)
        let h := BitVec.ofNat 8 (field (wordAt ws 0) 24 8)
        let xs := coords (ws.getD 1 0) (ws.getD 2 0)
        field (wordAt ws 0) 17 1 == back && field (wordAt ws 0) 0 17 == 0 && wordAt ws 3 == 0 &&
          decide (field (wordAt ws 0) 32 32 ≤ s.t.sys.stage.toNat) && s.entryReady (wordAt ws 0) &&
          (if back = 1 then u.copyoTraps b h xs else u.copyTraps b h xs).isNone
      | .error _ => false)
theorem witness_CopyEvents_release : releasable sched1 0 = true ∧
    releasable (State.setBufSt { sched1 with mem := memWrite sched1.mem 0x3000 (leBytes 8 (2 ^ 17)) } 0 .full) 1 = true := by decide
def encoding (q : TenReq) : State := fresh.modEng fun e => { e with ten := [q] }
/-- A conversion at die 0 whose handle image stands at 0x4000: one KB32 block, its bitmap at 0x8000; `next` is its next tile, `moved` the
units of it that have been moved once it is locked. -/
def converting (next : Option Nat) (moved : Option (List Nat)) : State :=
  let q : TopReq := { img := 0x4000, ctx := 1, ptroot := 0, fws := [], rcd := 0, member := 0, bun := 0, seq := 0, base := 0, prv := false
                      next, locked := moved.isSome, moved := { done := moved.getD [] } }
  { mapped with
    topiary := [(0, [q])]
    mem := memWrite (memWrite mapped.mem 0x4000
      (leBytes 40 (0x5000 + 2 ^ 64 * 0xC8080 + 2 ^ 128 * 0x0000000100000001))) 0x4028 (leBytes 16 (0x8000 + 2 ^ 64 * 0x6000)) }
/-- The same conversion with no translations. -/
def unmapped (s : State) : State := { s with mem := memWrite s.mem 0 (leBytes 8 0) }
/-- What holds of the conversion at the head of die 0's queue. -/
def topIs (s : State) (p : TopReq → Handle → Eng → Bool) : Bool :=
  match topQueue s 0 with
  | q :: _ =>
    let h := handleOf (s.rdWords q.img 8)
    h.cv && !h.halt && h.nTiles == 1 && !(s.topIssuer q).log && !(s.topIssuer q).rpl && p q h (s.topEng 0 q)
  | [] => false
/-- The engine has what it reads of these pieces. -/
def topHas (s : State) (e : Eng) (got : MsGot) (xs : List (W64 × Nat)) : Bool :=
  (s.reachedBy e.who (s.msPieces e.xl .rd xs)).all (gotPiece got)
set_option maxRecDepth 8000 in
/-- The bitmap is found, or cannot be read; the tile can be locked. -/
theorem witness_EngineEvents_find :
    (let s := converting none none
     topIs s fun q h e => q.next.isNone && !q.locked && ((Run.start s e.l).topPeek e h.cbmp h.bmBytes).fail.isNone &&
       !s.farWaits (s.topPieces e .rd [(BitVec.ofNat 64 h.cbmp, h.bmBytes)]) && topHas s e q.bits [(BitVec.ofNat 64 h.cbmp, h.bmBytes)]) = true ∧
    (let s := unmapped (converting none none)
     topIs s fun _ h e => ((Run.start s e.l).topPeek e h.cbmp h.bmBytes).fail.isSome) = true ∧
    (let s := converting (some 0) none
     topIs s fun q h e =>
       let ms := h.tileMoves 0
       let ws := s.topPieces e .wr (moveDsts ms) ++ s.topPieces e .wr [h.bitByte 0]
       !q.locked && (((Run.start s e.l).tryMoves e h ms).tryBit e h 0).fail.isNone && !s.quiesced (s.topPieces e .wr (moveDsts ms)) &&
         !s.farWaits (s.topPieces e .rd (moveSrcs ms) ++ ws) && !ws.any s.pieceBusy) = true := by decide
set_option maxRecDepth 8000 in
/-- The locked tile's first unit moves, or its checks fail; with every unit moved the tile commits, or its bit's checks fail; after the last
tile the old base is dropped. -/
theorem witness_EngineEvents_move :
    (let s := converting (some 0) (some [])
     topIs s fun q h e => q.locked && (s.topLeft 0 q h 0).isEmpty && match (s.topUnits 0 q h 0)[0]? with
       | some ms => !q.moved.done.contains 0 && topHas s e q.moved.got (moveSrcs ms) && ((Run.start s e.l).tryMoves e h ms).fail.isNone
       | none => false) = true ∧
    (let s := unmapped (converting (some 0) (some []))
     topIs s fun q h e => match (s.topUnits 0 q h 0)[0]? with
       | some ms => topHas s e q.moved.got (moveSrcs ms) && ((Run.start s e.l).tryMoves e h ms).fail.isSome
       | none => false) = true ∧
    (let s := converting (some 0) (some (List.range 8))
     topIs s fun q h e => q.locked && decide ((s.topUnits 0 q h 0).length ≤ 8) && ((Run.start s e.l).tryBit e h 0).fail.isNone) = true ∧
    (let s := unmapped (converting (some 0) (some (List.range 8)))
     topIs s fun q h e => decide ((s.topUnits 0 q h 0).length ≤ 8) && ((Run.start s e.l).tryBit e h 0).fail.isSome) = true ∧
    (let s := converting (some 1) none
     topIs s fun q _ _ => !q.locked && decide (s.descAt q.ctx + 8 * 58 + 8 ≤ q.img)) = true := by decide
theorem witness_EngineEvents : fresh.issuer.log = false ∧ fresh.issuer.rpl = false ∧ (encoding ten1).t.eng.ten = ten1 :: [] ∧
    ten1.running = false ∧ ten1.v16l = false ∧ fresh.t.ctl.freeze = none ∧ { ten1 with running := true }.finite = false ∧
    ten1.bad ≠ 0x0B ∧ home.t.eng.ten = [] := by decide
def loadingTable : State := home.modT fun t => { t with mat := { t.mat with v16 := [(3, .loading 0x8000 0)] } }
theorem witness_EngineEvents_table : loadingTable.issuer.log = false ∧ loadingTable.issuer.rpl = false ∧
    spGet V16.none loadingTable.t.mat.v16 3 = .loading 0x8000 0 ∧ spGet V16.none home.t.mat.v16 3 = .none ∧
    loadingTable.farWaits (loadingTable.engPieces (engAcc .rd) [(0x8000, 256)]) = false ∧
    topHas loadingTable (loadingTable.tenEng 0) [] [(0x8000, 256)] = true := by decide
/-- A V16L request reads its table: the window's is at 0, an unmapped one fails. -/
theorem witness_EngineEvents_start :
    let q := { ten1 with v16l := true }
    let m : State := { mapped with core := { mapped.core with tlbT := home.core.tlb } }
    q.running = false ∧ fresh.t.ctl.freeze = none ∧ topHas m (m.tenEng 0) q.got [(m.tenTable q, 256)] = true ∧
    (match ((m.tenEng 0).table m (m.tenTable q)).2 with
      | .ready _ => true
      | _ => false) = true ∧
    (match ((fresh.tenEng 0).table fresh (fresh.tenTable q)).2 with
      | .failed .. => true
      | _ => false) = true := by decide
/-- A finite request whose block lies in an ft2 window over the second 64 KiB and whose scale byte does not. -/
def writing : State × TenReq :=
  (mapped.modT fun t => { t with task := some { TaskId.minimal with fws := [0x10001, 0x10000, 0x10, 0] } },
    { ten1 with targets := List.replicate 256 0, block := 0x10000, scale := 0x8000, running := true })
set_option maxRecDepth 8000 in
theorem witness_EngineEvents_write :
    let s := writing.1
    let q := writing.2
    q.finite = true ∧ q.bad = 0 ∧ s.issuer.log = false ∧ s.issuer.rpl = false ∧ q.done = [] ∧ (s.tryTen q).fail = none ∧
    s.tenWaits q = false ∧ (fresh.tryTen q).fail ≠ none ∧
    ({ s with topiary := (converting (some 0) (some [])).topiary.map fun x => (x.1, x.2.map fun r => { r with lines := [64] }) } : State).tenWaits q =
      true ∧
    (match (s.tenEng 0).target s q.block 48 (some q.fmt), (s.tenEng 0).target s q.scale 1 none with
      | .ok [(⟨.glob pa .., n⟩, _)], .ok [(⟨.glob pb .., m⟩, _)] =>
        n == 48 && m == 1 && decide (pa % 256 + 48 ≤ 48 * ftPer 0x10) && decide (pb / 256 ≠ pa / 256)
      | _, _ => false) = true := by decide
def callw : CallrWait := { digest := 5, free := false, sf := false, entry := 0x40, nb := 4, yd := 0, outs := 0, outv := 0 }
/-- A routine of one Y-marked bundle without slots. -/
def routine1 : Routine := { head := [0, 1, 0, 0, 0, 0, 0, 0], words := [0x40008000], hcws := [] }
def entry1 (d : BitVec 128) : SubstEntry := { valid := true, digest := d, grade := 0, prog := 0, routine := routine1, fixed := true }
def native1 (st : NatSt) : Native :=
  { grade := 0, entry := 0, routine := routine1, outs := 0, outv := 0, yd := 0, st, due := 0, seq := 0, chains := [] }
set_option maxRecDepth 4000 in
/-- R360: the canonical image of `dot4` has 200 bytes, and its FREE native sums 256, 2^-8, -256 and 2^-8 to 2^-7 in bf16. -/
theorem test_dot4 : dot4.image.length = 200 ∧
    (State.reset.freeValue { native1 .ran with grade := 2, routine := dot4 } 0x40 0 0 9 0
      { terms := [0x43800000, 0x3B800000, 0xC3800000, 0x3B800000].map (valOf 8), rounds := [] }).2 = 0x3C00 := by decide
/-- R326: a listing that calls a routine names no native. -/
theorem test_barred : Routine.barred [] 2 [0x60000000, 0x14000028] = true := by decide
/-- R314, R315: the parts of an image are 8 words of the descriptor, NB words and NH control words; another split of the bytes is none. -/
theorem test_canonical : routine1.canonical = true ∧ ({ routine1 with head := [] } : Routine).canonical = false ∧
    ({ routine1 with head := routine1.head ++ routine1.words, words := [] } : Routine).canonical = false := by decide
theorem witness_SubstitutionAndUnwinding_table : tableOk [] 1 true = true ∧ tableOk [] 1 false = false ∧
    tableOk [entry1 5, entry1 5] 1 true = false ∧ (entry1 5).prog.toNat < (1 : BitVec 32).toNat ∧
    Routine.barred routine1.hcws routine1.words.length routine1.words = false := by decide
set_option maxRecDepth 4000 in
theorem witness_SubstitutionAndUnwinding :
    (fresh.modCtl fun c => { c with xfer := some { moved 1 with callr := some callw } }).t.ctl.xfer =
      some { moved 1 with callr := some callw } ∧ (fresh.substOf 0).hit callw = none ∧
    iss.bun.issuing = true ∧ fresh.bun.issuing = false ∧
    ({ SubstTable.empty with entries := [entry1 5] } : SubstTable).hit callw = some (entry1 5) ∧ (native1 .ran).holds 16 = false ∧
    (let s := fresh.setNative (native1 .ran)
     (native1 .ran).grade = 0 ∧ (native1 .ran).holds s.t.ctl.pc = true ∧ (native1 .ran).yAt s.t.ctl.pc = true ∧ s.t.q.cq = []) ∧
    (native1 .running).st = .running ∧ ({ native1 .ran with grade := 1 } : Native).grade ≠ 0 ∧
    (State.reset.withFetchWord 32 0).sup.level = 3 ∧ (∀ c ∈ fresh.cores, c.t.ctl.native = none) ∧ fresh.sup.level ≠ 3 ∧
    (fresh.modCtl fun c => { c with unwind := some { bun := 0, sub := 0, slot := .c, tval := 0, mark := none }, regions := [region] }).longDone =
      true ∧ (encoding ten1).longDone = false ∧ region.vals.length = 16 := by decide

/-- A record at 0x10000 with one core of one die allowed, a count of predecessors and a gang size less one. -/
def record (count gang : Nat) : State :=
  { fresh with
    core := { fresh.core with t := TaskSpan.fresh }
    sup := { fresh.sup with level := 3, doorbells := [(0, 1)] }
    ctxs := [(0, { ptroot := 0, fws := [], htab := 0, gtab := 0, fqbase := 0, fqk := 4, mqbase := 0, mqn := 0, lq := [(0x40000, 4), (0, 0), (0, 0), (0, 0)], oldir := 0
                   htbase := 0, htsnap := 0, hsk := 0, hr := [], pcbase := 0x50000, pck := 1, closing := false })]
    mem := memWrite (memWrite (memWrite (memWrite [] 0x10000 (leBytes 4 count)) 0x10018 (leBytes 8 (1 + 2 ^ 10 + 2 ^ 29 * gang)))
      0x10020 (leBytes 16 (1 + 2 ^ 64 * 3))) 0x40000 (leBytes 8 (0x10000 + 2 ^ 63)) }
def entry (level : Nat) (parked : Bool) : RqEntry :=
  { rcd := 0x10000, ctx := 0, die := 0, level, since := 0, first := 0, parked, spill := none, member := if parked then some 0 else none }
def queued (e : RqEntry) (gang : Nat) : State := { record 0 gang with ready := [e] }
theorem witness_TaskEvents_submit : ((record 1 0).outside 0).log = false ∧ ((record 1 0).outside 0).rpl = false ∧
    (record 1 0).recCheck 0x10000 0 = 0 ∧ (record 1 0).recF 0x10000 3 16 1 = 0 ∧ (record 1 0).recF 0x10000 0 0 32 ≠ 0 ∧
    (record 0 0).recCheck 0x10000 0 = 0 ∧ (record 0 0).recF 0x10000 3 16 1 = 0 ∧ (record 0 0).recF 0x10000 0 0 32 = 0 ∧
    (record 0 0).recSt 0x10000 ≠ stFailed ∧ ((record 0 0).outside 0).log = false ∧ ((record 0 0).outside 0).rpl = false ∧
    1 < (record 1 0).recCheck 0x20000 0 ∧ (record 1 0).recCheck 0x20000 0 < 256 := by decide
theorem witness_TaskEvents_decrement : ((record 0 0).rd32 0x10000).toNat = 0 ∧ 1 < ((record 2 0).rd32 0x10000).toNat ∧
    ((record 2 0).outside ((record 2 0).recCtx 0x10000)).log = false := by decide
theorem witness_TaskEvents_launch :
    let s := record 1 0
    s.liveCtx 7 = false ∧ (0, 1) ∈ s.sup.doorbells ∧ (0, 0) ∉ s.sup.doorbells ∧ (spFind s.ctxs 0).isSome = true ∧ s.sup.level ≠ 0 ∧ s.rdField (s.descAt 0 + 8 * 11) 32 32 = 0 ∧
    s.rdField (0x40000 + 16 * (0 % 2 ^ 4)) 63 1 = 1 ∧ (s.descAt 0 + 8 * 11 + 8 ≤ 0x40000) := by decide
theorem witness_TaskEvents_age :
    let s : State := { queued (entry 6 false) 0 with cyc := 9, mem := memWrite (record 0 0).mem 16 (leBytes 8 (9 * 2 ^ 32)) }
    field (s.descWord 0 2) 32 32 = 9 ∧ (entry 6 false).level < 7 ∧ (entry 6 false).since + 9 ≤ s.cyc ∧ ¬(entry 7 false).level < 7 := by
  decide
theorem witness_TaskEvents_place : ((record 0 0).pick 0).isNone = true ∧ (((queued (entry 0 false) 0).pick 0).map (·.1)) = some (entry 0 false) ∧
    (((queued (entry 0 true) 0).pick 0).map (·.1)) = some (entry 0 true) ∧ (queued (entry 0 false) 1).token.isNone = true ∧
    (queued (entry 0 false) 1).asksToken 0 = some (entry 0 false) ∧ (queued (entry 0 false) 1).tokenQ = [] ∧
    (queued (entry 0 false) 1).tokenEntry 0x10000 = some (entry 0 false) ∧ (queued (entry 0 false) 1).slotsWait (entry 0 false) = false ∧ spFind (record 0 0).placedAt 0 ≠ some (record 0 0).cyc ∧
    (record 0 0).sup.joining = false ∧ (record 0 0).badAt 0x10000 256 = false := by decide
/-- Two gangs that wait for the token, the first with a Yoke slot that a gang placed on its die holds. -/
def slotted : State :=
  let s := queued (entry 0 false) 1
  let k : TaskId := { TaskId.minimal with rcd := 0x30000, n := 2, cores := [0, 1], ymask := 1 }
  { (s.modT fun t => { t with task := some k }) with
    ready := [entry 0 false, { entry 0 false with rcd := 0x20000 }]
    tokenQ := [(0, 0x10000), (0, 0x20000)]
    mem := memWrite (memWrite (memWrite s.mem 0x10018 (leBytes 8 (1 + 2 ^ 10 + 2 ^ 29 + 2 ^ 35))) 0x20018 (leBytes 8 (1 + 2 ^ 10 + 2 ^ 29)))
      0x20020 (leBytes 16 (1 + 2 ^ 64 * 3)) }
theorem witness_TaskEvents_token : slotted.token = none ∧ slotted.tokenEntry 0x10000 = some (entry 0 false) ∧
    slotted.slotsWait (entry 0 false) = true ∧ slotted.tokenEntry 0x20000 = some { entry 0 false with rcd := 0x20000 } ∧
    slotted.slotsWait { entry 0 false with rcd := 0x20000 } = false := by decide
theorem witness_TaskEvents_phase : (record 0 0).laterPhase 0 = none ∧
    (let s : State := { record 0 0 with mem := memWrite (record 0 0).mem 0x50004 (leBytes 4 1) }
     s.laterPhase 0 = some 1 ∧ s.phaseCount 0 (s.cp 0) = 0 ∧ s.liveCtx 0 = true ∧ s.phaseWrites 0 = false ∧ s.helds = [] ∧ (s.outside 0).log = false ∧
       (s.outside 0).rpl = false) := by decide
theorem witness_TaskEvents_retire : fresh.t.ctl.ending = none ∧
    (let s := fresh.modCtl fun c => { c with ending := some 0 }
     TaskId.minimal.n = 1 ∧ s.t.ctl.ending = some 0 ∧ s.quiet = true ∧ s.someGroup = none ∧
       s.recF TaskId.minimal.rcd 20 56 8 ≤ 1 ∧ (s.wrField (TaskId.minimal.rcd + 8 * 20) 56 8 0).succs TaskId.minimal.rcd = []) := by decide
theorem witness_PreEmptionEvents : fresh.core.id = (0 : BitVec 10).toNat ∧ fresh.others = [] ∧ fresh.yokeGang TaskId.minimal.rcd = false ∧
    fresh.core.ctl.busy = false ∧ fresh.core.midNative = false ∧ fresh.t.ctl.freeze = none ∧ State.reset.t.task = none ∧
    fresh.t.ctl.rho ≤ fresh.cyc + 1 ∧ fresh.cyc + 1 < (fresh.modCtl fun c => { c with rho := 2 }).t.ctl.rho ∧
    (let s := { (fresh.modCtl fun c => { c with freeze := some { f := 0, gang := false, fault := none } }) with cyc := 12 }
     0 + 12 ≤ s.cyc ∧ s.settled = true) ∧
    (stored (load1 8) fresh).settled = false := by decide
theorem witness_ContextEvents : fresh.sup.cmd.busy = false ∧ spFind fresh.ctxs 0 = none ∧ fresh.descOk 0 = false ∧
    (let s : State := { fresh with mem := memWrite (memWrite (memWrite [] 48 [4]) 168 [1]) 456 [1] }
     s.descOk 0 = true) ∧ (spFind (record 0 0).ctxs 0).isSome = true ∧ (record 0 0).liveCtx 0 = true ∧
    (0, ((3 : W64).setWidth 2 : BitVec 2)) ∉ (record 0 0).sup.doorbells ∧ fresh.liveCtx 0 = false := by decide
/-- A context that is being destroyed, its last count word at 0 and no task of it placed. -/
def closing : State :=
  let s := { record 0 0 with ctxs := (record 0 0).ctxs.map fun (x : Nat × Ctx) => (x.1, { x.2 with closing := true }) }
  s.modSup fun u => { u with cmd := { result := 0, done := false, busy := true, op := 2, ctx := 0 } }
theorem witness_ContextEvents_destroy : closing.sup.cmd.busy = true ∧ closing.ctxs.map (fun x => (x.1, x.2.closing)) = [(0, true)] ∧
    closing.rd64 (closing.descAt 0 + 8 * 58) = 0 ∧ (closing.cores.all fun k => k.t.task.isNone) = true ∧
    (record 0 0).sup.cmd.busy = false ∧ (record 0 0).liveCtx 0 = true := by decide
def hosted : State := (State.reset.withFetchWord 32 0).modSup fun u => { u with ports := [(0, { up := true, cxl := false, width := 16, aer := [] })] }
def flash (v : Bool) (dies : BitVec 64) : ConfigCopy :=
  { verifies := v, version := 1, modNo := 2, dies, hbm := 1, clocks := List.replicate 8 1100, links := [] }
theorem witness_HostEvents : regAt 4 = .none ∧ regAt 0x13000000 = .svclvl ∧ regAt 0x13000028 = .alert ∧ regAt 0x100 = .counter 0x100 ∧
    0x13000028 < 2 ^ 29 ∧ (8 : BitVec 13) ≠ 0 ∧ (4096 : BitVec 13).toNat ≤ 4096 ∧ hosted.hostUp 1 = false ∧ hosted.hostUp 0 = true ∧
    hosted.sup.level ≠ 0 ∧ hosted.beyond (hosted.barAddr 0) = false ∧ hosted.beyond (hosted.barAddr 0 + (8 - 1)) = false ∧
    hosted.lines = [] ∧ (hosted.outRead 0 8).2.2 = false ∧ State.reset.sup.level = 0 ∧ recordOk (flash true 1) = true ∧
    recordOk (flash true 0) = false ∧ (flash false 1).verifies = false ∧ State.reset.sup.chg = false ∧
    State.reset.sup.level.toNat < State.reset.sup.tgt.toNat ∧ hosted.sup.level = hosted.sup.tgt := by decide
theorem witness_HostEvents_waits : hosted.outHeld = [] ∧ hosted.lineBusy (hosted.barAddr 0) 8 = false ∧
    ({ hosted with outHeld := [.register ⟨0, 0⟩ 0] } : State).outHeld ≠ [] ∧ (∀ x ∈ hosted.lines, x.2.ft = none) ∧
    (0x3F2018 : BitVec 48).toNat / 65536 < 64 ∧ (0x3F2018 : BitVec 48).toNat % 65536 < 8224 ∧ (0x3F2018 : BitVec 48).toNat % 8 = 0 ∧
    (State.reset.modSup fun u => { u with cfg := some (flash true 1) }).sup.cfg.isSome = true := by decide
theorem witness_FaultEvents : (0 : BitVec 6).toNat ∉ fresh.sup.outDies ∧ State.reset.t.task = none ∧
    (∀ c ∈ fresh.cores, c.t.sys.rpl = false) ∧ fresh.t.q.hq = [] ∧
    (let s : State := { (fresh.modQ fun q => { q with hq := [5] }) with ctxs := (record 0 0).ctxs }
     s.wroteAll = true ∧ s.t.sys.log = false ∧ s.t.sys.rpl = false ∧ (spFind s.ctxs 0).isSome = true) ∧
    (1 : BitVec 8) ≠ fresh.modNo ∧ (1 : BitVec 8) ∉ fresh.sup.lost ∧ fresh.serves 0x100 256 = true ∧ (fresh.openIntents 1).length < 64 ∧ 0x100 % 256 + 256 ≤ 256 ∧
    fresh.outHeld = [] ∧ fresh.lineBusy 0x100 256 = false ∧
    64 ≤ ((fresh.modSup fun u => { u with intents := List.replicate 64 { m := 1, sectors := [(1, false)] } }).openIntents 1).length ∧
    fresh.farAdmits 0x100 256 none = true ∧ fresh.farAdmits 0x101 255 (some 15) = false ∧ fresh.serves (2 ^ 56) 1 = false ∧
    fresh.emptyAt (.s 63) = false := by decide
theorem witness_FaultEvents_replay :
    let s : State := { (fresh.modSys fun y => { y with rpl := true }) with ctxs := (record 0 0).ctxs }
    s.ctxs.length = 1 ∧ s.headCore 0 0 = some 0 := by decide
theorem witness_FabricEvents :
    let s := fresh.modSup fun u => { u with links := [(47, { Link.down with up := true, width := 2 })] }
    (47 : BitVec 6).toNat < 48 ∧ (s.link1 47).up = true ∧ (s.link1 47).spu = false ∧ (s.link1 47).width = 2 ∧ (s.link1 47).txSpare = false ∧
    (s.link1 47).fails < 16 ∧ 16 ≤ ({ s.link1 47 with fails := 16 } : Link).fails ∧ (1 : BitVec 12) ≠ (s.link1 47).num ∧
    s.outHeld = [] ∧ s.lineBusy 0x100 64 = false ∧ s.linkGiven 47 1 = false ∧
    (s.modSup fun u => { u with cfg := some { flash true 1 with links := [(1, 2 ^ 47)] } }).linkGiven 47 1 = true ∧
    spGet 0 (s.link1 47).countFlit.laneErr 31 + 1 ≤ 64 ∧ s.sup.links.all (fun l => l.2.wait.isEmpty) = true ∧
    s.reaches 1 = false ∧ (1 : BitVec 8) ≠ s.modNo ∧ (1 : BitVec 8) ∉ s.sup.lost ∧ s.sup.capEn = true ∧
    (s.modSup fun u => { u with capEn := false }).sup.capEn = false ∧ s.sup.cap.toNat < (0xFFFF : BitVec 16).toNat ∧
    s.groupStep (7 : BitVec 3).toNat < 12 ∧ 12 ≤ (s.modSup fun u => { u with steps := [(6, 12)] }).groupStep (6 : BitVec 3).toNat ∧ s.sup.arm = true := by decide
/-- Lanes at the ends of the halves of a link, before and after the first and the second failure. -/
theorem witness_FabricEvents_lanes :
    let x : Link := { Link.down with up := true, width := 2, spu := true, splane := 15, txSpare := true, txLane := 0 }
    16 < (17 : BitVec 5).toNat ∧ (15 : BitVec 5).toNat < 16 ∧ (16 : BitVec 5).toNat ≤ 16 ∧ (16 : BitVec 5) ≠ x.splane ∧
    upperLane 16 x.splane = true ∧ upperLane 7 x.splane = false ∧ (16 : BitVec 5) ≠ x.txLane ∧ upperLane 16 x.txLane = false ∧
    upperLane 8 x.txLane = true ∧ x.txHalf = false ∧ ({ x with txHalf := true } : Link).txHalf = true ∧
    ({ x with width := 1 } : Link).width ≠ 2 := by decide
theorem witness_TimeAndPowerEvents : State.reset.sup.joining = false ∧
    (State.reset.modSup fun u => { u with joining := true }).sup.joining = true ∧
    State.reset.power = true ∧ ({ State.reset with power := false } : State).power = false := by decide

end Sys2Proof.Tests
end

section
/-!
SUPPORT. Memory and the registers: a step of the machine keeps memory canonical, and what a register reads after a write (R5, R6).
-/
namespace Sys2Proof.Machine
open Sys2Proof

/-! ## The step (R5) -/

/-- A step is an act from the agenda's head or a turn, and each keeps memory canonical. -/
theorem step_memOk {s t : State} (hw : s.MemOk) (h : step s = .next t) : t.MemOk := by
  unfold step State.advance at h
  split at h
  next a as _ =>
    cases h
    exact State.act_wf { s with agenda := as } a hw
  next _ =>
    split at h
    · cases h
      exact State.turn_wf s true hw
    · cases h

/-! ## Registers (R6) -/

theorem State.sGet_zero (s : State) : s.sGet 0 = 0 := rfl

theorem State.kGet_zero (s : State) : s.kGet 0 = BitVec.allOnes 128 := rfl

theorem State.sPut_zero (s : State) (x : W64) : s.sPut 0 x = s := rfl

theorem State.kPut_zero (s : State) (x : W128) : s.kPut 0 x = s := rfl

/-- Register numbers name distinct entries of a register file. -/
theorem spGet_spSet_reg {α : Type} [DecidableEq α] {w : Nat} (d : α) (t : Sp α) (n m : BitVec w) (x : α) :
    spGet d (spSet d t n.toNat x) m.toNat = if m = n then x else spGet d t m.toNat := by
  simp only [spGet_spSet, BitVec.toNat_inj]

theorem State.sGet_sPut (s : State) {n : BitVec 6} (hn : n ≠ 0) (m : BitVec 6) (x : W64) :
    (s.sPut n x).sGet m = if m = n then x else s.sGet m := by
  by_cases hm : m = 0
  · subst hm; rw [State.sGet_zero, State.sGet_zero, if_neg hn.symm]
  · simp only [State.sGet, State.sPut, hn, hm, if_false, State.modT_t]
    exact spGet_spSet_reg 0 s.t.regs.s n m x

theorem State.kGet_kPut (s : State) {n : BitVec 3} (hn : n ≠ 0) (m : BitVec 3) (x : W128) :
    (s.kPut n x).kGet m = if m = n then x else s.kGet m := by
  by_cases hm : m = 0
  · subst hm; rw [State.kGet_zero, State.kGet_zero, if_neg hn.symm]
  · simp only [State.kGet, State.kPut, hn, hm, if_false, State.modRegs_t_regs]
    exact spGet_spSet_reg 0 s.t.regs.k n m x

theorem State.vGet_vPut (s : State) (n m : BitVec 6) (x : W256) :
    (s.vPut n x).vGet m = if m = n then x else s.vGet m := by
  simp only [State.vGet, State.vPut, State.modT_t]
  exact spGet_spSet_reg 0 s.t.regs.v n m x

/-- A write of an s register leaves the other register files and memory alone. -/
theorem State.sPut_frame (s : State) (n : BitVec 6) (x : W64) :
    (s.sPut n x).t.regs.v = s.t.regs.v ∧ (s.sPut n x).t.regs.k = s.t.regs.k ∧ (s.sPut n x).t.regs.x = s.t.regs.x ∧
      (s.sPut n x).mem = s.mem := by
  unfold State.sPut
  split <;> exact ⟨rfl, rfl, rfl, rfl⟩

end Sys2Proof.Machine
end

section
/-!
SUPPORT. Landings (R27, R153, R155, R208, R331): an effect that takes place leaves the results in flight, the caught effects, the
freeze and the cycle alone, so that a landing takes from the results in flight those that it picks and no others.
-/
namespace Sys2Proof.Machine
open Sys2Proof

/-! ## What an effect leaves alone -/

/-- What an effect that takes place leaves alone. -/
structure KeepsFlights (s t : State) : Prop where
  fly : t.t.q.fly = s.t.q.fly
  placket : t.t.q.placket = s.t.q.placket
  freeze : t.t.ctl.freeze = s.t.ctl.freeze
  cyc : t.cyc = s.cyc

theorem KeepsFlights.rfl' (s : State) : KeepsFlights s s := ⟨rfl, rfl, rfl, rfl⟩

theorem KeepsFlights.trans {s t u : State} (h : KeepsFlights s t) (k : KeepsFlights t u) : KeepsFlights s u :=
  ⟨k.fly.trans h.fly, k.placket.trans h.placket, k.freeze.trans h.freeze, k.cyc.trans h.cyc⟩

theorem Aside.keepsFlights {s t : State} (h : Aside s t) : KeepsFlights s t :=
  ⟨by rw [h.task], by rw [h.task], by rw [h.task], h.cyc⟩

/-- A correction touches the list of errors and the health counters alone. -/
theorem correct_aside (s : State) (p : Nat × EccPlace → Bool) : Aside s (s.correct p) := by
  unfold State.correct
  refine foldl_keeps (Aside s) _ (fun _ _ h => ?_) _ _ ?_
  · exact ⟨h.task, h.cyc, h.lt, h.id, h.others⟩
  · exact ⟨rfl, rfl, rfl, rfl, rfl⟩

theorem fixRow_aside (s : State) (row : BitVec 8) (u : AccUpd) : Aside s (s.fixRow row u) := by
  cases u with
  | init => exact .rfl' s
  | beat => exact correct_aside ..

theorem sPut_keepsFlights (s : State) (n : BitVec 6) (x : W64) : KeepsFlights s (s.sPut n x) := by
  unfold State.sPut
  split <;> exact ⟨rfl, rfl, rfl, rfl⟩

theorem kPut_keepsFlights (s : State) (n : BitVec 3) (x : W128) : KeepsFlights s (s.kPut n x) := by
  unfold State.kPut
  split <;> exact ⟨rfl, rfl, rfl, rfl⟩

theorem rPut_keepsFlights (s : State) (r : RegId) (x : Nat) : KeepsFlights s (s.rPut r x) := by
  cases r with
  | s n => exact sPut_keepsFlights ..
  | v n => exact ⟨rfl, rfl, rfl, rfl⟩
  | k n => exact kPut_keepsFlights ..
  | x n => exact ⟨rfl, rfl, rfl, rfl⟩

theorem fill_keepsFlights (s : State) (r : RegId) (x : Nat) : KeepsFlights s (s.fill r x) :=
  (rPut_keepsFlights s r x).trans ⟨rfl, rfl, rfl, rfl⟩

theorem tagFill_keepsFlights (s : State) (r : RegId) (t : BitVec 3) : KeepsFlights s (s.tagFill r t) :=
  (rPut_keepsFlights s r 0).trans ⟨rfl, rfl, rfl, rfl⟩

theorem sysPut_keepsFlights (s : State) (n : Nat) (x : W64) : KeepsFlights s (s.sysPut n x) := by
  unfold State.sysPut
  split <;> exact ⟨rfl, rfl, rfl, rfl⟩

theorem rowSums_keepsFlights (s : State) (row : BitVec 8) (j : Nat) (ts : List (List Val)) (xs : List Nat) :
    KeepsFlights s (s.rowSums row j ts xs).1 := by
  induction ts generalizing s j xs with
  | nil => exact .rfl' s
  | cons t ts ih =>
    cases xs with
    | nil => exact .rfl' s
    | cons x xs => 
      simp only [State.rowSums]
      refine KeepsFlights.trans ?_ (ih _ (j + 1) xs)
      exact ⟨rfl, rfl, rfl, rfl⟩

theorem landRow_keepsFlights (s : State) (row : BitVec 8) (u : AccUpd) : KeepsFlights s (s.landRow row u) := by
  refine (fixRow_aside s row u).keepsFlights.trans ?_
  unfold State.landRow
  dsimp only
  split
  · exact (rowSums_keepsFlights ..).trans ⟨rfl, rfl, rfl, rfl⟩
  · exact ⟨rfl, rfl, rfl, rfl⟩

theorem updCore_scrWrite_keepsFlights (s : State) (id off : Nat) (bs : List Byte) (bad : Bool) (t : Time) :
    KeepsFlights s (s.updCore id fun c => c.scrWrite off bs bad t) := by
  unfold State.updCore
  split <;> exact ⟨rfl, rfl, rfl, rfl⟩

theorem coreWrite_keepsFlights (s : State) (p : Place) (bs : List Byte) (lt0 : Time) :
    KeepsFlights s (s.coreWrite p bs lt0).1 := by
  unfold State.coreWrite
  cases p with
  | own off => exact ⟨rfl, rfl, rfl, rfl⟩
  | gang m off =>
    dsimp only
    split
    · exact updCore_scrWrite_keepsFlights ..
    · exact .rfl' s
  | glob pa ms ft =>
    have ht (ms : Bool) := (engTime_aside s s.core.lt pa ms true).keepsFlights
    dsimp only
    split
    · exact ⟨rfl, rfl, rfl, rfl⟩
    · split
      · exact (ht true).trans ⟨rfl, rfl, rfl, rfl⟩
      · split
        · exact .rfl' s
        · exact (ht false).trans ⟨rfl, rfl, rfl, rfl⟩

theorem putWords_keepsFlights (s : State) (pa : Nat) (ws : List W64) : KeepsFlights s (s.putWords pa ws) := by
  refine (coreWrite_keepsFlights s (.glob pa false none) (ws.flatMap fun w => leBytes 8 w.toNat) s.core.lt).trans ?_
  unfold State.putWords
  dsimp only
  split <;> exact ⟨rfl, rfl, rfl, rfl⟩

theorem applyEff_keepsFlights (s : State) (e : Effect) : KeepsFlights s (s.applyEff e) := by
  cases e with
  | s n x => exact sPut_keepsFlights ..
  | k n x => exact kPut_keepsFlights ..
  | acc row u => exact landRow_keepsFlights ..
  | sys n x => exact sysPut_keepsFlights ..
  | handle pa ws => exact putWords_keepsFlights ..
  | tagged r t => exact tagFill_keepsFlights ..
  | fill n x => exact fill_keepsFlights ..
  | nothing | v | x | plane | swap | cs | ring | buf | latch => exact ⟨rfl, rfl, rfl, rfl⟩

theorem foldl_applyEff_keepsFlights (s : State) (fs : List Flight) :
    KeepsFlights s (fs.foldl (fun s f => s.applyEff f.eff) s) :=
  foldl_keeps (KeepsFlights s) _ (fun _ f h => h.trans (applyEff_keepsFlights _ f.eff)) _ _ (.rfl' s)

theorem landAll_keepsFlights (s : State) (fs : List Flight) : KeepsFlights s (s.landAll fs) :=
  (foldl_applyEff_keepsFlights s fs).trans ⟨rfl, rfl, rfl, rfl⟩

/-! ## What a landing takes -/

/-- The results in flight that are due by `n` and of the class `p` have landed, and no others. -/
structure Lands (n : Nat) (p : Effect → Bool) (s t : State) : Prop where
  fly : t.t.q.fly = s.t.q.fly.filter fun f => !(decide (f.due ≤ n) && p f.eff)
  placket : t.t.q.placket = s.t.q.placket
  freeze : t.t.ctl.freeze = s.t.ctl.freeze
  cyc : t.cyc = s.cyc

theorem Lands.landBy {n : Nat} {p : Effect → Bool} {s t : State} (h : Lands n p s t) : t.landBy = s.landBy := by
  rw [State.landBy, State.landBy, h.freeze, h.cyc]

theorem Lands.after {n : Nat} {p : Effect → Bool} {s t u : State} (h : Lands n p s t) (k : KeepsFlights t u) : Lands n p s u :=
  ⟨k.fly.trans h.fly, k.placket.trans h.placket, k.freeze.trans h.freeze, k.cyc.trans h.cyc⟩

theorem Lands.trans {n : Nat} {p q : Effect → Bool} {s t u : State} (h : Lands n p s t) (k : Lands n q t u) :
    Lands n (fun e => p e || q e) s u := by
  refine ⟨?_, k.placket.trans h.placket, k.freeze.trans h.freeze, k.cyc.trans h.cyc⟩
  rw [k.fly, h.fly, List.filter_filter]
  refine List.filter_congr fun f _ => ?_
  rw [Bool.and_or_distrib_left, Bool.not_or, Bool.and_comm]

/-- The results in flight after a landing: those due later and those of another class. -/
theorem Lands.fly_eq {n : Nat} {p keep : Effect → Bool} {s t : State} (h : Lands n p s t) (hk : ∀ e, keep e = !p e) :
    t.t.q.fly = s.t.q.fly.filter fun f => decide (n < f.due) || keep f.eff := by
  rw [h.fly]
  refine List.filter_congr fun f _ => ?_
  rw [hk, Bool.not_and, ← decide_not]
  simp only [Nat.not_le]

theorem Lands.mem {n : Nat} {p : Effect → Bool} {s t : State} (h : Lands n p s t) {f : Flight} (hf : f ∈ t.t.q.fly) :
    f ∈ s.t.q.fly ∧ (p f.eff = true → n < f.due) := by
  rw [h.fly, List.mem_filter] at hf
  refine ⟨hf.1, fun hp => ?_⟩
  have h2 := hf.2
  rw [hp, Bool.and_true, Bool.not_eq_true', decide_eq_false_iff_not] at h2
  exact Nat.lt_of_not_le h2

theorem takeBy_lands (s : State) (n : Nat) (p : Effect → Bool) : Lands n p s (s.takeBy n p).1 := ⟨rfl, rfl, rfl, rfl⟩

theorem landAll_takeBy_lands (s : State) (n : Nat) (p : Effect → Bool) :
    Lands n p s ((s.takeBy n p).1.landAll (s.takeBy n p).2) :=
  (takeBy_lands s n p).after (landAll_keepsFlights ..)

theorem landAll_takeDue_lands {s : State} {n : Nat} (hn : s.landBy = n) (p : Effect → Bool) :
    Lands n p s ((s.takeDue p).1.landAll (s.takeDue p).2) :=
  hn ▸ landAll_takeBy_lands s s.landBy p

/-- The class of RESULT_LANDING. -/
def Effect.isResult (e : Effect) : Bool := !(e.isAcc || e.isSwap || e.isLatch)

theorem Effect.isSys_or_isResult (e : Effect) : (e.isSys || e.isResult) = e.isResult := by cases e <;> rfl

theorem landResults_lands (s : State) : Lands s.landBy Effect.isResult s s.landResults := by
  have h := (takeBy_lands s s.landBy Effect.isSys).after (foldl_applyEff_keepsFlights _ (s.takeBy s.landBy Effect.isSys).2)
  have hr := h.trans (landAll_takeDue_lands h.landBy Effect.isResult)
  simp only [Effect.isSys_or_isResult] at hr
  exact hr

theorem landAcc_lands (s : State) : Lands s.landBy Effect.isAcc s s.landAcc := landAll_takeDue_lands rfl _

theorem landSwap_lands (s : State) : Lands s.landBy Effect.isSwap s s.landSwap := landAll_takeDue_lands rfl _

theorem landLatch_lands (s : State) :
    Lands (min s.landBy (s.cyc - 1)) (fun e => e.isLatch && !s.latchWaits e) s s.landLatch := landAll_takeBy_lands ..

/-! ## The locks that a latch waits for (R274) -/

/-- A latch writes the scratchpad and path Y's time, neither of which locks anything. -/
theorem applyEff_engLocked (s : State) {e : Effect} (he : e.isLatch = true) (tag : Option (BitVec 16)) (rs : List (Nat × Nat)) :
    (s.applyEff e).engLocked tag rs = s.engLocked tag rs := by
  cases e with
  | latch => rfl
  | _ => cases he

theorem landAll_engLocked (s : State) {fs : List Flight} (hfs : ∀ f ∈ fs, f.eff.isLatch = true) (tag : Option (BitVec 16))
    (rs : List (Nat × Nat)) : (s.landAll fs).engLocked tag rs = s.engLocked tag rs :=
  List.foldlRecOn (motive := fun u : State => u.engLocked tag rs = s.engLocked tag rs) fs _ rfl
    fun u hu f hf => (applyEff_engLocked u (hfs f hf) tag rs).trans hu

theorem landLatch_engLocked (s : State) (tag : Option (BitVec 16)) (rs : List (Nat × Nat)) :
    s.landLatch.engLocked tag rs = s.engLocked tag rs := by
  refine (landAll_engLocked _ (fun f hf => ?_) tag rs).trans rfl
  have hpicked := (List.mem_filter.mp hf).2
  simp only [Bool.and_eq_true] at hpicked
  obtain ⟨_, hlatch, _⟩ := hpicked
  exact hlatch

theorem landLatch_latchWaits (s : State) (e : Effect) : s.landLatch.latchWaits e = s.latchWaits e := by
  cases e with
  | latch off => exact landLatch_engLocked s none [(off, 128)]
  | _ => rfl

/-! ## Everything due (R331) -/

theorem replayPlacket_placket {s : State} {f : Flight} (hf : f ∈ s.replayPlacket.t.q.placket) : s.cyc < f.due := by
  have h := (List.mem_filter.mp hf).2
  simpa using h

theorem Effect.not_isLatch (e : Effect) : (e.isSwap || e.isResult || e.isAcc) = !e.isLatch := by cases e <;> rfl

/-- Each class but the latches lands in a turn of its own. -/
theorem landUnlatched_lands (s : State) : Lands s.landBy (fun e => !e.isLatch) s s.landSwap.landResults.landAcc := by
  have hs := landSwap_lands s
  have hr := landResults_lands s.landSwap
  have ha := landAcc_lands s.landSwap.landResults
  rw [hr.landBy, hs.landBy] at ha
  rw [hs.landBy] at hr
  simpa only [Effect.not_isLatch] using (hs.trans hr).trans ha

theorem land_placket (s : State) : s.land.t.q.placket = s.replayPlacket.t.q.placket :=
  (landLatch_lands _).placket.trans (landUnlatched_lands s.replayPlacket).placket

/-- What is left in flight once everything due has landed is due later, or is a latch that waits. -/
theorem land_left (s : State) {f : Flight} (hf : f ∈ s.land.t.q.fly) :
    (if f.eff.isLatch then min s.landBy (s.cyc - 1) else s.landBy) < f.due ∨ s.land.latchWaits f.eff = true := by
  have hu : Lands s.landBy (fun e => !e.isLatch) s.replayPlacket _ := landUnlatched_lands s.replayPlacket
  obtain ⟨hfu, hlatch⟩ := (landLatch_lands _).mem hf
  have hother := (hu.mem hfu).2
  rw [hu.landBy, hu.cyc] at hlatch
  rw [show s.land.latchWaits f.eff = _ from landLatch_latchWaits _ f.eff]
  cases hl : f.eff.isLatch with
  | false => exact .inl (hother (by rw [hl]; rfl))
  | true =>
    cases hw : State.latchWaits _ f.eff with
    | true => exact .inr rfl
    | false => exact .inl (hlatch (by rw [hl, hw]; rfl))

/-! ## One result in flight -/

theorem landAll_singleton (s : State) (f : Flight) : s.landAll [f] = (s.applyEff f.eff).orFlags f.flags :=
  congrArg (s.applyEff f.eff).orFlags BitVec.zero_or

section
variable {s : State} {f : Flight} (hfly : s.t.q.fly = [f])
include hfly

theorem takeBy_of_picked {n : Nat} {p : Effect → Bool} (hd : f.due ≤ n) (hp : p f.eff = true) :
    s.takeBy n p = (s.modQ fun q => { q with fly := [] }, [f]) := by
  have hpick : (decide (f.due ≤ n) && p f.eff) = true := by rw [hp, decide_eq_true hd]; rfl
  have hleft : (s.t.q.fly.filter fun f => !(decide (f.due ≤ n) && p f.eff)) = [] := by
    rw [hfly, List.filter_cons, hpick]; rfl
  have htake : (s.t.q.fly.filter fun f => decide (f.due ≤ n) && p f.eff) = [f] := by
    rw [hfly, List.filter_cons, hpick]; rfl
  rw [← htake, ← hleft]
  rfl

theorem takeBy_of_not_picked {n : Nat} {p : Effect → Bool} (hp : p f.eff = false) : s.takeBy n p = (s, []) := by
  have hleft : (s.t.q.fly.filter fun f => !(decide (f.due ≤ n) && p f.eff)) = s.t.q.fly := by simp [hfly, hp]
  have htake : (s.t.q.fly.filter fun f => decide (f.due ≤ n) && p f.eff) = [] := by simp [hfly, hp]
  calc s.takeBy n p
      = (s.modQ fun q => { q with fly := s.t.q.fly.filter fun f => !(decide (f.due ≤ n) && p f.eff) },
          s.t.q.fly.filter fun f => decide (f.due ≤ n) && p f.eff) := rfl
    _ = (s, []) := by rw [hleft, htake]; rfl

/-- The one result in flight, due and of the class picked, takes place and its flags are ORed. -/
theorem landAll_takeBy_of_picked {n : Nat} {p : Effect → Bool} (hd : f.due ≤ n) (hp : p f.eff = true) :
    (s.takeBy n p).1.landAll (s.takeBy n p).2 = ((s.modQ fun q => { q with fly := [] }).applyEff f.eff).orFlags f.flags := by
  rw [takeBy_of_picked hfly hd hp, landAll_singleton]

theorem landResults_of_picked (hd : f.due ≤ s.landBy) (hs : f.eff.isSys = false) (hp : f.eff.isResult = true) :
    s.landResults = ((s.modQ fun q => { q with fly := [] }).applyEff f.eff).orFlags f.flags := by
  have hsys : s.takeDue Effect.isSys = (s, []) := takeBy_of_not_picked hfly hs
  rw [State.landResults, hsys]
  exact landAll_takeBy_of_picked hfly hd hp

variable {e : Effect} (he : f.eff = e)
include he

theorem exec_resultLanding_single (hd : f.due ≤ s.landBy) (hs : e.isSys = false) (hp : e.isResult = true) :
    exec .resultLanding s = .next (((s.modQ fun q => { q with fly := [] }).applyEff e).orFlags f.flags) := by
  subst he
  exact congrArg Host.Outcome.next (landResults_of_picked hfly hd hs hp)

theorem exec_accumulatorRowLanding_single (hd : f.due ≤ s.landBy) (hp : e.isAcc = true) :
    exec .accumulatorRowLanding s = .next (((s.modQ fun q => { q with fly := [] }).applyEff e).orFlags f.flags) := by
  subst he
  exact congrArg Host.Outcome.next (landAll_takeBy_of_picked hfly hd hp)

theorem exec_planeSwap_single (hd : f.due ≤ s.landBy) (hp : e.isSwap = true) :
    exec .planeSwap s = .next (((s.modQ fun q => { q with fly := [] }).applyEff e).orFlags f.flags) := by
  subst he
  exact congrArg Host.Outcome.next (landAll_takeBy_of_picked hfly hd hp)

theorem exec_yokeLatchWrite_single (hd : f.due ≤ s.landBy) (hdue : f.due < s.cyc) (hp : e.isLatch = true)
    (hw : s.latchWaits e = false) :
    exec .yokeLatchWrite s = .next (((s.modQ fun q => { q with fly := [] }).applyEff e).orFlags f.flags) := by
  subst he
  have hby : f.due ≤ min s.landBy (s.cyc - 1) := Nat.le_min.mpr ⟨hd, Nat.le_pred_of_lt hdue⟩
  have hpick : (f.eff.isLatch && !s.latchWaits f.eff) = true := by rw [hp, hw]; rfl
  exact congrArg Host.Outcome.next
    (landAll_takeBy_of_picked hfly (p := fun e => e.isLatch && !s.latchWaits e) hby hpick)

end

/-! ## Rows (R155) -/

/-- Without a native no chain is kept, so that none ends with a row. -/
theorem endRow_of_native_none {s : State} (h : s.t.ctl.native = none) (row : BitVec 8) : s.endRow row = s := by
  have hmap : s.t.ctl.native.map (fun n => { n with chains := n.chains.filter fun c => c.at_ != .acc row }) = s.t.ctl.native := by
    rw [h]; rfl
  calc s.endRow row
      = s.modCtl fun k =>
          { k with native := s.t.ctl.native.map (fun n => { n with chains := n.chains.filter fun c => c.at_ != .acc row }) } := rfl
    _ = s := by rw [hmap]; rfl

theorem accRow_fixRow (s : State) (row r : BitVec 8) (u : AccUpd) : (s.fixRow row u).accRow r = s.accRow r := by
  rw [State.accRow, State.accRow, (fixRow_aside s row u).task]

/-- A landing that brings no terms of a FREE native folds its update into the row. -/
theorem landRow_of_no_terms {s : State} (row : BitVec 8) {u : AccUpd} (hn : s.t.ctl.native = none)
    (hu : ∀ op i32 t ts, u = .beat op i32 t ts → ts = []) :
    s.landRow row u = (s.fixRow row u).setAcc row ((s.accRow row).fold u) := by
  have hfix : ((s.fixRow row u).setAcc row (((s.fixRow row u).accRow row).fold u)).t.ctl.native = none := by
    rw [State.setAcc, State.modMat_t_ctl, (fixRow_aside s row u).task, hn]
  rw [← accRow_fixRow s row row u]
  refine Eq.trans ?_ (endRow_of_native_none hfix row)
  cases u with
  | init => rfl
  | beat op i32 t ts =>
    obtain rfl := hu op i32 t ts rfl
    rfl

/-! ## Latches (R208, R261) -/

/-- A latch's bytes stand at its place in the scratchpad once it has landed. -/
theorem latch_scrRead (s : State) (off : Nat) (x : BitVec 1024) (bad : Bool) (lt : Time) (flags : BitVec 5) :
    ((s.applyEff (.latch off x bad lt)).orFlags flags).core.scrRead off 128 = leBytes 128 x.toNat := by
  have h := memRead_memWrite s.core.t.scratch off (leBytes 128 x.toNat)
  rwa [leBytes_length] at h

theorem latch_mem (s : State) (off : Nat) (x : BitVec 1024) (bad : Bool) (lt : Time) (flags : BitVec 5) :
    ((s.applyEff (.latch off x bad lt)).orFlags flags).mem = s.mem := rfl

end Sys2Proof.Machine
end

section
open Sys2Proof Sys2Proof.Machine

/-- Settles O35: a step is a turn or an act of the agenda, and each keeps memory canonical. -/
theorem stepKeepsMemory : Obligations.StepKeepsMemory := by
  unfold Obligations.StepKeepsMemory
  exact fun _ _ hw h => step_memOk hw h

/-- Settles O36: reset leaves memory empty. -/
theorem resetMemory : Obligations.ResetMemory := by
  unfold Obligations.ResetMemory
  exact Memory.wf_nil

/-- Settles O26 by the laws of memory: a read after a write, outside it, and its canonical form. -/
theorem memoryReadsWhatWasWritten : Obligations.MemoryReadsWhatWasWritten := by
  unfold Obligations.MemoryReadsWhatWasWritten
  intro m a bs
  exact ⟨memRead_memWrite m a bs, fun _ hb => memGet_memWrite_outside m hb, fun hw => memWrite_wf hw a bs⟩

/-- Settles O25: the laws of the register accessors, file by file. -/
theorem hardWiredRegisters : Obligations.HardWiredRegisters := by
  unfold Obligations.HardWiredRegisters
  intro s
  exact ⟨s.sGet_zero, s.kGet_zero, s.sPut_zero, s.kPut_zero, fun _ m x hn => s.sGet_sPut hn m x,
    fun _ m x hn => s.kGet_kPut hn m x, s.vGet_vPut, s.sPut_frame⟩
/-- Settles O47: each event lands its class of what is due (`Lands`), and a result that flies alone takes its effect. -/
theorem resultsLand : Obligations.ResultsLand := by
  unfold Obligations.ResultsLand
  intro s by_ latchBy without
  refine ⟨⟨_, rfl, ?_, (landResults_lands s).cyc⟩, ⟨_, rfl, ?_, (landAcc_lands s).cyc⟩, ⟨_, rfl, ?_, (landSwap_lands s).cyc⟩,
    ⟨_, rfl, ?_, (landLatch_lands s).cyc⟩, ⟨_, rfl, fun f hf => land_left s hf, fun f hf => ?_⟩,
    fun f hfly hd => ⟨?_, ?_, ?_, ?_, ?_⟩⟩
  · exact (landResults_lands s).fly_eq fun e => (Bool.not_not _).symm
  · exact (landAcc_lands s).fly_eq fun _ => rfl
  · exact (landSwap_lands s).fly_eq fun _ => rfl
  · exact (landLatch_lands s).fly_eq fun e => by rw [Bool.not_and, Bool.not_not]
  · exact replayPlacket_placket (land_placket s ▸ hf)
  · exact fun n x he => exec_resultLanding_single hfly he hd rfl rfl
  · exact fun n x he => exec_resultLanding_single hfly he hd rfl rfl
  · exact fun row y he => ⟨exec_accumulatorRowLanding_single hfly he hd rfl, fun hn hy => landRow_of_no_terms row hn hy⟩
  · exact fun he => exec_planeSwap_single hfly he hd rfl
  · intro off x bad lt he hdue hw
    exact ⟨_, exec_yokeLatchWrite_single hfly he hd hdue rfl (he ▸ hw), latch_scrRead .., latch_mem ..⟩
end

section
/-!
SUPPORT. Empty bundles, the ends of streams and hints (R10, R13, R173, R179, R339): a prefetch reads tables and lines at
their homes and fills caches, which moves neither the task nor the core's logical time, since L1 takes only a sector whose write the
core's time has already reached (R229).
-/
namespace Sys2Proof.Machine
open Sys2Proof

/-! ## Lines at their homes (R223, R225) -/

/-- A field reads nothing of the bits below it. -/
theorem field_of_div_eq {a b k lo : Nat} (h : a / 2 ^ k = b / 2 ^ k) (hk : k ≤ lo) (len : Nat) : field a lo len = field b lo len := by
  obtain ⟨d, rfl⟩ := Nat.exists_eq_add_of_le hk
  rw [field, field, Nat.pow_add, ← Nat.div_div_eq_div_mul, ← Nat.div_div_eq_div_mul, h]

theorem State.sliceKey_of_line_eq (s : State) {a b : Nat} (h : a / 2 ^ 10 = b / 2 ^ 10) : s.sliceKey a = s.sliceKey b := by
  have hf (lo len : Nat) (hlo : 10 ≤ lo) : field a lo len = field b lo len := field_of_div_eq h hlo len
  simp [State.sliceKey, State.homeOf, paModule, hf]

/-- An address names the 1,024-byte line that it lies in. -/
theorem State.line_of_line_eq (s : State) {a b : Nat} (h : a / 2 ^ 10 = b / 2 ^ 10) : s.line a = s.line b := by
  have h' : a / 1024 = b / 1024 := h
  rw [State.line, State.line, h', s.sliceKey_of_line_eq h]

/-! ## L1 and the logical time (R229) -/

/-- A time that has been reached raises nothing. -/
theorem tmax_eq_left {a b : Time} (h : tle b a = true) : tmax a b = a := by
  unfold tmax
  split
  next hab =>
    simp only [tle, decide_eq_true_eq] at h hab
    bv_omega
  next => rfl

theorem l1Room_aside (s : State) (k : Nat) : Aside s (s.l1Room k) := by
  unfold State.l1Room
  dsimp only
  split <;> exact ⟨rfl, rfl, rfl, rfl, rfl⟩

/-- A fill from the home raises the core's time to the sector's write, which has been reached here. -/
theorem l1Fill_aside (s : State) (k : Nat) (ft : Option Nat) (old : Option L1Sector)
    (h : tle (s.line (256 * k)).wts s.core.lt = true) : Aside s (s.l1Fill k ft old).1 := by
  unfold State.l1Fill
  dsimp only
  generalize HomeLine.touch _ _ _ _ _ = line
  have hr := (setLine_aside s (256 * k) line).trans (l1Room_aside _ k)
  exact ⟨hr.task, hr.cyc, tmax_eq_left h, hr.id, hr.others⟩

theorem l1Read_aside (s : State) (k : Nat) (ft : Option Nat) (h : tle (s.line (256 * k)).wts s.core.lt = true) :
    Aside s (s.l1Read k ft).1 := by
  unfold State.l1Read
  split
  · split
    · exact .rfl' s
    · exact l1Fill_aside s k ft _ h
  · exact l1Fill_aside s k ft _ h

/-! ## Refused accesses and fetched lines (R234, R344) -/

theorem refusedAt_aside (s : State) (va : Nat) : Aside s (s.refusedAt va).1 := by
  unfold State.refusedAt
  dsimp only
  split
  · exact .rfl' s
  · split
    · exact walkLines_aside ..
    · dsimp only
      split
      · exact walkLines_aside ..
      · exact .rfl' s

theorem noteRefused_aside (s : State) (va n : Nat) : Aside s (s.noteRefused va n) := by
  have h := refusedAt_aside s va
  unfold State.noteRefused
  generalize s.refusedAt va = r at h ⊢
  obtain ⟨u, _ | _⟩ := r
  · exact h
  · dsimp only
    split
    · exact h
    · exact h.trans (refusedAt_aside ..)

theorem ilineRoom_aside (s : State) : Aside s s.ilineRoom := by
  unfold State.ilineRoom
  split <;> exact ⟨rfl, rfl, rfl, rfl, rfl⟩

theorem addLine_aside (s : State) (va : Nat) (line : Sp Byte) (e : TlbEntry) : Aside s (s.addLine va line e) := by
  have h := (noteWalk_aside s va e).trans (ilineRoom_aside _)
  exact ⟨h.task, h.cyc, h.lt, h.id, h.others⟩

/-! ## The hints -/

theorem prefetch_aside (s : State) (lvl : BitVec 2) (va : W64) : Aside s (s.prefetch lvl va) := by
  unfold State.prefetch
  split
  next p e _ _ _ =>
    have hw := noteWalks_aside s [(p, e)]
    dsimp only
    split
    next pa ft _ =>
      split
      · exact hw
      · split
        next hl1 =>
          have hline : (s.noteWalks [(p, e)]).line (256 * (pa / 256)) = (s.noteWalks [(p, e)]).line pa :=
            State.line_of_line_eq _ (by omega)
          exact hw.trans (l1Read_aside _ _ ft (hline ▸ hl1.2))
        next => exact hw.trans (setLine_aside ..)
    next => exact hw
  next => exact noteRefused_aside ..

/-- The instruction answers a state whose task, cycle, logical time and memory are as before. -/
def IsHint (i : Instr) (s : State) : Prop := ∃ t, exec i s = .next t ∧ Aside s t ∧ t.mem = s.mem

theorem isHint_pref {s : State} (h : s.bun.issuing = true) (lvl : BitVec 2) (b : BitVec 6) (imm : CImm) :
    IsHint (.pref lvl b imm) s := by
  have hexec : exec (.pref lvl b imm) s = .next (s.prefetch lvl (s.addrImm b imm)) :=
    show execPref lvl b imm s = _ from issue_issuing h
  exact ⟨_, hexec, prefetch_aside .., State.prefetch_mem ..⟩

theorem isHint_ipref {s : State} (h : s.bun.issuing = true) (off : BitVec 16) : IsHint (.ipref off) s := by
  have hexec : execIpref off s = .next _ := issue_issuing h
  refine ⟨_, hexec, ?_, execIpref_mem off s _ hexec⟩
  dsimp only
  split
  · exact addLine_aside ..
  · exact noteRefused_aside ..
  · exact .rfl' s

/-! ## An empty bundle and the ends of streams (R10, R13, R339) -/

theorem exec_nop_issuing {s : State} (h : s.bun.issuing = true) : exec .nop s = .next s :=
  show execNop s = _ from issue_issuing h

theorem exec_endTask_issuing {s : State} (h : s.bun.issuing = true) :
    exec .endTask s = .next (s.modCtl fun c => { c with ending := some 0 }) :=
  show execEndTask s = _ from issue_issuing h

theorem exec_eret_issuing {s : State} (h : s.bun.issuing = true) : exec .eret s = .next s.trapReturn :=
  show execEret s = _ from issue_issuing h

end Sys2Proof.Machine
end

section
/-!
SUPPORT. The turn that tries a bundle (R10, R14, R21): the bundle at the program counter is judged, and by the judgement it issues, is held
or traps; with each the core has had its turn.
-/
namespace Sys2Proof.Machine
open Sys2Proof

/-! ## A bundle of one instruction -/

theorem afterExec_of_next {i : Instr} {s t : State} (h : exec i s = .next t) : afterExec i s = t := by
  rw [afterExec, h]

theorem gateSlot_of_some (s : State) {o : BundleOp} {i : Instr} (h : o.i = some i) : s.gateSlot o = gateOf i s := by
  rw [State.gateSlot, h]

/-- The instruction runs at the bundle, whether it stands in the W slot, which goes first, or in another. -/
theorem runOps_single {s t : State} {o : BundleOp} {i : Instr} (ho : o.i = some i)
    (h : exec i ((s.fixReads [o]).modBun fun x => { x with issuing := true, st := .issued }) = .next t) :
    s.runOps [o] = t := by
  have hrun := afterExec_of_next h
  cases hw : o.slot == .w <;> simp [State.runOps, hw, bne, ho, hrun]

/-- A held bundle without an `rlay` zeroes nothing. -/
theorem zeroBits_of_not_rlay (s : State) {o : BundleOp} {i : Instr} (ho : o.i = some i) (hi : ∀ b c tag, i ≠ .rlay b c tag)
    (gs : List Gate) : s.zeroBits [o] gs = s := by
  unfold State.zeroBits
  dsimp only
  split
  · rfl
  · split
    next b c tag hf =>
      simp only [firstOf, ho] at hf
      cases i with
      | rlay b c tag => exact absurd rfl (hi b c tag)
      | _ => cases hf
    next => rfl

/-! ## Trying the bundle -/

/-- A bundle waits at most for the turns of the beats' senders and receivers (R261). -/
theorem yokeTurn_le_two (ops : List BundleOp) : yokeTurn ops ≤ 2 := by
  refine foldl_keeps (· ≤ 2) _ (fun n o h => ?_) ops 0 (Nat.zero_le 2)
  split <;> omega

/-- The bundle is the one at the program counter, in a line that the instruction cache holds. -/
theorem tryIssue_of_bundleAt {s : State} {l : Sp Byte} {b : Bundle} (hl : s.iline s.t.ctl.pc.toNat = some l)
    (hb : s.bundleAt l = (s, .bundle b)) : s.tryIssue = s.tryBundle b := by
  have hline : s.withLine = .ok (s, l) := by rw [State.withLine, hl]
  simp only [State.tryIssue, hline, hb]

section
variable {s : State} {b : Bundle} (hd : s.core.defer = 2)
include hd

theorem not_defer_lt_yokeTurn (ops : List BundleOp) : ¬ s.core.defer < yokeTurn ops := by
  rw [hd]
  exact Nat.not_lt.mpr (yokeTurn_le_two ops)

theorem tryBundle_go (hj : (s.startBundle b).judge (b.ops.map (s.startBundle b).gateSlot) = .go) :
    s.tryBundle b = .done (((s.startBundle b).runOps b.ops).finish s.t.ctl.xfer) := by
  simp only [State.tryBundle, not_defer_lt_yokeTurn hd, if_false, hj]
  rfl

theorem tryBundle_hold (hj : (s.startBundle b).judge (b.ops.map (s.startBundle b).gateSlot) = .hold) :
    s.tryBundle b = .held (((s.startBundle b).zeroBits b.ops (b.ops.map (s.startBundle b).gateSlot)).noteSlip b.ops) := by
  simp only [State.tryBundle, not_defer_lt_yokeTurn hd, if_false, hj]

theorem tryBundle_trap {tr : Trap} {m : Option Mark}
    (hj : (s.startBundle b).judge (b.ops.map (s.startBundle b).gateSlot) = .trap tr m) :
    s.tryBundle b = .trapped ((s.startBundle b).raise tr m) := by
  simp only [State.tryBundle, not_defer_lt_yokeTurn hd, if_false, hj]

end

/-! ## The core's turn -/

/-- The state in which a bundle's try ends the core's turn; none where the bundle waits for other cores' beats. -/
def Issued.ended : Issued → Option State
  | .done s => some s
  | .trapped s => some s
  | .held s => some s
  | .later _ _ => none

/-- What the agenda names comes before everything else (log 1). -/
theorem step_eq_act {s : State} {a : Act} {as : List Act} (h : s.agenda = a :: as) :
    step s = .next (State.act { s with agenda := as } a) := by
  rw [step, State.advance, h]

theorem step_eq_noPower {s : State} (hp : s.power = false) (ha : s.agenda = []) : step s = .fault .noPower := by
  simp only [step, State.advance, ha, hp, Bool.false_eq_true, if_false]

/-- With power and nothing on the agenda a step is a turn (log 1). -/
theorem step_eq_turn {s : State} (hp : s.power = true) (ha : s.agenda = []) : step s = .next (s.turn true) := by
  simp only [step, State.advance, ha, hp, if_true]

/-- A task that nothing stops, whose bundle's cycle E has come with no trap before it and no native running, tries its bundle. -/
theorem takeTurn_of_ended {s u : State} (ht : s.t.task.isSome = true) (hh : s.t.hcwLeft = []) (hs : s.t.ctl.stopped s.cyc = false)
    (he : s.eAt ≤ s.cyc) (hp : s.preTrap = none) (hn : s.t.ctl.native = none) (hi : s.tryIssue.ended = some u) (auto : Bool) :
    s.takeTurn auto = (u, true) := by
  have htask : s.t.task.isNone = false := by rw [← Option.not_isSome, ht]; rfl
  simp only [State.takeTurn, hh, List.isEmpty_nil, if_true, htask, Bool.not_true, Bool.or_false, Bool.false_eq_true, if_false, hs, hn,
    Nat.not_lt.mpr he, hp]
  cases h : s.tryIssue with
  | later => rw [h] at hi; cases hi
  | done v | trapped v | held v => rw [h] at hi; cases hi; rfl

theorem turn_of_takeTurn {s u : State} {auto : Bool} (ha : s.core.acted = false) (h : s.takeTurn auto = (u, true)) :
    s.turn auto = u.acted.pass auto := by
  simp only [State.turn, ha, h, Bool.false_eq_true, if_false]

end Sys2Proof.Machine
end

section
open Sys2Proof Sys2Proof.Machine

/-- Settles O34: only the branch of no agenda and no power stops. -/
theorem stepStopsWithoutPower : Obligations.StepStopsWithoutPower := by
  unfold Obligations.StepStopsWithoutPower
  intro s
  refine ⟨fun ⟨hp, ha⟩ => step_eq_noPower hp ha, fun h => ?_⟩
  cases ha : s.agenda with
  | cons a as => exact ⟨_, step_eq_act ha⟩
  | nil => exact ⟨_, step_eq_turn (h.resolve_right fun hne => hne ha) ha⟩

/-- Settles O3: an issuing bundle takes its effect at once, and what the hints do stands aside of the task (`Aside`). -/
theorem nopsHintsStreamEnds : Obligations.NopsHintsStreamEnds := by
  unfold Obligations.NopsHintsStreamEnds
  intro s h
  refine ⟨exec_nop_issuing h, fun lvl b imm _ => ?_, fun off => ?_, exec_endTask_issuing h, exec_eret_issuing h⟩
  · obtain ⟨t, hexec, hside, hmem⟩ := isHint_pref h lvl b imm
    exact ⟨t, hexec, hside.task, hside.lt, hmem⟩
  · obtain ⟨t, hexec, hside, hmem⟩ := isHint_ipref h off
    exact ⟨t, hexec, hside.task, hside.lt, hmem⟩

/-- Settles O29: each word is decoded as it stands. -/
theorem workedWordsDecode : Obligations.WorkedWordsDecode := by
  unfold Obligations.WorkedWordsDecode
  decide

/-- Settles O32: the task tries its bundle (`takeTurn_of_ended`), whose one instruction the judgement lets run, holds or traps. -/
theorem stepRunsInstruction : Obligations.StepRunsInstruction := by
  unfold Obligations.StepRunsInstruction
  intro s l b o i hpow hag hact htask hleft hstop hE hpre hnat hdefer hline hbundle hops hi
  have hstep {r : Issued} {u : State} (hr : s.tryBundle b = r) (hu : r.ended = some u) : step s = .next (u.acted.pass true) := by
    have hended : s.tryIssue.ended = some u := by rw [tryIssue_of_bundleAt hline hbundle, hr, hu]
    rw [step_eq_turn hpow hag, turn_of_takeTurn hact (takeTurn_of_ended htask hleft hstop hE hpre hnat hended true)]
  have hgate : b.ops.map (s.startBundle b).gateSlot = [gateOf i (s.startBundle b)] := by
    rw [hops, List.map_singleton, gateSlot_of_some _ hi]
  dsimp only
  rw [← hgate]
  refine ⟨fun hj t ht => ?_, fun hj => ⟨hstep (tryBundle_hold hdefer hj) rfl, fun hr => ?_⟩, fun tr m hj => ?_⟩
  · rw [hops] at ht
    rw [← runOps_single hi ht, ← hops]
    exact hstep (tryBundle_go hdefer hj) rfl
  · rw [hops]
    exact zeroBits_of_not_rlay _ hi hr _
  · exact hstep (tryBundle_trap hdefer hj) rfl

end

section
/-!
SUPPORT. Encoding and decoding (R14, R32-R36, R38, R60, R62): a field is read back from the word that it was packed into, so the fields
of a code name the instruction that they were made from; and a word decodes only to an instruction whose code it is.
-/
namespace Sys2Proof

/-! ## Reading a field of a packed number -/


/-- A read above the lowest field skips it. -/
@[simp] theorem pack_cons_div {w v d : Nat} (fs : List (Nat × Nat)) (h : 2 ^ w ∣ d) :
    pack ((w, v) :: fs) / d = pack fs / (d / 2 ^ w) := by
  obtain ⟨k, rfl⟩ := h
  have hp : 0 < 2 ^ w := Nat.two_pow_pos w
  rw [Nat.mul_div_cancel_left _ hp, ← Nat.div_div_eq_div_mul, pack, Nat.add_mul_div_left _ _ hp,
    Nat.div_eq_of_lt (Nat.mod_lt _ hp), Nat.zero_add]

@[simp] theorem pack_cons_mod {w v m : Nat} (fs : List (Nat × Nat)) (h : m ∣ 2 ^ w) : pack ((w, v) :: fs) % m = v % m := by
  rw [pack, Nat.add_mod, Nat.mod_mod_of_dvd v h, Nat.mod_eq_zero_of_dvd (Nat.dvd_trans h (Nat.dvd_mul_right ..)), Nat.add_zero, Nat.mod_mod]

/-- A read inside the lowest field. -/
@[simp] theorem pack_cons_div_mod {w v d m : Nat} (fs : List (Nat × Nat)) (h : d * m ∣ 2 ^ w) :
    pack ((w, v) :: fs) / d % m = v / d % m := by
  rw [← Nat.mod_mul_right_div_self, ← Nat.mod_mul_right_div_self, pack_cons_mod fs h]

@[simp] theorem ofNat_pack_cons {w v n : Nat} (fs : List (Nat × Nat)) (h : n ≤ w) :
    BitVec.ofNat n (pack ((w, v) :: fs)) = BitVec.ofNat n v := by
  apply BitVec.eq_of_toNat_eq
  rw [BitVec.toNat_ofNat, BitVec.toNat_ofNat, pack_cons_mod fs (Nat.pow_dvd_pow 2 h)]

@[simp] theorem ofNat_pack_cons_div {w v d n : Nat} (fs : List (Nat × Nat)) (h : d * 2 ^ n ∣ 2 ^ w) :
    BitVec.ofNat n (pack ((w, v) :: fs) / d) = BitVec.ofNat n (v / d) := by
  apply BitVec.eq_of_toNat_eq
  rw [BitVec.toNat_ofNat, BitVec.toNat_ofNat, pack_cons_div_mod fs h]

/-- The immediate of a barrier operation holds the barrier's number, the gang bit and the bit that marks `arrive.init` (R205). -/
@[simp] theorem barrierImm_reads (m : BitVec 6) (g : BitVec 1) :
    (m.toNat + 64 * g.toNat) / 128 = 0 ∧
    BitVec.ofNat 6 (m.toNat + 64 * g.toNat) = m ∧ BitVec.ofNat 1 ((m.toNat + 64 * g.toNat) / 64) = g ∧
    BitVec.ofNat 6 (m.toNat + 64 * g.toNat + 128) = m ∧ BitVec.ofNat 1 ((m.toNat + 64 * g.toNat + 128) / 64) = g := by
  refine ⟨?_, ?_, ?_, ?_, ?_⟩ <;> bv_omega

/-! ## The fields of a word name their instruction (R33-R35) -/

/-- The minor code of an atomic chooses among the atomics (R187, R188). -/
theorem rawC_amo (m : Nat) (a b c : BitVec 6) (sz : BitVec 1) :
    rawC (pack (c3Fields 0x18 a b c (amoMinor m sz))) = amoInstr (m % 32) a b c sz := by
  simp [rawC, c3Fields, amoMinor]

theorem rawC_red (m : Nat) (b c : BitVec 6) (sz : BitVec 1) :
    rawC (pack (c3Fields 0x19 0 b c (amoMinor m sz))) = redInstr (m % 32) b c sz := by
  simp [rawC, c3Fields, amoMinor]

/-- Each format puts a field where the decoder looks for it. -/
theorem rawC_pack {i : Instr} {fs : List (Nat × Nat)} (h : i.cFields = some fs) : rawC (pack fs) = some i := by
  cases i with
  | br | jmp | call | callr | loop | ipref | ctopen =>
    cases h
    simp [rawC, cjFields]
  | jmpr | ld | lds | st | depdec | stage | prmx | trap =>
    cases h
    simp [rawC, ciFields]
  | pref lvl =>
    cases h
    simp [rawC, ciFields]
    bv_omega
  | brel | join | leave | gbar | phase | yrecv | mfs | mts =>
    cases h
    simp [rawC, ciImm]
  | expect | arrive | arriveInit =>
    cases h
    simp [rawC, ciImm]
  | vld | vst | vlds =>
    cases h
    simp [rawC, vFields]
  | ldx | stx =>
    cases h
    simp [rawC, c3Fields, xMinor]
  | vgath | vscat =>
    cases h
    simp [rawC, c3Fields, gathMinor]
  | amoAdd | amoAnd | amoOr | amoXor | amoMin | amoMax | amoMinn | amoMaxn | amoSwap | amoCas | amoIncw | amoFaddb | amoFadd =>
    cases h
    exact rawC_amo ..
  | redAdd | redAnd | redOr | redXor | redMin | redMax | redMinn | redMaxn | redIncw | redFaddb | redFadd =>
    cases h
    exact rawC_red ..
  | amov =>
    cases h
    simp [rawC, c3Fields, amoMinor]
  | ret | chkp | vldh | vsth | vchkp | copy | copyx | copyo | bset | ysend | fence | spawn | endTask | ctclose | eret | hset | rlay
  | tenc | hsnap =>
    cases h
    simp [rawC, c3Fields]
  | rset | fencep =>
    cases h
    simp [rawC, c3Fields]
    bv_omega
  | _ => cases h

theorem rawM_pack {i : Instr} {fs : List (Nat × Nat)} (h : i.mFields = some fs) : rawM (pack fs) = some i := by
  cases i with
  | mzero | mpush | mflip | mstrm | mdrain | mret | mskip | mpad | mscl =>
    cases h
    simp [rawM]
  | _ => cases h

theorem rawW_pack {i : Instr} {fs : List (Nat × Nat)} (h : i.wFields = some fs) : rawW (pack fs) = some i := by
  cases i with
  | waitFull | waitFree | waitCyc | waitCycLiteral | waitReg | waitBar | waitBarGang | waitRing | waitSpace | waitGroup | waitTrellis
  | waitYslot =>
    cases h
    simp [rawW]
  | _ => cases h

/-! ## The words of the C, M and W slots -/

theorem cFields_width {i : Instr} {fs : List (Nat × Nat)} (h : i.cFields = some fs) : (fs.map Prod.fst).sum = 32 := by
  cases i <;> cases h <;> rfl

theorem mFields_width {i : Instr} {fs : List (Nat × Nat)} (h : i.mFields = some fs) : (fs.map Prod.fst).sum = 16 := by
  cases i <;> cases h <;> rfl

theorem wFields_width {i : Instr} {fs : List (Nat × Nat)} (h : i.wFields = some fs) : (fs.map Prod.fst).sum = 16 := by
  cases i <;> cases h <;> rfl

/-- Fields of `n` bits together are the word that they make. -/
theorem toNat_ofNat_pack {n : Nat} {fs : List (Nat × Nat)} (h : (fs.map Prod.fst).sum = n) :
    (BitVec.ofNat n (pack fs)).toNat = pack fs := by
  rw [BitVec.toNat_ofNat, Nat.mod_eq_of_lt (h ▸ pack_lt fs)]

/-- What the decoder takes: an instruction that the word names, whose own fields make the word, within its limits. -/
theorem checked_some_iff {enc : Instr → Option (List (Nat × Nat))} {w : Nat} {o : Option Instr} {i : Instr} :
    checked enc w o = some i ↔ o = some i ∧ (∃ fs, enc i = some fs ∧ pack fs = w) ∧ i.wf = true := by
  cases o with
  | none => simp [checked]
  | some j =>
    simp only [checked, wordOf, Option.map_eq_some_iff]
    constructor
    · intro h
      split at h
      next hj => cases h; exact ⟨rfl, hj⟩
      next => cases h
    · rintro ⟨h, hj⟩
      cases h
      exact if_pos hj

theorem decodeC_pack {i : Instr} {fs : List (Nat × Nat)} (h : i.cFields = some fs) (hw : i.wf = true) :
    decodeC (BitVec.ofNat 32 (pack fs)) = some i := by
  rw [decodeC, toNat_ofNat_pack (cFields_width h)]
  exact checked_some_iff.mpr ⟨rawC_pack h, ⟨fs, h, rfl⟩, hw⟩

theorem decodeM_pack {i : Instr} {fs : List (Nat × Nat)} (h : i.mFields = some fs) (hw : i.wf = true) :
    decodeM (BitVec.ofNat 16 (pack fs)) = some i := by
  rw [decodeM, toNat_ofNat_pack (mFields_width h)]
  exact checked_some_iff.mpr ⟨rawM_pack h, ⟨fs, h, rfl⟩, hw⟩

theorem decodeW_pack {i : Instr} {fs : List (Nat × Nat)} (h : i.wFields = some fs) (hw : i.wf = true) :
    decodeW (BitVec.ofNat 16 (pack fs)) = some i := by
  rw [decodeW, toNat_ofNat_pack (wFields_width h)]
  exact checked_some_iff.mpr ⟨rawW_pack h, ⟨fs, h, rfl⟩, hw⟩

/-! ## Control words -/

/-- An operation's opcode has eight bits and names it again (R61). -/
theorem hcwInstr_of_hcw? {i : Instr} {op : Nat} {q : SlotOp} (h : i.hcw? = some (op, q)) : op < 2 ^ 8 ∧ hcwInstr op q = some i := by
  cases i <;> cases h <;> exact ⟨by decide, rfl⟩

theorem ofNat_toNat_mod {n : Nat} (x : BitVec n) : BitVec.ofNat n (x.toNat % 2 ^ n) = x := by
  rw [Nat.mod_eq_of_lt x.isLt, BitVec.ofNat_toNat, BitVec.setWidth_eq]

theorem slotFields_width (q : SlotOp) : ((slotFields q).map Prod.fst).sum = 16 := rfl

/-- A control word's fields together have 256 bits (R62). -/
theorem hcwFields_width (op : Nat) (h : Hcw) : ((hcwFields op h).map Prod.fst).sum = 256 := by
  have hw : (hcwFields op h).map Prod.fst = hcwWidths := rfl
  rw [hw]
  decide

/-- A control word is cut back into its opcode and its fields. -/
theorem hcwOf_pack (op : Nat) (h : Hcw) : hcwOf (pack (hcwFields op h)) = some (op % 2 ^ 8, h) := by
  have hw : hcwWidths = (hcwFields op h).map Prod.fst := rfl
  rw [hcwOf, hw, unpack_pack]
  simp only [hcwFields, Src.fields, List.map_cons, List.map_nil, List.cons_append, List.nil_append, srcOf,
    Nat.zero_mod, and_self, if_true, ofNat_toNat_mod]

theorem decodeH_pack {i : Instr} {op : Nat} {q : SlotOp} (h : i.hcw? = some (op, q)) (hw : i.wf = true) :
    decodeH q.slot (BitVec.ofNat 16 (pack (slotFields q))) (BitVec.ofNat 256 (pack (hcwFields op q.h))) = some i := by
  obtain ⟨hop, hi⟩ := hcwInstr_of_hcw? h
  have hs : (BitVec.ofNat 16 (pack (slotFields q))).toNat = pack (slotFields q) := toNat_ofNat_pack (slotFields_width q)
  have hh : (BitVec.ofNat 256 (pack (hcwFields op q.h))).toNat = pack (hcwFields op q.h) := toNat_ofNat_pack (hcwFields_width op q.h)
  rw [decodeH, hs, hh, hcwOf_pack, Nat.mod_eq_of_lt hop]
  simp [slotFields, hi, hw]

/-! ## The words of an instruction -/

/-- Every way in which an instruction can have words. -/
theorem encode_eq_some {i : Instr} {c : Code} (h : encode i = some c) :
    (i = .nop ∧ c = .nop) ∨ (∃ fs, i.cFields = some fs ∧ c = .c (BitVec.ofNat 32 (pack fs))) ∨
    (∃ fs, i.mFields = some fs ∧ c = .m (BitVec.ofNat 16 (pack fs))) ∨
    (∃ fs, i.wFields = some fs ∧ c = .w (BitVec.ofNat 16 (pack fs))) ∨
    ∃ op q, i.hcw? = some (op, q) ∧
      c = .h q.slot (BitVec.ofNat 16 (pack (slotFields q))) (BitVec.ofNat 256 (pack (hcwFields op q.h))) := by
  unfold encode at h
  split at h
  · cases h; exact .inl ⟨rfl, rfl⟩
  · split at h <;> cases h
    next fs hc => exact .inr (.inl ⟨fs, hc, rfl⟩)
    next fs hm _ => exact .inr (.inr (.inl ⟨fs, hm, rfl⟩))
    next fs hw _ _ => exact .inr (.inr (.inr (.inl ⟨fs, hw, rfl⟩)))
    next op q hh _ _ _ => exact .inr (.inr (.inr (.inr ⟨op, q, hh, rfl⟩)))

/-! ## What decodes is a code (R38) -/

/-- The slots are apart: no instruction of the C slot has words of the M or W slot. -/
theorem cFields_of_mFields {i : Instr} {fs : List (Nat × Nat)} (h : i.mFields = some fs) : i.cFields = none := by
  cases i <;> cases h <;> rfl

theorem cFields_mFields_of_wFields {i : Instr} {fs : List (Nat × Nat)} (h : i.wFields = some fs) : i.cFields = none ∧ i.mFields = none := by
  cases i <;> cases h <;> exact ⟨rfl, rfl⟩

theorem encode_of_cFields {i : Instr} {fs : List (Nat × Nat)} (h : i.cFields = some fs) :
    encode i = some (.c (BitVec.ofNat 32 (pack fs))) := by
  unfold encode
  split
  · cases h
  · simp only [h]

theorem encode_of_mFields {i : Instr} {fs : List (Nat × Nat)} (h : i.mFields = some fs) :
    encode i = some (.m (BitVec.ofNat 16 (pack fs))) := by
  unfold encode
  split
  · cases h
  · simp only [cFields_of_mFields h, h]

theorem encode_of_wFields {i : Instr} {fs : List (Nat × Nat)} (h : i.wFields = some fs) :
    encode i = some (.w (BitVec.ofNat 16 (pack fs))) := by
  obtain ⟨hc, hm⟩ := cFields_mFields_of_wFields h
  unfold encode
  split
  · cases h
  · simp only [hc, hm, h]

theorem encode_of_decodeC {w : W32} {i : Instr} (h : decodeC w = some i) : encode i = some (.c w) := by
  obtain ⟨-, ⟨fs, hi, hw⟩, -⟩ := checked_some_iff.mp h
  rw [encode_of_cFields hi, hw, BitVec.ofNat_toNat, BitVec.setWidth_eq]

theorem encode_of_decodeM {w : BitVec 16} {i : Instr} (h : decodeM w = some i) : encode i = some (.m w) := by
  obtain ⟨-, ⟨fs, hi, hw⟩, -⟩ := checked_some_iff.mp h
  rw [encode_of_mFields hi, hw, BitVec.ofNat_toNat, BitVec.setWidth_eq]

theorem encode_of_decodeW {w : BitVec 16} {i : Instr} (h : decodeW w = some i) : encode i = some (.w w) := by
  obtain ⟨-, ⟨fs, hi, hw⟩, -⟩ := checked_some_iff.mp h
  rw [encode_of_wFields hi, hw, BitVec.ofNat_toNat, BitVec.setWidth_eq]

/-! ## Encodings without a meaning (R38) -/

theorem rawC_unassigned {w : Nat} (h : w / 0x4000000 % 64 ∈ [0, 0x1C, 0x1D, 0x1E, 0x1F, 0x37, 0x3F]) : rawC w = none := by
  simp only [List.mem_cons, List.not_mem_nil, or_false] at h
  obtain h | h | h | h | h | h | h := h <;> simp only [rawC, h]

theorem rawM_unassigned {w : Nat} (h : w / 0x1000 % 16 ∈ [0, 10, 11, 12, 13, 14, 15]) : rawM w = none := by
  simp only [List.mem_cons, List.not_mem_nil, or_false] at h
  obtain h | h | h | h | h | h | h := h <;> simp only [rawM, h]

theorem rawW_unassigned {w : Nat} (h : w / 0x1000 % 16 ∈ [0, 12, 13, 14, 15]) : rawW w = none := by
  simp only [List.mem_cons, List.not_mem_nil, or_false] at h
  obtain h | h | h | h | h := h <;> simp only [rawW, h]

theorem decodeC_unassigned {w : W32} (h : w.toNat / 2 ^ 26 = 0 ∨ (0x1C ≤ w.toNat / 2 ^ 26 ∧ w.toNat / 2 ^ 26 ≤ 0x1F) ∨
    w.toNat / 2 ^ 26 = 0x37 ∨ w.toNat / 2 ^ 26 = 0x3F) : decodeC w = none := by
  have hm : w.toNat / 0x4000000 % 64 ∈ [0, 0x1C, 0x1D, 0x1E, 0x1F, 0x37, 0x3F] := by
    simp only [List.mem_cons, List.not_mem_nil, or_false]
    omega
  rw [decodeC, rawC_unassigned hm, checked]

theorem decodeM_unassigned {w : BitVec 16} (h : w.toNat / 2 ^ 12 = 0 ∨ 10 ≤ w.toNat / 2 ^ 12) : decodeM w = none := by
  have hm : w.toNat / 0x1000 % 16 ∈ [0, 10, 11, 12, 13, 14, 15] := by
    simp only [List.mem_cons, List.not_mem_nil, or_false]
    omega
  rw [decodeM, rawM_unassigned hm, checked]

theorem decodeW_unassigned {w : BitVec 16} (h : w.toNat / 2 ^ 12 = 0 ∨ 12 ≤ w.toNat / 2 ^ 12) : decodeW w = none := by
  have hm : w.toNat / 0x1000 % 16 ∈ [0, 12, 13, 14, 15] := by
    simp only [List.mem_cons, List.not_mem_nil, or_false]
    omega
  rw [decodeW, rawW_unassigned hm, checked]

theorem headerOk_eq_false {h : W32} (hh : h.toNat / 2 ^ 30 ≠ 1 ∨ 4 < h.toNat / 2 ^ 20 % 8 ∨ h.toNat % 2 ^ 15 ≠ 0) :
    headerOk h.toNat = false := by
  have hlt := h.isLt
  simp only [headerOk, Bool.and_eq_false_iff, beq_eq_false_iff_ne, decide_eq_false_iff_not]
  omega

theorem decodeBundle_illegal {addr : Nat} {h : W32} (ws : List W32) (table : Nat → W256) (held : Nat) (heldS : Bool)
    (hh : headerOk h.toNat = false ∨ 256 < addr % 256 + 4 * bundleWords h.toNat) :
    decodeBundle addr (h :: ws) table held heldS = .illegal h := by
  simp only [decodeBundle]
  exact if_pos (or_assoc.mp (.inl hh))

end Sys2Proof
end

section
open Sys2Proof

/-- Settles O30: by slot, the fields of the code name the instruction that they were made from. -/
theorem decodeEncode : Obligations.DecodeEncode := by
  unfold Obligations.DecodeEncode
  intro i c hw h
  obtain ⟨rfl, rfl⟩ | ⟨fs, hi, rfl⟩ | ⟨fs, hi, rfl⟩ | ⟨fs, hi, rfl⟩ | ⟨op, q, hi, rfl⟩ := encode_eq_some h
  · rfl
  · exact decodeC_pack hi hw
  · exact decodeM_pack hi hw
  · exact decodeW_pack hi hw
  · rw [decodeCode]
    exact decodeH_pack hi hw

/-- Settles O31: a word that decodes is the code of its instruction, and R38's encodings name none. -/
theorem unassignedRefused : Obligations.UnassignedRefused := by
  unfold Obligations.UnassignedRefused
  refine ⟨fun _ _ => encode_of_decodeC, fun _ _ => encode_of_decodeM, fun _ _ => encode_of_decodeW, fun _ => decodeC_unassigned,
    fun _ => decodeM_unassigned, fun _ => decodeW_unassigned, fun addr h ws table held heldS hh => ?_⟩
  have hill : (h.toNat / 2 ^ 30 ≠ 1 ∨ 4 < h.toNat / 2 ^ 20 % 8 ∨ h.toNat % 2 ^ 15 ≠ 0) ∨
      256 < addr % 256 + 4 * bundleWords h.toNat := by simpa only [or_assoc] using hh
  exact decodeBundle_illegal ws table held heldS (hill.imp_left headerOk_eq_false)

end

section
/-!
SUPPORT. The judgement before issue (R21, R37, R369), one lemma for each cause: what it answers once everything before the cause is
passed, and what a slot passes.
-/
namespace Sys2Proof.Machine
open Sys2Proof

/-! ## The first of a list -/

theorem firstOf_eq_none_iff {α β : Type} {f : α → Option β} {l : List α} : firstOf f l = none ↔ ∀ x ∈ l, f x = none := by
  induction l with
  | nil => simp [firstOf]
  | cons a l ih => cases h : f a <;> simp [firstOf, h, ih]

theorem firstOf_append_cons {α β : Type} {f : α → Option β} {l : List α} {x : α} {y : β} (r : List α)
    (hl : ∀ a ∈ l, f a = none) (hx : f x = some y) : firstOf f (l ++ x :: r) = some y := by
  induction l with
  | nil => simp [firstOf, hx]
  | cons a l ih =>
    obtain ⟨ha, hl⟩ := List.forall_mem_cons.mp hl
    simp only [List.cons_append, firstOf, ha, ih hl]

/-! ## The causes of one slot -/

/-- An illegal slot, or the trap that its decoding found (R37 step 3). -/
def Gate.illegal (g : Gate) : Option Trap := if g.bad then some (g.trapOf 0x02 g.enc) else g.badTrap

/-- An empty source that may not stall (R25, R317). -/
def State.emptySource (s : State) (g : Gate) : Option Trap :=
  firstOf (fun r : RegId × Bool => if (r.2 || s.resultReg r.1) && s.emptyAt r.1 then some (g.trapOf 0x04 r.1.code) else none) g.reads

/-- A pending destination (R26). -/
def State.pendingDst (s : State) (g : Gate) : Option Trap :=
  firstOf (fun r : RegId => if s.emptyAt r then some (g.trapOf 0x05 r.code) else none) g.writes

/-- The slot's own condition or a source holds the bundle (R21). -/
def State.holds (s : State) (g : Gate) : Bool := g.hold || g.reads.any fun r => s.emptyAt r.1

theorem Gate.illegal_eq_none_iff {g : Gate} : g.illegal = none ↔ g.bad = false ∧ g.badTrap = none := by
  unfold Gate.illegal
  cases g.bad <;> simp

theorem Gate.illegal_of_bad {g : Gate} (h : g.bad = true) : g.illegal = some (g.trapOf 0x02 g.enc) := if_pos h

theorem Gate.illegal_of_badTrap {g : Gate} {t : Trap} (hb : g.bad = false) (h : g.badTrap = some t) : g.illegal = some t := by
  rw [Gate.illegal, hb, h]
  rfl

theorem State.emptySource_eq_none_iff {s : State} {g : Gate} :
    s.emptySource g = none ↔ ∀ x ∈ g.reads, ((x.2 || s.resultReg x.1) && s.emptyAt x.1) = false := by
  simp only [State.emptySource, firstOf_eq_none_iff, ite_eq_right_iff, reduceCtorEq, imp_false, Bool.not_eq_true]

theorem State.emptySource_of_first {s : State} {g : Gate} {x : RegId × Bool} {rs ys : List (RegId × Bool)} (hg : g.reads = rs ++ x :: ys)
    (hrs : ∀ y ∈ rs, ((y.2 || s.resultReg y.1) && s.emptyAt y.1) = false) (hx : (x.2 || s.resultReg x.1) = true)
    (he : s.emptyAt x.1 = true) : s.emptySource g = some (g.trapOf 0x04 x.1.code) := by
  rw [State.emptySource, hg]
  refine firstOf_append_cons ys (fun y hy => ?_) ?_
  · rw [hrs y hy]; rfl
  · rw [hx, he]; rfl

theorem State.pendingDst_eq_none_iff {s : State} {g : Gate} : s.pendingDst g = none ↔ ∀ x ∈ g.writes, s.emptyAt x = false := by
  simp only [State.pendingDst, firstOf_eq_none_iff, ite_eq_right_iff, reduceCtorEq, imp_false, Bool.not_eq_true]

theorem State.pendingDst_of_first {s : State} {g : Gate} {x : RegId} {rs ys : List RegId} (hg : g.writes = rs ++ x :: ys)
    (hrs : ∀ y ∈ rs, s.emptyAt y = false) (he : s.emptyAt x = true) : s.pendingDst g = some (g.trapOf 0x05 x.code) := by
  rw [State.pendingDst, hg]
  refine firstOf_append_cons ys (fun y hy => ?_) ?_
  · rw [hrs y hy]; rfl
  · rw [he]; rfl

/-! ## The judgement, cause by cause -/

/-- The judgement by the names of its causes. -/
theorem State.judge_eq (s : State) (gs : List Gate) : s.judge gs =
    match firstOf Gate.illegal gs with
    | some t => .trap t none
    | none =>
    if s.inDelay && gs.any (·.xfer) then .trap { cause := 0x03, slot := .c, tval := 0, sub := 0 } none
    else
    match firstOf s.poisonTrap gs with
    | some (t, m) => .trap t m
    | none =>
    match firstOf s.emptySource gs with
    | some t => .trap t none
    | none =>
    match firstOf s.pendingDst gs with
    | some t => .trap t none
    | none =>
    match firstOf (·.early) gs with
    | some t => .trap t none
    | none =>
    if gs.any s.holds then .hold
    else
    match firstOf (·.trap) gs with
    | some t => .trap t none
    | none => .go := rfl

section
variable {s : State} {gs : List Gate}

theorem judge_illegal {t : Trap} (h : firstOf Gate.illegal gs = some t) : s.judge gs = .trap t none := by
  simp only [State.judge_eq, h]

variable (hl : ∀ g ∈ gs, g.illegal = none)
include hl

theorem judge_delay (hd : s.inDelay = true) (hx : ∃ g ∈ gs, g.xfer = true) :
    s.judge gs = .trap { cause := 0x03, slot := .c, tval := 0, sub := 0 } none := by
  simp only [State.judge_eq, firstOf_eq_none_iff.mpr hl, hd, Bool.true_and, List.any_eq_true.mpr hx, if_true]

variable (hd : (s.inDelay && gs.any (·.xfer)) = false)
include hd

theorem judge_poison {t : Trap} {m : Option Mark} (h : firstOf s.poisonTrap gs = some (t, m)) : s.judge gs = .trap t m := by
  simp only [State.judge_eq, firstOf_eq_none_iff.mpr hl, hd, h, Bool.false_eq_true, if_false]

variable (hp : ∀ g ∈ gs, s.poisonTrap g = none)
include hp

theorem judge_emptySource {t : Trap} (h : firstOf s.emptySource gs = some t) : s.judge gs = .trap t none := by
  simp only [State.judge_eq, firstOf_eq_none_iff.mpr hl, hd, firstOf_eq_none_iff.mpr hp, h, Bool.false_eq_true, if_false]

variable (hs : ∀ g ∈ gs, s.emptySource g = none)
include hs

theorem judge_pendingDst {t : Trap} (h : firstOf s.pendingDst gs = some t) : s.judge gs = .trap t none := by
  simp only [State.judge_eq, firstOf_eq_none_iff.mpr hl, hd, firstOf_eq_none_iff.mpr hp, firstOf_eq_none_iff.mpr hs, h,
    Bool.false_eq_true, if_false]

variable (hw : ∀ g ∈ gs, s.pendingDst g = none)
include hw

theorem judge_early {t : Trap} (h : firstOf (·.early) gs = some t) : s.judge gs = .trap t none := by
  simp only [State.judge_eq, firstOf_eq_none_iff.mpr hl, hd, firstOf_eq_none_iff.mpr hp, firstOf_eq_none_iff.mpr hs,
    firstOf_eq_none_iff.mpr hw, h, Bool.false_eq_true, if_false]

variable (he : ∀ g ∈ gs, g.early = none)
include he

/-- Behind the checks of cycle E the bundle waits, or the checks of its entries say whether it issues. -/
theorem judge_checked : s.judge gs =
    if gs.any s.holds then .hold else ((firstOf (·.trap) gs).map fun t => Verdict.trap t none).getD .go := by
  simp only [State.judge_eq, firstOf_eq_none_iff.mpr hl, hd, firstOf_eq_none_iff.mpr hp, firstOf_eq_none_iff.mpr hs,
    firstOf_eq_none_iff.mpr hw, firstOf_eq_none_iff.mpr he, Bool.false_eq_true, if_false]
  split
  · rfl
  · cases firstOf (·.trap) gs <;> rfl

theorem judge_hold (hh : ∃ g ∈ gs, s.holds g = true) : s.judge gs = .hold := by
  rw [judge_checked hl hd hp hs hw he, if_pos (List.any_eq_true.mpr hh)]

variable (hn : ∀ g ∈ gs, s.holds g = false)
include hn

theorem judge_entry {t : Trap} (h : firstOf (·.trap) gs = some t) : s.judge gs = .trap t none := by
  have hany : ¬ gs.any s.holds = true := by simpa using hn
  rw [judge_checked hl hd hp hs hw he, if_neg hany, h]
  rfl

theorem judge_go (h : ∀ g ∈ gs, g.trap = none) : s.judge gs = .go := by
  have hany : ¬ gs.any s.holds = true := by simpa using hn
  rw [judge_checked hl hd hp hs hw he, if_neg hany, firstOf_eq_none_iff.mpr h]
  rfl

end

theorem State.holds_eq_true_iff {s : State} {g : Gate} :
    s.holds g = true ↔ g.hold = true ∨ ∃ x ∈ g.reads, s.emptyAt x.1 = true := by
  simp only [State.holds, Bool.or_eq_true, List.any_eq_true]

theorem State.holds_eq_false_iff {s : State} {g : Gate} :
    s.holds g = false ↔ g.hold = false ∧ ∀ x ∈ g.reads, s.emptyAt x.1 = false := by
  simp only [State.holds, Bool.or_eq_false_iff, List.any_eq_false, Bool.not_eq_true]

/-- The delay rule asks for a transfer and a delay bundle to hold it (R30). -/
theorem State.delayRule_passed {s : State} {gs : List Gate} (h : s.inDelay = false ∨ ∀ g ∈ gs, g.xfer = false) :
    (s.inDelay && gs.any (·.xfer)) = false := by
  simpa only [Bool.and_eq_false_iff, List.any_eq_false, Bool.not_eq_true] using h

end Sys2Proof.Machine
end

section
open Sys2Proof Sys2Proof.Machine

/-- Settles O37, cause by cause: what stands before it is passed, and of the slots that have it the first is found. -/
theorem judgeOrder : Obligations.JudgeOrder := by
  unfold Obligations.JudgeOrder
  intro s l g r gs legal dry free
  have hg : g ∈ gs := List.mem_append_right l (List.mem_cons_self ..)
  refine ⟨fun hl => ⟨fun hb => ?_, fun t hb ht => ?_⟩, fun hl hd hx => ?_, fun hl hd => ?_⟩
  · exact judge_illegal (firstOf_append_cons r (fun h hh => Gate.illegal_eq_none_iff.mpr (hl h hh)) (Gate.illegal_of_bad hb))
  · exact judge_illegal (firstOf_append_cons r (fun h hh => Gate.illegal_eq_none_iff.mpr (hl h hh)) (Gate.illegal_of_badTrap hb ht))
  · exact judge_delay (fun h hh => Gate.illegal_eq_none_iff.mpr (hl h hh)) hd ⟨g, hg, hx⟩
  have hl : ∀ h ∈ gs, h.illegal = none := fun h hh => Gate.illegal_eq_none_iff.mpr (hl h hh)
  have hd := State.delayRule_passed hd
  refine ⟨fun t m hp ht => judge_poison hl hd (firstOf_append_cons r hp ht), fun hp => ⟨fun x rs ys hs hr hrs hx he => ?_, fun hs => ?_⟩⟩
  · exact judge_emptySource hl hd hp (firstOf_append_cons r (fun h hh => State.emptySource_eq_none_iff.mpr (hs h hh))
      (State.emptySource_of_first hr hrs hx he))
  have hs : ∀ h ∈ gs, s.emptySource h = none := fun h hh => State.emptySource_eq_none_iff.mpr (hs h hh)
  refine ⟨fun x rs ys hw hr hrs he => ?_, fun hw => ?_⟩
  · exact judge_pendingDst hl hd hp hs (firstOf_append_cons r (fun h hh => State.pendingDst_eq_none_iff.mpr (hw h hh))
      (State.pendingDst_of_first hr hrs he))
  have hw : ∀ h ∈ gs, s.pendingDst h = none := fun h hh => State.pendingDst_eq_none_iff.mpr (hw h hh)
  refine ⟨fun t hle ht => judge_early hl hd hp hs hw (firstOf_append_cons r hle ht), fun he => ⟨fun ⟨h, hh, hold⟩ => ?_, fun hn => ?_⟩⟩
  · exact judge_hold hl hd hp hs hw he ⟨h, hh, State.holds_eq_true_iff.mpr hold⟩
  have hn : ∀ h ∈ gs, s.holds h = false := fun h hh => State.holds_eq_false_iff.mpr (hn h hh)
  exact ⟨fun t hlt ht => judge_entry hl hd hp hs hw he hn (firstOf_append_cons r hlt ht), judge_go hl hd hp hs hw he hn⟩

end

section
/-!
SUPPORT. Waits (R35, R204-R206, R251, R273): one whose bundle issues acquires at most a time, and one whose condition does not hold holds
its bundle.
-/
namespace Sys2Proof.Machine
open Sys2Proof

/-! ## Literals -/

theorem State.lit_setWidth (s : State) (l : BitVec 2) : s.lit (l.setWidth 6) = s.bun.lits.getD l.toNat 0 := by
  rw [State.lit, BitVec.toNat_setWidth_of_le (by decide)]

/-- The literal of a gang wait names the member and the barrier (R35). -/
theorem State.gangBar_eq (s : State) (l : BitVec 2) :
    s.gangBar l = ((s.bun.lits.getD l.toNat 0).toNat / 64 % 64, BitVec.ofNat 6 (s.bun.lits.getD l.toNat 0).toNat) := by
  rw [State.gangBar, s.lit_setWidth]
  rfl

/-! ## What a met wait acquires -/

section
variable {s : State} (h : s.bun.issuing = true)
include h

theorem exec_waitBar_issuing (p : BitVec 1) (b : BitVec 6) : exec (.waitBar p b) s = .next (s.acquire (s.barAt none b).tDone) :=
  show execWaitBar p b s = _ from issue_issuing h

theorem exec_waitBarGang_issuing (p : BitVec 1) (l : BitVec 2) :
    exec (.waitBarGang p l) s = .next (s.acquire (s.barAt (some (s.gangBar l).1) (s.gangBar l).2).tDone) :=
  show execWaitBarGang p l s = _ from issue_issuing h

theorem exec_waitGroup_issuing (g : BitVec 6) : exec (.waitGroup g) s = .next (s.acquire (s.groupTime g)) :=
  show execWaitGroup g s = _ from issue_issuing h

end

/-! ## What an unmet wait holds -/

/-- A wait that asks for nothing but its condition holds its bundle until that is met. -/
theorem judge_unmet_wait (s : State) (i : Instr) {bad : Bool} {early : Option Trap} (hb : bad = false) (he : early = none) :
    s.judge [{ Gate.wait i false with bad, early }] = .hold := by
  subst hb he
  have hd : (s.inDelay && [Gate.wait i false].any (·.xfer)) = false := Bool.and_false _
  refine judge_hold ?_ hd ?_ ?_ ?_ ?_ ⟨_, List.mem_singleton_self _, rfl⟩ <;> exact List.forall_mem_singleton.mpr rfl

theorem issue_unmet_wait {s : State} (h : s.bun.issuing = false) (i : Instr) (eff : State → State) {c bad : Bool} {early : Option Trap}
    (hc : c = false) (hb : bad = false) (he : early = none) :
    issue { Gate.wait i c with bad, early } eff s = .next (s.modBun fun b => { b with st := .held }) :=
  issue_hold h (hc ▸ judge_unmet_wait s i hb he)

/-- A wait on the barrier of a member that the gang has, while that is PARKED or its phase is not complete (R35, R329). -/
theorem exec_waitBarGang_unmet {s : State} (h : s.bun.issuing = false) {p : BitVec 1} {l : BitVec 2} {w : Nat}
    (hl : (s.bun.lits.getD l.toNat 0).toNat = w) (hw : w < 2 ^ 12) (hmem : s.hasMember (w / 64) = true)
    (hp : s.memberParked (w / 64) = true ∨ (s.barAt (some (w / 64)) (BitVec.ofNat 6 w)).par = (p == 1)) :
    exec (.waitBarGang p l) s = .next (s.modBun fun b => { b with st := .held }) := by
  have hbar : s.gangBar l = (w / 64, BitVec.ofNat 6 w) := by
    rw [s.gangBar_eq, hl, Nat.mod_eq_of_lt (by omega)]
  have hcond : (!s.memberParked (s.gangBar l).1 && (s.barAt (some (s.gangBar l).1) (s.gangBar l).2).par != (p == 1)) = false := by
    rw [hbar]
    obtain hp | hp := hp <;> simp [hp]
  have hbad : ((s.lit (l.setWidth 6)).toNat / 2 ^ 12 != 0) = false := by
    rw [s.lit_setWidth, hl, Nat.div_eq_of_lt hw]
    rfl
  have hearly : trapIf (!s.hasMember (s.gangBar l).1) 0x18 (BitVec.ofNat 64 (s.gangBar l).1) = none := by
    rw [hbar, trapIf, hmem]
    rfl
  exact show execWaitBarGang p l s = _ from issue_unmet_wait h _ _ hcond hbad hearly

/-- A wait for a cycle reads a register that is full and unmarked. -/
theorem judge_unmet_waitCyc {s : State} {a : BitVec 6} (hm : s.markOf (.s a) = none) (he : s.emptyAt (.s a) = false)
    (hc : s.cyc < (s.sGet a).toNat) : s.judge [s.gateWaitCyc a] = .hold := by
  have hd : (s.inDelay && [s.gateWaitCyc a].any (·.xfer)) = false := Bool.and_false _
  have hold : (s.gateWaitCyc a).hold = true := by
    simp only [State.gateWaitCyc, Gate.wait, decide_eq_false (Nat.not_le.mpr hc), Bool.not_false]
  have hp : s.poisonTrap (s.gateWaitCyc a) = none := by
    simp only [State.poisonTrap, State.gateWaitCyc, Gate.wait, Gate.plain, Bool.false_eq_true, if_false, firstOf, hm]
    rfl
  have hs : s.emptySource (s.gateWaitCyc a) = none := by
    simp [State.emptySource_eq_none_iff, State.gateWaitCyc, he]
  refine judge_hold ?_ hd ?_ ?_ ?_ ?_ ⟨_, List.mem_singleton_self _, State.holds_eq_true_iff.mpr (.inl hold)⟩
  · exact List.forall_mem_singleton.mpr rfl
  · exact List.forall_mem_singleton.mpr hp
  · exact List.forall_mem_singleton.mpr hs
  · exact List.forall_mem_singleton.mpr rfl
  · exact List.forall_mem_singleton.mpr rfl

end Sys2Proof.Machine
end

section
open Sys2Proof Sys2Proof.Machine

/-- Settles O23: what an issuing wait does is to acquire a time at most. -/
theorem waitsAcquire : Obligations.WaitsAcquire := by
  unfold Obligations.WaitsAcquire
  intro s h up
  have hup (t : Option Time) : { s with core := { s.core with lt := up t } } = s.acquire t := by
    cases t <;> rfl
  have hplain {g : Gate} : issue g (fun s => s) s = .next s := issue_issuing h
  refine ⟨hplain, fun b => ⟨hplain, hplain, hplain⟩, fun _ => hplain, fun _ _ _ => hplain, fun _ _ => ⟨hplain, hplain⟩,
    fun slot => ?_, fun p b => ?_, fun p l => ?_, fun g => ?_⟩
  · exact show execWaitYslot slot s = _ from issue_issuing h
  · rw [exec_waitBar_issuing h, hup]
  · dsimp only
    rw [exec_waitBarGang_issuing h, s.gangBar_eq, hup]
  · rw [exec_waitGroup_issuing h, hup]

/-- Settles O24: a gate of a condition that does not hold is judged to hold its bundle. -/
theorem waitsHold : Obligations.WaitsHold := by
  unfold Obligations.WaitsHold
  intro s h held
  have unmet {i : Instr} {c : Bool} {eff : State → State} (hc : c = false) : issue (Gate.wait i c) eff s = .next held :=
    issue_unmet_wait h i eff hc rfl rfl
  refine ⟨fun b hst => ?_, fun b hst => ?_, fun b hm _ he hc => ?_, fun l hl => ?_,
    fun n => ⟨fun he => ?_, fun he => ?_, fun hn he => ?_⟩, fun g n hn => ?_, fun hten => ?_, fun slot hs => ?_, fun g hg => ?_,
    fun p b hp => ?_, fun p l => ?_, fun g n ha hg => ?_⟩
  · exact show execWaitFull b s = _ from unmet (beq_false_of_ne hst)
  · exact show execWaitFree b s = _ from unmet (beq_false_of_ne hst)
  · exact show execWaitCyc b s = _ from issue_hold h (judge_unmet_waitCyc hm he hc)
  · have hlit : decide ((BitVec.ofNat 32 s.cyc - s.lit (l.setWidth 6)).toNat < 2 ^ 31) = false := by
      rw [s.lit_setWidth]
      exact decide_eq_false (Nat.not_lt.mpr hl)
    exact show execWaitCycLiteral l s = _ from unmet hlit
  · exact show execWaitReg 0 n s = _ from issue_unmet_wait h _ _ (congrArg Bool.not he) rfl rfl
  · exact show execWaitReg 1 n s = _ from issue_unmet_wait h _ _ (congrArg Bool.not he) rfl rfl
  · exact show execWaitReg 2 n s = _ from
      issue_unmet_wait h _ _ (congrArg Bool.not he) (decide_eq_false (Nat.not_le.mpr hn)) rfl
  · exact show execWaitRing g n s = _ from unmet (decide_eq_false (Nat.not_le.mpr hn))
  · exact show execWaitTrellis s = _ from unmet (List.isEmpty_eq_false_iff.mpr hten)
  · exact show execWaitYslot slot s = _ from unmet (beq_false_of_ne hs)
  · exact show execWaitSpace g s = _ from unmet (decide_eq_false (Nat.not_lt.mpr hg))
  · exact show execWaitBar p b s = _ from unmet (bne_eq_false_iff_eq.mpr hp)
  · intro w hw hmem hp
    exact exec_waitBarGang_unmet h rfl hw hmem hp
  · have hgroup : s.groupDone g = false := by
      rw [State.groupDone, ha]
      exact decide_eq_false (Nat.not_lt.mpr hg)
    exact show execWaitGroup g s = _ from unmet hgroup

end

section
/-!
SUPPORT. Delayed transfers (R28, R168-R171): the decision of `br`, the targets, and what each latches as its bundle issues.
-/
namespace Sys2Proof.Machine
open Sys2Proof

/-! ## Decisions and targets -/

theorem getLsbD_zero_eq_odd (x : W64) : x.getLsbD 0 = decide (x.toInt % 2 = 1) := by
  rw [BitVec.getLsbD, Nat.testBit_zero, BitVec.toInt_eq_toNat_cond]
  exact decide_eq_decide.mpr (by split <;> omega)

theorem bne_eq_decide_ne {α : Type} [DecidableEq α] (a b : α) : (a != b) = decide (a ≠ b) := by
  rw [bne, Bool.beq_eq_decide_eq, decide_not]

/-- The condition codes of R168, in their order. -/
theorem brTaken_eq {cond : BitVec 4} (h : cond.toNat < 8) (x : W64) :
    brTaken cond x = [true, decide (x.toInt = 0), decide (x.toInt ≠ 0), decide (x.toInt < 0), decide (0 ≤ x.toInt),
      decide (x.toInt ≤ 0), decide (0 < x.toInt), decide (x.toInt % 2 = 1)].getD cond.toNat true := by
  unfold brTaken
  generalize cond.toNat = n at h ⊢
  match n, h with
  | 0, _ | 3, _ | 4, _ | 5, _ | 6, _ => rfl
  | 1, _ => exact Bool.beq_eq_decide_eq _ _
  | 2, _ => exact bne_eq_decide_ne _ _
  | 7, _ => exact getLsbD_zero_eq_odd x

theorem off4_eq (off : BitVec 16) : off4 off = off.signExtend 64 * 4 := by
  rw [off4, BitVec.shiftLeft_eq_mul_twoPow]
  rfl

theorem State.near_eq (s : State) (off : BitVec 16) : s.near off = s.bun.addr + off.signExtend 64 * 4 := by
  rw [State.near, off4_eq]

theorem and_not_region_eq (x : W64) : x &&& ~~~(0x3FFFF : W64) = BitVec.ofNat 64 (x.toNat / 2 ^ 18 * 2 ^ 18) := by
  have hmask : (0x3FFFF : W64) = (BitVec.allOnes 18).setWidth 64 := by decide
  have hshift : x &&& ~~~(0x3FFFF : W64) = x >>> 18 <<< 18 := by
    rw [hmask]
    ext i hi
    simp only [BitVec.getElem_and, BitVec.getElem_not, BitVec.getElem_setWidth, BitVec.getLsbD_allOnes]
    by_cases h18 : i < 18
    · simp [h18]
    · simp [h18, Nat.add_sub_of_le (Nat.not_lt.mp h18), BitVec.getLsbD_eq_getElem hi]
  rw [hshift]
  bv_omega

/-- The target of `jmp` lies in the 256 KiB region of its bundle (R169). -/
theorem State.jmpTarget_eq (s : State) (off : BitVec 16) :
    s.jmpTarget off = BitVec.ofNat 64 (s.bun.addr.toNat / 2 ^ 18 * 2 ^ 18 + 4 * off.toNat) := by
  have hoff : off.setWidth 64 <<< 2 = BitVec.ofNat 64 (4 * off.toNat) := by bv_omega
  rw [State.jmpTarget, and_not_region_eq, hoff, BitVec.ofNat_add]

/-! ## What an issuing transfer does -/

section
variable {s : State} (h : s.bun.issuing = true)
include h

theorem exec_br_issuing (cond : BitVec 4) (a : BitVec 6) (off : BitVec 16) :
    exec (.br cond a off) s = .next (s.transfer (brTaken cond (s.sGet a)) (s.near off)) :=
  show execBr cond a off s = _ from issue_issuing h

theorem exec_jmp_issuing (off : BitVec 16) : exec (.jmp off) s = .next (s.transfer true (s.jmpTarget off)) :=
  show execJmp off s = _ from issue_issuing h

theorem exec_jmpr_issuing (b : BitVec 6) (imm : CImm) :
    exec (.jmpr b imm) s = .next (s.transfer true (s.sGet b + s.immOf imm)) :=
  show execJmpr b imm s = _ from issue_issuing h

theorem exec_ret_issuing (b : BitVec 6) : exec (.ret b) s = .next (s.transfer true (s.sGet b)) :=
  show execRet b s = _ from issue_issuing h

theorem exec_call_issuing (off : BitVec 16) :
    exec (.call off) s = .next ((s.link.1.fly 1 .c (.s 63 s.link.2)).transfer true (s.near off)) := by
  have hnear : s.link.1.near off = s.near off := by
    unfold State.link
    split <;> rfl
  rw [← hnear]
  exact show execCall off s = _ from issue_issuing h

theorem exec_loop_issuing (a : BitVec 6) (off : BitVec 16) :
    exec (.loop a off) s = .next ((s.fly 1 .c (.s a (s.sGet a - 1))).transfer (decide (s.sGet a ≠ 1)) (s.near off)) := by
  have hdec : (s.sGet a - 1 != 0) = decide (s.sGet a ≠ 1) := by
    rw [bne_eq_decide_ne]
    exact decide_eq_decide.mpr (by bv_omega)
  rw [← hdec]
  exact show execLoop a off s = _ from issue_issuing h

end

end Sys2Proof.Machine
end

section
open Sys2Proof Sys2Proof.Machine

/-- Settles O1: each transfer issues at once, with its decision and its target as R168-R171 give them. -/
theorem transfersLatch : Obligations.TransfersLatch := by
  unfold Obligations.TransfersLatch
  intro s h
  refine ⟨fun cond a off hc => ?_, fun off => ?_, exec_jmpr_issuing h, exec_ret_issuing h, fun off => ?_, fun a off => ?_⟩
  · rw [exec_br_issuing h, brTaken_eq hc, s.near_eq]
    rfl
  · rw [exec_jmp_issuing h, s.jmpTarget_eq]
    rfl
  · rw [exec_call_issuing h, s.near_eq]
    rfl
  · rw [exec_loop_issuing h, s.near_eq]
    rfl

end

section
/-!
SUPPORT. What a bundle leaves for the next (R21, R28): a settled link writes at most s63, and the lookup of a `callr` (R318) no register.
-/
namespace Sys2Proof.Machine
open Sys2Proof

@[simp] theorem State.sPut_ctl (s : State) (n : BitVec 6) (x : W64) : (s.sPut n x).t.ctl = s.t.ctl := by
  unfold State.sPut
  split <;> rfl

/-! ## The link that waited for its words (log 5) -/

theorem State.settleLink_of_owes_none {s : State} (h : s.t.ctl.owed63 = none) (last : Bool) : s.settleLink last = s := by
  rw [State.settleLink, h]

/-- Settling a link touches neither the transfer in hand nor the bundle. -/
theorem State.settleLink_keeps (s : State) (last : Bool) :
    (s.settleLink last).t.ctl.xfer = s.t.ctl.xfer ∧ (s.settleLink last).t.ctl.bun = s.t.ctl.bun := by
  unfold State.settleLink
  split
  · split
    · exact ⟨rfl, rfl⟩
    · split
      · split <;> simp
      · exact ⟨rfl, rfl⟩
  · exact ⟨rfl, rfl⟩

/-- The second delay bundle issues: s63 takes the link where the free value still stands for it. -/
theorem State.settleLink_last_sGet {s : State} {y : W64} (ho : s.t.ctl.owed63 = some (y, s.bun.addr)) (hy : s.sGet 63 = y) :
    (s.settleLink true).sGet 63 = s.bun.next := by
  have hs : s.settleLink true = (s.sPut 63 s.bun.next).modCtl fun c => { c with owed63 := none } := by
    simp only [State.settleLink, ho, ne_eq, not_true_eq_false, if_false, if_true, hy]
  have hget : (s.sPut 63 s.bun.next).sGet 63 = s.bun.next := by
    rw [s.sGet_sPut (by decide), if_pos rfl]
  rw [hs]
  exact hget

/-! ## The lookup (R318) -/

theorem State.lookup_keeps (s : State) : s.lookup.t.regs = s.t.regs ∧ s.lookup.t.ctl.bun = s.t.ctl.bun := by
  unfold State.lookup
  split
  · exact ⟨rfl, rfl⟩
  · split
    · exact ⟨rfl, rfl⟩
    · dsimp only
      split <;> exact ⟨rfl, rfl⟩

theorem afterExec_substitutionLookup (s : State) :
    afterExec .substitutionLookup s = s ∨ afterExec .substitutionLookup s = s.lookup := by
  have hexec : exec .substitutionLookup s = .next s ∨ exec .substitutionLookup s = .next s.lookup := by
    change execSubstitutionLookup s = .next s ∨ execSubstitutionLookup s = .next s.lookup
    unfold execSubstitutionLookup
    split
    · split
      · exact .inr rfl
      · exact .inl rfl
    · exact .inl rfl
  exact hexec.imp afterExec_of_next afterExec_of_next

theorem afterExec_substitutionLookup_keeps (s : State) :
    (afterExec .substitutionLookup s).t.regs = s.t.regs ∧ (afterExec .substitutionLookup s).t.ctl.bun = s.t.ctl.bun := by
  obtain h | h := afterExec_substitutionLookup s
  · rw [h]; exact ⟨rfl, rfl⟩
  · rw [h]; exact s.lookup_keeps

/-- A transfer that is no `callr` is not looked up. -/
theorem afterExec_substitutionLookup_of_no_callr {s : State} {x : Xfer} (hx : s.t.ctl.xfer = some x) (hc : x.callr = none) :
    afterExec .substitutionLookup s = s := by
  obtain h | h := afterExec_substitutionLookup s
  · exact h
  · simp only [h, State.lookup, hx, hc]

/-! ## Behind the bundle -/

theorem State.finish_some_left {s : State} {x : Xfer} (h : 1 < x.left) :
    (s.finish (some x)).t.ctl.pc = s.bun.next ∧ (s.finish (some x)).t.ctl.xfer = some { x with left := x.left - 1 } := by
  have hbun := (s.settleLink_keeps (decide (x.left ≤ 1))).2
  simp only [State.finish, Nat.not_le.mpr h, if_false, State.modCtl_t_ctl, decide_false] at hbun ⊢
  exact ⟨congrArg Bun.next hbun, trivial⟩

theorem State.finish_none (s : State) :
    (s.finish none).t.ctl.pc = s.bun.next ∧ (s.finish none).t.ctl.eBase = s.cyc + 1 ∧ (s.finish none).t.ctl.seq = s.t.ctl.seq + 1 :=
  ⟨rfl, rfl, rfl⟩

theorem State.finish_some_last {s : State} {x : Xfer} (h : x.left ≤ 1) (hc : x.callr = none) (hx : s.t.ctl.xfer = some x) :
    (s.finish (some x)).t.ctl.pc = (if x.taken then x.target else s.bun.next) ∧ (s.finish (some x)).t.ctl.xfer = none := by
  obtain ⟨hxfer, hbun⟩ := s.settleLink_keeps true
  have hlook := afterExec_substitutionLookup_of_no_callr (hxfer.trans hx) hc
  simp only [State.finish, h, decide_true, if_true, hlook, State.modCtl_t_ctl, hxfer.trans hx, hbun]
  exact ⟨rfl, trivial⟩

/-- Beyond the link no register changes. -/
theorem State.finish_some_regs (s : State) (x : Xfer) :
    (s.finish (some x)).t.regs = (s.settleLink (decide (x.left ≤ 1))).t.regs := by
  by_cases h : x.left ≤ 1
  · simp only [State.finish, h, if_true, decide_true, State.modCtl_t_regs]
    exact (afterExec_substitutionLookup_keeps _).1
  · simp only [State.finish, h, if_false, decide_false, State.modCtl_t_regs]

theorem State.finish_regs {s : State} (h : s.t.ctl.owed63 = none) (x : Option Xfer) : (s.finish x).t.regs = s.t.regs := by
  cases x with
  | none => rfl
  | some x => rw [s.finish_some_regs, State.settleLink_of_owes_none h]

theorem State.sGet_of_regs_eq {s t : State} (h : s.t.regs = t.t.regs) (n : BitVec 6) : s.sGet n = t.sGet n := by
  rw [State.sGet, State.sGet, h]

theorem State.finish_settles_link {s : State} {x : Xfer} {y : W64} (ho : s.t.ctl.owed63 = some (y, s.bun.addr)) (h : x.left ≤ 1)
    (hy : s.sGet 63 = y) : (s.finish (some x)).sGet 63 = s.bun.next := by
  have hregs := s.finish_some_regs x
  rw [decide_eq_true h] at hregs
  rw [State.sGet_of_regs_eq hregs, State.settleLink_last_sGet ho hy]

end Sys2Proof.Machine
end

section
open Sys2Proof Sys2Proof.Machine

/-- Settles O33, by the transfer in hand: none, one with a delay bundle left, or one that takes effect. -/
theorem finishMovesPc : Obligations.FinishMovesPc := by
  unfold Obligations.FinishMovesPc
  intro s
  obtain ⟨hpc, he, hseq⟩ := s.finish_none
  exact ⟨hpc, he, hseq, fun _ => State.finish_some_left, fun _ => State.finish_some_last,
    fun x => ⟨fun ho => State.finish_regs ho x, s.finish_mem x⟩, fun _ _ => State.finish_settles_link⟩

end

section
/-!
SUPPORT. Integers and their encodings (R40, R41, R81): what an encoding stands for, how a result is narrowed and extended to 64
bits, and the bit operations on encodings (R90, R91).
-/
namespace Sys2Proof

/-! ## Integers modulo 2^w (R40, R41) -/

theorem signed_eq_toInt (w e : Nat) : signed w e = (BitVec.ofNat w e).toInt := by
  simp only [signed, BitVec.toInt_eq_toNat_cond, BitVec.toNat_ofNat]
  norm_cast

theorem signed_eq_bmod (w e : Nat) : signed w e = (e : Int).bmod (2 ^ w) := by
  rw [signed_eq_toInt, BitVec.toInt_ofNat']

theorem wrapN_eq_toNat (w : Nat) (x : Int) : wrapN w x = (BitVec.ofInt w x).toNat := by
  rw [wrapN, BitVec.toNat_ofInt]
  norm_cast

theorem ofNat_wrapN (w : Nat) (x : Int) : BitVec.ofNat w (wrapN w x) = BitVec.ofInt w x := by
  rw [wrapN_eq_toNat, BitVec.ofNat_toNat, BitVec.setWidth_eq]

theorem tySigned_iff {t : Nat} (h : t < 8) : tySigned t = true ↔ t % 2 = 0 := by
  rw [tySigned, decide_eq_true_eq]
  exact and_iff_right h

theorem intMin_eq {t : Nat} (h : t < 8) : intMin t = if tySigned t then -2 ^ (tyWidth t - 1) else 0 := by
  simp only [intMin, tySigned_iff h]

theorem intMax_eq {t : Nat} (h : t < 8) : intMax t = if tySigned t then 2 ^ (tyWidth t - 1) - 1 else 2 ^ tyWidth t - 1 := by
  simp only [intMax, tySigned_iff h]

theorem intMin_of_signed {t : Nat} (h : tySigned t = true) : intMin t = -2 ^ (tyWidth t - 1) := if_pos (of_decide_eq_true h).2

theorem intMax_of_signed {t : Nat} (h : tySigned t = true) : intMax t = 2 ^ (tyWidth t - 1) - 1 := if_pos (of_decide_eq_true h).2

/-! ## Operands and results (R69, R81) -/

theorem intArg_eq (t : Nat) (x : Src) (e : Nat) :
    intArg t x e =
      (let v : Int := if tySigned t then (e : Int).bmod (2 ^ tyWidth t) else (e : Int) % 2 ^ tyWidth t
       let v := if x.abs = 1 then (v.natAbs : Int) else v
       if x.neg = 1 then -v else v) := by
  simp only [intArg, signed_eq_bmod]
  norm_cast

/-- Without modifiers an operand is its encoding's value. -/
theorem intArg_of_mods_zero {x : Src} (hn : x.neg = 0) (ha : x.abs = 0) (t e : Nat) :
    intArg t x e = if tySigned t then (BitVec.ofNat (tyWidth t) e).toInt else ((BitVec.ofNat (tyWidth t) e).toNat : Int) := by
  simp [intArg, hn, ha, signed_eq_toInt]

namespace Machine

theorem putVal_eq_extend (t e : Nat) :
    putVal t e = if tySigned t then (BitVec.ofNat (tyWidth t) e).signExtend 64 else (BitVec.ofNat (tyWidth t) e).setWidth 64 := by
  rw [putVal, signed_eq_toInt, BitVec.signExtend, ← BitVec.toNat_ofNat, BitVec.ofNat_toNat]

theorem putVal_eq_mod (t e : Nat) :
    putVal t e = if tySigned t then (BitVec.ofNat (tyWidth t) e).signExtend 64 else BitVec.ofNat 64 (e % 2 ^ tyWidth t) := by
  rw [putVal_eq_extend, ← BitVec.ofNat_toNat, BitVec.toNat_ofNat]

theorem putVal_wrapN (t : Nat) (z : Int) :
    putVal t (wrapN (tyWidth t) z) =
      BitVec.ofInt 64 (if tySigned t then z.bmod (2 ^ tyWidth t) else z % 2 ^ tyWidth t) := by
  rw [putVal_eq_extend, ofNat_wrapN]
  split
  · rw [BitVec.signExtend, BitVec.toInt_ofInt]
  · have hz : 0 ≤ z % (2 ^ tyWidth t : Nat) := Int.emod_nonneg _ (Int.natCast_ne_zero.mpr (Nat.ne_of_gt (Nat.two_pow_pos _)))
    rw [← BitVec.ofNat_toNat, ← BitVec.ofInt_natCast, BitVec.toNat_ofInt, Int.toNat_of_nonneg hz, Int.natCast_pow]
    rfl

/-! ## Quotients and remainders (R88) -/

section
variable {t : Nat} {a b : Int}

theorem quotient_zero (ht : t < 8) (sat : Bool) : quotient t sat a 0 % 2 ^ tyWidth t = -1 % 2 ^ tyWidth t := by
  rw [quotient, if_pos rfl, intMax_eq ht]
  split
  · rfl
  · rw [Int.sub_eq_add_neg, Int.add_emod_left]

/-- The least value by −1 has no quotient in range. -/
theorem quotient_least (hs : tySigned t = true) (sat : Bool) :
    quotient t sat (-2 ^ (tyWidth t - 1)) (-1) = if sat then 2 ^ (tyWidth t - 1) - 1 else -2 ^ (tyWidth t - 1) := by
  rw [← intMin_of_signed hs, ← intMax_of_signed hs, quotient, if_neg (by decide), if_pos ⟨hs, rfl, rfl⟩]

theorem quotient_eq_tdiv (hb : b ≠ 0) (h : ¬(tySigned t = true ∧ a = -2 ^ (tyWidth t - 1) ∧ b = -1)) (sat : Bool) :
    quotient t sat a b = a.tdiv b := by
  rw [quotient, if_neg hb, if_neg]
  rintro ⟨hs, ha, hb1⟩
  exact h ⟨hs, ha.trans (intMin_of_signed hs), hb1⟩

theorem remainder_zero : remainder t a 0 = a := if_pos rfl

theorem remainder_least (hs : tySigned t = true) : remainder t (-2 ^ (tyWidth t - 1)) (-1) = 0 := by
  rw [← intMin_of_signed hs, remainder, if_neg (by decide), if_pos ⟨hs, rfl, rfl⟩]

theorem remainder_eq_sub (hb : b ≠ 0) (h : ¬(tySigned t = true ∧ a = -2 ^ (tyWidth t - 1) ∧ b = -1)) :
    remainder t a b = a - a.tdiv b * b := by
  rw [remainder, if_neg hb, if_neg, Int.tmod_def, Int.mul_comm]
  rintro ⟨hs, ha, hb1⟩
  exact h ⟨hs, ha.trans (intMin_of_signed hs), hb1⟩

end

/-! ## Shifts and rotations of encodings (R90) -/

theorem ofNat_not_low (w e : Nat) : BitVec.ofNat w (2 ^ w - 1 - e % 2 ^ w) = ~~~(BitVec.ofNat w e) := by
  rw [← BitVec.toNat_ofNat, ← BitVec.toNat_not, BitVec.ofNat_toNat, BitVec.setWidth_eq]

theorem ofNat_shl (w e c : Nat) : BitVec.ofNat w (if w ≤ c then 0 else e * 2 ^ c) = BitVec.ofNat w e <<< c := by
  split
  next h => rw [BitVec.shiftLeft_eq_zero h]
  next =>
    apply BitVec.eq_of_toNat_eq
    rw [BitVec.toNat_shiftLeft, BitVec.toNat_ofNat, BitVec.toNat_ofNat, Nat.shiftLeft_eq, Nat.mod_mul_mod]

theorem ofNat_shr (w e c : Nat) : BitVec.ofNat w (if w ≤ c then 0 else e % 2 ^ w / 2 ^ c) = BitVec.ofNat w e >>> c := by
  split
  next h => rw [BitVec.ushiftRight_eq_zero h]
  next =>
    apply BitVec.eq_of_toNat_eq
    rw [BitVec.toNat_ushiftRight, BitVec.toNat_ofNat, BitVec.toNat_ofNat, Nat.shiftRight_eq_div_pow]
    exact Nat.mod_eq_of_lt (Nat.lt_of_le_of_lt (Nat.div_le_self ..) (Nat.mod_lt _ (Nat.two_pow_pos w)))

theorem two_pow_le_two_pow {m n : Nat} (h : m ≤ n) : (2 : Int) ^ m ≤ 2 ^ n := by
  exact_mod_cast Nat.pow_le_pow_right (by decide) h

/-- Past its width an integer's quotient by a power of two is its sign. -/
theorem ediv_two_pow_min {w : Nat} {x : Int} (hlo : -2 ^ w ≤ x) (hhi : x < 2 ^ w) (c : Nat) : x / 2 ^ min c w = x / 2 ^ c := by
  obtain hc | hc := Nat.le_total c w
  · rw [Nat.min_eq_left hc]
  · have hp : (2 : Int) ^ w ≤ 2 ^ c := two_pow_le_two_pow hc
    rw [Nat.min_eq_right hc]
    obtain hx | hx := Int.lt_or_le x 0
    · have hneg (n : Nat) (h : -2 ^ n ≤ x) : x / 2 ^ n = -1 := by
        rw [Int.ediv_eq_iff_of_pos (Int.pow_pos (by decide))]
        omega
      rw [hneg w hlo, hneg c (by omega)]
    · rw [Int.ediv_eq_zero_of_lt hx hhi, Int.ediv_eq_zero_of_lt hx (by omega)]

theorem ofNat_sarEnc (w e c : Nat) : BitVec.ofNat w (sarEnc w e c) = (BitVec.ofNat w e).sshiftRight c := by
  have hlo := BitVec.le_two_mul_toInt (x := BitVec.ofNat w e)
  have hhi := BitVec.two_mul_toInt_lt (x := BitVec.ofNat w e)
  have hp : (0 : Int) < 2 ^ w := Int.pow_pos (by decide)
  rw [sarEnc, ofNat_wrapN, signed_eq_toInt, ediv_two_pow_min (by omega) (by omega), BitVec.sshiftRight,
    Int.shiftRight_eq_div_pow]
  norm_cast

theorem ofNat_rolEnc (w e c : Nat) : BitVec.ofNat w (rolEnc w (e % 2 ^ w) c) = (BitVec.ofNat w e).rotateLeft c := by
  obtain rfl | hw := Nat.eq_zero_or_pos w
  · exact Subsingleton.elim _ _
  apply BitVec.eq_of_toNat_eq
  rw [BitVec.toNat_rotateLeft, BitVec.toNat_ofNat, BitVec.toNat_ofNat, rolEnc, Nat.mod_mod]
  generalize he : e % 2 ^ w = x
  have hx : x < 2 ^ w := he ▸ Nat.mod_lt _ (Nat.two_pow_pos w)
  obtain ⟨m, hm⟩ : ∃ m, w = c % w + m := Nat.exists_eq_add_of_le (Nat.le_of_lt (Nat.mod_lt c hw))
  generalize c % w = k at hm
  subst hm
  have hdiv : x / 2 ^ m < 2 ^ k := Nat.div_lt_of_lt_mul (by rwa [← Nat.pow_add, Nat.add_comm])
  calc (x * 2 ^ k + x / 2 ^ (k + m - k)) % 2 ^ (k + m)
      = (2 ^ k * x + x / 2 ^ m) % (2 ^ k * 2 ^ m) := by rw [Nat.add_sub_cancel_left, Nat.pow_add, Nat.mul_comm x]
    _ = 2 ^ k * (x % 2 ^ m) + x / 2 ^ m := by
      rw [Nat.mod_mul, Nat.mul_add_mod, Nat.mod_eq_of_lt hdiv, Nat.mul_add_div (Nat.two_pow_pos k), Nat.div_eq_of_lt hdiv,
        Nat.add_zero, Nat.add_comm]
    _ = 2 ^ k * (x % 2 ^ m) ||| x / 2 ^ m := Nat.two_pow_add_eq_or_of_lt hdiv _
    _ = x <<< k % 2 ^ (k + m) ||| x >>> (k + m - k) := by
      rw [Nat.add_sub_cancel_left, Nat.shiftLeft_eq, Nat.shiftRight_eq_div_pow, Nat.pow_add, Nat.mul_comm x, Nat.mul_mod_mul_left]

/-- Past 127 places a saturating shift is out of the range of every type (R90). -/
theorem clamp_mul_two_pow_min {lo hi : Int} (hlo : -2 ^ 127 ≤ lo) (hhi : hi ≤ 2 ^ 127) (x : Int) (c : Nat) :
    max lo (min hi (x * 2 ^ min c 127)) = max lo (min hi (x * 2 ^ c)) := by
  obtain hc | hc := Nat.le_total c 127
  · rw [Nat.min_eq_left hc]
  have hp : (2 : Int) ^ 127 ≤ 2 ^ c := two_pow_le_two_pow hc
  rw [Nat.min_eq_right hc]
  obtain hx | rfl | hx := Int.lt_trichotomy x 0
  · have hlow (p : Int) (h : 2 ^ 127 ≤ p) : max lo (min hi (x * p)) = lo := by
      have hxp : x * p ≤ -1 * p := Int.mul_le_mul_of_nonneg_right (by omega) (by omega)
      exact Int.max_eq_left (Int.le_trans (Int.min_le_right ..) (by omega))
    rw [hlow _ (Int.le_refl _), hlow _ hp]
  · rw [Int.zero_mul, Int.zero_mul]
  · have hhigh (p : Int) (h : 2 ^ 127 ≤ p) : min hi (x * p) = hi := by
      have hxp : 1 * p ≤ x * p := Int.mul_le_mul_of_nonneg_right (by omega) (by omega)
      exact Int.min_eq_left (by omega)
    rw [hhigh _ (Int.le_refl _), hhigh _ hp]

theorem ofNat_shlSat {t : Nat} (ht : t < 8) (x : Int) (c : Nat) :
    BitVec.ofNat (tyWidth t) (shlSat t x c) = BitVec.ofInt (tyWidth t) (max (intMin t) (min (intMax t) (x * 2 ^ c))) := by
  have hr : ∀ t < 8, -2 ^ 127 ≤ intMin t ∧ intMax t ≤ 2 ^ 127 := by decide
  obtain ⟨hlo, hhi⟩ := hr t ht
  rw [shlSat, narrow, ofNat_wrapN, if_pos rfl, clamp_mul_two_pow_min hlo hhi]

/-! ## Bit counts (R91) -/

theorem leadZeros_le (w e : Nat) : leadZeros w e ≤ w := by
  unfold leadZeros
  split <;> omega

/-- The leading zero bits are zero, and a one bit follows them. -/
theorem leadZeros_bits (w e : Nat) : (∀ j < leadZeros w (e % 2 ^ w), (BitVec.ofNat w e).getMsbD j = false) ∧
    (leadZeros w (e % 2 ^ w) < w → (BitVec.ofNat w e).getMsbD (leadZeros w (e % 2 ^ w)) = true) := by
  have hbit (j : Nat) (hj : j < w) : (BitVec.ofNat w e).getMsbD j = (e % 2 ^ w).testBit (w - 1 - j) := by
    rw [BitVec.getMsbD_eq_getLsbD, decide_eq_true hj, Bool.true_and, BitVec.getLsbD, BitVec.toNat_ofNat]
  have hlt : e % 2 ^ w < 2 ^ w := Nat.mod_lt _ (Nat.two_pow_pos w)
  generalize e % 2 ^ w = m at *
  generalize hn : leadZeros w m = n
  obtain rfl | hpos := Nat.eq_zero_or_pos m
  · have hw : w = n := hn
    exact ⟨fun j hj => by rw [hbit j (hw ▸ hj), Nat.zero_testBit], fun h => absurd hw (Nat.ne_of_gt h)⟩
  · have hm : m ≠ 0 := Nat.ne_of_gt hpos
    have hlog : m.log2 < w := (Nat.log2_lt hm).mpr hlt
    rw [leadZeros, if_neg hm] at hn
    refine ⟨fun j hj => ?_, fun h => ?_⟩
    · rw [hbit j (by omega)]
      exact Nat.testBit_lt_two_pow ((Nat.log2_lt hm).mp (by omega))
    · rw [hbit n h, show w - 1 - n = m.log2 by omega, Nat.testBit_log2 hm]

/-- The trailing zero bits among the low `w` are zero, and a one bit follows them. -/
theorem trailZeros_testBit (w e : Nat) : trailZeros w e ≤ w ∧ (∀ j < trailZeros w e, e.testBit j = false) ∧
    (trailZeros w e < w → e.testBit (trailZeros w e) = true) := by
  induction w generalizing e with
  | zero => exact ⟨Nat.le_refl 0, fun j hj => absurd hj (Nat.not_lt_zero j), fun h => absurd h (Nat.lt_irrefl 0)⟩
  | succ w ih =>
    obtain ⟨hle, hzero, hone⟩ := ih (e / 2)
    rw [trailZeros]
    split
    next hodd => exact ⟨Nat.zero_le _, fun j hj => absurd hj (Nat.not_lt_zero j), fun _ => by simpa using hodd⟩
    next heven =>
      rw [Nat.add_comm 1]
      refine ⟨Nat.succ_le_succ hle, fun j hj => ?_, fun h => ?_⟩
      · cases j with
        | zero => simpa using heven
        | succ j => rw [Nat.testBit_succ, hzero j (Nat.lt_of_succ_lt_succ hj)]
      · rw [Nat.testBit_succ, hone (Nat.lt_of_succ_lt_succ h)]

theorem trailZeros_bits (w e : Nat) : (∀ j < trailZeros w e, (BitVec.ofNat w e).getLsbD j = false) ∧
    (trailZeros w e < w → (BitVec.ofNat w e).getLsbD (trailZeros w e) = true) := by
  obtain ⟨-, hzero, hone⟩ := trailZeros_testBit w e
  refine ⟨fun j hj => ?_, fun h => ?_⟩
  · rw [BitVec.getLsbD_ofNat, hzero j hj, Bool.and_false]
  · rw [BitVec.getLsbD_ofNat, hone h, decide_eq_true h, Bool.true_and]

theorem popcount_eq_length_filter (w e : Nat) : popcount w e = ((List.range w).filter e.testBit).length := by
  induction w generalizing e with
  | zero => rfl
  | succ w ih =>
    have hsucc : (e.testBit ∘ Nat.succ) = (e / 2).testBit := funext fun j => Nat.testBit_succ e j
    rw [popcount, ih, List.range_succ_eq_map, List.filter_cons, List.filter_map, hsucc, Nat.testBit_zero]
    obtain h | h := Nat.mod_two_eq_zero_or_one e <;> simp [h, Nat.add_comm]

theorem popcount_bits (w e : Nat) : popcount w e = ((List.range w).filter (BitVec.ofNat w e).getLsbD).length := by
  rw [popcount_eq_length_filter]
  refine congrArg List.length (List.filter_congr fun j hj => ?_)
  rw [BitVec.getLsbD_ofNat, decide_eq_true (List.mem_range.mp hj), Bool.true_and]

/-! ## Bit fields (R91) -/

/-- A field inside the low `w` bits is read from the encoding. -/
theorem ofNat_div_eq_field {w p n : Nat} (h : p + n ≤ w) (e : Nat) :
    BitVec.ofNat n (e / 2 ^ p) = ((BitVec.ofNat w e) >>> p).setWidth n := by
  apply BitVec.eq_of_getLsbD_eq
  intro j hj
  have hw : p + j < w := by omega
  simp only [BitVec.getLsbD_setWidth, BitVec.getLsbD_ushiftRight, BitVec.getLsbD_ofNat, hj, hw, decide_true, Bool.true_and,
    Nat.testBit_div_two_pow, Nat.add_comm]

theorem extend_field {w p n : Nat} (h : p + n ≤ w) (e : Nat) (b : Bool) :
    (if b then BitVec.ofInt 64 (signed n (e / 2 ^ p)) else BitVec.ofNat 64 (field e p n)) =
      if b then (((BitVec.ofNat w e) >>> p).setWidth n).signExtend 64 else (((BitVec.ofNat w e) >>> p).setWidth n).setWidth 64 := by
  rw [← ofNat_div_eq_field h, signed_eq_toInt, BitVec.signExtend, field, ← BitVec.toNat_ofNat, BitVec.ofNat_toNat]

theorem testBit_setField (e p n v j : Nat) :
    (setField e p n v).testBit j = if p ≤ j ∧ j < p + n then v.testBit (j - p) else e.testBit j := by
  have hlow : e % 2 ^ p < 2 ^ p := Nat.mod_lt _ (Nat.two_pow_pos p)
  have hmid : v % 2 ^ n < 2 ^ n := Nat.mod_lt _ (Nat.two_pow_pos n)
  rw [setField, Nat.add_comm, Nat.testBit_two_pow_mul_add _ hlow, Nat.add_comm (v % 2 ^ n), Nat.testBit_two_pow_mul_add _ hmid]
  obtain hj | hj := Nat.lt_or_ge j p
  · rw [if_pos hj, if_neg (by omega), Nat.testBit_mod_two_pow, decide_eq_true hj, Bool.true_and]
  rw [if_neg (Nat.not_lt.mpr hj)]
  obtain hn | hn := Nat.lt_or_ge (j - p) n
  · rw [if_pos hn, if_pos (by omega), Nat.testBit_mod_two_pow, decide_eq_true hn, Bool.true_and]
  · rw [if_neg (Nat.not_lt.mpr hn), if_neg (by omega), Nat.testBit_div_two_pow, Nat.sub_sub, Nat.sub_add_cancel (by omega)]

theorem getLsbD_setField {w v j : Nat} (hw : j < w) (hv : j < v) (e p n x : Nat) :
    (BitVec.ofNat v (setField e p n x)).getLsbD j =
      if p ≤ j ∧ j < p + n then (BitVec.ofNat w x).getLsbD (j - p) else (BitVec.ofNat w e).getLsbD j := by
  simp only [BitVec.getLsbD_ofNat, testBit_setField, decide_eq_true hw, decide_eq_true hv,
    decide_eq_true (Nat.lt_of_le_of_lt (Nat.sub_le j p) hw), Bool.true_and]

end Machine
end Sys2Proof
end

section
/-!
SUPPORT. Scalar slots (R60, R81, R89): what the row of an opcode admits of a well-formed slot, that reading the operands moves the random
stream alone, and what a slot of an issuing bundle does.
-/
namespace Sys2Proof

/-! ## The row of an opcode (R83) -/

/-- The row of an instruction's opcode. -/
def Instr.row? (i : Instr) : Option OpSpec := i.hcw?.bind fun p => opSpec p.1

theorem wf_eq_hcwOk {i : Instr} {op : Nat} {q : SlotOp} (hi : i.hcw? = some (op, q)) : i.wf = hcwOk op q := by
  cases i <;> cases hi <;> rfl

/-- What the row of a well-formed slot says of its type, its entry and its sources. -/
theorem row_of_wf {i : Instr} {op : Nat} {q : SlotOp} {sp : OpSpec} (hi : i.hcw? = some (op, q)) (hw : i.wf = true)
    (hr : i.row? = some sp) :
    sp.tys.testBit q.t = true ∧ entryOk op q = true ∧ ∀ x ∈ sources op q sp, modOk op q sp x.1 x.2.1 x.2.2 = true := by
  have hsp : opSpec op = some sp := by rwa [Instr.row?, hi] at hr
  rw [wf_eq_hcwOk hi, hcwOk, hsp] at hw
  simp only [Bool.and_eq_true, List.all_eq_true] at hw
  obtain ⟨⟨⟨⟨⟨⟨⟨⟨⟨⟨⟨⟨⟨⟨-, hty⟩, -⟩, -⟩, -⟩, -⟩, -⟩, -⟩, -⟩, -⟩, -⟩, hentry⟩, hsrc⟩, -⟩, -⟩ := hw
  exact ⟨hty, hentry, fun x hx => (hsrc x hx).2⟩

/-- A row of integer types admits no other. -/
theorem ty_lt_eight_of_wf {i : Instr} {op : Nat} {q : SlotOp} {sp : OpSpec} (hi : i.hcw? = some (op, q)) (hw : i.wf = true)
    (hr : i.row? = some sp) (ht : sp.tys < 2 ^ 8) : q.t < 8 := by
  have hbit := Nat.ge_two_pow_of_testBit (row_of_wf hi hw hr).1
  exact (Nat.pow_lt_pow_iff_right (by decide)).mp (Nat.lt_of_le_of_lt hbit ht)

/-- A row of the 64-bit types admits no other. -/
theorem tyWidth_of_wf_ty64 {i : Instr} {op : Nat} {q : SlotOp} {sp : OpSpec} (hi : i.hcw? = some (op, q)) (hw : i.wf = true)
    (hr : i.row? = some sp) (ht : sp.tys = ty64) : tyWidth q.t = 64 := by
  have h64 : ∀ t < 8, ty64.testBit t = true → tyWidth t = 64 := by decide
  exact h64 _ (ty_lt_eight_of_wf hi hw hr (by rw [ht]; decide)) (ht ▸ (row_of_wf hi hw hr).1)

/-- A bit field lies inside the 64 bits of its operands (R83). -/
theorem bitField_fits_of_wf {i : Instr} {op : Nat} {q : SlotOp} (hi : i.hcw? = some (op, q)) (hw : i.wf = true)
    (h : op = 0x24 ∨ op = 0x25) :
    tyWidth q.t = 64 ∧ q.h.aux.toNat % 64 + (q.h.aux.toNat / 64 % 64 + 1) ≤ 64 := by
  obtain ⟨sp, hr, h64, hentry⟩ : ∃ sp, i.row? = some sp ∧ sp.tys = ty64 ∧
      entryOk op q = decide (q.h.aux.toNat % 64 + (q.h.aux.toNat / 64 % 64 + 1) ≤ 64) := by
    rw [Instr.row?, hi]
    obtain rfl | rfl := h <;> exact ⟨_, rfl, rfl, rfl⟩
  exact ⟨tyWidth_of_wf_ty64 hi hw hr h64, of_decide_eq_true (hentry ▸ (row_of_wf hi hw hr).2.1)⟩

/-- A row without modifiers leaves A's fields zero (R69). -/
theorem mods_zero_of_wf {i : Instr} {op : Nat} {q : SlotOp} {sp : OpSpec} (hi : i.hcw? = some (op, q)) (hw : i.wf = true)
    (hr : i.row? = some sp) (hm : sp.mods = false) : q.h.a.neg = 0 ∧ q.h.a.abs = 0 := by
  have hmod := (row_of_wf hi hw hr).2.2 _ (List.mem_cons_self ..)
  simpa [modOk, hm] using hmod

namespace Machine

/-! ## Reading the operands (R65, R68) -/

section
variable {α : Type} {p : State → α} (hp : ∀ s w, p (s.pop w).1 = p s)
include hp

theorem State.source_keeps (s : State) (op : Nat) (q : SlotOp) (i : Nat) (x : Src) (r : Role) :
    p (s.source op q i x r).1 = p s := by
  cases r with
  | none | lit | litOpt | sreg | vreg | ident => rfl
  | ctl | sdata | kmask | data =>
    simp only [State.source]
    repeat' split
    all_goals simp only [hp]

/-- What a pop of the random stream leaves alone, reading the operands leaves alone. -/
theorem State.operands_keeps (s : State) (op : Nat) (q : SlotOp) : p (s.operands op q).1 = p s := by
  unfold State.operands
  split
  · rfl
  · split
    · simp only [State.source_keeps hp]
    · rfl

end

@[simp] theorem State.operands_cyc (s : State) (op : Nat) (q : SlotOp) : (s.operands op q).1.cyc = s.cyc :=
  State.operands_keeps (p := State.cyc) (fun _ _ => rfl) s op q

@[simp] theorem State.operands_ctl (s : State) (op : Nat) (q : SlotOp) : (s.operands op q).1.t.ctl = s.t.ctl :=
  State.operands_keeps (p := fun u => u.t.ctl) (fun _ _ => rfl) s op q

/-! ## Where no native runs (R320, R325) -/

theorem State.freeNative_of_no_native {s : State} (h : s.t.ctl.native = none) : s.freeNative = none := by
  rw [State.freeNative, h]

/-- A float addition outside a native is its listing's. -/
theorem scalarSum_of_no_native {s : State} (h : s.t.ctl.native = none) (f : SlotOp → Nat → Nat → Nat → Nat)
    (op : Nat) (q : SlotOp) : scalarSum f op q s = scalarOp (fun q a b c => q.putEnc (f q a b c)) op q s := by
  have hn : (s.operands op q).1.freeNative = none := State.freeNative_of_no_native (by rw [State.operands_ctl, h])
  simp only [scalarSum, scalarOp, State.chained, hn]
  rfl

theorem State.passChains_of_no_native {s : State} (h : s.t.ctl.native = none) (op : Nat) (q : SlotOp) (as xs : List Nat) :
    s.passChains op q as xs = s := by
  simp only [State.passChains, State.freeNative_of_no_native h]

/-! ## What an issuing scalar slot does -/

theorem State.repeated_congr {s : State} {i : Instr} {q : SlotOp} {eff eff' : State → State} (h : eff s = eff' s) :
    s.repeated i q eff = s.repeated i q eff' := by
  simp only [State.repeated, h]

/-- The slot of an issuing bundle has its effect, in whatever form the effect on this state is given. -/
theorem exec_hcw_issuing {s : State} {i : Instr} {op : Nat} {q : SlotOp} {eff : Nat → SlotOp → State → State} {eff' : State → State}
    (hs : s.bun.issuing = true) (hexec : exec i s = runHcw i eff s) (hi : i.hcw? = some (op, q)) (heff : eff op q s = eff' s) :
    exec i s = .next (s.repeated i q eff') := by
  rw [hexec, runHcw_issuing hi hs, State.repeated_congr heff]

end Machine
end Sys2Proof
end

section
open Sys2Proof Sys2Proof.Machine

/-- Settles O40: each result is narrowed or wrapped once from the exact value of its operands. -/
theorem integerResults : Obligations.IntegerResults := by
  unfold Obligations.IntegerResults
  intro s q hs w val lo hi put sends narrowed
  have hval (x : Src) (e : Nat) : intArg q.t x e = val x e := intArg_eq q.t x e
  have hput (z : Int) : q.putEnc (wrapN q.w z) = put z := putVal_wrapN q.t z
  have hnarrow (ht : q.t < 8) (z : Int) : q.putInt z = narrowed z := by
    have hclamp : (if (q.h.sat == 1) = true then max (intMin q.t) (min (intMax q.t) z) else z) =
        if q.h.sat = 1 then max lo (min hi z) else z := by
      simp only [beq_iff_eq, intMin_eq ht, intMax_eq ht, lo, hi, w]
    rw [SlotOp.putInt, narrow, hclamp]
    exact hput _
  have hsends {i : Instr} {f : SlotOp → Nat → Nat → Nat → W64} (v : Int → Int → Int → W64)
      (hexec : exec i s = runHcw i (scalarOp f) s)
      (hf : ∀ op, i.hcw? = some (op, q) → i.wf = true → ∀ a b c, f q a b c = v (q.iA a) (q.iB b) (q.iC c)) : sends i v := by
    intro op hop hw
    refine exec_hcw_issuing hs hexec hop ?_
    unfold scalarOp
    generalize s.operands op q = o
    obtain ⟨u, a, b, c⟩ := o
    dsimp only
    rw [hf op hop hw, SlotOp.iA, SlotOp.iB, SlotOp.iC, hval, hval, hval]
    rfl
  have harith (i : Instr) {sp : OpSpec} {f : SlotOp → Nat → Nat → Nat → W64} (g : Int → Int → Int → Int)
      (hexec : exec i s = runHcw i (scalarOp f) s) (hr : i.row? = some sp) (ht : sp.tys < 2 ^ 8)
      (hf : ∀ a b c, f q a b c = q.putInt (g (q.iA a) (q.iB b) (q.iC c))) : sends i fun a b c => narrowed (g a b c) :=
    hsends (fun a b c => narrowed (g a b c)) hexec fun op hop hw a b c => by rw [hf, hnarrow (ty_lt_eight_of_wf hop hw hr ht)]
  have hhigh (i : Instr) (hexec : exec i s = runHcw i (scalarOp fun q a b _ => q.putEnc (wrapN q.w (q.iA a * q.iB b / 2 ^ q.w))) s) :
      sends i fun a b _ => put (a * b / 2 ^ w) := hsends (fun a b _ => put (a * b / 2 ^ w)) hexec fun _ _ _ _ _ _ => hput _
  have hcmp (i : Instr) (p : Int → Int → Prop) [DecidableRel p]
      (hexec : exec i s = runHcw i (scalarOp fun q a b _ => putBool (decide (p (q.iA a) (q.iB b)))) s) :
      sends i fun a b _ => if p a b then 1 else 0 :=
    hsends (fun a b _ => if p a b then 1 else 0) hexec fun _ _ _ _ _ _ => by simp only [putBool, decide_eq_true_eq]
  have hrow : tyI < 2 ^ 8 ∧ tyiN < 2 ^ 8 ∧ tynN < 2 ^ 8 := by decide
  obtain ⟨hI, hiN, hnN⟩ := hrow
  exact ⟨harith (.add q) (fun a b _ => a + b) rfl rfl hI fun _ _ _ => rfl,
    harith (.sub q) (fun a b _ => a - b) rfl rfl hI fun _ _ _ => rfl,
    harith (.mul q) (fun a b _ => a * b) rfl rfl hI fun _ _ _ => rfl,
    harith (.madd q) (fun a b c => a * b + c) rfl rfl hI fun _ _ _ => rfl,
    harith (.neg q) (fun a _ _ => -a) rfl rfl hiN fun _ _ _ => rfl,
    harith (.abs q) (fun a _ _ => a.natAbs) rfl rfl hiN fun _ _ _ => rfl,
    harith (.min q) (fun a b _ => min a b) rfl rfl hiN fun _ _ _ => rfl,
    harith (.max q) (fun a b _ => max a b) rfl rfl hiN fun _ _ _ => rfl,
    harith (.minn q) (fun a b _ => min a b) rfl rfl hnN fun _ _ _ => rfl,
    harith (.maxn q) (fun a b _ => max a b) rfl rfl hnN fun _ _ _ => rfl,
    hhigh (.mulh q) rfl, hhigh (.mulhn q) rfl,
    hcmp (.cmpeq q) (· = ·) rfl, hcmp (.cmpne q) (· ≠ ·) rfl, hcmp (.cmplt q) (· < ·) rfl,
    hcmp (.cmple q) (· ≤ ·) rfl, hcmp (.cmpltn q) (· < ·) rfl, hcmp (.cmplen q) (· ≤ ·) rfl⟩

/-- Settles O41: the station holds the quotient or remainder of R88, each of whose three cases is a lemma. -/
theorem dividesTakeStations : Obligations.DividesTakeStations := by
  unfold Obligations.DividesTakeStations
  intro s q hs w val put least stations quot remd
  have hval (x : Src) (e : Nat) : intArg q.t x e = val x e := intArg_eq q.t x e
  have hput (z : Int) : q.putEnc (wrapN q.w z) = put z := putVal_wrapN q.t z
  have hstations (i : Instr) {sp : OpSpec} (f : SlotOp → Int → Int → Int) (ok : Int → Int → Int → Prop)
      (hexec : exec i s = runHcw i (divideOp fun q a b => q.putEnc (wrapN q.w (f q (q.iA a) (q.iB b)))) s)
      (hr : i.row? = some sp) (ht : sp.tys < 2 ^ 8) (hok : q.t < 8 → ∀ a b, ok a b (f q a b)) : stations i ok := by
    intro op hop hw
    refine ⟨f q (val q.h.a (s.operands op q).2.1) (val q.h.b (s.operands op q).2.2.1), exec_hcw_issuing hs hexec hop ?_,
      hok (ty_lt_eight_of_wf hop hw hr ht) _ _⟩
    have hcyc := s.operands_cyc op q
    unfold divideOp
    generalize s.operands op q = o at hcyc ⊢
    obtain ⟨u, a, b, c⟩ := o
    dsimp only at hcyc ⊢
    rw [hput, hcyc, SlotOp.iA, SlotOp.iB, hval, hval]
  have hquot (sat : Bool) (ht : q.t < 8) (a b : Int) : quot sat a b (quotient q.t sat a b) := by
    refine ⟨fun hb => ?_, fun _ hl => ?_, fun hb hl => quotient_eq_tdiv hb hl sat⟩
    · subst hb
      exact quotient_zero ht sat
    · obtain ⟨hsig, rfl, rfl⟩ := hl
      exact quotient_least hsig sat
  have hremd (a b : Int) : remd a b (remainder q.t a b) := by
    refine ⟨fun hb => ?_, fun _ hl => ?_, remainder_eq_sub⟩
    · subst hb
      exact remainder_zero
    · obtain ⟨hsig, rfl, rfl⟩ := hl
      exact remainder_least hsig
  have hrow : tyiN < 2 ^ 8 ∧ tynN < 2 ^ 8 := by decide
  obtain ⟨hiN, hnN⟩ := hrow
  exact ⟨hstations (.div q) (fun q => quotient q.t (q.h.sat == 1)) (quot (q.h.sat == 1)) rfl rfl hiN (hquot _),
    hstations (.divn q) (fun q => quotient q.t false) (quot false) rfl rfl hnN (hquot _),
    hstations (.rem q) (fun q => remainder q.t) remd rfl rfl hiN fun _ => hremd,
    hstations (.remn q) (fun q => remainder q.t) remd rfl rfl hnN fun _ => hremd⟩

/-- Settles O42: each result is `put` of the bit vector that R90 and R91 name. -/
theorem bitResults : Obligations.BitResults := by
  unfold Obligations.BitResults
  intro s q hs w put sends
  have hput {x : BitVec w} {e : Nat} (he : BitVec.ofNat w e = x) : q.putEnc e = put x := by
    subst he
    exact putVal_eq_extend q.t e
  have hsends (i : Instr) {f : SlotOp → Nat → Nat → Nat → W64} (ok : BitVec w → BitVec w → Nat → W64 → Prop)
      (hexec : exec i s = runHcw i (scalarOp f) s)
      (hok : ∀ op, i.hcw? = some (op, q) → i.wf = true → ∀ a b c, ok (BitVec.ofNat w a) (BitVec.ofNat w b) b (f q a b c)) :
      sends i ok := by
    intro op hop hw
    refine ⟨f q (s.operands op q).2.1 (s.operands op q).2.2.1 (s.operands op q).2.2.2, exec_hcw_issuing hs hexec hop ?_,
      hok op hop hw _ _ _⟩
    unfold scalarOp
    generalize s.operands op q = o
    obtain ⟨u, a, b, c⟩ := o
    rfl
  have henc (i : Instr) {f : SlotOp → Nat → Nat → Nat → Nat} (g : BitVec w → BitVec w → Nat → BitVec w)
      (hexec : exec i s = runHcw i (scalarOp fun q a b c => q.putEnc (f q a b c)) s)
      (hf : ∀ a b c, BitVec.ofNat w (f q a b c) = g (BitVec.ofNat w a) (BitVec.ofNat w b) b) :
      sends i fun a b c v => v = put (g a b c) :=
    hsends i (fun a b c v => v = put (g a b c)) hexec fun _ _ _ a b c => hput (hf a b c)
  clear_value sends
  refine ⟨henc (.and q) (fun a b _ => a &&& b) rfl fun _ _ _ => BitVec.ofNat_and,
    henc (.or q) (fun a b _ => a ||| b) rfl fun _ _ _ => BitVec.ofNat_or,
    henc (.xor q) (fun a b _ => a ^^^ b) rfl fun _ _ _ => BitVec.ofNat_xor,
    henc (.andn q) (fun a b _ => a &&& ~~~b) rfl fun _ _ _ => by rw [BitVec.ofNat_and, ← ofNat_not_low]; rfl,
    hsends (.shl q) _ rfl fun op hop hw a b c => hput ?_,
    henc (.shr q) (fun a _ c => a >>> c) rfl fun _ _ _ => ofNat_shr ..,
    henc (.sar q) (fun a _ c => a.sshiftRight c) rfl fun _ _ _ => ofNat_sarEnc ..,
    henc (.rol q) (fun a _ c => a.rotateLeft c) rfl fun _ _ _ => ofNat_rolEnc ..,
    hsends (.clz q) _ rfl fun _ _ _ a _ _ => ⟨_, leadZeros_le .., rfl, leadZeros_bits w a⟩,
    hsends (.ctz q) _ rfl fun _ _ _ a _ _ => ⟨_, (trailZeros_testBit w a).1, rfl, trailZeros_bits w a⟩,
    hsends (.popc q) _ rfl fun _ _ _ a _ _ => congrArg (BitVec.ofNat 64) (popcount_bits w a),
    hsends (.bext q) _ rfl fun op hop hw a _ _ => ?_, hsends (.bins q) _ rfl fun op hop hw a b _ => ?_⟩
  · have h8 : q.t < 8 := ty_lt_eight_of_wf hop hw rfl (by decide)
    obtain ⟨hneg, habs⟩ := mods_zero_of_wf hop hw rfl rfl
    split
    · rw [ofNat_shlSat h8, SlotOp.iA, intArg_of_mods_zero hneg habs, intMin_eq h8, intMax_eq h8]
    · exact ofNat_shl ..
  · obtain ⟨hw64, hp⟩ := bitField_fits_of_wf hop hw (.inl (by cases hop; rfl))
    exact extend_field (Nat.le_trans hp (Nat.le_of_eq hw64.symm)) a _
  · have hw64 := (bitField_fits_of_wf hop hw (.inr (by cases hop; rfl))).1
    exact fun j hj => getLsbD_setField (Nat.lt_of_lt_of_eq hj hw64.symm) hj ..

/-- Settles O43: a scalar slot sends the value of its operands; without a native a float sum is its listing's and a conversion
leaves no chain. -/
theorem scalarResults : Obligations.ScalarResults := by
  unfold Obligations.ScalarResults
  intro s q hs hn w put sends rm flt
  have hput (e : Nat) : q.putEnc e = put e := putVal_eq_mod q.t e
  have hsends (i : Instr) {f : SlotOp → Nat → Nat → Nat → W64} {eff : Nat → SlotOp → State → State}
      (v : Nat → Nat → Nat → W64) (hexec : exec i s = runHcw i eff s)
      (heff : ∀ op, i.hcw? = some (op, q) → eff op q s = scalarOp f op q s) (hv : ∀ a b c, f q a b c = v a b c) : sends i v := by
    intro op hi _
    refine exec_hcw_issuing hs hexec hi ?_
    rw [heff op hi]
    unfold scalarOp
    generalize s.operands op q = o
    obtain ⟨u, a, b, c⟩ := o
    dsimp only
    rw [hv]
    rfl
  have hscalar (i : Instr) {f : SlotOp → Nat → Nat → Nat → W64} (v : Nat → Nat → Nat → W64)
      (hexec : exec i s = runHcw i (scalarOp f) s) (hv : ∀ a b c, f q a b c = v a b c) : sends i v := hsends i v hexec (fun _ _ => rfl) hv
  have henc (i : Instr) {f : SlotOp → Nat → Nat → Nat → Nat} (v : Nat → Nat → Nat → Nat)
      (hexec : exec i s = runHcw i (scalarOp fun q a b c => q.putEnc (f q a b c)) s)
      (hv : ∀ a b c, f q a b c = v a b c) : sends i fun a b c => put (v a b c) :=
    hscalar i (fun a b c => put (v a b c)) hexec fun a b c => by rw [hput, hv]
  have hsum (i : Instr) {f : SlotOp → Nat → Nat → Nat → Nat} (v : Nat → Nat → Nat → Nat)
      (hexec : exec i s = runHcw i (scalarSum f) s) (hv : ∀ a b c, f q a b c = v a b c) : sends i fun a b c => put (v a b c) :=
    hsends i (fun a b c => put (v a b c)) hexec (fun op _ => scalarSum_of_no_native hn f op q) fun a b c => by rw [hput, hv]
  have hconst (i : Instr) {op : Nat} (v : State → SlotOp → W64)
      (hexec : exec i s = runHcw i (fun op q s => s.scalarResult op q (v s q)) s) (hi : i.hcw? = some (op, q))
      (ho : s.operands op q = (s, 0, 0, 0)) : sends i fun _ _ _ => v s q := by
    refine hsends i (f := fun q _ _ _ => v s q) (fun _ _ _ => v s q) hexec (fun op' hi' => ?_) fun _ _ _ => rfl
    obtain ⟨rfl, -⟩ := Prod.mk.inj (Option.some.inj (hi.symm.trans hi'))
    rw [scalarOp, ho]
  clear_value sends
  refine ⟨henc (.mov q) (fun a _ _ => a) rfl fun _ _ _ => rfl, hscalar (.movl q) _ rfl fun _ _ _ => rfl,
    henc (.sel q) (fun a b c => if c ≠ 0 then a else b) rfl fun _ _ _ => rfl,
    henc (.vget q) (fun a b _ => a / 2 ^ (w * (b % (256 / w))) % 2 ^ w) rfl fun _ _ _ => rfl,
    hsum (.fadd q) (fun a b _ => fltRes q.t rm ((q.fA a).add rm (q.fB b))) rfl fun _ _ _ => rfl,
    hsum (.fsub q) (fun a b _ => fltRes q.t rm ((q.fA a).add rm (q.fB b).negate)) rfl fun _ _ _ => rfl,
    hscalar (.fmul q) _ rfl fun _ _ _ => hput _,
    hsum (.fma q) (fun a b c => fltRes q.t rm (((q.fA a).mul (q.fB b)).add rm (q.fC c))) rfl fun _ _ _ => rfl,
    hscalar (.fcmp q) _ rfl fun _ _ _ => rfl,
    henc (.fmin q) (fun a b _ => fltEnc q.t ((q.fA a).fmin (q.fB b))) rfl fun _ _ _ => rfl,
    henc (.fmax q) (fun a b _ => fltEnc q.t ((q.fA a).fmax (q.fB b))) rfl fun _ _ _ => rfl, ?_, ?_,
    hconst (.rdcyc q) (fun s _ => BitVec.ofNat 64 s.cyc) rfl rfl rfl,
    hconst (.rdtc q) (fun s q => BitVec.ofNat 64 (s.specialInt (q.h.aux.toNat % 4 + 1))) rfl rfl rfl⟩
  · intro op hi hw code c
    refine exec_hcw_issuing hs (show exec (.fcvt q) s = execFcvt q s from rfl) hi ?_
    have hctl := s.operands_ctl op q
    dsimp only
    generalize s.operands op q = o at hctl ⊢
    obtain ⟨u, a, b, c'⟩ := o
    have hconv : q.convert a = c a := by
      simp only [SlotOp.convert, c, code, Nat.div_one]
      rfl
    dsimp only at hctl ⊢
    rw [State.passChains_of_no_native (by rw [hctl, hn]), hconv, hput]
    rfl
  · intro op hi hw
    exact exec_hcw_issuing hs (show exec (.rqpop q) s = execRqpop q s from rfl) hi rfl

end

section
/-!
SUPPORT. Traps of the C slot at their own bundle (R37, R337), and system registers, tags, phases and stages (R182, R195, R203, R217).
-/
namespace Sys2Proof.Machine
open Sys2Proof

/-! ## A trap that is delivered as it stands -/

/-- The causes of which a delivery does more than the frame: refused accesses have read tables (R344), a deferred fault has a record of
its own (R346), poison in a region unwinds it (R211). -/
def deliveredOtherwise : List (BitVec 8) := [0x08, 0x09, 0x0B, 0x11, 0x17]

theorem State.raise_eq_deliver (s : State) {tr : Trap} (h : tr.cause ∉ deliveredOtherwise) :
    s.raise tr none = s.deliver tr s.bun.addr := by
  simp only [deliveredOtherwise, List.mem_cons, List.not_mem_nil, or_false, not_or] at h
  obtain ⟨h08, h09, h0B, h11, h17⟩ := h
  have hnote : s.noteTrap tr = s := by simp only [State.noteTrap, h08, h09, h17, h11, false_and, or_self, if_false]
  have h11 : (tr.cause == 0x11) = false := beq_false_of_ne h11
  simp only [State.raise, hnote, h0B, false_and, if_false, h11]

theorem issue_deliver {g : Gate} {eff : State → State} {s : State} {tr : Trap} (h : s.bun.issuing = false)
    (hj : s.judge [g] = .trap tr none) (hc : tr.cause ∉ deliveredOtherwise) :
    issue g eff s = .next (s.deliver tr s.bun.addr) := by
  rw [issue_trap h hj, s.raise_eq_deliver hc]

/-- An illegal slot traps before anything else of its bundle (R37 step 3). -/
theorem issue_bad {g : Gate} {eff : State → State} {s : State} (h : s.bun.issuing = false) (hb : g.bad = true) :
    issue g eff s = .next (s.deliver (g.trapOf 0x02 g.enc) s.bun.addr) := by
  have hill : firstOf Gate.illegal [g] = some (g.trapOf 0x02 g.enc) := by rw [firstOf, Gate.illegal_of_bad hb]
  exact issue_deliver h (judge_illegal hill) (by simp [Gate.trapOf, deliveredOtherwise])

section
variable {s : State} {b : BitVec 6} (hm : s.markOf (.s b) = none) (ht : s.tagOf (.s b) = 0) (he : s.emptyAt (.s b) = false)
include hm ht he

/-- A slot whose one source is full and clean comes to the check of its entry. -/
theorem judge_entry_of_source {i : Instr} {bad : Bool} {t : Trap} (hd : s.inDelay = false ∨ (i.delayed || i.terminal) = false)
    (hb : bad = false) : s.judge [{ Gate.c i [b] [] with bad, trap := some t }] = .trap t none := by
  subst hb
  have hp : s.poisonTrap { Gate.c i [b] [] with trap := some t } = none := by
    simp [State.poisonTrap, Gate.c, Gate.plain, firstOf, hm, ht]
  have hs : s.emptySource { Gate.c i [b] [] with trap := some t } = none := by
    simp [State.emptySource_eq_none_iff, Gate.c, he]
  have hn : s.holds { Gate.c i [b] [] with trap := some t } = false := by
    simp [State.holds_eq_false_iff, Gate.c, Gate.plain, he]
  refine judge_entry ?_ (State.delayRule_passed (hd.imp_right fun hx => ?_)) ?_ ?_ ?_ ?_ ?_ rfl
  · exact List.forall_mem_singleton.mpr rfl
  · exact List.forall_mem_singleton.mpr hx
  · exact List.forall_mem_singleton.mpr hp
  · exact List.forall_mem_singleton.mpr hs
  · exact List.forall_mem_singleton.mpr rfl
  · exact List.forall_mem_singleton.mpr rfl
  · exact List.forall_mem_singleton.mpr hn

theorem exec_jmpr_misaligned (h : s.bun.issuing = false) (hd : s.inDelay = false) {imm : CImm}
    (hmis : (s.sGet b + s.immOf imm).toNat % 4 ≠ 0) : exec (.jmpr b imm) s =
      .next (s.deliver { cause := 0x06, slot := .c, tval := s.sGet b + s.immOf imm, sub := 0 } s.bun.addr) := by
  have hgate : s.gateJmpr b imm = { Gate.c (.jmpr b imm) [b] [] with
      trap := some { cause := 0x06, slot := .c, tval := s.sGet b + s.immOf imm, sub := 0 } } := by
    rw [State.gateJmpr, trapIf, if_pos (bne_iff_ne.mpr hmis)]
  have hj : s.judge [s.gateJmpr b imm] = .trap _ none := hgate ▸ judge_entry_of_source hm ht he (.inl hd) rfl
  exact show execJmpr b imm s = _ from issue_deliver h hj (by simp [deliveredOtherwise])

theorem exec_trap (h : s.bun.issuing = false) (imm : CImm) : exec (.trap b imm) s =
    .next (s.deliver { cause := 0x16, slot := .c, tval := s.sGet b + s.immOf imm, sub := 0 } s.bun.addr) :=
  show execTrap b imm s = _ from
    issue_deliver h (judge_entry_of_source hm ht he (.inr rfl) rfl) (by simp [deliveredOtherwise])

theorem exec_mts_readOnly (h : s.bun.issuing = false) (hprv : s.t.sys.prv = false) {n : BitVec 13} (hn : sysNone n = false)
    (hro : sysRo n.toNat = true) : exec (.mts b n) s =
      .next (s.deliver { cause := 0x15, slot := .c, tval := n.setWidth 64, sub := 0 } s.bun.addr) := by
  have hgate : s.gateMts b n = { Gate.c (.mts b n) [b] [] with
      bad := sysNone n, trap := some { cause := 0x15, slot := .c, tval := n.setWidth 64, sub := 0 } } := by
    rw [State.gateMts, trapIf, hprv, hro]
    rfl
  have hj : s.judge [s.gateMts b n] = .trap _ none := hgate ▸ judge_entry_of_source hm ht he (.inr rfl) hn
  exact show execMts b n s = _ from issue_deliver h hj (by simp [deliveredOtherwise])

end

/-! ## System registers (R217) -/

theorem sysNone_eq_false {n : BitVec 13} (h : n.toNat ≤ 13) : sysNone n = false := decide_eq_false (Nat.not_lt.mpr h)

theorem sysNone_eq_true {n : BitVec 13} (h : 14 ≤ n.toNat) : sysNone n = true := decide_eq_true h

/-- The bits of `sys.mode`. -/
theorem SysRegs.mode_eq (y : SysRegs) : y.mode = BitVec.ofNat 64 ((if y.h then 2 ^ 0 else 0) + (if y.prv then 2 ^ 1 else 0) +
    (if y.ph then 2 ^ 2 else 0) + (if y.log then 2 ^ 3 else 0) + (if y.rpl then 2 ^ 4 else 0) + if y.hs then 2 ^ 5 else 0) := by
  have hbit (x : Bool) (k : Nat) : (if x then 2 ^ k else 0) = 2 ^ k * (x.toNat % 2) := by cases x <;> simp
  have hmod (x : Bool) : x.toNat % 2 ^ 1 = x.toNat % 2 := rfl
  simp only [SysRegs.mode, pack, hbit, hmod]
  congr 1
  omega

/-- The registers that have a number, in the order of their numbers. -/
theorem State.sysGet_eq (s : State) {n : Nat} (h : n ≤ 13) : s.sysGet n =
    [s.t.sys.trapvec, s.t.sys.cause, s.t.sys.epc, s.t.sys.tval, BitVec.ofNat 64 (s.t.sys.sa.toNat + 2 ^ 8 * s.t.sys.da.toNat),
      BitVec.ofNat 64 (s.t.sys.rp.toNat + 2 ^ 8 * s.t.sys.kv.toNat), s.t.sys.stage.setWidth 64, s.t.sys.cvs.setWidth 64, s.t.sys.rqkey,
      s.t.sys.rqctr, s.core.lt.setWidth 64, s.t.sys.split.setWidth 64, BitVec.ofNat 64 s.t.ctl.regions.length, s.t.sys.mode].getD n 0 := by
  match n, h with
  | 0, _ | 1, _ | 2, _ | 3, _ | 4, _ | 5, _ | 6, _ | 7, _ | 8, _ | 9, _ | 10, _ | 11, _ | 12, _ | 13, _ => rfl

end Sys2Proof.Machine
end

section
open Sys2Proof Sys2Proof.Machine

/-- Settles O2: with their source full and clean both slots come to the check of their entry, which traps. -/
theorem slotTraps : Obligations.SlotTraps := by
  unfold Obligations.SlotTraps
  intro s b imm h hm ht he
  exact ⟨fun hd hmis => exec_jmpr_misaligned hm ht he h hd hmis, exec_trap hm ht he h imm⟩

/-- Settles O5: an issuing slot sends its value at once; a read-only or an unassigned register is found by the judgement. -/
theorem systemRegistersTagsPhases : Obligations.SystemRegistersTagsPhases := by
  unfold Obligations.SystemRegistersTagsPhases
  refine ⟨fun s h => ⟨fun a b => ?_, fun a b w => ?_, fun a => ?_, fun b imm => ?_⟩,
    fun s a n => ⟨fun h hn => ⟨?_, ?_⟩, fun h hm ht he hprv hn => ?_, fun h hn => ?_⟩⟩
  · exact show execChkp a b s = _ from issue_issuing h
  · exact show execVchkp a b w s = _ from issue_issuing h
  · exact show execPhase a s = _ from issue_issuing h
  · exact show execStage b imm s = _ from issue_issuing h
  · have hget := s.sysGet_eq hn
    rw [SysRegs.mode_eq] at hget
    have hexec : execMfs a n s = .next (s.fly 1 .c (.s a (s.sysGet n.toNat))) := issue_issuing h
    rw [hget] at hexec
    exact hexec
  · exact show execMts a n s = _ from issue_issuing h
  · have hn : n.toNat = 6 ∨ 10 ≤ n.toNat ∧ n.toNat ≤ 13 := hn.imp_left fun h6 => congrArg BitVec.toNat h6
    have hro : sysRo n.toNat = true := by simpa [sysRo] using hn
    exact exec_mts_readOnly hm ht he h hprv (sysNone_eq_false (by omega)) hro
  · have hbad := sysNone_eq_true hn
    exact ⟨show execMfs a n s = _ from issue_bad h hbad, show execMts a n s = _ from issue_bad h hbad⟩

end

section
/-!
SUPPORT. A `callr` whose descriptor's fetch changes what the delay bundles read as (R19, R170, R234, R344): the walk for the descriptor
brings in the translation of a large page, which from then on stands before a smaller one that the TLB already held for part of it.
-/
namespace Sys2Proof.Machine
open Sys2Proof

/-- The translation of a 64 KiB page that a TLB still holds although the tables no longer give it. -/
def heldPage : TlbEntry :=
  { ctx := 0, va := 0x40010000, lg := 16, pa := 0x20000, ms := false, u := true, x := true, w := false, rd := true }

/-- The tables map the 1 GiB from 2^30 on to physical address 0. The headers of two bundles of one word stand at 0x10000, where they
lead the page that `heldPage` leads to 0x20000; there a bundle of two words and one of one word stand. -/
def remappedMem : List Host.Cell := [(0, 1), (8, 0x33), (0x10003, 0x40), (0x10007, 0x40), (0x20002, 0x10), (0x20003, 0x40), (0x2000B, 0x40)]

/-- A bundle at 0x40000140 issues; its delay bundles lie in the page of `heldPage`. -/
def callrBeforeRemap : State :=
  { State.reset with
    mem := remappedMem
    core := { Core.reset 0 with
      tlb := [heldPage]
      t := { TaskSpan.fresh with
        ctl := { Ctl.start with bun := { Ctl.start.bun with addr := 0x40000140, next := 0x40010000, issuing := true } } } } }

/-- The effects on their way in the state that an outcome goes on to. -/
def effectsSent : Host.Outcome State Fault Refusal → List Effect
  | .next t => t.t.q.fly.map (·.eff)
  | _ => []

/-- Before the descriptor is fetched, the delay bundles read as `heldPage` leads to them: three words. -/
theorem callrBeforeRemap_link : callrBeforeRemap.link.2 = 0x4001000C := by decide

/-- The descriptor at 0x40000100 is all zeros and readable. -/
theorem callrBeforeRemap_callOf : (callrBeforeRemap.callOf 0).isSome = true := by decide

/-- Once it is fetched they read as the tables lead to them: two words, and so the link that is sent. -/
theorem callrBeforeRemap_sends : effectsSent (exec (.callr 0) callrBeforeRemap) = [.s 63 0x40010008] := by decide

end Sys2Proof.Machine
end

section
open Sys2Proof Sys2Proof.Machine

/-- Refutes O4: `callr` takes its link after its descriptor's fetch, whose translation can make the delay bundles read otherwise than
`s.link.2` finds them. -/
theorem not_callrLatches : ¬ Obligations.CallrLatches := by
  unfold Obligations.CallrLatches
  intro h
  obtain ⟨⟨c, l, d⟩, hcall⟩ := Option.isSome_iff_exists.mp callrBeforeRemap_callOf
  obtain ⟨t, hexec, -, ⟨f, hf, heff, -⟩, -⟩ := h callrBeforeRemap 0 c l d rfl hcall
  have hsent := callrBeforeRemap_sends
  rw [hexec] at hsent
  have hmem : f.eff ∈ t.t.q.fly.map (·.eff) := List.mem_map_of_mem hf
  rw [show t.t.q.fly.map (·.eff) = _ from hsent, heff, callrBeforeRemap_link] at hmem
  exact absurd hmem (by decide)

end

section
/-!
SUPPORT. Accesses that join the core path (R174-R185): a load's own reads stand aside of the task (`Aside`), which takes the entry and the
empty destination alone; a speculative load that fails sends tagged zeros.
-/
namespace Sys2Proof.Machine
open Sys2Proof

/-! ## Entries of the core path -/

/-- The entry of an operation that issues now. -/
def State.entry (s : State) (op : CoreOp) : CqEntry := { op, bun := s.bun.addr, seq := s.bun.seq, lt := s.core.lt, start := s.cyc }

/-- The task with registers empty and an entry behind everything in its core path. -/
def State.joined (s : State) (rs : List RegId) (e : CqEntry) : TaskSpan :=
  ((s.setEmpties rs true).modQ fun q => { q with cq := q.cq ++ [e] }).t

theorem State.joined_congr {s u : State} (h : u.t = s.t) (rs : List RegId) (e : CqEntry) : u.joined rs e = s.joined rs e := by
  simp only [State.joined, State.setEmpties, State.modQ, State.modFlags, State.modT_t, h]

/-- Of what moves while an access is checked, an entry carries the logical time. -/
theorem State.entry_of_task {s u : State} (h : u.t = s.t) (hc : u.cyc = s.cyc) (op : CoreOp) :
    u.entry op = { s.entry op with lt := u.core.lt } := by
  simp only [State.entry, State.bun, h, hc]

theorem Aside.entry_eq {s u : State} (h : Aside s u) (op : CoreOp) : u.entry op = s.entry op := by
  rw [State.entry_of_task h.task h.cyc, h.lt]
  rfl

theorem State.enq_eq (s : State) (op : CoreOp) : s.enq op = s.modQ fun q => { q with cq := q.cq ++ [s.entry op] } := rfl

/-! ## Loads (R174, R175) -/

theorem postLoad_t (s : State) (dst : LoadDst) (addr : W64) (n : Nat) (keep : Bool) (es : List LdElem) (spec : Bool)
    (ps : List (Piece × TlbEntry)) :
    (s.postLoad dst addr n keep es spec ps).t = s.joined dst.regs (s.entry (.load dst addr n keep es spec)) := by
  have hw := noteWalks_aside s ps
  rw [← hw.entry_eq, ← State.joined_congr hw.task]
  rfl

@[simp] theorem postLoad_lt (s : State) (dst : LoadDst) (addr : W64) (n : Nat) (keep : Bool) (es : List LdElem) (spec : Bool)
    (ps : List (Piece × TlbEntry)) : (s.postLoad dst addr n keep es spec ps).core.lt = s.core.lt :=
  noteWalks_lt s ps

/-- What a load of one element does as its bundle issues. -/
theorem runLoad_joins (s : State) (k : AccKind) (dst : LoadDst) (va : W64) (n : Nat) (spec : Bool) :
    (s.runLoad k dst va n spec).t = s.joined dst.regs
        (s.entry (.load dst va n false [{ off := 0, addr := va, pieces := bare (s.readPieces k va n), alt := none }] spec)) ∧
      (s.runLoad k dst va n spec).core.lt = s.core.lt ∧ (s.runLoad k dst va n spec).mem = s.mem :=
  ⟨postLoad_t .., postLoad_lt .., State.postLoad_mem ..⟩

/-! ## Speculative loads (R181) -/

/-- A tagged zero on its way to each register. -/
def State.tagAll (s : State) (rs : List RegId) (x : BitVec 3) : State := rs.foldl (fun u r => u.fly 1 .c (.tagged r x)) s

theorem State.fly_t_congr {s u : State} (h : u.t = s.t) (hc : u.cyc = s.cyc) (lat : Nat) (slot : Slot) (e : Effect) (fl : BitVec 5) :
    (u.fly lat slot e fl).t = (s.fly lat slot e fl).t := by
  simp only [State.fly, State.bun, State.modQ, State.modT_t, h, hc]

theorem State.tagAll_t_congr (rs : List RegId) (x : BitVec 3) {s u : State} (h : u.t = s.t) (hc : u.cyc = s.cyc) :
    (u.tagAll rs x).t = (s.tagAll rs x).t := by
  induction rs generalizing s u with
  | nil => exact h
  | cons r rs ih => exact ih (State.fly_t_congr h hc 1 .c (.tagged r x) 0) hc

theorem State.tagAll_lt_mem (s : State) (rs : List RegId) (x : BitVec 3) :
    (s.tagAll rs x).core.lt = s.core.lt ∧ (s.tagAll rs x).mem = s.mem :=
  foldl_keeps (fun u : State => u.core.lt = s.core.lt ∧ u.mem = s.mem) (fun u r => u.fly 1 .c (.tagged r x))
    (fun _ _ h => h) rs s ⟨rfl, rfl⟩

theorem checkRead_of_readTrap {s : State} {k : AccKind} {va : W64} {n : Nat} {c : BitVec 8}
    (h : (s.readTrap k va n).map (·.cause) = some c) : s.checkRead k va n = .error c := by
  unfold State.readTrap at h
  cases hr : s.checkRead k va n with
  | ok ps => rw [hr] at h; cases h
  | error c' => rw [hr] at h; cases h; rfl

theorem specLoad_passed {s : State} {k : AccKind} {dst : LoadDst} {va : W64} {n : Nat} {mis : Bool} (hm : mis = false)
    (h : s.readTrap k va n = none) : s.specLoad k dst va n mis = s.runLoad k dst va n true := by
  subst hm
  unfold State.readTrap at h
  unfold State.specLoad
  cases hr : s.checkRead k va n with
  | ok ps => rfl
  | error c => rw [hr] at h; cases h

/-- The state in which a speculative load leaves its task when a check of cause `c` fails. -/
structure SpecTagged (s t : State) (rs : List RegId) (c : BitVec 8) : Prop where
  task : t.t = ((s.setEmpties rs true).tagAll rs (tagFor c)).t
  lt : t.core.lt = s.core.lt
  mem : t.mem = s.mem

/-- A refused access reads tables at most, which stands aside of the task. -/
theorem specTagged_of_aside {s u : State} (h : Aside s u) (hm : u.mem = s.mem) (rs : List RegId) (c : BitVec 8) :
    SpecTagged s ((u.setEmpties rs true).tagAll rs (tagFor c)) rs c := by
  obtain ⟨hlt, hmem⟩ := (u.setEmpties rs true).tagAll_lt_mem rs (tagFor c)
  have htask : (u.setEmpties rs true).t = (s.setEmpties rs true).t := by
    simp only [State.setEmpties, State.modFlags, State.modT_t, h.task]
  exact ⟨State.tagAll_t_congr rs _ htask h.cyc, hlt.trans h.lt, hmem.trans hm⟩

theorem specLoad_misaligned (s : State) (k : AccKind) (dst : LoadDst) (va : W64) (n : Nat) :
    SpecTagged s (s.specLoad k dst va n true) dst.regs 0x06 :=
  specTagged_of_aside (.rfl' s) rfl dst.regs 0x06

theorem specLoad_refused {s : State} {k : AccKind} {dst : LoadDst} {va : W64} {n : Nat} {c : BitVec 8}
    (h : (s.readTrap k va n).map (·.cause) = some c) : SpecTagged s (s.specLoad k dst va n false) dst.regs c := by
  have hload : s.specLoad k dst va n false = ((s.noteRefused va.toNat n).setEmpties dst.regs true).tagAll dst.regs (tagFor c) := by
    simp only [State.specLoad, checkRead_of_readTrap h]
    rfl
  rw [hload]
  exact specTagged_of_aside (noteRefused_aside s va.toNat n) (State.noteRefused_mem ..) dst.regs c

/-! ## Loads of elements (R184, R185) -/

/-- Of elements paired with what is computed from each, only the elements count. -/
theorem map_fst_zip_map {α β γ : Type} (xs : List α) (f : α → β) (g : α → γ) :
    (xs.zip (xs.map f)).map (g ∘ Prod.fst) = xs.map g := by
  rw [← List.map_map, List.map_fst_zip (Nat.le_of_eq (List.length_map f).symm)]

/-- A load joins the core path from a state that has the task, the cycle and the memory of `s`. -/
theorem postLoad_joins {s u : State} (h : u.t = s.t) (hc : u.cyc = s.cyc) (hm : u.mem = s.mem) (dst : LoadDst) (addr : W64) (n : Nat)
    (keep : Bool) (es : List LdElem) (spec : Bool) (ps : List (Piece × TlbEntry)) :
    (u.postLoad dst addr n keep es spec ps).t =
        s.joined dst.regs { s.entry (.load dst addr n keep es spec) with lt := u.core.lt } ∧
      (u.postLoad dst addr n keep es spec ps).mem = s.mem := by
  rw [postLoad_t, State.entry_of_task h hc, State.joined_congr h]
  exact ⟨rfl, (State.postLoad_mem ..).trans hm⟩

end Sys2Proof.Machine
end

section
open Sys2Proof Sys2Proof.Machine

/-- Settles O7: each load runs as `runLoad` does, a speculative one where its checks pass. -/
theorem loadsJoinCorePath : Obligations.LoadsJoinCorePath := by
  unfold Obligations.LoadsJoinCorePath
  intro s h joins
  have hrun {i : Instr} {dst : LoadDst} {k : AccKind} {va : W64} {n : Nat} {spec : Bool}
      (hexec : exec i s = .next (s.runLoad k dst va n spec)) : joins i dst k va n spec :=
    ⟨_, hexec, runLoad_joins s k dst va n spec⟩
  clear_value joins
  refine ⟨fun a b imm => hrun ?_, fun a b c sz sh _ => hrun ?_, fun a b w buf off _ => hrun ?_, fun a b imm hok => hrun ?_,
    fun a b w off _ hal hok => hrun ?_⟩
  · exact show execLd a b imm s = _ from issue_issuing h
  · exact show execLdx a b c sz sh s = _ from issue_issuing h
  · exact show execVld a b w buf off s = _ from issue_issuing h
  · rw [← specLoad_passed rfl hok]
    exact show execLds a b imm s = _ from issue_issuing h
  · have hmis : ((s.sGet b + off32 off).toNat % 32 != 0) = false := bne_eq_false_iff_eq.mpr hal
    rw [← specLoad_passed hmis hok]
    exact show execVlds a b w 0 off s = _ from issue_issuing h

/-- Settles O8: the check that fails chooses the tag, and its reads stand aside of the task (`SpecTagged`). -/
theorem speculativeLoadsTag : Obligations.SpeculativeLoadsTag := by
  unfold Obligations.SpeculativeLoadsTag
  intro s c h tags
  have htag {i : Instr} {dst : LoadDst} {t : State} (hexec : exec i s = .next t) (ht : SpecTagged s t dst.regs c) : tags i dst :=
    ⟨t, hexec, ht.task, ht.lt, ht.mem⟩
  clear_value tags
  refine ⟨fun a b imm hc => htag (show execLds a b imm s = _ from issue_issuing h) (specLoad_refused hc), fun a b w off _ hc => ?_⟩
  have hexec (mis : Bool) (hmis : ((s.sGet b + off32 off).toNat % 32 != 0) = mis) : exec (.vlds a b w 0 off) s =
      .next (s.specLoad (vectorAcc .rd) (.v a (2 ^ w.toNat)) (s.sGet b + off32 off) (32 * 2 ^ w.toNat) mis) :=
    hmis ▸ show execVlds a b w 0 off s = _ from issue_issuing h
  obtain ⟨hmis, rfl⟩ | ⟨hal, hc⟩ := hc
  · exact htag (hexec true (bne_iff_ne.mpr hmis)) (specLoad_misaligned ..)
  · exact htag (hexec false (bne_eq_false_iff_eq.mpr hal)) (specLoad_refused hc)

/-- Settles O9: both join as one load (`postLoad_joins`), a handle load once its handle has been read. -/
theorem elementLoadsJoinCorePath : Obligations.ElementLoadsJoinCorePath := by
  unfold Obligations.ElementLoadsJoinCorePath
  intro s h joins
  have hjoin {i : Instr} {u : State} {a : BitVec 6} {w : BitVec 2} {addr : W64} {n : Nat} {keep : Bool} {es : List LdElem}
      {ps : List (Piece × TlbEntry)} {xs : List (Nat × W64)} (ht : u.t = s.t) (hc : u.cyc = s.cyc) (hm : u.mem = s.mem)
      (hexec : exec i s = .next (u.postLoad (.v a (2 ^ w.toNat)) addr n keep es false ps))
      (hxs : es.map (fun y => (y.off, y.addr)) = xs) : joins i a w n keep xs := by
    obtain ⟨htask, hmem⟩ := postLoad_joins ht hc hm (.v a (2 ^ w.toNat)) addr n keep es false ps
    refine ⟨_, addr, es, u.core.lt, hexec, ?_, hxs, ?_, ?_, ?_, ?_, ?_, hmem⟩ <;> rw [htask] <;> rfl
  clear_value joins
  refine ⟨fun a b c k w sc e _ => ?_, fun a b c w _ => ?_⟩
  · refine hjoin rfl rfl rfl (show execVgath a b c k w sc e s = _ from issue_issuing h) ?_
    exact List.map_map.trans (map_fst_zip_map (s.gElems b c k w sc e) _ fun x => (x.1 * 2 ^ e.toNat, x.2))
  · refine hjoin (readHandle_t ..) (readHandle_cyc ..) (State.readHandle_mem ..) (show execVldh a b c w s = _ from issue_issuing h) ?_
    simp only [List.map_map]
    rfl

/-- Settles O10: each posts one entry; a handle's image is read before, which moves the time alone. -/
theorem storesArePosted : Obligations.StoresArePosted := by
  unfold Obligations.StoresArePosted
  intro s h post
  refine ⟨fun a b imm => ?_, fun a b c sz sh _ => ?_, fun a b w buf off _ => ?_, fun a b c k w sc e _ => ?_, fun a b c w _ => ?_,
    fun b imm => ?_, fun b => ?_⟩
  · exact show execSt a b imm s = _ from issue_issuing h
  · exact show execStx a b c sz sh s = _ from issue_issuing h
  · exact show execVst a b w buf off s = _ from issue_issuing h
  · exact show execVscat a b c k w sc e s = _ from issue_issuing h
  · have hexec (op : CoreOp) : (s.readHandle (s.sGet b).toNat).enq op = post (s.readHandle (s.sGet b).toNat) op := by
      rw [State.enq_eq, State.entry_of_task (readHandle_t ..) (readHandle_cyc ..)]
      rfl
    dsimp only
    rw [← hexec]
    exact show execVsth a b c w s = _ from issue_issuing h
  · exact show execDepdec b imm s = _ from issue_issuing h
  · exact show execSpawn b s = _ from issue_issuing h

end

section
/-!
SUPPORT. A store performed at the head of the core path (R177, R183, R186): its pieces take its bytes in their order, each at its place, and
no write makes a line refuse the pieces behind it (R228).
-/
namespace Sys2Proof.Machine
open Sys2Proof

/-! ## Formats of lines (R228) -/

/-- The format under which a line stands at its home, where it is held and has one. -/
def ftAt (ls : Sp HomeLine) (k : Nat) : Option Nat := (spFind ls k).bind (·.ft)

theorem State.line_ft (s : State) (pa : Nat) : (s.line pa).ft = ftAt s.lines (pa / 1024) := by
  unfold State.line ftAt
  split
  next h => rw [h]; rfl
  next h => rw [h]; rfl

/-- No line takes a format that it did not have. -/
structure NoNewFt (s t : State) : Prop where
  plain : ∀ k, ftAt s.lines k = none → ftAt t.lines k = none

theorem NoNewFt.of_lines_eq {s t : State} (h : t.lines = s.lines) : NoNewFt s t := ⟨fun _ hk => h ▸ hk⟩

theorem NoNewFt.trans {s t u : State} (h : NoNewFt s t) (h' : NoNewFt t u) : NoNewFt s u := ⟨fun k hk => h'.plain k (h.plain k hk)⟩

theorem ftAt_spPut (ls : Sp HomeLine) (i k : Nat) (h : HomeLine) : ftAt (spPut ls i h) k = if k = i then h.ft else ftAt ls k := by
  rw [ftAt, spFind_put]
  split <;> rfl

theorem ftAt_spErase (ls : Sp HomeLine) (i k : Nat) : ftAt (spErase ls i) k = if k = i then none else ftAt ls k := by
  rw [ftAt, spFind_erase]
  split <;> rfl

theorem evictLine_noNewFt (s : State) (line : Nat) : NoNewFt s (s.evictLine line) := by
  refine ⟨fun k hk => ?_⟩
  unfold State.evictLine
  split
  · exact (ftAt_spErase ..).trans (by rw [hk, ite_self])
  · exact hk

theorem roomAt_noNewFt (s : State) (pa : Nat) : NoNewFt s (s.roomAt pa) := by
  unfold State.roomAt
  split
  · exact .of_lines_eq rfl
  · dsimp only
    split
    · exact .of_lines_eq rfl
    · exact (evictLine_noNewFt s _).trans (.of_lines_eq rfl)

theorem setLine_noNewFt (s : State) (pa : Nat) {h : HomeLine} (hft : h.ft = (s.line pa).ft) : NoNewFt s (s.setLine pa h) := by
  refine ⟨fun k hk => (ftAt_spPut ..).trans ?_⟩
  split
  next hkey => rw [hft, s.line_ft, ← hkey, hk]
  next => exact (roomAt_noNewFt s pa).plain k hk

theorem touch_noNewFt (s : State) (pa n : Nat) (wr : Bool) : NoNewFt s (s.touch pa n wr) := by
  refine ⟨fun k hk => ?_⟩
  unfold State.touch
  dsimp only
  split
  next h hline =>
    rw [ftAt_spPut]
    split
    next hkey =>
      rw [hkey, ftAt, hline] at hk
      exact hk
    next => exact hk
  next => exact hk

theorem engTime_noNewFt (s : State) (l : Time) (pa : Nat) (ms wr : Bool) : NoNewFt s (s.engTime l pa ms wr).1 := by
  unfold State.engTime
  split
  · exact .of_lines_eq rfl
  · split
    · dsimp only
      split <;> exact .of_lines_eq rfl
    · dsimp only
      split <;> exact setLine_noNewFt s pa rfl

theorem walkLines_noNewFt (s : State) (va : Nat) (ls : List (Nat × Nat)) (table : Nat) : NoNewFt s (s.walkLines va ls table) := by
  induction ls generalizing s table with
  | nil => exact .of_lines_eq rfl
  | cons c rest ih =>
    simp only [State.walkLines]
    split
    · exact (engTime_noNewFt ..).trans (touch_noNewFt ..)
    · exact ((engTime_noNewFt ..).trans (touch_noNewFt ..)).trans (ih _ _)

theorem noteWalk_noNewFt (s : State) (va : Nat) (e : TlbEntry) : NoNewFt s (s.noteWalk va e) := by
  unfold State.noteWalk
  split
  · exact .of_lines_eq rfl
  · exact (walkLines_noNewFt s va walkLevels (s.core.xl []).root).trans (.of_lines_eq rfl)

theorem noteWalks_noNewFt (s : State) (ps : List (Piece × TlbEntry)) : NoNewFt s (s.noteWalks ps) := by
  unfold State.noteWalks
  refine foldl_keeps (NoNewFt s) _ (fun u p h => ?_) ps s (.of_lines_eq rfl)
  split
  · exact h.trans (noteWalk_noNewFt ..)
  · exact h

/-! ## What a write leaves alone -/

/-- What the performance of a store leaves alone. -/
structure StoreKeeps (s t : State) : Prop where
  q : t.t.q = s.t.q
  regs : t.t.regs = s.t.regs
  sys : t.t.sys = s.t.sys
  mat : t.t.mat = s.t.mat
  flags : t.t.flags = s.t.flags
  ft : NoNewFt s t

theorem StoreKeeps.rfl' (s : State) : StoreKeeps s s := ⟨rfl, rfl, rfl, rfl, rfl, .of_lines_eq rfl⟩

theorem StoreKeeps.trans {s t u : State} (h : StoreKeeps s t) (k : StoreKeeps t u) : StoreKeeps s u :=
  ⟨k.q.trans h.q, k.regs.trans h.regs, k.sys.trans h.sys, k.mat.trans h.mat, k.flags.trans h.flags, h.ft.trans k.ft⟩

theorem Aside.storeKeeps {s t : State} (h : Aside s t) (hft : NoNewFt s t) : StoreKeeps s t :=
  ⟨by rw [h.task], by rw [h.task], by rw [h.task], by rw [h.task], by rw [h.task], hft⟩

theorem updCore_scrWrite_storeKeeps (s : State) (id off : Nat) (bs : List Byte) (bad : Bool) (t : Time) :
    StoreKeeps s (s.updCore id fun c => c.scrWrite off bs bad t) := by
  unfold State.updCore
  split <;> exact ⟨rfl, rfl, rfl, rfl, rfl, .of_lines_eq rfl⟩

theorem coreWrite_storeKeeps (s : State) (p : Place) (bs : List Byte) (lt : Time) : StoreKeeps s (s.coreWrite p bs lt).1 := by
  unfold State.coreWrite
  cases p with
  | own off => exact ⟨rfl, rfl, rfl, rfl, rfl, .of_lines_eq rfl⟩
  | gang m off =>
    dsimp only
    split
    · exact updCore_scrWrite_storeKeeps ..
    · exact .rfl' s
  | glob pa ms ft =>
    have ht (ms : Bool) := (engTime_aside s s.core.lt pa ms true).storeKeeps (engTime_noNewFt ..)
    dsimp only
    split
    · exact ⟨rfl, rfl, rfl, rfl, rfl, .of_lines_eq rfl⟩
    · split
      · exact (ht true).trans ⟨rfl, rfl, rfl, rfl, rfl, .of_lines_eq rfl⟩
      · split
        · exact .rfl' s
        · have htouch := touch_noNewFt ((s.engTime s.core.lt pa false true).1.wr pa bs) pa bs.length true
          exact (ht false).trans ⟨rfl, rfl, rfl, rfl, rfl, ⟨htouch.plain⟩⟩

theorem tagWrite_storeKeeps (s : State) (p : Piece) : StoreKeeps s (s.tagWrite p) := by
  unfold State.tagWrite State.tagAs
  split
  · split
    · exact .rfl' s
    · split <;> exact ⟨rfl, rfl, rfl, rfl, rfl, .of_lines_eq rfl⟩
  · exact .rfl' s

/-! ## One piece -/

/-- The home of a place takes the write: no line with a format meets an access without one (R228). -/
def State.admits (s : State) : Place → Prop
  | .glob pa ms ft => isPeer pa = false → ms = false → (s.line pa).ft ≠ none → ft ≠ none
  | _ => True

theorem State.admits_of_writeFails {s : State} {p : Place} (h : s.writeFails p = none) : s.admits p := by
  cases p with
  | own | gang => trivial
  | glob pa ms ft =>
    simp only [State.writeFails] at h
    split at h
    · cases h
    · simpa [State.admits, Option.isSome_iff_ne_none] using h

theorem NoNewFt.admits {s t : State} (h : NoNewFt s t) {p : Place} (hp : s.admits p) : t.admits p := by
  cases p with
  | own | gang => trivial
  | glob pa ms ft =>
    refine fun hpeer hms hline => hp hpeer hms fun hs => hline ?_
    rw [State.line_ft] at hs ⊢
    exact h.plain _ hs

/-- A piece takes its bytes. -/
def State.putPiece (s : State) (p : Piece) (bs : List Byte) (lt : Time) : State := ((s.coreWrite p.at_ bs lt).1).tagWrite p

/-- Memory once a piece has taken its bytes. -/
def pieceMem (m : List Host.Cell) (p : Piece) (bs : List Byte) : List Host.Cell :=
  match p.at_ with
  | .glob pa _ _ => memWrite m pa bs
  | _ => m

theorem putPiece_storeKeeps (s : State) (p : Piece) (bs : List Byte) (lt : Time) : StoreKeeps s (s.putPiece p bs lt) :=
  (coreWrite_storeKeeps ..).trans (tagWrite_storeKeeps ..)

theorem putPiece_mem {s : State} {p : Piece} (h : s.admits p.at_) (bs : List Byte) (lt : Time) :
    (s.putPiece p bs lt).mem = pieceMem s.mem p bs := by
  rw [State.putPiece, State.tagWrite_mem, pieceMem]
  generalize p.at_ = at_ at h
  cases at_ with
  | own off => rfl
  | gang m off =>
    simp only [State.coreWrite]
    split <;> simp
  | glob pa ms ft =>
    simp only [State.coreWrite]
    split
    · rfl
    next hpeer =>
      split
      · simp [State.wr]
      next hms =>
        split
        next hrefused =>
          rw [Bool.and_eq_true, Option.isSome_iff_ne_none, Option.isNone_iff_eq_none] at hrefused
          exact absurd hrefused.2 (h (by simpa using hpeer) (by simpa using hms) hrefused.1)
        next => simp [State.wr]

/-! ## Cores and members (R205, R259) -/

/-- The core that a number names, by what another core's update keeps. -/
theorem findFirst_map {α : Type} {p : α → Bool} {f : α → α} (hf : ∀ x, p (f x) = p x) (l : List α) :
    findFirst? p (l.map f) = (findFirst? p l).map f := by
  induction l with
  | nil => rfl
  | cons x l ih =>
    simp only [List.map_cons, findFirst?, hf, ih]
    split <;> rfl

theorem findFirst_of_some {α : Type} {p : α → Bool} {l : List α} {x : α} (h : findFirst? p l = some x) : p x = true := by
  induction l with
  | nil => cases h
  | cons y l ih =>
    simp only [findFirst?] at h
    split at h
    next hy => cases h; exact hy
    next => exact ih h

/-- An update of a core is what is read back at its number. -/
theorem State.coreById_updCore {s : State} {id : Nat} {c : Core} {f : Core → Core} (hf : ∀ c, (f c).id = c.id)
    (h : s.coreById id = some c) : (s.updCore id f).coreById id = some (f c) := by
  unfold State.coreById at h
  split at h
  next hid =>
    cases h
    simp only [State.updCore, hid, if_true, State.coreById, hf]
  next hid =>
    have hkeep (d : Core) : ((if d.id = id then f d else d).id == id) = (d.id == id) := by
      split
      · rw [hf]
      · rfl
    have hc : (c.id == id) = true := findFirst_of_some (p := fun c : Core => c.id == id) h
    simp only [State.updCore, hid, if_false, State.coreById]
    rw [findFirst_map hkeep, h, Option.map_some, if_pos (beq_iff_eq.mp hc)]

/-- A member of the gang has a core. -/
theorem State.coreById_of_memberId {s : State} {m id : Nat} (h : s.memberId m = some id) : ∃ c, s.coreById id = some c := by
  unfold State.memberId at h
  repeat' split at h
  all_goals cases h
  exact ⟨_, ‹_›⟩

/-- A member's core is found by the running task and the tasks of the other cores. -/
theorem State.memberId_congr {s u : State} (ht : u.t.task = s.t.task) (hid : u.core.id = s.core.id) (ho : u.others = s.others) (m : Nat) :
    u.memberId m = s.memberId m := by
  have htask (id : Nat) : (u.coreById id).map (·.t.task) = (s.coreById id).map (·.t.task) := by
    unfold State.coreById
    rw [hid, ho]
    split
    · exact congrArg some ht
    · rfl
  have ht : u.core.t.task = s.core.t.task := ht
  unfold State.memberId
  rw [ht]
  split
  next t _ =>
    split
    · split
      next id _ =>
        have hsame := htask id
        revert hsame
        cases u.coreById id with
        | none =>
          cases s.coreById id with
          | none => exact fun _ => rfl
          | some d => exact nofun
        | some c =>
          cases s.coreById id with
          | none => exact nofun
          | some d =>
            intro hsame
            have hcd : c.t.task = d.t.task := Option.some.inj hsame
            simp only [hcd]
      next => rfl
    · rfl
  next => rfl

/-- A piece in the core's own scratchpad holds its bytes. -/
theorem putPiece_own (s : State) (off n : Nat) (bs : List Byte) (lt : Time) :
    (s.putPiece { at_ := .own off, len := n } bs lt).core.scrRead off bs.length = bs := memRead_memWrite s.core.t.scratch off bs

/-- A piece in a gang member's scratchpad holds its bytes. -/
theorem putPiece_gang {s : State} {m id : Nat} (hid : s.memberId m = some id) (off n : Nat) (bs : List Byte) (lt : Time) :
    ∃ c, (s.putPiece { at_ := .gang m off, len := n } bs lt).coreById id = some c ∧ c.scrRead off bs.length = bs := by
  have hput : s.putPiece { at_ := .gang m off, len := n } bs lt = s.updCore id fun c => c.scrWrite off bs false lt := by
    simp only [State.putPiece, State.coreWrite, State.tagWrite, hid]
  obtain ⟨c, hc⟩ := State.coreById_of_memberId hid
  rw [hput, State.coreById_updCore (f := fun c => c.scrWrite off bs false lt) (fun _ => rfl) hc]
  exact ⟨_, rfl, memRead_memWrite c.t.scratch off bs⟩

/-! ## The pieces of an access in order -/

/-- The pieces behind one take the bytes behind its own. -/
def storeStep (lt : Time) (x : State × List Byte) (p : Piece) : State × List Byte :=
  (x.1.putPiece p (x.2.take p.len) lt, x.2.drop p.len)

def memStep (x : List Host.Cell × List Byte) (p : Piece) : List Host.Cell × List Byte :=
  (pieceMem x.1 p (x.2.take p.len), x.2.drop p.len)

theorem foldl_storeStep (lt : Time) (ps : List Piece) (s : State) (bs : List Byte) (h : ∀ p ∈ ps, s.admits p.at_) :
    StoreKeeps s (ps.foldl (storeStep lt) (s, bs)).1 ∧
      (ps.foldl (storeStep lt) (s, bs)).1.mem = (ps.foldl memStep (s.mem, bs)).1 := by
  induction ps generalizing s bs with
  | nil => exact ⟨.rfl' s, rfl⟩
  | cons p ps ih =>
    obtain ⟨hp, hps⟩ := List.forall_mem_cons.mp h
    have hkeep := putPiece_storeKeeps s p (bs.take p.len) lt
    obtain ⟨hk, hm⟩ := ih (s.putPiece p (bs.take p.len) lt) (bs.drop p.len) fun q hq => hkeep.ft.admits (hps q hq)
    rw [putPiece_mem hp] at hm
    exact ⟨hkeep.trans hk, hm⟩

/-- A piece that is all of an access takes all of its bytes. -/
theorem foldl_storeStep_single (lt : Time) (s : State) (at_ : Place) (bs : List Byte) :
    ([{ at_, len := bs.length : Piece }].foldl (storeStep lt) (s, bs)).1 = s.putPiece { at_, len := bs.length } bs lt :=
  congrArg (s.putPiece _ · lt) List.take_length

theorem foldl_memStep_single (m : List Host.Cell) (at_ : Place) (bs : List Byte) :
    ([{ at_, len := bs.length : Piece }].foldl memStep (m, bs)).1 = pieceMem m { at_, len := bs.length } bs :=
  congrArg (pieceMem m _) List.take_length

/-- A byte outside a piece's range is none of what the piece writes. -/
theorem memGet_pieceMem (m : List Host.Cell) {p : Piece} {bs : List Byte} (hbs : bs.length ≤ p.len) {a : Nat}
    (h : ∀ pa ms ft, p.at_ = .glob pa ms ft → a < pa ∨ pa + p.len ≤ a) : memGet (pieceMem m p bs) a = memGet m a := by
  unfold pieceMem
  split
  next pa ms ft hp => exact memGet_memWrite_outside m (by have := h pa ms ft hp; omega)
  next => rfl

theorem memGet_foldl_memStep {a : Nat} (ps : List Piece) (m : List Host.Cell) (bs : List Byte)
    (h : ∀ p ∈ ps, ∀ pa ms ft, p.at_ = .glob pa ms ft → a < pa ∨ pa + p.len ≤ a) :
    memGet (ps.foldl memStep (m, bs)).1 a = memGet m a := by
  induction ps generalizing m bs with
  | nil => rfl
  | cons p ps ih =>
    obtain ⟨hp, hps⟩ := List.forall_mem_cons.mp h
    exact (ih (pieceMem m p (bs.take p.len)) (bs.drop p.len) hps).trans (memGet_pieceMem m (List.length_take_le ..) hp)

/-! ## The store at its turn -/

/-- The state with links that have taken more flits: what leaves for other modules touches nothing else (R385). -/
def State.withLinks (s : State) (ls : Sp Link) : State := s.modSup fun u => { u with links := ls }

/-- The state in which an operation has left the core path and its flits the module. -/
def State.departed (s : State) (ls : Sp Link) : State := s.popCq.withLinks ls

theorem State.memberId_departed (s : State) (ls : Sp Link) (m : Nat) : (s.departed ls).memberId m = s.memberId m :=
  State.memberId_congr (s := s) (u := s.departed ls) rfl rfl rfl m

/-- Translation and its checks read neither the core path nor the links. -/
theorem State.leaves_departed (s : State) (ls : Sp Link) (x : Xl) (cs : List (Nat × Nat)) :
    (s.departed ls).leaves x cs = s.leaves x cs := by
  induction cs with
  | nil => rfl
  | cons c cs ih =>
    have hleaf : (s.departed ls).leafOf x c.1 = s.leafOf x c.1 := rfl
    simp only [State.leaves, hleaf, ih]

theorem State.windowCause_departed (s : State) (ls : Sp Link) (va : W64) (n : Nat) :
    (s.departed ls).windowCause va n = s.windowCause va n := by
  have hparked (m : Nat) : (s.departed ls).memberParked m = s.memberParked m := by
    simp only [State.memberParked, s.memberId_departed]
    rfl
  have hmember (m : Nat) : (s.departed ls).hasMember m = s.hasMember m := by
    simp only [State.hasMember, s.memberId_departed, hparked]
  simp only [State.windowCause, hmember]
  rfl

theorem State.access_departed (s : State) (ls : Sp Link) (x : Xl) (k : AccKind) (va : W64) (n : Nat) :
    (s.departed ls).access x k va n = s.access x k va n := by
  simp only [State.access, State.piecesOf, s.windowCause_departed, s.leaves_departed]

theorem State.seamSend_eq (s : State) (pa : Nat) : ∃ ls, s.seamSend pa = s.withLinks ls := by
  unfold State.seamSend State.modLink
  split
  · split
    · exact ⟨s.sup.links, rfl⟩
    · exact ⟨_, rfl⟩
  · exact ⟨s.sup.links, rfl⟩

theorem State.sendFar_eq (s : State) (ps : List Piece) : ∃ ls, s.sendFar ps = s.withLinks ls := by
  refine foldl_keeps (fun u => ∃ ls, u = s.withLinks ls) (fun (u : State) k => u.seamSend (256 * k)) (fun u k hu => ?_) _ s
    ⟨s.sup.links, rfl⟩
  obtain ⟨ls, rfl⟩ := hu
  obtain ⟨ls', h⟩ := (s.withLinks ls).seamSend_eq (256 * k)
  exact ⟨ls', h⟩

/-- Without order logs every point lets an operation through (R355). -/
theorem State.logUnits_of_not_logged {s : State} {w : Issuer} (h : w.log = false ∧ w.rpl = false) (kind : Nat) (us : List Nat) :
    s.logUnits w kind us = (s, true) := by
  induction us with
  | nil => rfl
  | cons u us ih =>
    have hpoint : s.logPoint w u kind 0 = (s, true) := by rw [State.logPoint, if_pos h]
    rw [State.logUnits, hpoint]
    exact ih

theorem State.issuer_not_logged {s : State} (hl : s.t.sys.log = false) (hr : s.t.sys.rpl = false) :
    s.issuer.log = false ∧ s.issuer.rpl = false := by
  unfold State.issuer
  split
  · exact ⟨hl, hr⟩
  · exact ⟨rfl, rfl⟩

theorem readPieces_of_access {s : State} {k : AccKind} {va : W64} {n : Nat} {ps : List (Piece × TlbEntry)}
    (h : s.access s.xl k va n = .ok ps) : s.readPieces k va n = ps := by
  rw [State.readPieces, State.checkRead, h]

section
variable {s : State} {k : AccKind} {x : StElem} {ps : List (Piece × TlbEntry)} (ha : s.access s.xl k x.addr x.bytes.length = .ok ps)
  (hb : (bare ps).any s.breach = false) (hf : ∀ p ∈ bare ps, s.writeFails p.at_ = none)
include ha hb hf

theorem storePieces_single : s.storePieces k [x] = bare ps := by
  have hok : ((bare ps).any fun p => s.breach p || (s.writeFails p.at_).isSome) = false := by
    rw [List.any_eq_false] at hb ⊢
    intro p hp
    rw [hf p hp, Option.isSome_none, Bool.or_false]
    exact hb p hp
  simp only [State.storePieces, List.flatMap_singleton, readPieces_of_access ha, hok, Bool.false_eq_true, if_false]

/-- The checks passed, the pieces take the element's bytes. -/
theorem storeElem_passed (e : CqEntry) :
    s.storeElem e k x = ((bare ps).foldl (storeStep e.lt) (s.noteWalks ps, x.bytes)).1 := by
  simp only [State.storeElem, ha, hb, Bool.false_eq_true, if_false, firstOf_eq_none_iff.mpr hf]
  rfl

/-- A store that nothing makes wait is performed once it has left the path. -/
theorem performStore_single {e : CqEntry} (hw : ∀ p ∈ bare ps, s.pieceWaits p = false ∧ s.pieceBusy p = false)
    (hq : s.quiesced (bare ps) = false) (hl : s.t.sys.log = false) (hr : s.t.sys.rpl = false) :
    ∃ ls, s.performStore e k [x] = ((bare ps).foldl (storeStep e.lt) ((s.departed ls).noteWalks ps, x.bytes)).1 := by
  have hps := storePieces_single ha hb hf
  have hany : (bare ps).any s.pieceWaits = false := by
    rw [List.any_eq_false]
    exact fun p hp => by rw [(hw p hp).1]; exact Bool.false_ne_true
  have hwait : s.storeWaits e k [x] = false := by
    have hfree : ((bare ps).any fun p => s.pieceWaits p || s.pieceBusy p) = false := by
      rw [List.any_eq_false]
      intro p hp
      rw [(hw p hp).1, (hw p hp).2]
      exact Bool.false_ne_true
    simp only [State.storeWaits, hps, hq, Bool.and_false, Bool.false_or, hfree]
  obtain ⟨ls, hsend⟩ := s.popCq.sendFar_eq (bare ps)
  refine ⟨ls, ?_⟩
  have hperform : s.performStore e k [x] = (s.popCq.sendFar (bare ps)).storeElem e k x := by
    simp only [State.performStore, hwait, hps, State.atPieces, hany, State.atUnits,
      State.logUnits_of_not_logged (State.issuer_not_logged hl hr), Bool.false_eq_true, if_false, List.foldl_cons, List.foldl_nil]
  rw [hperform, hsend]
  exact storeElem_passed (s := s.departed ls) (s.access_departed .. ▸ ha) hb hf e

end

end Sys2Proof.Machine
end

section
open Sys2Proof Sys2Proof.Machine

/-- Settles O27: the pieces take the bytes in order (`foldl_storeStep`), from the state in which the store has left the path. -/
theorem storePerforms : Obligations.StorePerforms := by
  unfold Obligations.StorePerforms
  intro s e rest x scalar ps hcq hop n k ha hb hw hq hf hl hr
  obtain ⟨ls, hperform⟩ := performStore_single (e := e) ha hb hf hw hq hl hr
  have hexec : exec .postedOperationPerform s = .next (s.performStore e k [x]) := by
    have hk : (if scalar then scalarAcc .wr x.bytes.length else vectorAcc .wr) = k := by cases scalar <;> rfl
    rw [← hk]
    change execPostedOperationPerform s = _
    simp only [execPostedOperationPerform, hcq, State.performPosted, hop]
  have hadm : ∀ p ∈ bare ps, ((s.departed ls).noteWalks ps).admits p.at_ := fun p hp =>
    (noteWalks_noNewFt (s.departed ls) ps).admits (State.admits_of_writeFails (hf p hp))
  obtain ⟨hkeep, hmem⟩ := foldl_storeStep e.lt (bare ps) _ x.bytes hadm
  have hside := noteWalks_aside (s.departed ls) ps
  have hkeep := (hside.storeKeeps (noteWalks_noNewFt ..)).trans hkeep
  rw [State.noteWalks_mem, ← hperform] at hmem
  rw [← hperform] at hkeep
  refine ⟨_, hexec, ?_, hkeep.regs, hkeep.sys, hkeep.mat, hkeep.flags, hmem, fun a hout => ?_, fun pa ms ft hone => ?_,
    fun off hone => ?_, fun m off id hone hid => ?_⟩
  · rw [hkeep.q]
    exact congrArg List.tail hcq
  · rw [hmem]
    exact memGet_foldl_memStep (bare ps) s.mem x.bytes hout
  · rw [hmem, hone, foldl_memStep_single]
    exact memRead_memWrite s.mem pa x.bytes
  · rw [hperform, hone, foldl_storeStep_single] at hmem ⊢
    exact ⟨putPiece_own _ off n x.bytes e.lt, hmem.trans (by rw [foldl_memStep_single]; rfl)⟩
  · have hid' : ((s.departed ls).noteWalks ps).memberId m = some id := by
      rw [State.memberId_congr (congrArg _ hside.task) hside.id hside.others, s.memberId_departed, hid]
    rw [hperform, hone, foldl_storeStep_single] at hmem ⊢
    exact ⟨hmem.trans (by rw [foldl_memStep_single]; rfl), putPiece_gang hid' off n x.bytes e.lt⟩

end
